-- ==== Sys2Proof/Word.lean ====
section
/-! DEFINITION. The words of the T9: the widths the spec gives its registers, lanes and tile rows (R5, R20, R50, R137). -/

namespace Sys2Proof

/-- A 64-bit scalar register, system register or address (R137). -/
abbrev Word := BitVec 64
/-- One byte of a location (R108). -/
abbrev Byte := BitVec 8
/-- A row of a tile register: 128 bytes (R20). -/
abbrev Row := BitVec 1024
/-- A scalar register number x0-x31 (R59). -/
abbrev XReg := BitVec 5
/-- A predicate number p0-p7 (Table 2.7). -/
abbrev PReg := BitVec 3

end Sys2Proof
end

