-- ==== Sys2Proof/Config.lean ====
section
/-! DEFINITION. What the spec leaves to the part: constants without a body, so that no proof can rest on a value of one
(log 2, 9, 13). -/

namespace Sys2Proof

/-- The n-th free value: State.picks counts the values taken, so that each is fresh (log 2). -/
opaque Config.oracle : Nat → Nat
/-- A value the spec leaves open after an event, by the moment and what it concerns (log 9). -/
opaque Config.stall : Nat → Nat → Nat
/-- Ed25519 verification (FIPS 186-5): public key, message, signature (log 13). -/
opaque Config.ed25519 : List Byte → List Byte → List Byte → Bool
/-- ML-DSA-65 verification (FIPS 204): public key, message, signature (log 13). -/
opaque Config.mldsa : List Byte → List Byte → List Byte → Bool
/-- The module's Ed25519 signature of a message (R510). -/
opaque Config.sign25519 : List Byte → List Byte
/-- The module's ML-DSA-65 signature of a message (R510). -/
opaque Config.signMldsa : List Byte → List Byte
/-- Data the vendor installs: certificate chain, firmware images, keys (R507, R510). -/
opaque Config.vendorData : Nat → List Byte

/-- The n-th free image of a save area: the byte at an offset that no rule describes (R173, log 10). -/
opaque Config.image : Nat → Nat → Byte
/-- What the doubleword at an offset 0x100-0xFFF of the control area holds (R173, whose order no rule gives; log 10): 1-31 x1-x31, 32 their
poison bits, 33 p1-p7, 34-37 lc0-lc3, 38 the path position, 39 LIVEBK, 40 LIVETL, 48-63 BKFMT.n, 64-79 BKBND.n, 80-143 the full/empty bit and tag of
t0-t63, 144-151 the token FIFOs' counts, 152-154 the marks of shadow accumulators, shadow-full and pending-empty tiles; any other value, state without a
doubleword of its own. -/
opaque Config.ctlField : Nat → Nat
/-- What the 32 bytes of an operand-log entry hold (R171, R173, whose layout no rule gives; log 10): 0 the instruction word, or a marker's MASK; 1 the
command index; 2 + 2i and 3 + 2i a captured scalar and its poison. -/
opaque Config.entryField : List Byte → Nat → Nat
/-- A field of a configuration image (R509, whose layout no rule gives; log 21): 0 the group (its parity), 1 the version, 2 DEBUGEN, 3 the
partition mode, 4 and 5 whether its two signatures verify. -/
opaque Config.rowField : List Byte → Nat → Nat
/-- The set-signing key pairs of an owner image (log 21). -/
opaque Config.rowKeys : List Byte → List (List Byte × List Byte)
/-- The cores that the disabled-unit map of a vendor image names: core i of site s of quadrant q of die d as ((4d + q) x 9 + s) x 4 + i (log 21). -/
opaque Config.rowDisabled : List Byte → List Nat
/-- The cluster sites that the repair map of a vendor image disables: site s of quadrant q of die d as (4d + q) x 9 + s (log 21). -/
opaque Config.rowRepair : List Byte → List Nat
/-- The rows that the repair map of a vendor image remaps: words by number, and the spare of their slice that serves each (log 21). -/
opaque Config.rowRemap : List Byte → List (Nat × Nat)
/-- The bytes of the lifetime records, of a snapshot's record, of operand-log entries and of the save area's other undescribed parts, from the numbers
they hold: no rule gives their layouts (R173, R512, R513, log 10, 21). -/
opaque Config.layout : List Nat → Nat → Byte

/-- The bytes of a paged-out KV block, from its tokens' numbers, keys and values, and the key and value of a token read back from such bytes
(R501, which gives no layout; log 24). -/
opaque Config.kvImage : List (Nat × Nat × Nat) → Nat → Byte
/-- See `Config.kvImage`. -/
opaque Config.kvToken : List Byte → Nat → Nat × Nat

/-- An owner image whose set-signing keys a scrub has cleared (R515, log 21). -/
opaque Config.rowCleared : List Byte → List Byte
/-- The bytes of an SPDM message, from a number for its kind and its contents (log 20). -/
opaque Config.spdm : Nat → List (List Byte) → List Byte

/-- The off-package links (die x 2 + link - 4, one bit each) that the n-th route table names for a package (R437, whose layout
no rule gives; log 18). -/
opaque Config.route : Nat → Nat → Nat

end Sys2Proof
end

