-- ==== Sys2Proof/Machine/Maps.lean ====
section
/-! DEFINITION. Sparse tables as plain data: a list of keys and values, keys rising, no entry equal to what an unlisted
key reads as; byte memories (Host.Cell) and sets of granules in the same form. -/

namespace Sys2Proof.Machine

/-- A sparse table from numbers. -/
abbrev AMap (α : Type) := List (Nat × α)

/-- The listed value of a key. -/
def amFind {α : Type} (k : Nat) : AMap α → Option α
  | [] => none
  | (j, v) :: m => if j = k then some v else amFind k m

/-- The value of a key, `d` where none is listed. -/
def amGet {α : Type} (d : α) (m : AMap α) (k : Nat) : α := (amFind k m).getD d

/-- The table without a key. -/
def amDel {α : Type} (k : Nat) : AMap α → AMap α
  | [] => []
  | (j, v) :: m => if j = k then amDel k m else (j, v) :: amDel k m

/-- An entry put before the first greater key. -/
def amIns {α : Type} (k : Nat) (v : α) : AMap α → AMap α
  | [] => [(k, v)]
  | (j, u) :: m => if k < j then (k, v) :: (j, u) :: m else (j, u) :: amIns k v m

/-- The table with a key's value replaced or added. -/
def amSet {α : Type} (m : AMap α) (k : Nat) (v : α) : AMap α := amIns k v (amDel k m)

/-- The same, where a value equal to the default `d` is not listed. -/
def amPut {α : Type} [DecidableEq α] (d : α) (m : AMap α) (k : Nat) (v : α) : AMap α :=
  if v = d then amDel k m else amSet m k v

/-- Keys strictly rising. -/
def amSorted {α : Type} : AMap α → Bool
  | [] => true
  | (j, _) :: m => m.all (fun e => decide (j < e.1)) && amSorted m

/-- A set of numbers, as a rising list. -/
abbrev NSet := List Nat

/-- The set with a number added. -/
def nsAdd (k : Nat) : NSet → NSet
  | [] => [k]
  | j :: s => if k < j then k :: j :: s else if k = j then j :: s else j :: nsAdd k s

/-- The set without a number. -/
def nsDel (k : Nat) (s : NSet) : NSet := s.filter (fun j => j != k)

/-- The numbers from `lo` to `lo + n - 1`. -/
def nsRange (lo n : Nat) : NSet := (List.range n).map (· + lo)

/-- The set with a range replaced by `new`, whose members lie in the range. -/
def nsPatch (s : NSet) (lo n : Nat) (new : NSet) : NSet :=
  s.filter (fun j => decide (j < lo)) ++ new ++ s.filter (fun j => decide (lo + n ≤ j))

/-- A byte memory: the cells whose byte is not 0 (an unlisted address reads 0; log 4). -/
abbrev Bytes := List Host.Cell

/-- Canonical form of a byte memory: addresses strictly rising, no listed byte equal to an unlisted one. -/
def bytesWf : Bytes → Bool
  | [] => true
  | (a, b) :: m => (b != 0) && m.all (fun e => decide (a < e.1)) && bytesWf m

/-- One byte of a memory. -/
def peekByte (m : Bytes) (a : Nat) : Byte := amGet 0 m a

/-- The cells of a byte string at `a`: its non-zero bytes. -/
def cellsOf (a : Nat) : List Byte → Bytes
  | [] => []
  | b :: bs => if b = 0 then cellsOf (a + 1) bs else (a, b) :: cellsOf (a + 1) bs

/-- A memory with a byte string written at `a`. -/
def pokeBytes (m : Bytes) (a : Nat) (bs : List Byte) : Bytes :=
  m.filter (fun e => decide (e.1 < a)) ++ cellsOf a bs ++ m.filter (fun e => decide (a + bs.length ≤ e.1))

/-- The cells of a memory inside a window. -/
def windowCells (m : Bytes) (a n : Nat) : Bytes := m.filter (fun e => decide (a ≤ e.1) && decide (e.1 < a + n))

/-- `n` bytes of a memory from `a`. -/
def peekBytes (m : Bytes) (a n : Nat) : List Byte :=
  let c := windowCells m a n
  (List.range n).map (fun i => peekByte c (a + i))

/-- A little-endian number of a byte string (R5). -/
def leNat : List Byte → Nat
  | [] => 0
  | b :: bs => b.toNat + 256 * leNat bs

/-- The `n` little-endian bytes of a number (R5). -/
def leBytes : Nat → Nat → List Byte
  | 0, _ => []
  | n + 1, v => BitVec.ofNat 8 v :: leBytes n (v / 256)

/-- Pieces of at most `g` bytes, none crossing a multiple of `g`, that make up `n` bytes from `a`: (start, length). -/
def piecesOf (g a n : Nat) : List (Nat × Nat) :=
  (List.range ((a % g + n + g - 1) / g)).filterMap (fun k =>
    let lo := if k = 0 then a else (a / g + k) * g
    let hi := min (a + n) ((a / g + k + 1) * g)
    if lo < hi then some (lo, hi - lo) else none)

/-- The granules of `g` bytes that `n` bytes from `a` touch. -/
def granulesOf (g a n : Nat) : NSet := if n = 0 then [] else nsRange (a / g) ((a + n - 1) / g + 1 - a / g)

/-- Sign-extension of the low `n` bits. -/
def sext (n : Nat) (v : Nat) : Int := if 2 * (v % 2 ^ n) < 2 ^ n then (v % 2 ^ n : Nat) else (v % 2 ^ n : Nat) - (2 ^ n : Nat)

/-- The low 64 bits of an integer. -/
def word (i : Int) : Word := BitVec.ofInt 64 i

/-- Serial comparison of counters of `n` bits: `a` is at or after `b` (R329, R337, R449). -/
def atOrAfter (n a b : Nat) : Bool := decide (((a + 2 ^ n - b % 2 ^ n) % 2 ^ n) < 2 ^ (n - 1))

end Sys2Proof.Machine
end

