-- ==== Sys2Proof/Syntax.lean ====
section
/-! DEFINITION. The instructions and events of the T9: one constructor of `Instr` per row of the operation table.
A lane instruction holds its operand fields (02_encoding and each engine's chapter); an event holds what its
environment brings to it (which engine, which partition, which bytes). -/

namespace Sys2Proof

/-- Mode of a tile operand (Table 1.5, R63). -/
inductive TileMode | plain | consume | produce | peek
  deriving DecidableEq, Repr

/-- A tile operand: tile number and mode (R63). -/
structure TileRef where
  n : BitVec 6
  mode : TileMode
  deriving DecidableEq, Repr

/-- The token field of an LD, MX, VX or ST lane (R62). -/
structure Tok where
  wl : Bool
  wr : Bool
  sl : Bool
  sr : Bool
  deriving DecidableEq, Repr

/-- Scopes of Table 2.7, codes 0-5. -/
inductive Scope | co | cl | di | pk | sy | rc
  deriving DecidableEq, Repr

/-- Formats of Table 1.13, codes 0-13; as a TYPE field, `raw` is code 0 (Table 2.7). -/
inductive Fmt | raw | s8 | s16 | s32 | s64 | z8 | z16 | z32 | z64 | bf16 | f32 | mx4 | mx6 | mx8
  deriving DecidableEq, Repr

/-- Rounding modes of Table 3.6, codes 0-3. -/
inductive Rm | rne | rtz | rdn | rup
  deriving DecidableEq, Repr

/-- Conditions of `cmp` and `cmpi` (R147), codes 0-5. -/
inductive Cond | eq | ne | lt | ge | ltu | geu
  deriving DecidableEq, Repr

/-- How `cmp` writes its predicate (R147), codes 0-2. -/
inductive Comb | set | and | or
  deriving DecidableEq, Repr

/-- Size and extension of a scalar access (R149), codes 0-6. -/
inductive MemSz | s8 | s16 | s32 | s64 | z8 | z16 | z32
  deriving DecidableEq, Repr

/-- Operations of `camo` (R150), codes 0-7. -/
inductive AmoOp | swap | add | and | or | xor | smin | smax | cas
  deriving DecidableEq, Repr
/-- What a peer package asks of a location: a load, a store or an atomic. -/
inductive PeerAcc | load | store | amo (op : AmoOp)
  deriving DecidableEq, Repr

/-- Annotation of `camo` (R150), codes 0-3. -/
inductive AmoOrd | none | acq | rel | ar
  deriving DecidableEq, Repr

/-- Kinds of `cfence` (R151), codes 0-3. -/
inductive FenceKind | acq | rel | ar | full
  deriving DecidableEq, Repr

/-- Stages of a hardware loop's lane classes (R155). -/
structure Stages where
  ld : BitVec 2
  st : BitVec 2
  vx : BitVec 2
  mx : BitVec 2
  cp : BitVec 2
  xq : BitVec 2
  deriving DecidableEq, Repr

/-- The fields every LD load shares (Table 7.1). -/
structure LdArgs where
  tok : Tok
  td : TileRef
  xa : XReg
  ty : Fmt
  nrow : BitVec 6
  nel : BitVec 8
  xb : XReg
  tr : BitVec 3
  deriving DecidableEq, Repr

/-- The fields every ST store shares (Table 8.1). -/
structure StArgs where
  tok : Tok
  ts : TileRef
  xa : XReg
  ty : Fmt
  nrow : BitVec 6
  nel : BitVec 8
  xb : XReg
  tr : BitVec 3
  deriving DecidableEq, Repr

/-- Reduction operations of R244, codes 0-3. -/
inductive Red | addF32 | addS32 | maxF32 | minF32
  deriving DecidableEq, Repr

/-- A VX source in the SX position: a tile, or a scalar register (R258, R259). -/
inductive VSrc
  | tile (t : TileRef)
  | scalar (x : XReg)
  deriving DecidableEq, Repr

/-- Conditions of `vcmp` (R263), codes 0-5. -/
inductive VCond | eq | ne | lt | le | gt | ge
  deriving DecidableEq, Repr

/-- Reduction functions of `vredr` and `vredc` (R273), codes 0-3. -/
inductive VRed | add | max | min | amax
  deriving DecidableEq, Repr

/-- Scan functions of `vscan` (R274), codes 0-2. -/
inductive VScan | add | max | min
  deriving DecidableEq, Repr

/-- Outputs of `vrng` (R280), codes 0-2. -/
inductive VRng | bits | unif | open
  deriving DecidableEq, Repr

/-- Drain shapes of `mxdrb` (R308), codes 0-2. -/
inductive Shape | w64 | w256 | w1024
  deriving DecidableEq, Repr

/-- The gate engine of an SY instruction (R349), codes 0-4. -/
inductive GateEng | xq | ld | st | vx | mx
  deriving DecidableEq, Repr

/-- Scope of a hardware barrier slot or semaphore (Table 12.2), codes 1-3. -/
inductive SlotScope | cluster | die | package
  deriving DecidableEq, Repr

/-- Scope of a memory barrier: codes 1-4 of Table 2.7 (Table 12.3). -/
inductive MbScope | cl | di | pk | sy
  deriving DecidableEq, Repr

/-- The optional semaphore of a PM job (R381): package semaphores 128-159. -/
structure PmSem where
  en : Bool
  sem : BitVec 5
  deriving DecidableEq, Repr

/-- An optional status register: absent (NST = 1), or the register that holds the status address (R419, R444, R471). -/
inductive StatReg
  | none
  | at (x : XReg)
  deriving DecidableEq, Repr

/-- Classes a prefix may name: the lane nibbles 1-7 of Table 2.2 (R68). -/
inductive Cls | cc | ld | st | vx | mx | cp | xq
  deriving DecidableEq, Repr

/-- Where an error strikes (R48, R49, Table 1.15): a granule of memory or of an L2 line, of a scratchpad, a tile, an accumulator or their shadows,
a codeword of the Cistern; an entry of a queue, a token FIFO, the oldest store buffer; the journal or template entry of the i-th transfer of a channel; the
matrix engine's run register; a tag of an L2; a token of a block in a chiplet's SRAM. -/
inductive ErrSite
  | mem (pa : BitVec 52)
  | scratchpad (off : BitVec 22)
  | tile (n : BitVec 6) (granule : BitVec 10)
  | acc (k : BitVec 3) (row : BitVec 6)
  | cistern (codeword : BitVec 28)
  | queue (slot : BitVec 4)
  | shadowTile (n : BitVec 6) (granule : BitVec 10)
  | shadowAcc (k : BitVec 3) (row : BitVec 6)
  | fifo (f : BitVec 3)
  | storeBuffer
  | copyJob (ch : BitVec 3) (i : BitVec 5)
  | runRegister
  | l2Tag (pa : BitVec 52)
  | chipletSram (chip : BitVec 2) (block tok : BitVec 32)
  deriving DecidableEq, Repr

/-- Arrays whose corrected errors the lifetime records count (Table 1.15, R513). -/
inductive ErrArray | l2 | scratchpad | tile | cistern | lpddr | chipletSram | l2Tags | acc | queue
  deriving DecidableEq, Repr

/-- What a corrected error is counted for: an array, and its bank or channel or other unit (Table 18.14). -/
structure ArrayUnit where
  array : ErrArray
  unit : BitVec 16
  deriving DecidableEq, Repr

/-- Causes of a die's own reset (R465). -/
inductive DieCause | logic | base | regulator | temperature
  deriving DecidableEq, Repr

/-- The instructions and events of spec/opcode_table.json. Those with operands stand first, chapter by chapter; those
without stand last. An event acts on the core, partition and interrupt choice that the turn brings (State.cur, State.part,
State.irq). -/
inductive Instr
  -- the control core (05_control_core)
  | trapZ (bits : BitVec 24)
  | add (d a b : XReg) (w : Bool)
  | sub (d a b : XReg) (w : Bool)
  | and (d a b : XReg) (w : Bool)
  | or (d a b : XReg) (w : Bool)
  | xor (d a b : XReg) (w : Bool)
  | shl (d a b : XReg) (w : Bool)
  | shr (d a b : XReg) (w : Bool)
  | sra (d a b : XReg) (w : Bool)
  | mul (d a b : XReg) (w : Bool)
  | mulh (d a b : XReg) (w u : Bool)
  | div (d a b : XReg) (w u : Bool)
  | rem (d a b : XReg) (w u : Bool)
  | min (d a b : XReg) (w u : Bool)
  | max (d a b : XReg) (w u : Bool)
  | addi (d a : XReg) (imm : BitVec 14)
  | andi (d a : XReg) (imm : BitVec 14)
  | ori (d a : XReg) (imm : BitVec 14)
  | xori (d a : XReg) (imm : BitVec 14)
  | shli (d a : XReg) (w : Bool) (sh : BitVec 6)
  | shri (d a : XReg) (w : Bool) (sh : BitVec 6)
  | srai (d a : XReg) (w : Bool) (sh : BitVec 6)
  | cmp (pd : PReg) (a b : XReg) (comb : Comb) (w : Bool) (c : Cond)
  | cmpi (pd : PReg) (a : XReg) (c : Cond) (imm : BitVec 11)
  | pcomb (pd pa pb : PReg) (lut : BitVec 4)
  | sel (d a b : XReg) (neg : Bool) (p : PReg)
  | movi (d : XReg) (imm : BitVec 40)
  | movhi (d : XReg) (imm : BitVec 24)
  | lea (d a : XReg) (pcrel : Bool) (sc : BitVec 2) (imm : BitVec 40)
  | cld (d a : XReg) (sz : MemSz) (off : BitVec 11)
  | cst (d a : XReg) (sz : MemSz) (off : BitVec 11)
  | sld (d a : XReg) (sz : MemSz) (off : BitVec 11)
  | sst (d a : XReg) (sz : MemSz) (off : BitVec 11)
  | camo (d a b : XReg) (scope : Scope) (ord : AmoOrd) (sz64 : Bool) (op : AmoOp)
  | cfence (kind : FenceKind) (scope : Scope)
  | b (p : PReg) (neg hint : Bool) (off : BitVec 19)
  | call (p : PReg) (neg hint : Bool) (off : BitVec 19)
  | jr (a : XReg)
  | callr (d a : XReg)
  | loop (lc : BitVec 2) (a : XReg) (s : BitVec 2) (stg : Stages) (len : BitVec 12)
  | loopi (lc : BitVec 2) (s : BitVec 2) (stg : Stages) (len : BitVec 12) (n : BitVec 14)
  | qjoin (mask : BitVec 14)
  | qflush (cp : BitVec 8) (q : BitVec 5)
  | sysr (d : XReg) (num : BitVec 14)
  | sysw (a : XReg) (num : BitVec 14)
  | bkfmtWrite (n : BitVec 4) (a : XReg)
  | bkbndWrite (n : BitVec 4) (a : XReg)
  | paceGapWrite (e : BitVec 3) (a : XReg)
  | exit (status : BitVec 8)
  | token (slot : BitVec 4)
  | brk (code : BitVec 14)
  | mxcfg (n : BitVec 5) (a : XReg) (imm : BitVec 40)
  | mxcfgT (a : XReg) (imm : BitVec 40)
  | mxst (d : XReg) (clr : Bool) (k : BitVec 3)
  | mxstAll (d : XReg) (clr : Bool)
  | pget (d : XReg)
  | pset (a : XReg) (mask : BitVec 7)
  | bitcPop (d a : XReg) (w : Bool)
  | bitcClz (d a : XReg) (w : Bool)
  | bitcCtz (d a : XReg) (w : Bool)
  | ext (d a b : XReg) (s : Bool)
  | ins (d a b : XReg)
  | lcr (d : XReg) (n : BitVec 2)
  | lcw (n : BitVec 2) (a : XReg)
  | pblk (cls : Cls) (p : PReg) (cnt : BitVec 3) (pat : BitVec 8)
  -- faults, context switching, debug (05_control_core)
  | contextRestore (area : Word)
  | debugStep (eng : BitVec 4)
  | debugWindowAccess (write : Bool) (off : BitVec 24) (v : Word)
  | waittmo (slot : BitVec 4)
  | uncorrectableError (site : ErrSite)
  | correctedError (a : ArrayUnit)
  | pageWalk (va : Word) (write : Bool)
  -- the load engine (07_load_engine)
  | ldT (o : LdArgs)
  | ldS (o : LdArgs)
  | ldG (o : LdArgs) (ti : TileRef)
  | ldGs (o : LdArgs) (ti : TileRef)
  | ldB (o : LdArgs) (sp : Bool)
  | ldW (o : LdArgs)
  | ldAcq (o : LdArgs) (sp : Bool) (scope : Scope)
  | pf (tok : Tok) (nl : BitVec 8) (xa : XReg)
  | pfW (tok : Tok) (nw : BitVec 5) (xa : XReg)
  -- the store engine (08_store_engine)
  | stT (o : StArgs)
  | stS (o : StArgs)
  | stSc (o : StArgs) (ti : TileRef)
  | stSs (o : StArgs) (ti : TileRef)
  | stRel (o : StArgs) (sp : Bool) (scope : Scope)
  | stRed (o : StArgs) (red : Red) (semen : Bool) (sem : BitVec 8)
  | pubv (tok : Tok) (win : BitVec 4)
  -- the vector engine (09_vector_engine)
  | vadd (tok : Tok) (td ta : TileRef) (b : VSrc) (rm : Rm) (sat : Bool)
  | vsub (tok : Tok) (td ta : TileRef) (b : VSrc) (rm : Rm) (sat : Bool)
  | vmul (tok : Tok) (td ta : TileRef) (b : VSrc) (rm : Rm) (sat : Bool)
  | vfma (tok : Tok) (td ta : TileRef) (b : VSrc) (tc : TileRef) (rm : Rm)
  | vfms (tok : Tok) (td ta : TileRef) (b : VSrc) (tc : TileRef) (rm : Rm)
  | vmin (tok : Tok) (td ta : TileRef) (b : VSrc)
  | vmax (tok : Tok) (td ta : TileRef) (b : VSrc)
  | vabs (tok : Tok) (td ta : TileRef) (sat : Bool)
  | vneg (tok : Tok) (td ta : TileRef) (sat : Bool)
  | vcmp (tok : Tok) (td ta : TileRef) (b : VSrc) (c : VCond)
  | vsel (tok : Tok) (td tm ta : TileRef) (b : VSrc)
  | vand (tok : Tok) (td ta : TileRef) (b : VSrc)
  | vor (tok : Tok) (td ta : TileRef) (b : VSrc)
  | vxor (tok : Tok) (td ta : TileRef) (b : VSrc)
  | vshl (tok : Tok) (td ta : TileRef) (b : VSrc)
  | vshr (tok : Tok) (td ta : TileRef) (b : VSrc) (ari : Bool)
  | vcvt (tok : Tok) (td ta tb tc : TileRef) (ss ds : Bool) (ty : Fmt) (rm : Rm) (sat : Bool) (part : BitVec 3)
  | vexp2 (tok : Tok) (td ta : TileRef)
  | vlog2 (tok : Tok) (td ta : TileRef)
  | vrcp (tok : Tok) (td ta : TileRef)
  | vrsq (tok : Tok) (td ta : TileRef)
  | vtanh (tok : Tok) (td ta : TileRef)
  | vredr (tok : Tok) (td ta : TileRef) (f : VRed) (sat : Bool)
  | vredc (tok : Tok) (td ta : TileRef) (f : VRed) (sat : Bool)
  | vscan (tok : Tok) (td ta tf : TileRef) (f : VScan) (sat exc row : Bool)
  | vtr (tok : Tok) (td ta : TileRef)
  | vbcr (tok : Tok) (td ta : TileRef) (xb : XReg)
  | vbcc (tok : Tok) (td ta : TileRef) (xb : XReg)
  | vpermB (tok : Tok) (td ta tb tc : TileRef) (nib : Bool)
  | vrng (tok : Tok) (td : TileRef) (xa xb : XReg) (f : VRng)
  | vbnd (tok : Tok) (td ta : TileRef) (bank : BitVec 4)
  | vmov (tok : Tok) (td ta : TileRef)
  | vmovLoad (tok : Tok) (td : TileRef) (xa : XReg)
  | vmovStore (tok : Tok) (ts : TileRef) (xa : XReg)
  | vfill (tok : Tok) (td : TileRef) (ty : Fmt) (xa : XReg) (iota : Bool) (xb : XReg)
  -- the matrix engine (10_matrix_engine)
  | mxgo (tok : Tok)
  | mxdr (tok : Tok) (td : TileRef) (k : BitVec 3) (ty : Fmt) (clr : Bool) (part : BitVec 2)
  | mxdrb (tok : Tok) (k : BitVec 3) (shape : Shape) (xa xb : XReg) (nrow : BitVec 6) (clr : Bool)
  | mxclr (tok : Tok) (mask : BitVec 8)
  | mxld (tok : Tok) (ta : TileRef) (k : BitVec 3) (part : BitVec 2)
  | mxsc (tok : Tok)
  | mxscSp (tok : Tok)
  | mxscW (tok : Tok)
  -- the copy engine (11_copy_engine)
  | cpWait (ch : BitVec 3) (xa : XReg)
  | cpTw (sp : Bool) (ch : BitVec 3) (tn : BitVec 6) (xa : XReg) (cnt : BitVec 6)
  | cpCancel (ch : BitVec 3)
  | copyTransferStart (ch : BitVec 3)
  | syncWordArrival (k : BitVec 8)
  | copyTransferComplete (ch : BitVec 3)
  | swInit (ch : BitVec 3) (xa xb : XReg)
  | swWait (ch : BitVec 3) (xa xg : XReg)
  | swWaitSt (ch : BitVec 3) (xa xg xr : XReg)
  -- SQ instructions (06_scheduler)
  | sqSub (xa : XReg) (st : Bool) (xb : XReg)
  | sqGpr (cnt : BitVec 4) (slot : BitVec 6) (xa : XReg)
  | sqGpw (slot : BitVec 6) (xa : XReg)
  | sqCrd (xa : XReg)
  | sqAcc (k : BitVec 2) (xa : XReg)
  -- the sync unit (12_sync_unit)
  | barAlloc (scope : SlotScope) (xa : XReg)
  | barInit (xa xn : XReg)
  | barInitM (sp : Bool) (scope : MbScope) (xa xn : XReg)
  | barArr (eng : GateEng) (xa : XReg)
  | barWait (eng : GateEng) (xa xg : XReg)
  | barArw (eng : GateEng) (xa : XReg)
  | barFree (xa : XReg)
  | barrierNotification (k : BitVec 8)
  | staggeredRelease (slot : BitVec 4)
  | gateReached (slot : BitVec 4)
  | semInit (sem : BitVec 8) (xa : XReg)
  | semSigImm (eng : GateEng) (sem : BitVec 8) (cnt : BitVec 7)
  | semSigReg (eng : GateEng) (sem : BitVec 8) (xa : XReg)
  | semWaitImm (eng : GateEng) (sem : BitVec 8) (cnt : BitVec 7)
  | semWaitReg (eng : GateEng) (sem : BitVec 8) (xa : XReg)
  | wsRdCore (xa xg : XReg)
  | wsRdBar (xa xg : XReg)
  | wsRdSem (xa xg : XReg)
  -- the Pump (13_cistern)
  | pmProg (s : PmSem) (xa xb : XReg)
  | pmVer (s : PmSem) (xa xb : XReg)
  | pmWear (s : PmSem) (xa : XReg)
  | pmRemap (s : PmSem) (xa : XReg)
  | pmClr (s : PmSem) (xa : XReg)
  | pmClrR (s : PmSem) (xa : XReg)
  | pmOpen (s : PmSem) (xa xb : XReg)
  | pmSeal (s : PmSem) (xa xb : XReg)
  | pmAct (s : PmSem) (xa : XReg)
  | pmStat (s : PmSem) (xa : XReg)
  | pumpJob (d : BitVec 2)
  -- attention (14_attention)
  | aqSend (td tq : TileRef) (xa : XReg) (st : StatReg)
  | aqSendResultArrival (k : BitVec 4)
  | merge (k : BitVec 4)
  | mergeTimeout (k : BitVec 4)
  | aqKvapp (tk tv : TileRef) (xa : XReg) (st : StatReg)
  | aqTins (tp : TileRef) (xa : XReg) (st : StatReg)
  | aqTacc (tl : TileRef) (xa : XReg) (st : StatReg)
  | aqComp (xa : XReg) (st : StatReg)
  | aqAtt (xa xp : XReg) (st : StatReg)
  | aqDet (xa : XReg) (st : StatReg)
  | aqSeqOpen (xa : XReg) (st : StatReg)
  | aqSeqClose (xa : XReg) (st : StatReg)
  | aqSeqGrow (xa : XReg) (st : StatReg)
  | aqSeqTrunc (xa : XReg) (st : StatReg)
  | aqSeqPub (xa : XReg) (st : StatReg)
  | aqSeqEvict (xa : XReg) (st : StatReg)
  | aqSeqTclr (xa : XReg) (st : StatReg)
  -- the fabric (15_fabric)
  | fxBc (td ts : TileRef) (xa : XReg) (st : StatReg)
  | fxAr (red : Red) (td ts : TileRef) (xa : XReg) (st : StatReg)
  | fxRd (red : Red) (td ts : TileRef) (xa : XReg) (st : StatReg)
  | fxAmax (td ts : TileRef) (xa xb : XReg) (st : StatReg)
  | fxWait (xa : XReg)
  | fxStat (lnk : BitVec 8) (xa : XReg)
  | collectiveContribution (k : BitVec 8) (corrupt : Bool)
  | roundTimeout (k : BitVec 8)
  | collectiveDelivery (k : BitVec 4)
  | flitReplay (d : BitVec 2) (lnk : BitVec 3)
  | retrainComplete (d : BitVec 2) (lnk : BitVec 3) (up : Bool)
  | linkModuleLoss (d : BitVec 2) (lnk : BitVec 3) (left : BitVec 4)
  -- the Wellhead (16_wellhead)
  | ckSeal (st : StatReg)
  | ckRp (line : BitVec 6) (xa xb : XReg)
  | ckRead (xa : XReg)
  | dieReset (d : BitVec 2) (cause : DieCause)
  | dieRejoin (d : BitVec 2)
  | chipletReset (c : BitVec 2)
  -- power (17_power)
  | temperatureReading (d q : BitVec 2) (celsius : BitVec 8)
  | throttleDecay (d q : BitVec 2)
  | currentThrottleExpiry (d q : BitVec 2)
  | clusterGating (k : BitVec 7)
  | clusterWake (k : BitVec 7)
  -- the host's launch window (18_host_and_start)
  | evbaseWrite (v : Word)
  | evsizeWrite (v : Word)
  | hostWindowRegisterWrite (module : Bool) (off : BitVec 16) (v : Word)
  | hostMemRead (pa : BitVec 52) (n : BitVec 7)
  | hostMemWrite (pa : BitVec 52) (bytes : List Byte)
  | negotiateAlgorithms (offer : BitVec 32)
  | getCertificate (off len : BitVec 16)
  | challenge (nonce : BitVec 256)
  | getMeasurements (nonce : BitVec 256) (index : BitVec 8)
  | commandCompletion (module : Bool)
  | peerPackageAccess (pa : BitVec 52) (acc : PeerAcc) (sz64 : Bool) (v cmp : Word)
  | reservedOpcode (w : Word)
  | reservedFieldValue (w : Word)
  | reservedCommandCode (module : Bool) (code : BitVec 8)
  | unsupportedSpdmRequest (code : BitVec 8)
  -- lanes and events without operands of their own
  | fetchLine
  | speculationCommit
  | misprediction
  | nop
  | iterationRetirement
  | loopRollback
  | loopReentry
  | exitCompletion
  | faultStop
  | preemption
  | saveSequence
  | debuggerHaltRequest
  | dbgcmpMatch
  | debugGo
  | taskDispatch
  | taskStaging
  | prewaitExpiry
  | fcastUpdate
  | readyListEntry
  | heldReplayStart
  | heldPatch
  | heldSubmission
  | runRetirement
  | sqYield
  | sqYieldAl
  | deferredBlockFree
  | ckOpen
  | ckOpenLv
  | seal
  | sealCompletion
  | sealFailure
  | submit
  | replay
  | patch
  | accw
  | preempt
  | release
  | abort
  | pooladd
  | pooldel
  | setregMxkmax
  | setregActhr
  | setregPrewait
  | setregWtmo
  | setregStagger
  | setregPaceFloor
  | setregGatectl
  | setregFxtmo
  | setregFxdom
  | setregAtgeo
  | setregThrottle
  | setregQosShare
  | setregDomainCollectives
  | ptroot
  | tlbinv
  | pubwin
  | kvreg
  | kvout
  | kvin
  | ckdom
  | route
  | linkup
  | dieresetCmd
  | preset
  | dbgsel
  | partcfg
  | cfgupd
  | scrub
  | health
  | liferd
  | snapset
  | snap
  | snapshotWriteOut
  | lifetimeRecordWrite
  | getVersion
  | getCapabilities
  | getDigests
  | powerOn
  | powerLoss
  deriving DecidableEq, Repr

end Sys2Proof
end

