-- ==== Sys2Proof/Decode.lean ====
section
/-! DEFINITION. Decoding of lanes, prefixes and lines (02_encoding), and the encoder written from the same tables.
Every lane is read as its 64-bit instruction word: lane A in bits 31:0, lane B in bits 63:32 (R169). -/

namespace Sys2Proof

/-- Bits `lo + len - 1 : lo` of an instruction word. -/
def bits (w lo len : Nat) : Nat := w / 2 ^ lo % 2 ^ len

/-- A field value placed at bit `lo`. -/
def put (v lo : Nat) : Nat := v * 2 ^ lo

/-- A reserved field of an instruction word: where it lies, and whether its value breaks R65. -/
structure FieldRule where
  lo : Nat
  len : Nat
  bad : Bool
  deriving DecidableEq, Repr

/-- A field that must be zero. -/
def zero (w lo len : Nat) : FieldRule := ⟨lo, len, decide (bits w lo len ≠ 0)⟩
/-- A field whose values from `m` on are reserved. -/
def below (w lo len m : Nat) : FieldRule := ⟨lo, len, decide (m ≤ bits w lo len)⟩
/-- A field whose value is reserved under a condition on the word. -/
def cond (_w : Nat) (p : Prop) [Decidable p] (lo len : Nat) : FieldRule := ⟨lo, len, decide p⟩

/-- The code of a TileMode in a field. -/
def TileMode.code : TileMode → Nat
  | .plain => 0
  | .consume => 1
  | .produce => 2
  | .peek => 3
/-- The TileMode a field code names; a code beyond the last is refused before this is asked (R65). -/
def TileMode.ofCode (c : Nat) : TileMode :=
  match c with
  | 0 => .plain
  | 1 => .consume
  | 2 => .produce
  | _ => .peek

/-- The code of a Scope in a field. -/
def Scope.code : Scope → Nat
  | .co => 0
  | .cl => 1
  | .di => 2
  | .pk => 3
  | .sy => 4
  | .rc => 5
/-- The Scope a field code names; a code beyond the last is refused before this is asked (R65). -/
def Scope.ofCode (c : Nat) : Scope :=
  match c with
  | 0 => .co
  | 1 => .cl
  | 2 => .di
  | 3 => .pk
  | 4 => .sy
  | _ => .rc

/-- The code of a Fmt in a field. -/
def Fmt.code : Fmt → Nat
  | .raw => 0
  | .s8 => 1
  | .s16 => 2
  | .s32 => 3
  | .s64 => 4
  | .z8 => 5
  | .z16 => 6
  | .z32 => 7
  | .z64 => 8
  | .bf16 => 9
  | .f32 => 10
  | .mx4 => 11
  | .mx6 => 12
  | .mx8 => 13
/-- The Fmt a field code names; a code beyond the last is refused before this is asked (R65). -/
def Fmt.ofCode (c : Nat) : Fmt :=
  match c with
  | 0 => .raw
  | 1 => .s8
  | 2 => .s16
  | 3 => .s32
  | 4 => .s64
  | 5 => .z8
  | 6 => .z16
  | 7 => .z32
  | 8 => .z64
  | 9 => .bf16
  | 10 => .f32
  | 11 => .mx4
  | 12 => .mx6
  | _ => .mx8

/-- The code of a Rm in a field. -/
def Rm.code : Rm → Nat
  | .rne => 0
  | .rtz => 1
  | .rdn => 2
  | .rup => 3
/-- The Rm a field code names; a code beyond the last is refused before this is asked (R65). -/
def Rm.ofCode (c : Nat) : Rm :=
  match c with
  | 0 => .rne
  | 1 => .rtz
  | 2 => .rdn
  | _ => .rup

/-- The code of a Cond in a field. -/
def Cond.code : Cond → Nat
  | .eq => 0
  | .ne => 1
  | .lt => 2
  | .ge => 3
  | .ltu => 4
  | .geu => 5
/-- The Cond a field code names; a code beyond the last is refused before this is asked (R65). -/
def Cond.ofCode (c : Nat) : Cond :=
  match c with
  | 0 => .eq
  | 1 => .ne
  | 2 => .lt
  | 3 => .ge
  | 4 => .ltu
  | _ => .geu

/-- The code of a Comb in a field. -/
def Comb.code : Comb → Nat
  | .set => 0
  | .and => 1
  | .or => 2
/-- The Comb a field code names; a code beyond the last is refused before this is asked (R65). -/
def Comb.ofCode (c : Nat) : Comb :=
  match c with
  | 0 => .set
  | 1 => .and
  | _ => .or

/-- The code of a MemSz in a field. -/
def MemSz.code : MemSz → Nat
  | .s8 => 0
  | .s16 => 1
  | .s32 => 2
  | .s64 => 3
  | .z8 => 4
  | .z16 => 5
  | .z32 => 6
/-- The MemSz a field code names; a code beyond the last is refused before this is asked (R65). -/
def MemSz.ofCode (c : Nat) : MemSz :=
  match c with
  | 0 => .s8
  | 1 => .s16
  | 2 => .s32
  | 3 => .s64
  | 4 => .z8
  | 5 => .z16
  | _ => .z32

/-- The code of a AmoOp in a field. -/
def AmoOp.code : AmoOp → Nat
  | .swap => 0
  | .add => 1
  | .and => 2
  | .or => 3
  | .xor => 4
  | .smin => 5
  | .smax => 6
  | .cas => 7
/-- The AmoOp a field code names; a code beyond the last is refused before this is asked (R65). -/
def AmoOp.ofCode (c : Nat) : AmoOp :=
  match c with
  | 0 => .swap
  | 1 => .add
  | 2 => .and
  | 3 => .or
  | 4 => .xor
  | 5 => .smin
  | 6 => .smax
  | _ => .cas

/-- The code of a AmoOrd in a field. -/
def AmoOrd.code : AmoOrd → Nat
  | .none => 0
  | .acq => 1
  | .rel => 2
  | .ar => 3
/-- The AmoOrd a field code names; a code beyond the last is refused before this is asked (R65). -/
def AmoOrd.ofCode (c : Nat) : AmoOrd :=
  match c with
  | 0 => .none
  | 1 => .acq
  | 2 => .rel
  | _ => .ar

/-- The code of a FenceKind in a field. -/
def FenceKind.code : FenceKind → Nat
  | .acq => 0
  | .rel => 1
  | .ar => 2
  | .full => 3
/-- The FenceKind a field code names; a code beyond the last is refused before this is asked (R65). -/
def FenceKind.ofCode (c : Nat) : FenceKind :=
  match c with
  | 0 => .acq
  | 1 => .rel
  | 2 => .ar
  | _ => .full

/-- The code of a Red in a field. -/
def Red.code : Red → Nat
  | .addF32 => 0
  | .addS32 => 1
  | .maxF32 => 2
  | .minF32 => 3
/-- The Red a field code names; a code beyond the last is refused before this is asked (R65). -/
def Red.ofCode (c : Nat) : Red :=
  match c with
  | 0 => .addF32
  | 1 => .addS32
  | 2 => .maxF32
  | _ => .minF32

/-- The code of a VCond in a field. -/
def VCond.code : VCond → Nat
  | .eq => 0
  | .ne => 1
  | .lt => 2
  | .le => 3
  | .gt => 4
  | .ge => 5
/-- The VCond a field code names; a code beyond the last is refused before this is asked (R65). -/
def VCond.ofCode (c : Nat) : VCond :=
  match c with
  | 0 => .eq
  | 1 => .ne
  | 2 => .lt
  | 3 => .le
  | 4 => .gt
  | _ => .ge

/-- The code of a VRed in a field. -/
def VRed.code : VRed → Nat
  | .add => 0
  | .max => 1
  | .min => 2
  | .amax => 3
/-- The VRed a field code names; a code beyond the last is refused before this is asked (R65). -/
def VRed.ofCode (c : Nat) : VRed :=
  match c with
  | 0 => .add
  | 1 => .max
  | 2 => .min
  | _ => .amax

/-- The code of a VScan in a field. -/
def VScan.code : VScan → Nat
  | .add => 0
  | .max => 1
  | .min => 2
/-- The VScan a field code names; a code beyond the last is refused before this is asked (R65). -/
def VScan.ofCode (c : Nat) : VScan :=
  match c with
  | 0 => .add
  | 1 => .max
  | _ => .min

/-- The code of a VRng in a field. -/
def VRng.code : VRng → Nat
  | .bits => 0
  | .unif => 1
  | .open => 2
/-- The VRng a field code names; a code beyond the last is refused before this is asked (R65). -/
def VRng.ofCode (c : Nat) : VRng :=
  match c with
  | 0 => .bits
  | 1 => .unif
  | _ => .open

/-- The code of a Shape in a field. -/
def Shape.code : Shape → Nat
  | .w64 => 0
  | .w256 => 1
  | .w1024 => 2
/-- The Shape a field code names; a code beyond the last is refused before this is asked (R65). -/
def Shape.ofCode (c : Nat) : Shape :=
  match c with
  | 0 => .w64
  | 1 => .w256
  | _ => .w1024

/-- The code of a GateEng in a field. -/
def GateEng.code : GateEng → Nat
  | .xq => 0
  | .ld => 1
  | .st => 2
  | .vx => 3
  | .mx => 4
/-- The GateEng a field code names; a code beyond the last is refused before this is asked (R65). -/
def GateEng.ofCode (c : Nat) : GateEng :=
  match c with
  | 0 => .xq
  | 1 => .ld
  | 2 => .st
  | 3 => .vx
  | _ => .mx

/-- The code of a SlotScope in a field. -/
def SlotScope.code : SlotScope → Nat
  | .cluster => 1
  | .die => 2
  | .package => 3
/-- The SlotScope a field code names; a code beyond the last is refused before this is asked (R65). -/
def SlotScope.ofCode (c : Nat) : SlotScope :=
  match c with
  | 1 => .cluster
  | 2 => .die
  | _ => .package

/-- The code of a MbScope in a field. -/
def MbScope.code : MbScope → Nat
  | .cl => 1
  | .di => 2
  | .pk => 3
  | .sy => 4
/-- The MbScope a field code names; a code beyond the last is refused before this is asked (R65). -/
def MbScope.ofCode (c : Nat) : MbScope :=
  match c with
  | 1 => .cl
  | 2 => .di
  | 3 => .pk
  | _ => .sy

/-- The code of a Cls in a field. -/
def Cls.code : Cls → Nat
  | .cc => 1
  | .ld => 2
  | .st => 3
  | .vx => 4
  | .mx => 5
  | .cp => 6
  | .xq => 7
/-- The Cls a field code names; a code beyond the last is refused before this is asked (R65). -/
def Cls.ofCode (c : Nat) : Cls :=
  match c with
  | 1 => .cc
  | 2 => .ld
  | 3 => .st
  | 4 => .vx
  | 5 => .mx
  | 6 => .cp
  | _ => .xq

/-- Format codes that refuse SAT in `vcvt`: the integer and block formats (Table 9.4). -/
def fmtNoSat (c : Nat) : Nat := if (1 ≤ c ∧ c ≤ 8) ∨ (11 ≤ c ∧ c ≤ 13) then 1 else 0
/-- 1 for the codes of the block formats. -/
def isBlockCode (c : Nat) : Nat := if 11 ≤ c ∧ c ≤ 13 then 1 else 0
/-- Rows of a drain of SHAPE `c` (R308, Table 10.3's MODE). -/
def shapeRows (c : Nat) : Nat := match c with | 0 => 64 | 1 => 16 | _ => 4

/-- An n-bit field. -/
def fv (n w lo : Nat) : BitVec n := BitVec.ofNat n (bits w lo n)
/-- A scalar register field. -/
def fx (w lo : Nat) : XReg := fv 5 w lo
/-- A one-bit field. -/
def fb (w lo : Nat) : Bool := bits w lo 1 == 1
/-- A tile operand (R63). -/
def ft (w lo : Nat) : TileRef := ⟨fv 6 w lo, TileMode.ofCode (bits w (lo + 6) 2)⟩
/-- The token field (R62). -/
def ftok (w : Nat) : Tok := ⟨fb w 23, fb w 22, fb w 21, fb w 20⟩
/-- IMM40: bits 39:32 in lane A bits 7:0, bits 31:0 in lane B (Table 2.5). -/
def fimm40 (w : Nat) : BitVec 40 := BitVec.ofNat 40 (bits w 32 32 + bits w 0 8 * 2 ^ 32)
/-- STG of a loop instruction (R155), as it lies in the instruction word. -/
def fstages (w : Nat) : Stages := ⟨fv 2 w 60, fv 2 w 62, fv 2 w 0, fv 2 w 2, fv 2 w 4, fv 2 w 6⟩
/-- The shared fields of a load (Table 7.1). -/
def fldargs (w : Nat) : LdArgs :=
  ⟨ftok w, ft w 12, fx w 7, Fmt.ofCode (bits w 3 4), fv 6 w 50, fv 8 w 42, fx w 35, fv 3 w 32⟩
/-- The shared fields of a store (Table 8.1). -/
def fstargs (w : Nat) : StArgs :=
  ⟨ftok w, ft w 12, fx w 7, Fmt.ofCode (bits w 3 4), fv 6 w 50, fv 8 w 42, fx w 35, fv 3 w 32⟩
/-- The shared fields of `st.red`, whose TYPE bits hold RED and SEMEN (Table 8.1). -/
def fstargsRed (w : Nat) : StArgs := { fstargs w with ty := .raw }
/-- The operand in the SX position (R258): a tile at `lo`, or XA. -/
def fvsrc (w lo : Nat) : VSrc := if fb w 3 then .scalar (fx w 7) else .tile (ft w lo)
/-- The semaphore of a PM job (R381). -/
def fpm (w : Nat) : PmSem := ⟨fb w 23, fv 5 w 12⟩
/-- The status operand behind NST (R419). -/
def fstat (w lo : Nat) : StatReg := if fb w 23 then .none else .at (fx w lo)

/-- A token field as bits 23:20. -/
def Tok.enc (t : Tok) : Nat := put t.wl.toNat 23 + put t.wr.toNat 22 + put t.sl.toNat 21 + put t.sr.toNat 20
/-- A tile operand as eight bits (R63). -/
def TileRef.code (t : TileRef) : Nat := t.n.toNat + t.mode.code * 64
/-- IMM40 as it lies in the instruction word. -/
def eimm40 (v : BitVec 40) : Nat := put (v.toNat % 2 ^ 32) 32 + put (v.toNat / 2 ^ 32) 0
/-- STG as it lies in the instruction word. -/
def Stages.enc (s : Stages) : Nat :=
  put s.ld.toNat 60 + put s.st.toNat 62 + put s.vx.toNat 0 + put s.mx.toNat 2 + put s.cp.toNat 4 + put s.xq.toNat 6
/-- The shared fields of a load. -/
def LdArgs.enc (o : LdArgs) : Nat :=
  o.tok.enc + put o.td.code 12 + put o.xa.toNat 7 + put o.ty.code 3 + put o.nrow.toNat 50 + put o.nel.toNat 42 +
    put o.xb.toNat 35 + put o.tr.toNat 32
/-- The shared fields of `st.red`. -/
def StArgs.encRed (o : StArgs) : Nat :=
  o.tok.enc + put o.ts.code 12 + put o.xa.toNat 7 + put o.nrow.toNat 50 + put o.nel.toNat 42 +
    put o.xb.toNat 35 + put o.tr.toNat 32
/-- The shared fields of a store. -/
def StArgs.enc (o : StArgs) : Nat := o.encRed + put o.ty.code 3
/-- The operand in the SX position, with SX. -/
def VSrc.enc (s : VSrc) (lo : Nat) : Nat :=
  match s with
  | .tile t => put t.code lo
  | .scalar x => put 1 3 + put x.toNat 7
/-- The semaphore of a PM job: SEMEN and SEM. -/
def PmSem.enc (s : PmSem) : Nat := if s.en then put 1 23 + put (128 + s.sem.toNat) 12 else put s.sem.toNat 12
/-- The status operand, with NST. -/
def StatReg.enc (s : StatReg) (lo : Nat) : Nat :=
  match s with
  | .none => put 1 23
  | .at x => put x.toNat lo

/-- The reserved fields of a lane of class CC (R65), in the order of their lowest bit. -/
def rulesCc (op w : Nat) : List FieldRule :=
  match op with
  | 0x00 => []
  | 0x01 => [zero w 19 5, zero w 14 5, zero w 9 5, zero w 0 9]
  | 0x02 => [zero w 2 7, zero w 1 1]
  | 0x03 => [zero w 2 7, zero w 1 1]
  | 0x04 => [zero w 2 7, zero w 1 1]
  | 0x05 => [zero w 2 7, zero w 1 1]
  | 0x06 => [zero w 2 7, zero w 1 1]
  | 0x07 => [zero w 2 7, zero w 1 1]
  | 0x08 => [zero w 2 7, zero w 1 1]
  | 0x09 => [zero w 2 7, zero w 1 1]
  | 0x0A => [zero w 2 7, zero w 1 1]
  | 0x0B => [zero w 2 7]
  | 0x0C => [zero w 2 7]
  | 0x0D => [zero w 2 7]
  | 0x0E => [zero w 2 7]
  | 0x0F => [zero w 2 7]
  | 0x10 => []
  | 0x11 => []
  | 0x12 => []
  | 0x13 => []
  | 0x14 => [zero w 7 7, cond w (bits w 6 1 = 1 ∧ bits w 5 1 = 1) 5 1]
  | 0x15 => [zero w 7 7, cond w (bits w 6 1 = 1 ∧ bits w 5 1 = 1) 5 1]
  | 0x16 => [zero w 7 7, cond w (bits w 6 1 = 1 ∧ bits w 5 1 = 1) 5 1]
  | 0x17 => [zero w 22 2, zero w 6 3, below w 4 2 3, below w 0 3 6]
  | 0x18 => [zero w 22 2, below w 11 3 6]
  | 0x19 => [zero w 22 2, zero w 17 2, zero w 12 2, zero w 4 5]
  | 0x1A => [zero w 4 5]
  | 0x1B => if bits w 8 1 = 0 then [zero w 14 5, zero w 9 5]
    else if bits w 8 1 = 1 then [zero w 14 5, zero w 9 5, zero w 0 8, zero w 56 8]
    else []
  | 0x1C => [zero w 11 3, cond w (bits w 10 1 = 1 ∧ bits w 14 5 ≠ 0) 14 5]
  | 0x1D => [below w 11 3 7]
  | 0x1E => [below w 11 3 7]
  | 0x1F => [below w 11 3 7]
  | 0x20 => [below w 11 3 7]
  | 0x21 => [below w 6 3 6, cond w (bits w 4 2 = 0 ∧ bits w 6 3 ≠ 0 ∧ bits w 6 3 < 6) 6 3]
  | 0x22 => [zero w 19 5, zero w 14 5, zero w 9 5, zero w 5 4, below w 0 3 6]
  | 0x23 => []
  | 0x24 => []
  | 0x25 => [zero w 19 5, zero w 9 5, zero w 0 9]
  | 0x26 => [zero w 9 5, zero w 0 9]
  | 0x27 => [zero w 21 3, zero w 10 4, zero w 58 2, zero w 32 14, cond w (bits w 46 12 = 0) 46 12, cond w (bits w 8 2 < bits w 60 2) 60 2, cond w (bits w 8 2 < bits w 62 2) 62 2, cond w (bits w 8 2 < bits w 0 2) 0 2, cond w (bits w 8 2 < bits w 2 2) 2 2, cond w (bits w 8 2 < bits w 4 2) 4 2, cond w (bits w 8 2 < bits w 6 2) 6 2]
  | 0x28 => [zero w 21 3, zero w 14 5, zero w 10 4, zero w 58 2, cond w (bits w 46 12 = 0) 46 12, cond w (bits w 8 2 < bits w 60 2) 60 2, cond w (bits w 8 2 < bits w 62 2) 62 2, cond w (bits w 8 2 < bits w 0 2) 0 2, cond w (bits w 8 2 < bits w 2 2) 2 2, cond w (bits w 8 2 < bits w 4 2) 4 2, cond w (bits w 8 2 < bits w 6 2) 6 2]
  | 0x29 => [zero w 19 5, zero w 14 5]
  | 0x2A => [zero w 19 5, zero w 14 5, zero w 5 1]
  | 0x2B => [zero w 14 5]
  | 0x2C => if bits w 4 10 = 16 then [zero w 19 5]
    else if bits w 4 10 = 17 then [zero w 19 5]
    else if bits w 3 11 = 224 ∧ bits w 0 3 < 6 then [zero w 19 5]
    else [zero w 19 5]
  | 0x2D => [zero w 19 5, zero w 14 5, zero w 9 5, zero w 8 1]
  | 0x2E => [zero w 19 5, zero w 14 5]
  | 0x2F => if bits w 13 1 = 0 then [zero w 19 5]
    else if bits w 13 1 = 1 then [zero w 19 5, cond w (bits w 8 6 ≠ 63) 8 6]
    else []
  | 0x30 => if bits w 4 1 = 0 then [zero w 14 5, zero w 9 5, zero w 5 4]
    else if bits w 4 1 = 1 then [zero w 14 5, zero w 9 5, zero w 5 4, zero w 0 3]
    else []
  | 0x31 => [zero w 14 5, zero w 9 5, zero w 0 9]
  | 0x32 => [zero w 19 5, zero w 9 5, zero w 8 1, zero w 0 1]
  | 0x33 => if bits w 0 2 = 0 then [zero w 9 5, zero w 3 6]
    else if bits w 0 2 = 1 then [zero w 9 5, zero w 3 6]
    else if bits w 0 2 = 2 then [zero w 9 5, zero w 3 6]
    else [cond w (True) 0 2]
  | 0x34 => [zero w 1 8]
  | 0x35 => [zero w 0 9]
  | 0x36 => [zero w 16 3, zero w 9 5, zero w 0 9]
  | 0x37 => [zero w 21 3, zero w 9 5, zero w 0 9]
  | _ => []

/-- The reserved fields of a lane of class LD (R65), in the order of their lowest bit. -/
def rulesLd (op w : Nat) : List FieldRule :=
  match op with
  | 0x40 => [zero w 0 3, zero w 56 8, zero w 41 1, zero w 40 1, below w 3 4 14]
  | 0x41 => [zero w 0 3, zero w 56 8, zero w 41 1, zero w 40 1, below w 3 4 14]
  | 0x42 => [zero w 0 3, zero w 41 1, zero w 40 1, below w 3 4 14]
  | 0x43 => [zero w 0 3, zero w 41 1, zero w 40 1, below w 3 4 14]
  | 0x44 => [zero w 0 3, zero w 56 8, zero w 40 1, below w 3 4 14, cond w (bits w 35 5 ≠ 0) 35 5]
  | 0x45 => [zero w 0 3, zero w 56 8, zero w 41 1, zero w 40 1, below w 3 4 14]
  | 0x46 => [zero w 56 8, zero w 40 1, below w 3 4 14, below w 0 3 6]
  | 0x47 => [zero w 0 7]
  | 0x48 => [zero w 17 3, zero w 0 7]
  | _ => []

/-- The reserved fields of a lane of class ST (R65), in the order of their lowest bit. -/
def rulesSt (op w : Nat) : List FieldRule :=
  match op with
  | 0x54 => [zero w 0 3, zero w 56 8, zero w 41 1, zero w 40 1, below w 3 4 14]
  | 0x55 => [zero w 0 3, zero w 56 8, zero w 41 1, zero w 40 1, below w 3 4 14]
  | 0x56 => [zero w 0 3, zero w 41 1, zero w 40 1, below w 3 4 14]
  | 0x57 => [zero w 0 3, zero w 41 1, zero w 40 1, below w 3 4 14]
  | 0x58 => [zero w 56 8, zero w 40 1, below w 3 4 14, below w 0 3 6]
  | 0x59 => [zero w 3 1, zero w 0 3, zero w 41 1, zero w 40 1, cond w (bits w 4 1 = 0 ∧ bits w 56 8 ≠ 0) 56 8, cond w (bits w 4 1 = 1 ∧ 160 ≤ bits w 56 8) 56 8]
  | 0x5A => [zero w 16 4, zero w 0 12]
  | _ => []

/-- The reserved fields of a lane of class VX (R65), in the order of their lowest bit. -/
def rulesVx (op w : Nat) : List FieldRule :=
  match op with
  | 0x68 => [zero w 0 3, zero w 40 8, zero w 35 5, zero w 32 3, cond w (bits w 3 1 = 1 ∧ bits w 48 8 ≠ 0) 48 8, cond w (bits w 3 1 = 0 ∧ bits w 7 5 ≠ 0) 7 5]
  | 0x69 => [zero w 0 3, zero w 40 8, zero w 35 5, zero w 32 3, cond w (bits w 3 1 = 1 ∧ bits w 48 8 ≠ 0) 48 8, cond w (bits w 3 1 = 0 ∧ bits w 7 5 ≠ 0) 7 5]
  | 0x6A => [zero w 0 3, zero w 40 8, zero w 35 5, zero w 32 3, cond w (bits w 3 1 = 1 ∧ bits w 48 8 ≠ 0) 48 8, cond w (bits w 3 1 = 0 ∧ bits w 7 5 ≠ 0) 7 5]
  | 0x6B => [zero w 4 1, zero w 0 3, zero w 35 5, zero w 32 3, cond w (bits w 3 1 = 1 ∧ bits w 48 8 ≠ 0) 48 8, cond w (bits w 3 1 = 0 ∧ bits w 7 5 ≠ 0) 7 5]
  | 0x6C => [zero w 4 1, zero w 0 3, zero w 35 5, zero w 32 3, cond w (bits w 3 1 = 1 ∧ bits w 48 8 ≠ 0) 48 8, cond w (bits w 3 1 = 0 ∧ bits w 7 5 ≠ 0) 7 5]
  | 0x6D => [zero w 4 3, zero w 0 3, zero w 40 8, zero w 35 5, zero w 32 3, cond w (bits w 3 1 = 1 ∧ bits w 48 8 ≠ 0) 48 8, cond w (bits w 3 1 = 0 ∧ bits w 7 5 ≠ 0) 7 5]
  | 0x6E => [zero w 4 3, zero w 0 3, zero w 40 8, zero w 35 5, zero w 32 3, cond w (bits w 3 1 = 1 ∧ bits w 48 8 ≠ 0) 48 8, cond w (bits w 3 1 = 0 ∧ bits w 7 5 ≠ 0) 7 5]
  | 0x6F => [zero w 7 5, zero w 5 2, zero w 0 4, zero w 48 8, zero w 40 8, zero w 35 5, zero w 32 3]
  | 0x70 => [zero w 7 5, zero w 5 2, zero w 0 4, zero w 48 8, zero w 40 8, zero w 35 5, zero w 32 3]
  | 0x71 => [zero w 4 3, zero w 40 8, zero w 35 5, zero w 32 3, cond w (bits w 3 1 = 1 ∧ bits w 48 8 ≠ 0) 48 8, cond w (bits w 3 1 = 0 ∧ bits w 7 5 ≠ 0) 7 5, below w 0 3 6]
  | 0x72 => [zero w 4 3, zero w 0 3, zero w 35 5, zero w 32 3, cond w (bits w 3 1 = 1 ∧ bits w 40 8 ≠ 0) 40 8, cond w (bits w 3 1 = 0 ∧ bits w 7 5 ≠ 0) 7 5]
  | 0x73 => [zero w 4 3, zero w 0 3, zero w 40 8, zero w 35 5, zero w 32 3, cond w (bits w 3 1 = 1 ∧ bits w 48 8 ≠ 0) 48 8, cond w (bits w 3 1 = 0 ∧ bits w 7 5 ≠ 0) 7 5]
  | 0x74 => [zero w 4 3, zero w 0 3, zero w 40 8, zero w 35 5, zero w 32 3, cond w (bits w 3 1 = 1 ∧ bits w 48 8 ≠ 0) 48 8, cond w (bits w 3 1 = 0 ∧ bits w 7 5 ≠ 0) 7 5]
  | 0x75 => [zero w 4 3, zero w 0 3, zero w 40 8, zero w 35 5, zero w 32 3, cond w (bits w 3 1 = 1 ∧ bits w 48 8 ≠ 0) 48 8, cond w (bits w 3 1 = 0 ∧ bits w 7 5 ≠ 0) 7 5]
  | 0x76 => [zero w 4 3, zero w 0 3, zero w 40 8, zero w 35 5, zero w 32 3, cond w (bits w 3 1 = 1 ∧ bits w 48 8 ≠ 0) 48 8, cond w (bits w 3 1 = 0 ∧ bits w 7 5 ≠ 0) 7 5]
  | 0x77 => [zero w 4 3, zero w 1 2, zero w 40 8, zero w 35 5, zero w 32 3, cond w (bits w 3 1 = 1 ∧ bits w 48 8 ≠ 0) 48 8, cond w (bits w 3 1 = 0 ∧ bits w 7 5 ≠ 0) 7 5]
  | 0x78 => [zero w 7 5, zero w 35 3, below w 0 4 14, cond w (bits w 0 4 = 0) 0 4, cond w (bits w 4 1 = 1 ∧ fmtNoSat (bits w 0 4) = 1) 4 1, cond w (bits w 5 2 ≠ 0 ∧ 11 ≤ bits w 0 4 ∧ bits w 0 4 ≤ 13) 5 2, cond w (bits w 38 1 ≠ isBlockCode (bits w 0 4)) 38 1, cond w (bits w 39 1 = 0 ∧ bits w 48 8 ≠ 0) 48 8, cond w (bits w 38 1 = 0 ∧ bits w 40 8 ≠ 0) 40 8]
  | 0x79 => [zero w 7 5, zero w 0 7, zero w 48 8, zero w 40 8, zero w 35 5, zero w 32 3]
  | 0x7A => [zero w 7 5, zero w 0 7, zero w 48 8, zero w 40 8, zero w 35 5, zero w 32 3]
  | 0x7B => [zero w 7 5, zero w 0 7, zero w 48 8, zero w 40 8, zero w 35 5, zero w 32 3]
  | 0x7C => [zero w 7 5, zero w 0 7, zero w 48 8, zero w 40 8, zero w 35 5, zero w 32 3]
  | 0x7D => [zero w 7 5, zero w 0 7, zero w 48 8, zero w 40 8, zero w 35 5, zero w 32 3]
  | 0x7E => [zero w 7 5, zero w 5 2, zero w 3 1, zero w 48 8, zero w 40 8, zero w 35 5, zero w 32 3, below w 0 3 4]
  | 0x7F => [zero w 7 5, zero w 5 2, zero w 3 1, zero w 48 8, zero w 40 8, zero w 35 5, zero w 32 3, below w 0 3 4]
  | 0x80 => [zero w 7 5, zero w 5 2, zero w 3 1, zero w 40 8, zero w 35 5, zero w 34 1, below w 0 3 3]
  | 0x81 => [zero w 7 5, zero w 0 7, zero w 48 8, zero w 40 8, zero w 35 5, zero w 32 3]
  | 0x82 => [zero w 7 5, zero w 0 7, zero w 48 8, zero w 40 8, zero w 32 3]
  | 0x83 => [zero w 7 5, zero w 0 7, zero w 48 8, zero w 40 8, zero w 32 3]
  | 0x84 => [zero w 7 5, zero w 0 7, zero w 35 5, zero w 33 2]
  | 0x85 => [zero w 2 5, zero w 56 8, zero w 48 8, zero w 40 8, zero w 32 3, below w 0 2 3]
  | 0x86 => [zero w 7 5, zero w 4 3, zero w 48 8, zero w 40 8, zero w 35 5, zero w 32 3]
  | 0x87 => if bits w 0 3 = 0 then [zero w 7 5, zero w 3 4, zero w 48 8, zero w 40 8, zero w 35 5, zero w 32 3]
    else if bits w 0 3 = 1 then [zero w 3 4, zero w 56 8, zero w 48 8, zero w 40 8, zero w 35 5, zero w 32 3]
    else if bits w 0 3 = 2 then [zero w 3 4, zero w 56 8, zero w 48 8, zero w 40 8, zero w 35 5, zero w 32 3]
    else [cond w (True) 0 3]
  | 0x88 => [zero w 5 2, zero w 56 8, zero w 48 8, zero w 40 8, zero w 32 3, below w 0 4 14, cond w (11 ≤ bits w 0 4 ∧ bits w 0 4 ≤ 13) 0 4, cond w (bits w 4 1 = 1 ∧ (bits w 0 4 = 0 ∨ bits w 0 4 = 9 ∨ bits w 0 4 = 10)) 0 4, cond w (bits w 4 1 = 0 ∧ bits w 35 5 ≠ 0) 35 5]
  | _ => []

/-- The reserved fields of a lane of class MX (R65), in the order of their lowest bit. -/
def rulesMx (op w : Nat) : List FieldRule :=
  match op with
  | 0xA0 => [zero w 0 20]
  | 0xA1 => [zero w 7 2, zero w 0 3, zero w 35 29, below w 3 4 14, cond w (11 ≤ bits w 3 4 ∧ bits w 3 4 ≤ 13) 3 4]
  | 0xA2 => [zero w 14 3, zero w 0 7, zero w 56 8, zero w 40 10, zero w 32 2, below w 12 2 3, cond w (shapeRows (bits w 12 2) ≤ bits w 50 6) 50 6]
  | 0xA3 => [zero w 0 12, cond w (bits w 12 8 = 0) 12 8]
  | 0xA4 => [zero w 0 9, zero w 34 30]
  | 0xA5 => if bits w 12 2 = 0 then [zero w 14 6, zero w 0 12]
    else if bits w 12 2 = 1 then [zero w 14 6, zero w 0 12]
    else if bits w 12 2 = 2 then [zero w 14 6, zero w 0 12]
    else [cond w (True) 12 2]
  | _ => []

/-- The reserved fields of a lane of class CP (R65), in the order of their lowest bit. -/
def rulesCp (op w : Nat) : List FieldRule :=
  match op with
  | 0xB4 => [zero w 23 1, zero w 12 8, zero w 0 7]
  | 0xB5 => [zero w 12 2, zero w 0 7, zero w 38 26]
  | 0xB6 => [zero w 23 1, zero w 12 8, zero w 7 5, zero w 0 7]
  | 0xB7 => [zero w 23 1, zero w 12 8, zero w 0 7, zero w 40 24, zero w 32 3]
  | 0xB8 => [zero w 23 1, zero w 17 3, zero w 0 7]
  | 0xB9 => [zero w 23 1, zero w 17 3, zero w 0 2]
  | _ => []

/-- The reserved fields of a lane of class XQ (R65), in the order of their lowest bit. -/
def rulesXq (op w : Nat) : List FieldRule :=
  match op with
  | 0xBE => [zero w 21 3, zero w 12 8, zero w 0 7, zero w 40 24, zero w 32 3, cond w (bits w 20 1 = 0 ∧ bits w 35 5 ≠ 0) 35 5]
  | 0xBF => [zero w 18 2, zero w 0 7, cond w (63 < bits w 12 6 + bits w 20 4) 20 4]
  | 0xC0 => [zero w 20 4, zero w 18 2, zero w 0 7]
  | 0xC1 => [zero w 20 4, zero w 12 8, zero w 0 7]
  | 0xC2 => if bits w 20 1 = 0 then [zero w 21 3, zero w 12 8, zero w 7 5, zero w 0 7]
    else if bits w 20 1 = 1 then [zero w 21 3, zero w 12 8, zero w 7 5, zero w 0 7]
    else []
  | 0xC3 => [zero w 22 2, zero w 12 8, zero w 0 7, cond w (bits w 20 2 = 3) 20 2]
  | 0xC6 => [zero w 23 1, zero w 20 3, zero w 12 6, zero w 0 7, cond w (bits w 18 2 = 0) 18 2]
  | 0xC7 => [zero w 23 1, zero w 20 3, zero w 17 3, zero w 0 7]
  | 0xC8 => [zero w 12 8, zero w 0 7, zero w 40 24, zero w 32 3, cond w (bits w 20 3 = 0 ∨ 4 < bits w 20 3) 20 3, cond w (bits w 23 1 = 1 ∧ 2 ≤ bits w 20 3 ∧ bits w 20 3 ≤ 4) 20 3]
  | 0xC9 => [zero w 23 1, zero w 12 8, zero w 0 7, below w 20 3 5]
  | 0xCA => [zero w 23 1, zero w 17 3, zero w 0 7, below w 20 3 5]
  | 0xCB => [zero w 23 1, zero w 12 8, zero w 0 7, below w 20 3 5]
  | 0xCC => [zero w 23 1, zero w 20 3, zero w 12 8, zero w 0 7]
  | 0xCD => [zero w 23 1, zero w 20 3, zero w 0 7]
  | 0xCE => if bits w 23 1 = 0 then [zero w 7 5, below w 20 3 5]
    else if bits w 23 1 = 1 then [zero w 0 7, below w 20 3 5]
    else []
  | 0xCF => if bits w 23 1 = 0 then [zero w 7 5, below w 20 3 5]
    else if bits w 23 1 = 1 then [zero w 0 7, below w 20 3 5]
    else []
  | 0xD0 => if bits w 20 2 = 0 then [zero w 23 1, zero w 22 1, zero w 17 3, zero w 0 7]
    else if bits w 20 2 = 1 then [zero w 23 1, zero w 22 1, zero w 17 3, zero w 0 7]
    else if bits w 20 2 = 2 then [zero w 23 1, zero w 22 1, zero w 17 3, zero w 0 7]
    else [cond w (True) 20 2]
  | 0xD6 => [zero w 20 3, zero w 0 7, zero w 40 24, zero w 32 3, cond w (bits w 23 1 = 0 ∧ bits w 12 8 ≠ 0) 12 8, cond w (bits w 23 1 = 1 ∧ (bits w 12 8 < 128 ∨ 160 ≤ bits w 12 8)) 12 8]
  | 0xD7 => [zero w 20 3, zero w 0 7, zero w 40 24, zero w 32 3, cond w (bits w 23 1 = 0 ∧ bits w 12 8 ≠ 0) 12 8, cond w (bits w 23 1 = 1 ∧ (bits w 12 8 < 128 ∨ 160 ≤ bits w 12 8)) 12 8]
  | 0xD8 => [zero w 20 3, zero w 0 7, cond w (bits w 23 1 = 0 ∧ bits w 12 8 ≠ 0) 12 8, cond w (bits w 23 1 = 1 ∧ (bits w 12 8 < 128 ∨ 160 ≤ bits w 12 8)) 12 8]
  | 0xD9 => [zero w 20 3, zero w 0 7, cond w (bits w 23 1 = 0 ∧ bits w 12 8 ≠ 0) 12 8, cond w (bits w 23 1 = 1 ∧ (bits w 12 8 < 128 ∨ 160 ≤ bits w 12 8)) 12 8]
  | 0xDA => if bits w 20 1 = 0 then [zero w 21 2, zero w 0 7, cond w (bits w 23 1 = 0 ∧ bits w 12 8 ≠ 0) 12 8, cond w (bits w 23 1 = 1 ∧ (bits w 12 8 < 128 ∨ 160 ≤ bits w 12 8)) 12 8]
    else if bits w 20 1 = 1 then [zero w 21 2, zero w 0 7, cond w (bits w 23 1 = 0 ∧ bits w 12 8 ≠ 0) 12 8, cond w (bits w 23 1 = 1 ∧ (bits w 12 8 < 128 ∨ 160 ≤ bits w 12 8)) 12 8]
    else []
  | 0xDB => [zero w 20 3, zero w 0 7, zero w 40 24, zero w 32 3, cond w (bits w 23 1 = 0 ∧ bits w 12 8 ≠ 0) 12 8, cond w (bits w 23 1 = 1 ∧ (bits w 12 8 < 128 ∨ 160 ≤ bits w 12 8)) 12 8]
  | 0xDC => [zero w 20 3, zero w 0 7, zero w 40 24, zero w 32 3, cond w (bits w 23 1 = 0 ∧ bits w 12 8 ≠ 0) 12 8, cond w (bits w 23 1 = 1 ∧ (bits w 12 8 < 128 ∨ 160 ≤ bits w 12 8)) 12 8]
  | 0xDD => [zero w 20 3, zero w 0 7, cond w (bits w 23 1 = 0 ∧ bits w 12 8 ≠ 0) 12 8, cond w (bits w 23 1 = 1 ∧ (bits w 12 8 < 128 ∨ 160 ≤ bits w 12 8)) 12 8]
  | 0xDE => [zero w 20 3, zero w 0 7, cond w (bits w 23 1 = 0 ∧ bits w 12 8 ≠ 0) 12 8, cond w (bits w 23 1 = 1 ∧ (bits w 12 8 < 128 ∨ 160 ≤ bits w 12 8)) 12 8]
  | 0xE2 => [zero w 20 3, zero w 0 7, zero w 40 16, zero w 32 3, cond w (bits w 23 1 = 1 ∧ bits w 35 5 ≠ 0) 35 5]
  | 0xE3 => [zero w 20 3, zero w 0 7, zero w 40 16, zero w 32 3, cond w (bits w 23 1 = 1 ∧ bits w 35 5 ≠ 0) 35 5]
  | 0xE4 => [zero w 20 3, zero w 0 7, zero w 56 8, zero w 40 16, zero w 32 3, cond w (bits w 23 1 = 1 ∧ bits w 35 5 ≠ 0) 35 5]
  | 0xE5 => [zero w 20 3, zero w 0 7, zero w 56 8, zero w 40 16, zero w 32 3, cond w (bits w 23 1 = 1 ∧ bits w 35 5 ≠ 0) 35 5]
  | 0xE6 => [zero w 20 3, zero w 17 3, zero w 0 7, cond w (bits w 23 1 = 1 ∧ bits w 12 5 ≠ 0) 12 5]
  | 0xE7 => [zero w 20 3, zero w 17 3, zero w 0 7, zero w 56 8, zero w 40 16, zero w 32 3, cond w (bits w 23 1 = 1 ∧ bits w 35 5 ≠ 0) 35 5]
  | 0xE8 => [zero w 20 3, zero w 17 3, zero w 0 7, cond w (bits w 23 1 = 1 ∧ bits w 12 5 ≠ 0) 12 5]
  | 0xE9 => if bits w 20 3 = 0 then [zero w 17 3, zero w 0 7, cond w (bits w 23 1 = 1 ∧ bits w 12 5 ≠ 0) 12 5]
    else if bits w 20 3 = 1 then [zero w 17 3, zero w 0 7, cond w (bits w 23 1 = 1 ∧ bits w 12 5 ≠ 0) 12 5]
    else if bits w 20 3 = 2 then [zero w 17 3, zero w 0 7, cond w (bits w 23 1 = 1 ∧ bits w 12 5 ≠ 0) 12 5]
    else if bits w 20 3 = 3 then [zero w 17 3, zero w 0 7, cond w (bits w 23 1 = 1 ∧ bits w 12 5 ≠ 0) 12 5]
    else if bits w 20 3 = 4 then [zero w 17 3, zero w 0 7, cond w (bits w 23 1 = 1 ∧ bits w 12 5 ≠ 0) 12 5]
    else if bits w 20 3 = 5 then [zero w 17 3, zero w 0 7, cond w (bits w 23 1 = 1 ∧ bits w 12 5 ≠ 0) 12 5]
    else if bits w 20 3 = 6 then [zero w 17 3, zero w 0 7, cond w (bits w 23 1 = 1 ∧ bits w 12 5 ≠ 0) 12 5]
    else [cond w (True) 20 3]
  | 0xEE => [zero w 20 3, zero w 0 7, zero w 53 3, zero w 32 16, cond w (bits w 23 1 = 1 ∧ bits w 48 5 ≠ 0) 48 5]
  | 0xEF => [zero w 0 7, zero w 53 3, zero w 32 16, below w 20 3 4, cond w (bits w 23 1 = 1 ∧ bits w 48 5 ≠ 0) 48 5]
  | 0xF0 => [zero w 0 7, zero w 53 3, zero w 32 16, below w 20 3 4, cond w (bits w 23 1 = 1 ∧ bits w 48 5 ≠ 0) 48 5]
  | 0xF1 => [zero w 20 3, zero w 0 7, zero w 53 3, zero w 40 8, zero w 32 3, cond w (bits w 23 1 = 1 ∧ bits w 48 5 ≠ 0) 48 5]
  | 0xF2 => [zero w 23 1, zero w 20 3, zero w 12 8, zero w 0 7]
  | 0xF3 => [zero w 23 1, zero w 20 3, zero w 0 7, cond w (7 ≤ bits w 12 8) 12 8]
  | 0xF8 => if bits w 20 1 = 0 then [zero w 23 1, zero w 21 2, zero w 12 8, zero w 7 5, zero w 0 7]
    else if bits w 20 1 = 1 then [zero w 23 1, zero w 21 2, zero w 12 8, zero w 7 5, zero w 0 7]
    else []
  | 0xF9 => [zero w 20 3, zero w 17 3, zero w 7 5, zero w 0 7, cond w (bits w 23 1 = 1 ∧ bits w 12 5 ≠ 0) 12 5]
  | 0xFA => [zero w 23 1, zero w 20 3, zero w 18 2, zero w 0 7, zero w 40 24, zero w 32 3]
  | 0xFB => [zero w 23 1, zero w 20 3, zero w 12 8, zero w 0 7]
  | _ => []

/-- The instruction of a lane of class CC whose reserved fields are as the spec has them. -/
def decodeCc (op w : Nat) : Option Instr :=
  match op with
  | 0x00 => some (.trapZ (fv 24 w 0))
  | 0x01 => some (.nop)
  | 0x02 => some (.add (fx w 19) (fx w 14) (fx w 9) (fb w 0))
  | 0x03 => some (.sub (fx w 19) (fx w 14) (fx w 9) (fb w 0))
  | 0x04 => some (.and (fx w 19) (fx w 14) (fx w 9) (fb w 0))
  | 0x05 => some (.or (fx w 19) (fx w 14) (fx w 9) (fb w 0))
  | 0x06 => some (.xor (fx w 19) (fx w 14) (fx w 9) (fb w 0))
  | 0x07 => some (.shl (fx w 19) (fx w 14) (fx w 9) (fb w 0))
  | 0x08 => some (.shr (fx w 19) (fx w 14) (fx w 9) (fb w 0))
  | 0x09 => some (.sra (fx w 19) (fx w 14) (fx w 9) (fb w 0))
  | 0x0A => some (.mul (fx w 19) (fx w 14) (fx w 9) (fb w 0))
  | 0x0B => some (.mulh (fx w 19) (fx w 14) (fx w 9) (fb w 0) (fb w 1))
  | 0x0C => some (.div (fx w 19) (fx w 14) (fx w 9) (fb w 0) (fb w 1))
  | 0x0D => some (.rem (fx w 19) (fx w 14) (fx w 9) (fb w 0) (fb w 1))
  | 0x0E => some (.min (fx w 19) (fx w 14) (fx w 9) (fb w 0) (fb w 1))
  | 0x0F => some (.max (fx w 19) (fx w 14) (fx w 9) (fb w 0) (fb w 1))
  | 0x10 => some (.addi (fx w 19) (fx w 14) (fv 14 w 0))
  | 0x11 => some (.andi (fx w 19) (fx w 14) (fv 14 w 0))
  | 0x12 => some (.ori (fx w 19) (fx w 14) (fv 14 w 0))
  | 0x13 => some (.xori (fx w 19) (fx w 14) (fv 14 w 0))
  | 0x14 => some (.shli (fx w 19) (fx w 14) (fb w 6) (fv 6 w 0))
  | 0x15 => some (.shri (fx w 19) (fx w 14) (fb w 6) (fv 6 w 0))
  | 0x16 => some (.srai (fx w 19) (fx w 14) (fb w 6) (fv 6 w 0))
  | 0x17 => some (.cmp (fv 3 w 19) (fx w 14) (fx w 9) (Comb.ofCode (bits w 4 2)) (fb w 3) (Cond.ofCode (bits w 0 3)))
  | 0x18 => some (.cmpi (fv 3 w 19) (fx w 14) (Cond.ofCode (bits w 11 3)) (fv 11 w 0))
  | 0x19 => some (.pcomb (fv 3 w 19) (fv 3 w 14) (fv 3 w 9) (fv 4 w 0))
  | 0x1A => some (.sel (fx w 19) (fx w 14) (fx w 9) (fb w 3) (fv 3 w 0))
  | 0x1B => if bits w 8 1 = 0 then some (.movi (fx w 19) (fimm40 w))
    else if bits w 8 1 = 1 then some (.movhi (fx w 19) (fv 24 w 32))
    else none
  | 0x1C => some (.lea (fx w 19) (fx w 14) (fb w 10) (fv 2 w 8) (fimm40 w))
  | 0x1D => some (.cld (fx w 19) (fx w 14) (MemSz.ofCode (bits w 11 3)) (fv 11 w 0))
  | 0x1E => some (.cst (fx w 19) (fx w 14) (MemSz.ofCode (bits w 11 3)) (fv 11 w 0))
  | 0x1F => some (.sld (fx w 19) (fx w 14) (MemSz.ofCode (bits w 11 3)) (fv 11 w 0))
  | 0x20 => some (.sst (fx w 19) (fx w 14) (MemSz.ofCode (bits w 11 3)) (fv 11 w 0))
  | 0x21 => some (.camo (fx w 19) (fx w 14) (fx w 9) (Scope.ofCode (bits w 6 3)) (AmoOrd.ofCode (bits w 4 2)) (fb w 3) (AmoOp.ofCode (bits w 0 3)))
  | 0x22 => some (.cfence (FenceKind.ofCode (bits w 3 2)) (Scope.ofCode (bits w 0 3)))
  | 0x23 => some (.b (fv 3 w 21) (fb w 20) (fb w 19) (fv 19 w 0))
  | 0x24 => some (.call (fv 3 w 21) (fb w 20) (fb w 19) (fv 19 w 0))
  | 0x25 => some (.jr (fx w 14))
  | 0x26 => some (.callr (fx w 19) (fx w 14))
  | 0x27 => some (.loop (fv 2 w 19) (fx w 14) (fv 2 w 8) (fstages w) (fv 12 w 46))
  | 0x28 => some (.loopi (fv 2 w 19) (fv 2 w 8) (fstages w) (fv 12 w 46) (fv 14 w 32))
  | 0x29 => some (.qjoin (fv 14 w 0))
  | 0x2A => some (.qflush (fv 8 w 6) (fv 5 w 0))
  | 0x2B => some (.sysr (fx w 19) (fv 14 w 0))
  | 0x2C => if bits w 4 10 = 16 then some (.bkfmtWrite (fv 4 w 0) (fx w 14))
    else if bits w 4 10 = 17 then some (.bkbndWrite (fv 4 w 0) (fx w 14))
    else if bits w 3 11 = 224 ∧ bits w 0 3 < 6 then some (.paceGapWrite (fv 3 w 0) (fx w 14))
    else some (.sysw (fx w 14) (fv 14 w 0))
  | 0x2D => some (.exit (fv 8 w 0))
  | 0x2E => some (.brk (fv 14 w 0))
  | 0x2F => if bits w 13 1 = 0 then some (.mxcfg (fv 5 w 8) (fx w 14) (fimm40 w))
    else if bits w 13 1 = 1 then some (.mxcfgT (fx w 14) (fimm40 w))
    else none
  | 0x30 => if bits w 4 1 = 0 then some (.mxst (fx w 19) (fb w 3) (fv 3 w 0))
    else if bits w 4 1 = 1 then some (.mxstAll (fx w 19) (fb w 3))
    else none
  | 0x31 => some (.pget (fx w 19))
  | 0x32 => some (.pset (fx w 14) (fv 7 w 1))
  | 0x33 => if bits w 0 2 = 0 then some (.bitcPop (fx w 19) (fx w 14) (fb w 2))
    else if bits w 0 2 = 1 then some (.bitcClz (fx w 19) (fx w 14) (fb w 2))
    else if bits w 0 2 = 2 then some (.bitcCtz (fx w 19) (fx w 14) (fb w 2))
    else none
  | 0x34 => some (.ext (fx w 19) (fx w 14) (fx w 9) (fb w 0))
  | 0x35 => some (.ins (fx w 19) (fx w 14) (fx w 9))
  | 0x36 => some (.lcr (fx w 19) (fv 2 w 14))
  | 0x37 => some (.lcw (fv 2 w 19) (fx w 14))
  | _ => none

/-- The instruction of a lane of class LD whose reserved fields are as the spec has them. -/
def decodeLd (op w : Nat) : Option Instr :=
  match op with
  | 0x40 => some (.ldT (fldargs w))
  | 0x41 => some (.ldS (fldargs w))
  | 0x42 => some (.ldG (fldargs w) (ft w 56))
  | 0x43 => some (.ldGs (fldargs w) (ft w 56))
  | 0x44 => some (.ldB (fldargs w) (fb w 41))
  | 0x45 => some (.ldW (fldargs w))
  | 0x46 => some (.ldAcq (fldargs w) (fb w 41) (Scope.ofCode (bits w 0 3)))
  | 0x47 => some (.pf (ftok w) (fv 8 w 12) (fx w 7))
  | 0x48 => some (.pfW (ftok w) (fv 5 w 12) (fx w 7))
  | _ => none

/-- The instruction of a lane of class ST whose reserved fields are as the spec has them. -/
def decodeSt (op w : Nat) : Option Instr :=
  match op with
  | 0x54 => some (.stT (fstargs w))
  | 0x55 => some (.stS (fstargs w))
  | 0x56 => some (.stSc (fstargs w) (ft w 56))
  | 0x57 => some (.stSs (fstargs w) (ft w 56))
  | 0x58 => some (.stRel (fstargs w) (fb w 41) (Scope.ofCode (bits w 0 3)))
  | 0x59 => some (.stRed (fstargsRed w) (Red.ofCode (bits w 5 2)) (fb w 4) (fv 8 w 56))
  | 0x5A => some (.pubv (ftok w) (fv 4 w 12))
  | _ => none

/-- The instruction of a lane of class VX whose reserved fields are as the spec has them. -/
def decodeVx (op w : Nat) : Option Instr :=
  match op with
  | 0x68 => some (.vadd (ftok w) (ft w 12) (ft w 56) (fvsrc w 48) (Rm.ofCode (bits w 5 2)) (fb w 4))
  | 0x69 => some (.vsub (ftok w) (ft w 12) (ft w 56) (fvsrc w 48) (Rm.ofCode (bits w 5 2)) (fb w 4))
  | 0x6A => some (.vmul (ftok w) (ft w 12) (ft w 56) (fvsrc w 48) (Rm.ofCode (bits w 5 2)) (fb w 4))
  | 0x6B => some (.vfma (ftok w) (ft w 12) (ft w 56) (fvsrc w 48) (ft w 40) (Rm.ofCode (bits w 5 2)))
  | 0x6C => some (.vfms (ftok w) (ft w 12) (ft w 56) (fvsrc w 48) (ft w 40) (Rm.ofCode (bits w 5 2)))
  | 0x6D => some (.vmin (ftok w) (ft w 12) (ft w 56) (fvsrc w 48))
  | 0x6E => some (.vmax (ftok w) (ft w 12) (ft w 56) (fvsrc w 48))
  | 0x6F => some (.vabs (ftok w) (ft w 12) (ft w 56) (fb w 4))
  | 0x70 => some (.vneg (ftok w) (ft w 12) (ft w 56) (fb w 4))
  | 0x71 => some (.vcmp (ftok w) (ft w 12) (ft w 56) (fvsrc w 48) (VCond.ofCode (bits w 0 3)))
  | 0x72 => some (.vsel (ftok w) (ft w 12) (ft w 56) (ft w 48) (fvsrc w 40))
  | 0x73 => some (.vand (ftok w) (ft w 12) (ft w 56) (fvsrc w 48))
  | 0x74 => some (.vor (ftok w) (ft w 12) (ft w 56) (fvsrc w 48))
  | 0x75 => some (.vxor (ftok w) (ft w 12) (ft w 56) (fvsrc w 48))
  | 0x76 => some (.vshl (ftok w) (ft w 12) (ft w 56) (fvsrc w 48))
  | 0x77 => some (.vshr (ftok w) (ft w 12) (ft w 56) (fvsrc w 48) (fb w 0))
  | 0x78 => some (.vcvt (ftok w) (ft w 12) (ft w 56) (ft w 48) (ft w 40) (fb w 39) (fb w 38) (Fmt.ofCode (bits w 0 4)) (Rm.ofCode (bits w 5 2)) (fb w 4) (fv 3 w 32))
  | 0x79 => some (.vexp2 (ftok w) (ft w 12) (ft w 56))
  | 0x7A => some (.vlog2 (ftok w) (ft w 12) (ft w 56))
  | 0x7B => some (.vrcp (ftok w) (ft w 12) (ft w 56))
  | 0x7C => some (.vrsq (ftok w) (ft w 12) (ft w 56))
  | 0x7D => some (.vtanh (ftok w) (ft w 12) (ft w 56))
  | 0x7E => some (.vredr (ftok w) (ft w 12) (ft w 56) (VRed.ofCode (bits w 0 3)) (fb w 4))
  | 0x7F => some (.vredc (ftok w) (ft w 12) (ft w 56) (VRed.ofCode (bits w 0 3)) (fb w 4))
  | 0x80 => some (.vscan (ftok w) (ft w 12) (ft w 56) (ft w 48) (VScan.ofCode (bits w 0 3)) (fb w 4) (fb w 32) (fb w 33))
  | 0x81 => some (.vtr (ftok w) (ft w 12) (ft w 56))
  | 0x82 => some (.vbcr (ftok w) (ft w 12) (ft w 56) (fx w 35))
  | 0x83 => some (.vbcc (ftok w) (ft w 12) (ft w 56) (fx w 35))
  | 0x84 => some (.vpermB (ftok w) (ft w 12) (ft w 56) (ft w 48) (ft w 40) (fb w 32))
  | 0x85 => some (.vrng (ftok w) (ft w 12) (fx w 7) (fx w 35) (VRng.ofCode (bits w 0 2)))
  | 0x86 => some (.vbnd (ftok w) (ft w 12) (ft w 56) (fv 4 w 0))
  | 0x87 => if bits w 0 3 = 0 then some (.vmov (ftok w) (ft w 12) (ft w 56))
    else if bits w 0 3 = 1 then some (.vmovLoad (ftok w) (ft w 12) (fx w 7))
    else if bits w 0 3 = 2 then some (.vmovStore (ftok w) (ft w 12) (fx w 7))
    else none
  | 0x88 => some (.vfill (ftok w) (ft w 12) (Fmt.ofCode (bits w 0 4)) (fx w 7) (fb w 4) (fx w 35))
  | _ => none

/-- The instruction of a lane of class MX whose reserved fields are as the spec has them. -/
def decodeMx (op w : Nat) : Option Instr :=
  match op with
  | 0xA0 => some (.mxgo (ftok w))
  | 0xA1 => some (.mxdr (ftok w) (ft w 12) (fv 3 w 9) (Fmt.ofCode (bits w 3 4)) (fb w 34) (fv 2 w 32))
  | 0xA2 => some (.mxdrb (ftok w) (fv 3 w 17) (Shape.ofCode (bits w 12 2)) (fx w 7) (fx w 35) (fv 6 w 50) (fb w 34))
  | 0xA3 => some (.mxclr (ftok w) (fv 8 w 12))
  | 0xA4 => some (.mxld (ftok w) (ft w 12) (fv 3 w 9) (fv 2 w 32))
  | 0xA5 => if bits w 12 2 = 0 then some (.mxsc (ftok w))
    else if bits w 12 2 = 1 then some (.mxscSp (ftok w))
    else if bits w 12 2 = 2 then some (.mxscW (ftok w))
    else none
  | _ => none

/-- The instruction of a lane of class CP whose reserved fields are as the spec has them. -/
def decodeCp (op w : Nat) : Option Instr :=
  match op with
  | 0xB4 => some (.cpWait (fv 3 w 20) (fx w 7))
  | 0xB5 => some (.cpTw (fb w 23) (fv 3 w 20) (fv 6 w 14) (fx w 7) (fv 6 w 32))
  | 0xB6 => some (.cpCancel (fv 3 w 20))
  | 0xB7 => some (.swInit (fv 3 w 20) (fx w 7) (fx w 35))
  | 0xB8 => some (.swWait (fv 3 w 20) (fx w 7) (fx w 12))
  | 0xB9 => some (.swWaitSt (fv 3 w 20) (fx w 7) (fx w 12) (fx w 2))
  | _ => none

/-- The instruction of a lane of class XQ whose reserved fields are as the spec has them. -/
def decodeXq (op w : Nat) : Option Instr :=
  match op with
  | 0xBE => some (.sqSub (fx w 7) (fb w 20) (fx w 35))
  | 0xBF => some (.sqGpr (fv 4 w 20) (fv 6 w 12) (fx w 7))
  | 0xC0 => some (.sqGpw (fv 6 w 12) (fx w 7))
  | 0xC1 => some (.sqCrd (fx w 7))
  | 0xC2 => if bits w 20 1 = 0 then some (.sqYield)
    else if bits w 20 1 = 1 then some (.sqYieldAl)
    else none
  | 0xC3 => some (.sqAcc (fv 2 w 20) (fx w 7))
  | 0xC6 => some (.barAlloc (SlotScope.ofCode (bits w 18 2)) (fx w 7))
  | 0xC7 => some (.barInit (fx w 7) (fx w 12))
  | 0xC8 => some (.barInitM (fb w 23) (MbScope.ofCode (bits w 20 3)) (fx w 7) (fx w 35))
  | 0xC9 => some (.barArr (GateEng.ofCode (bits w 20 3)) (fx w 7))
  | 0xCA => some (.barWait (GateEng.ofCode (bits w 20 3)) (fx w 7) (fx w 12))
  | 0xCB => some (.barArw (GateEng.ofCode (bits w 20 3)) (fx w 7))
  | 0xCC => some (.barFree (fx w 7))
  | 0xCD => some (.semInit (fv 8 w 12) (fx w 7))
  | 0xCE => if bits w 23 1 = 0 then some (.semSigImm (GateEng.ofCode (bits w 20 3)) (fv 8 w 12) (fv 7 w 0))
    else if bits w 23 1 = 1 then some (.semSigReg (GateEng.ofCode (bits w 20 3)) (fv 8 w 12) (fx w 7))
    else none
  | 0xCF => if bits w 23 1 = 0 then some (.semWaitImm (GateEng.ofCode (bits w 20 3)) (fv 8 w 12) (fv 7 w 0))
    else if bits w 23 1 = 1 then some (.semWaitReg (GateEng.ofCode (bits w 20 3)) (fv 8 w 12) (fx w 7))
    else none
  | 0xD0 => if bits w 20 2 = 0 then some (.wsRdCore (fx w 7) (fx w 12))
    else if bits w 20 2 = 1 then some (.wsRdBar (fx w 7) (fx w 12))
    else if bits w 20 2 = 2 then some (.wsRdSem (fx w 7) (fx w 12))
    else none
  | 0xD6 => some (.pmProg (fpm w) (fx w 7) (fx w 35))
  | 0xD7 => some (.pmVer (fpm w) (fx w 7) (fx w 35))
  | 0xD8 => some (.pmWear (fpm w) (fx w 7))
  | 0xD9 => some (.pmRemap (fpm w) (fx w 7))
  | 0xDA => if bits w 20 1 = 0 then some (.pmClr (fpm w) (fx w 7))
    else if bits w 20 1 = 1 then some (.pmClrR (fpm w) (fx w 7))
    else none
  | 0xDB => some (.pmOpen (fpm w) (fx w 7) (fx w 35))
  | 0xDC => some (.pmSeal (fpm w) (fx w 7) (fx w 35))
  | 0xDD => some (.pmAct (fpm w) (fx w 7))
  | 0xDE => some (.pmStat (fpm w) (fx w 7))
  | 0xE2 => some (.aqSend (ft w 12) (ft w 56) (fx w 7) (fstat w 35))
  | 0xE3 => some (.aqKvapp (ft w 12) (ft w 56) (fx w 7) (fstat w 35))
  | 0xE4 => some (.aqTins (ft w 12) (fx w 7) (fstat w 35))
  | 0xE5 => some (.aqTacc (ft w 12) (fx w 7) (fstat w 35))
  | 0xE6 => some (.aqComp (fx w 7) (fstat w 12))
  | 0xE7 => some (.aqAtt (fx w 7) (fx w 12) (fstat w 35))
  | 0xE8 => some (.aqDet (fx w 7) (fstat w 12))
  | 0xE9 => if bits w 20 3 = 0 then some (.aqSeqOpen (fx w 7) (fstat w 12))
    else if bits w 20 3 = 1 then some (.aqSeqClose (fx w 7) (fstat w 12))
    else if bits w 20 3 = 2 then some (.aqSeqGrow (fx w 7) (fstat w 12))
    else if bits w 20 3 = 3 then some (.aqSeqTrunc (fx w 7) (fstat w 12))
    else if bits w 20 3 = 4 then some (.aqSeqPub (fx w 7) (fstat w 12))
    else if bits w 20 3 = 5 then some (.aqSeqEvict (fx w 7) (fstat w 12))
    else if bits w 20 3 = 6 then some (.aqSeqTclr (fx w 7) (fstat w 12))
    else none
  | 0xEE => some (.fxBc (ft w 12) (ft w 56) (fx w 7) (fstat w 48))
  | 0xEF => some (.fxAr (Red.ofCode (bits w 20 3)) (ft w 12) (ft w 56) (fx w 7) (fstat w 48))
  | 0xF0 => some (.fxRd (Red.ofCode (bits w 20 3)) (ft w 12) (ft w 56) (fx w 7) (fstat w 48))
  | 0xF1 => some (.fxAmax (ft w 12) (ft w 56) (fx w 7) (fx w 35) (fstat w 48))
  | 0xF2 => some (.fxWait (fx w 7))
  | 0xF3 => some (.fxStat (fv 8 w 12) (fx w 7))
  | 0xF8 => if bits w 20 1 = 0 then some (.ckOpen)
    else if bits w 20 1 = 1 then some (.ckOpenLv)
    else none
  | 0xF9 => some (.ckSeal (fstat w 12))
  | 0xFA => some (.ckRp (fv 6 w 12) (fx w 7) (fx w 35))
  | 0xFB => some (.ckRead (fx w 7))
  | _ => none

/-- The reserved fields of a lane, by its opcode's class (R65, Table 2.2). -/
def fieldRules (op w : Nat) : List FieldRule :=
  if op < 0x40 then rulesCc op w else if op < 0x54 then rulesLd op w else if op < 0x68 then rulesSt op w
  else if op < 0xA0 then rulesVx op w else if op < 0xB4 then rulesMx op w else if op < 0xBE then rulesCp op w
  else rulesXq op w

/-- The fields of an instruction word that break R65. -/
def badFields (w : Nat) : List FieldRule := (fieldRules (bits w 24 8) w).filter (·.bad)

/-- The instruction of a lane of sound fields; none for a reserved opcode. -/
def decodeFields (w : Nat) : Option Instr :=
  let op := bits w 24 8
  if op < 0x40 then decodeCc op w else if op < 0x54 then decodeLd op w else if op < 0x68 then decodeSt op w
  else if op < 0xA0 then decodeVx op w else if op < 0xB4 then decodeMx op w else if op < 0xBE then decodeCp op w
  else decodeXq op w

/-- Reserved opcodes (R72, Table 2.9). -/
def reservedOp (op : Nat) : Bool :=
  (0x38 ≤ op && op < 0x40) || (0x49 ≤ op && op < 0x54) || (0x5B ≤ op && op < 0x68) || (0x89 ≤ op && op < 0xA0) ||
    (0xA6 ≤ op && op < 0xB4) || (0xBA ≤ op && op < 0xBE) || op == 0xC4 || op == 0xC5 || (0xD1 ≤ op && op < 0xD6) ||
    (0xDF ≤ op && op < 0xE2) || (0xEA ≤ op && op < 0xEE) || (0xF4 ≤ op && op < 0xF8) || 0xFC ≤ op

/-- Opcodes of 64-bit instructions: formats C.L and E.L of Table 2.9. -/
def longOp (op : Nat) : Bool :=
  op == 0x1B || op == 0x1C || op == 0x27 || op == 0x28 || op == 0x2F || (0x40 ≤ op && op ≤ 0x46) ||
    (0x54 ≤ op && op ≤ 0x59) || (0x68 ≤ op && op ≤ 0x88) || op == 0xA1 || op == 0xA2 || op == 0xA4 || op == 0xB5 ||
    op == 0xB7 || op == 0xBE || op == 0xC8 || op == 0xD6 || op == 0xD7 || op == 0xDB || op == 0xDC ||
    (0xE2 ≤ op && op ≤ 0xE5) || op == 0xE7 || (0xEE ≤ op && op ≤ 0xF1) || op == 0xFA

/-- Decoding of any instruction word: its instruction, or by name the reserved opcode or the reserved field value
that R65 makes ILLEGAL at the queue head. -/
def decodeWord (w : Nat) : Instr :=
  if reservedOp (bits w 24 8) then .reservedOpcode (BitVec.ofNat 64 w)
  else if badFields w ≠ [] then .reservedFieldValue (BitVec.ofNat 64 w)
  else (decodeFields w).getD (.reservedFieldValue (BitVec.ofNat 64 w))

/-- A prefix lane, where its fields pass check 5 (Table 2.8, Table 2.3). -/
def decodePrefix (w : Nat) : Option Instr :=
  let pat := bits w 15 8
  if bits w 29 3 = 0 ∨ bits w 26 3 = 0 ∨ bits w 0 15 ≠ 0 ∨ 2 ^ (bits w 23 3 + 1) ≤ pat then none
  else some (.pblk (Cls.ofCode (bits w 29 3)) (fv 3 w 26) (fv 3 w 23) (fv 8 w 15))

/-- The class of a lane by the range of its opcode, as the nibble of Table 2.2. -/
def opClass (op : Nat) : Nat :=
  if op < 0x40 then 1 else if op < 0x54 then 2 else if op < 0x68 then 3 else if op < 0xA0 then 4 else if op < 0xB4 then 5
  else if op < 0xBE then 6 else 7

/-- The class of a nibble 1-7. -/
def clsOfNibble (n : Nat) : Cls := Cls.ofCode n

/-- Failures of the line checks of Table 2.3, with the failing lane and its opcode byte (R57, Table 2.4). -/
structure LineErr where
  chk : Nat
  lane : Nat
  opc : Nat
  deriving DecidableEq, Repr

/-- The nibble of lane `k` in a header (Table 2.1). -/
def nibble (h k : Nat) : Nat := bits h (4 * (k - 1)) 4

/-- Checks 1 and 2 on a header (Table 2.3). -/
def checkHeader (h : Nat) : Option LineErr :=
  if (List.range 7).any (fun k => decide (10 ≤ nibble h (k + 1))) then some ⟨1, 0, 0⟩
  else if bits h 28 2 ≠ 0 then some ⟨2, 0, 0⟩ else none

/-- What stands at lane `k` of a line: nothing, a prefix, or an instruction with its length in lanes. -/
inductive LaneItem
  | empty
  | pfx (i : Instr)
  | instr (cls : Cls) (i : Instr) (w : Nat) (len : Nat)
  deriving DecidableEq, Repr

/-- Reading lane `k` of a line on the path (checks 3, 4, 5, 7 and 8 of Table 2.3; 6 needs the pending prefixes). A continuation lane at the
entry that follows no first lane of a 64-bit instruction meets checks 3 and 7: the lower is reported (log 33). -/
def readLane (lanes : List Nat) (k : Nat) (entry : Bool) : Except LineErr LaneItem :=
  let h := lanes.getD 0 0
  let w := lanes.getD k 0
  let n := nibble h k
  let op := bits w 24 8
  if n = 0 then .ok .empty
  else if n = 9 then
    let b := nibble h (k - 1)
    let op' := bits (lanes.getD (k - 1) 0) 24 8
    .error ⟨if entry && decide (2 ≤ k) && decide (b ≠ 9) && longOp op' && opClass op' == b then 7 else 3, k, 0⟩
  else if n = 8 then
    match decodePrefix w with
    | some i => .ok (.pfx i)
    | none => .error ⟨5, k, 0⟩
  else if longOp op ∧ opClass op = n then
    if k < 7 ∧ nibble h (k + 1) = 9 then
      let w2 := w + lanes.getD (k + 1) 0 * 2 ^ 32
      .ok (.instr (clsOfNibble n) (decodeWord w2) w2 2)
    else .error ⟨4, k, op⟩
  else if longOp op ∧ ¬ (k < 7 ∧ nibble h (k + 1) = 9) then .error ⟨4, k, op⟩
  else if opClass op ≠ n then .error ⟨8, k, op⟩
  else .ok (.instr (clsOfNibble n) (decodeWord w) w 1)

/-- The encoder: the instruction word of a lane instruction or prefix; none for an event, which has no lane. -/
def encode (i : Instr) : Option Nat :=
  match i with
  | .add d a b w => some (put 0x02 24 + put d.toNat 19 + put a.toNat 14 + put b.toNat 9 + put w.toNat 0)
  | .sub d a b w => some (put 0x03 24 + put d.toNat 19 + put a.toNat 14 + put b.toNat 9 + put w.toNat 0)
  | .and d a b w => some (put 0x04 24 + put d.toNat 19 + put a.toNat 14 + put b.toNat 9 + put w.toNat 0)
  | .or d a b w => some (put 0x05 24 + put d.toNat 19 + put a.toNat 14 + put b.toNat 9 + put w.toNat 0)
  | .xor d a b w => some (put 0x06 24 + put d.toNat 19 + put a.toNat 14 + put b.toNat 9 + put w.toNat 0)
  | .shl d a b w => some (put 0x07 24 + put d.toNat 19 + put a.toNat 14 + put b.toNat 9 + put w.toNat 0)
  | .shr d a b w => some (put 0x08 24 + put d.toNat 19 + put a.toNat 14 + put b.toNat 9 + put w.toNat 0)
  | .sra d a b w => some (put 0x09 24 + put d.toNat 19 + put a.toNat 14 + put b.toNat 9 + put w.toNat 0)
  | .mul d a b w => some (put 0x0A 24 + put d.toNat 19 + put a.toNat 14 + put b.toNat 9 + put w.toNat 0)
  | .mulh d a b w u => some (put 0x0B 24 + put d.toNat 19 + put a.toNat 14 + put b.toNat 9 + put w.toNat 0 + put u.toNat 1)
  | .div d a b w u => some (put 0x0C 24 + put d.toNat 19 + put a.toNat 14 + put b.toNat 9 + put w.toNat 0 + put u.toNat 1)
  | .rem d a b w u => some (put 0x0D 24 + put d.toNat 19 + put a.toNat 14 + put b.toNat 9 + put w.toNat 0 + put u.toNat 1)
  | .min d a b w u => some (put 0x0E 24 + put d.toNat 19 + put a.toNat 14 + put b.toNat 9 + put w.toNat 0 + put u.toNat 1)
  | .max d a b w u => some (put 0x0F 24 + put d.toNat 19 + put a.toNat 14 + put b.toNat 9 + put w.toNat 0 + put u.toNat 1)
  | .addi d a imm => some (put 0x10 24 + put d.toNat 19 + put a.toNat 14 + put imm.toNat 0)
  | .andi d a imm => some (put 0x11 24 + put d.toNat 19 + put a.toNat 14 + put imm.toNat 0)
  | .ori d a imm => some (put 0x12 24 + put d.toNat 19 + put a.toNat 14 + put imm.toNat 0)
  | .xori d a imm => some (put 0x13 24 + put d.toNat 19 + put a.toNat 14 + put imm.toNat 0)
  | .shli d a w sh => some (put 0x14 24 + put d.toNat 19 + put a.toNat 14 + put w.toNat 6 + put sh.toNat 0)
  | .shri d a w sh => some (put 0x15 24 + put d.toNat 19 + put a.toNat 14 + put w.toNat 6 + put sh.toNat 0)
  | .srai d a w sh => some (put 0x16 24 + put d.toNat 19 + put a.toNat 14 + put w.toNat 6 + put sh.toNat 0)
  | .trapZ bits => some (put 0x00 24 + put bits.toNat 0)
  | .nop => some (put 0x01 24)
  | .cmp pd a b comb w c => some (put 0x17 24 + put pd.toNat 19 + put a.toNat 14 + put b.toNat 9 + put comb.code 4 + put w.toNat 3 + put c.code 0)
  | .cmpi pd a c imm => some (put 0x18 24 + put pd.toNat 19 + put a.toNat 14 + put c.code 11 + put imm.toNat 0)
  | .pcomb pd pa pb lut => some (put 0x19 24 + put pd.toNat 19 + put pa.toNat 14 + put pb.toNat 9 + put lut.toNat 0)
  | .sel d a b neg p => some (put 0x1A 24 + put d.toNat 19 + put a.toNat 14 + put b.toNat 9 + put neg.toNat 3 + put p.toNat 0)
  | .movi d imm => some (put 0x1B 24 + put d.toNat 19 + eimm40 imm)
  | .movhi d imm => some (put 0x1B 24 + put 1 8 + put d.toNat 19 + put imm.toNat 32)
  | .lea d a pcrel sc imm => some (put 0x1C 24 + put d.toNat 19 + put a.toNat 14 + put pcrel.toNat 10 + put sc.toNat 8 + eimm40 imm)
  | .cld d a sz off => some (put 0x1D 24 + put d.toNat 19 + put a.toNat 14 + put sz.code 11 + put off.toNat 0)
  | .cst d a sz off => some (put 0x1E 24 + put d.toNat 19 + put a.toNat 14 + put sz.code 11 + put off.toNat 0)
  | .sld d a sz off => some (put 0x1F 24 + put d.toNat 19 + put a.toNat 14 + put sz.code 11 + put off.toNat 0)
  | .sst d a sz off => some (put 0x20 24 + put d.toNat 19 + put a.toNat 14 + put sz.code 11 + put off.toNat 0)
  | .camo d a b scope ord sz64 op => some (put 0x21 24 + put d.toNat 19 + put a.toNat 14 + put b.toNat 9 + put scope.code 6 + put ord.code 4 + put sz64.toNat 3 + put op.code 0)
  | .cfence kind scope => some (put 0x22 24 + put kind.code 3 + put scope.code 0)
  | .b p neg hint off => some (put 0x23 24 + put p.toNat 21 + put neg.toNat 20 + put hint.toNat 19 + put off.toNat 0)
  | .call p neg hint off => some (put 0x24 24 + put p.toNat 21 + put neg.toNat 20 + put hint.toNat 19 + put off.toNat 0)
  | .jr a => some (put 0x25 24 + put a.toNat 14)
  | .callr d a => some (put 0x26 24 + put d.toNat 19 + put a.toNat 14)
  | .loop lc a s stg len => some (put 0x27 24 + put lc.toNat 19 + put a.toNat 14 + put s.toNat 8 + stg.enc + put len.toNat 46)
  | .loopi lc s stg len n => some (put 0x28 24 + put lc.toNat 19 + put s.toNat 8 + stg.enc + put len.toNat 46 + put n.toNat 32)
  | .qjoin mask => some (put 0x29 24 + put mask.toNat 0)
  | .qflush cp q => some (put 0x2A 24 + put cp.toNat 6 + put q.toNat 0)
  | .sysr d num => some (put 0x2B 24 + put d.toNat 19 + put num.toNat 0)
  | .bkfmtWrite n a => some (put 0x2C 24 + put 16 4 + put n.toNat 0 + put a.toNat 14)
  | .bkbndWrite n a => some (put 0x2C 24 + put 17 4 + put n.toNat 0 + put a.toNat 14)
  | .paceGapWrite e a => some (put 0x2C 24 + put 224 3 + put e.toNat 0 + put a.toNat 14)
  | .sysw a num => some (put 0x2C 24 + put a.toNat 14 + put num.toNat 0)
  | .exit status => some (put 0x2D 24 + put status.toNat 0)
  | .brk code => some (put 0x2E 24 + put code.toNat 0)
  | .mxcfg n a imm => some (put 0x2F 24 + put n.toNat 8 + put a.toNat 14 + eimm40 imm)
  | .mxcfgT a imm => some (put 0x2F 24 + put 1 13 + put a.toNat 14 + eimm40 imm + put 31 8)
  | .mxst d clr k => some (put 0x30 24 + put d.toNat 19 + put clr.toNat 3 + put k.toNat 0)
  | .mxstAll d clr => some (put 0x30 24 + put 1 4 + put d.toNat 19 + put clr.toNat 3)
  | .pget d => some (put 0x31 24 + put d.toNat 19)
  | .pset a mask => some (put 0x32 24 + put a.toNat 14 + put mask.toNat 1)
  | .bitcPop d a w => some (put 0x33 24 + put d.toNat 19 + put a.toNat 14 + put w.toNat 2)
  | .bitcClz d a w => some (put 0x33 24 + put 1 0 + put d.toNat 19 + put a.toNat 14 + put w.toNat 2)
  | .bitcCtz d a w => some (put 0x33 24 + put 2 0 + put d.toNat 19 + put a.toNat 14 + put w.toNat 2)
  | .ext d a b s => some (put 0x34 24 + put d.toNat 19 + put a.toNat 14 + put b.toNat 9 + put s.toNat 0)
  | .ins d a b => some (put 0x35 24 + put d.toNat 19 + put a.toNat 14 + put b.toNat 9)
  | .lcr d n => some (put 0x36 24 + put d.toNat 19 + put n.toNat 14)
  | .lcw n a => some (put 0x37 24 + put n.toNat 19 + put a.toNat 14)
  | .ldT o => some (put 0x40 24 + o.enc)
  | .ldS o => some (put 0x41 24 + o.enc)
  | .ldG o ti => some (put 0x42 24 + o.enc + put ti.code 56)
  | .ldGs o ti => some (put 0x43 24 + o.enc + put ti.code 56)
  | .ldB o sp => some (put 0x44 24 + o.enc + put sp.toNat 41)
  | .ldW o => some (put 0x45 24 + o.enc)
  | .ldAcq o sp scope => some (put 0x46 24 + o.enc + put sp.toNat 41 + put scope.code 0)
  | .pf tok nl xa => some (put 0x47 24 + tok.enc + put nl.toNat 12 + put xa.toNat 7)
  | .pfW tok nw xa => some (put 0x48 24 + tok.enc + put nw.toNat 12 + put xa.toNat 7)
  | .stT o => some (put 0x54 24 + o.enc)
  | .stS o => some (put 0x55 24 + o.enc)
  | .stSc o ti => some (put 0x56 24 + o.enc + put ti.code 56)
  | .stSs o ti => some (put 0x57 24 + o.enc + put ti.code 56)
  | .stRel o sp scope => some (put 0x58 24 + o.enc + put sp.toNat 41 + put scope.code 0)
  | .stRed o red semen sem => some (put 0x59 24 + o.encRed + put red.code 5 + put semen.toNat 4 + put sem.toNat 56)
  | .pubv tok win => some (put 0x5A 24 + tok.enc + put win.toNat 12)
  | .vadd tok td ta b rm sat => some (put 0x68 24 + tok.enc + put td.code 12 + put ta.code 56 + b.enc 48 + put rm.code 5 + put sat.toNat 4)
  | .vsub tok td ta b rm sat => some (put 0x69 24 + tok.enc + put td.code 12 + put ta.code 56 + b.enc 48 + put rm.code 5 + put sat.toNat 4)
  | .vmul tok td ta b rm sat => some (put 0x6A 24 + tok.enc + put td.code 12 + put ta.code 56 + b.enc 48 + put rm.code 5 + put sat.toNat 4)
  | .vfma tok td ta b tc rm => some (put 0x6B 24 + tok.enc + put td.code 12 + put ta.code 56 + b.enc 48 + put tc.code 40 + put rm.code 5)
  | .vfms tok td ta b tc rm => some (put 0x6C 24 + tok.enc + put td.code 12 + put ta.code 56 + b.enc 48 + put tc.code 40 + put rm.code 5)
  | .vmin tok td ta b => some (put 0x6D 24 + tok.enc + put td.code 12 + put ta.code 56 + b.enc 48)
  | .vmax tok td ta b => some (put 0x6E 24 + tok.enc + put td.code 12 + put ta.code 56 + b.enc 48)
  | .vabs tok td ta sat => some (put 0x6F 24 + tok.enc + put td.code 12 + put ta.code 56 + put sat.toNat 4)
  | .vneg tok td ta sat => some (put 0x70 24 + tok.enc + put td.code 12 + put ta.code 56 + put sat.toNat 4)
  | .vcmp tok td ta b c => some (put 0x71 24 + tok.enc + put td.code 12 + put ta.code 56 + b.enc 48 + put c.code 0)
  | .vsel tok td tm ta b => some (put 0x72 24 + tok.enc + put td.code 12 + put tm.code 56 + put ta.code 48 + b.enc 40)
  | .vand tok td ta b => some (put 0x73 24 + tok.enc + put td.code 12 + put ta.code 56 + b.enc 48)
  | .vor tok td ta b => some (put 0x74 24 + tok.enc + put td.code 12 + put ta.code 56 + b.enc 48)
  | .vxor tok td ta b => some (put 0x75 24 + tok.enc + put td.code 12 + put ta.code 56 + b.enc 48)
  | .vshl tok td ta b => some (put 0x76 24 + tok.enc + put td.code 12 + put ta.code 56 + b.enc 48)
  | .vshr tok td ta b ari => some (put 0x77 24 + tok.enc + put td.code 12 + put ta.code 56 + b.enc 48 + put ari.toNat 0)
  | .vcvt tok td ta tb tc ss ds ty rm sat part => some (put 0x78 24 + tok.enc + put td.code 12 + put ta.code 56 + put tb.code 48 + put tc.code 40 + put ss.toNat 39 + put ds.toNat 38 + put ty.code 0 + put rm.code 5 + put sat.toNat 4 + put part.toNat 32)
  | .vexp2 tok td ta => some (put 0x79 24 + tok.enc + put td.code 12 + put ta.code 56)
  | .vlog2 tok td ta => some (put 0x7A 24 + tok.enc + put td.code 12 + put ta.code 56)
  | .vrcp tok td ta => some (put 0x7B 24 + tok.enc + put td.code 12 + put ta.code 56)
  | .vrsq tok td ta => some (put 0x7C 24 + tok.enc + put td.code 12 + put ta.code 56)
  | .vtanh tok td ta => some (put 0x7D 24 + tok.enc + put td.code 12 + put ta.code 56)
  | .vredr tok td ta f sat => some (put 0x7E 24 + tok.enc + put td.code 12 + put ta.code 56 + put f.code 0 + put sat.toNat 4)
  | .vredc tok td ta f sat => some (put 0x7F 24 + tok.enc + put td.code 12 + put ta.code 56 + put f.code 0 + put sat.toNat 4)
  | .vscan tok td ta tf f sat exc row => some (put 0x80 24 + tok.enc + put td.code 12 + put ta.code 56 + put tf.code 48 + put f.code 0 + put sat.toNat 4 + put exc.toNat 32 + put row.toNat 33)
  | .vtr tok td ta => some (put 0x81 24 + tok.enc + put td.code 12 + put ta.code 56)
  | .vbcr tok td ta xb => some (put 0x82 24 + tok.enc + put td.code 12 + put ta.code 56 + put xb.toNat 35)
  | .vbcc tok td ta xb => some (put 0x83 24 + tok.enc + put td.code 12 + put ta.code 56 + put xb.toNat 35)
  | .vpermB tok td ta tb tc nib => some (put 0x84 24 + tok.enc + put td.code 12 + put ta.code 56 + put tb.code 48 + put tc.code 40 + put nib.toNat 32)
  | .vrng tok td xa xb f => some (put 0x85 24 + tok.enc + put td.code 12 + put xa.toNat 7 + put xb.toNat 35 + put f.code 0)
  | .vbnd tok td ta bank => some (put 0x86 24 + tok.enc + put td.code 12 + put ta.code 56 + put bank.toNat 0)
  | .vmov tok td ta => some (put 0x87 24 + tok.enc + put td.code 12 + put ta.code 56)
  | .vmovLoad tok td xa => some (put 0x87 24 + put 1 0 + tok.enc + put td.code 12 + put xa.toNat 7)
  | .vmovStore tok ts xa => some (put 0x87 24 + put 2 0 + tok.enc + put ts.code 12 + put xa.toNat 7)
  | .vfill tok td ty xa iota xb => some (put 0x88 24 + tok.enc + put td.code 12 + put ty.code 0 + put xa.toNat 7 + put iota.toNat 4 + put xb.toNat 35)
  | .mxgo tok => some (put 0xA0 24 + tok.enc)
  | .mxdr tok td k ty clr part => some (put 0xA1 24 + tok.enc + put td.code 12 + put k.toNat 9 + put ty.code 3 + put clr.toNat 34 + put part.toNat 32)
  | .mxdrb tok k shape xa xb nrow clr => some (put 0xA2 24 + tok.enc + put k.toNat 17 + put shape.code 12 + put xa.toNat 7 + put xb.toNat 35 + put nrow.toNat 50 + put clr.toNat 34)
  | .mxclr tok mask => some (put 0xA3 24 + tok.enc + put mask.toNat 12)
  | .mxld tok ta k part => some (put 0xA4 24 + tok.enc + put ta.code 12 + put k.toNat 9 + put part.toNat 32)
  | .mxsc tok => some (put 0xA5 24 + tok.enc)
  | .mxscSp tok => some (put 0xA5 24 + put 1 12 + tok.enc)
  | .mxscW tok => some (put 0xA5 24 + put 2 12 + tok.enc)
  | .cpWait ch xa => some (put 0xB4 24 + put ch.toNat 20 + put xa.toNat 7)
  | .cpTw sp ch tn xa cnt => some (put 0xB5 24 + put sp.toNat 23 + put ch.toNat 20 + put tn.toNat 14 + put xa.toNat 7 + put cnt.toNat 32)
  | .cpCancel ch => some (put 0xB6 24 + put ch.toNat 20)
  | .swInit ch xa xb => some (put 0xB7 24 + put ch.toNat 20 + put xa.toNat 7 + put xb.toNat 35)
  | .swWait ch xa xg => some (put 0xB8 24 + put ch.toNat 20 + put xa.toNat 7 + put xg.toNat 12)
  | .swWaitSt ch xa xg xr => some (put 0xB9 24 + put ch.toNat 20 + put xa.toNat 7 + put xg.toNat 12 + put xr.toNat 2)
  | .sqSub xa st xb => some (put 0xBE 24 + put xa.toNat 7 + put st.toNat 20 + put xb.toNat 35)
  | .sqGpr cnt slot xa => some (put 0xBF 24 + put cnt.toNat 20 + put slot.toNat 12 + put xa.toNat 7)
  | .sqGpw slot xa => some (put 0xC0 24 + put slot.toNat 12 + put xa.toNat 7)
  | .sqCrd xa => some (put 0xC1 24 + put xa.toNat 7)
  | .sqYield => some (put 0xC2 24)
  | .sqYieldAl => some (put 0xC2 24 + put 1 20)
  | .sqAcc k xa => some (put 0xC3 24 + put k.toNat 20 + put xa.toNat 7)
  | .barAlloc scope xa => some (put 0xC6 24 + put scope.code 18 + put xa.toNat 7)
  | .barInit xa xn => some (put 0xC7 24 + put xa.toNat 7 + put xn.toNat 12)
  | .barInitM sp scope xa xn => some (put 0xC8 24 + put sp.toNat 23 + put scope.code 20 + put xa.toNat 7 + put xn.toNat 35)
  | .barArr eng xa => some (put 0xC9 24 + put eng.code 20 + put xa.toNat 7)
  | .barWait eng xa xg => some (put 0xCA 24 + put eng.code 20 + put xa.toNat 7 + put xg.toNat 12)
  | .barArw eng xa => some (put 0xCB 24 + put eng.code 20 + put xa.toNat 7)
  | .barFree xa => some (put 0xCC 24 + put xa.toNat 7)
  | .semInit sem xa => some (put 0xCD 24 + put sem.toNat 12 + put xa.toNat 7)
  | .semSigImm eng sem cnt => some (put 0xCE 24 + put eng.code 20 + put sem.toNat 12 + put cnt.toNat 0)
  | .semSigReg eng sem xa => some (put 0xCE 24 + put 1 23 + put eng.code 20 + put sem.toNat 12 + put xa.toNat 7)
  | .semWaitImm eng sem cnt => some (put 0xCF 24 + put eng.code 20 + put sem.toNat 12 + put cnt.toNat 0)
  | .semWaitReg eng sem xa => some (put 0xCF 24 + put 1 23 + put eng.code 20 + put sem.toNat 12 + put xa.toNat 7)
  | .wsRdCore xa xg => some (put 0xD0 24 + put xa.toNat 7 + put xg.toNat 12)
  | .wsRdBar xa xg => some (put 0xD0 24 + put 1 20 + put xa.toNat 7 + put xg.toNat 12)
  | .wsRdSem xa xg => some (put 0xD0 24 + put 2 20 + put xa.toNat 7 + put xg.toNat 12)
  | .pmProg s xa xb => some (put 0xD6 24 + s.enc + put xa.toNat 7 + put xb.toNat 35)
  | .pmVer s xa xb => some (put 0xD7 24 + s.enc + put xa.toNat 7 + put xb.toNat 35)
  | .pmOpen s xa xb => some (put 0xDB 24 + s.enc + put xa.toNat 7 + put xb.toNat 35)
  | .pmSeal s xa xb => some (put 0xDC 24 + s.enc + put xa.toNat 7 + put xb.toNat 35)
  | .pmWear s xa => some (put 0xD8 24 + s.enc + put xa.toNat 7)
  | .pmRemap s xa => some (put 0xD9 24 + s.enc + put xa.toNat 7)
  | .pmAct s xa => some (put 0xDD 24 + s.enc + put xa.toNat 7)
  | .pmStat s xa => some (put 0xDE 24 + s.enc + put xa.toNat 7)
  | .pmClr s xa => some (put 0xDA 24 + s.enc + put xa.toNat 7)
  | .pmClrR s xa => some (put 0xDA 24 + put 1 20 + s.enc + put xa.toNat 7)
  | .aqSend td tq xa st => some (put 0xE2 24 + put td.code 12 + put tq.code 56 + put xa.toNat 7 + st.enc 35)
  | .aqKvapp tk tv xa st => some (put 0xE3 24 + put tk.code 12 + put tv.code 56 + put xa.toNat 7 + st.enc 35)
  | .aqTins tp xa st => some (put 0xE4 24 + put tp.code 12 + put xa.toNat 7 + st.enc 35)
  | .aqTacc tl xa st => some (put 0xE5 24 + put tl.code 12 + put xa.toNat 7 + st.enc 35)
  | .aqComp xa st => some (put 0xE6 24 + put xa.toNat 7 + st.enc 12)
  | .aqAtt xa xp st => some (put 0xE7 24 + put xa.toNat 7 + put xp.toNat 12 + st.enc 35)
  | .aqDet xa st => some (put 0xE8 24 + put xa.toNat 7 + st.enc 12)
  | .aqSeqOpen xa st => some (put 0xE9 24 + put xa.toNat 7 + st.enc 12)
  | .aqSeqClose xa st => some (put 0xE9 24 + put 1 20 + put xa.toNat 7 + st.enc 12)
  | .aqSeqGrow xa st => some (put 0xE9 24 + put 2 20 + put xa.toNat 7 + st.enc 12)
  | .aqSeqTrunc xa st => some (put 0xE9 24 + put 3 20 + put xa.toNat 7 + st.enc 12)
  | .aqSeqPub xa st => some (put 0xE9 24 + put 4 20 + put xa.toNat 7 + st.enc 12)
  | .aqSeqEvict xa st => some (put 0xE9 24 + put 5 20 + put xa.toNat 7 + st.enc 12)
  | .aqSeqTclr xa st => some (put 0xE9 24 + put 6 20 + put xa.toNat 7 + st.enc 12)
  | .fxBc td ts xa st => some (put 0xEE 24 + put td.code 12 + put ts.code 56 + put xa.toNat 7 + st.enc 48)
  | .fxAr red td ts xa st => some (put 0xEF 24 + put red.code 20 + put td.code 12 + put ts.code 56 + put xa.toNat 7 + st.enc 48)
  | .fxRd red td ts xa st => some (put 0xF0 24 + put red.code 20 + put td.code 12 + put ts.code 56 + put xa.toNat 7 + st.enc 48)
  | .fxAmax td ts xa xb st => some (put 0xF1 24 + put td.code 12 + put ts.code 56 + put xa.toNat 7 + put xb.toNat 35 + st.enc 48)
  | .fxWait xa => some (put 0xF2 24 + put xa.toNat 7)
  | .fxStat lnk xa => some (put 0xF3 24 + put lnk.toNat 12 + put xa.toNat 7)
  | .ckOpen => some (put 0xF8 24)
  | .ckOpenLv => some (put 0xF8 24 + put 1 20)
  | .ckSeal st => some (put 0xF9 24 + st.enc 12)
  | .ckRp line xa xb => some (put 0xFA 24 + put line.toNat 12 + put xa.toNat 7 + put xb.toNat 35)
  | .ckRead xa => some (put 0xFB 24 + put xa.toNat 7)
  | .pblk cls p cnt pat => some (put cls.code 29 + put p.toNat 26 + put cnt.toNat 23 + put pat.toNat 15)
  | .reservedOpcode w => some w.toNat
  | .reservedFieldValue w => some w.toNat
  | .token _ => none
  | .contextRestore _ => none
  | .debugStep _ => none
  | .debugWindowAccess _ _ _ => none
  | .waittmo _ => none
  | .uncorrectableError _ => none
  | .correctedError _ => none
  | .pageWalk _ _ => none
  | .copyTransferStart _ => none
  | .syncWordArrival _ => none
  | .copyTransferComplete _ => none
  | .barrierNotification _ => none
  | .staggeredRelease _ => none
  | .gateReached _ => none
  | .pumpJob _ => none
  | .aqSendResultArrival _ => none
  | .merge _ => none
  | .mergeTimeout _ => none
  | .collectiveContribution _ _ => none
  | .roundTimeout _ => none
  | .collectiveDelivery _ => none
  | .flitReplay _ _ => none
  | .retrainComplete _ _ _ => none
  | .linkModuleLoss _ _ _ => none
  | .dieReset _ _ => none
  | .dieRejoin _ => none
  | .chipletReset _ => none
  | .temperatureReading _ _ _ => none
  | .throttleDecay _ _ => none
  | .currentThrottleExpiry _ _ => none
  | .clusterGating _ => none
  | .clusterWake _ => none
  | .evbaseWrite _ => none
  | .evsizeWrite _ => none
  | .hostWindowRegisterWrite _ _ _ => none
  | .hostMemRead _ _ => none
  | .hostMemWrite _ _ => none
  | .negotiateAlgorithms _ => none
  | .getCertificate _ _ => none
  | .challenge _ => none
  | .getMeasurements _ _ => none
  | .commandCompletion _ => none
  | .peerPackageAccess _ _ _ _ _ => none
  | .reservedCommandCode _ _ => none
  | .unsupportedSpdmRequest _ => none
  | .fetchLine => none
  | .speculationCommit => none
  | .misprediction => none
  | .iterationRetirement => none
  | .loopRollback => none
  | .loopReentry => none
  | .exitCompletion => none
  | .faultStop => none
  | .preemption => none
  | .saveSequence => none
  | .debuggerHaltRequest => none
  | .dbgcmpMatch => none
  | .debugGo => none
  | .taskDispatch => none
  | .taskStaging => none
  | .prewaitExpiry => none
  | .fcastUpdate => none
  | .readyListEntry => none
  | .heldReplayStart => none
  | .heldPatch => none
  | .heldSubmission => none
  | .runRetirement => none
  | .deferredBlockFree => none
  | .seal => none
  | .sealCompletion => none
  | .sealFailure => none
  | .submit => none
  | .replay => none
  | .patch => none
  | .accw => none
  | .preempt => none
  | .release => none
  | .abort => none
  | .pooladd => none
  | .pooldel => none
  | .setregMxkmax => none
  | .setregActhr => none
  | .setregPrewait => none
  | .setregWtmo => none
  | .setregStagger => none
  | .setregPaceFloor => none
  | .setregGatectl => none
  | .setregFxtmo => none
  | .setregFxdom => none
  | .setregAtgeo => none
  | .setregThrottle => none
  | .setregQosShare => none
  | .setregDomainCollectives => none
  | .ptroot => none
  | .tlbinv => none
  | .pubwin => none
  | .kvreg => none
  | .kvout => none
  | .kvin => none
  | .ckdom => none
  | .route => none
  | .linkup => none
  | .dieresetCmd => none
  | .preset => none
  | .dbgsel => none
  | .partcfg => none
  | .cfgupd => none
  | .scrub => none
  | .health => none
  | .liferd => none
  | .snapset => none
  | .snap => none
  | .snapshotWriteOut => none
  | .lifetimeRecordWrite => none
  | .getVersion => none
  | .getCapabilities => none
  | .getDigests => none
  | .powerOn => none
  | .powerLoss => none

/-- The instruction this decoder reads from a row's bits as spec/opcode_table.json numbers them. A lane's class comes
from its opcode; bits that no instruction takes may be a prefix. -/
def decodeTableWord (nbits w : Nat) : Option Instr :=
  let w := w % 2 ^ nbits
  if reservedOp (bits w 24 8) = false ∧ badFields w = [] then decodeFields w
  else match decodePrefix w with
    | some i => some i
    | none => some (decodeWord w)

end Sys2Proof
end

