-- ==== Sys2Proof/WellFormed.lean ====
section
/-! DEFINITION. Well-formed instructions: the operand values that the encodings admit and the types do not already
guarantee (Tables 5.9, 6.9, 7.1, 8.1, 9.2, 9.4, 10, 12.3, 13.5, 15.4). -/

namespace Sys2Proof

/-- A stage set whose stages all lie below S, given S - 1 (R155). -/
def Stages.below (g : Stages) (s : BitVec 2) : Bool :=
  decide (g.ld ≤ s) && decide (g.st ≤ s) && decide (g.vx ≤ s) && decide (g.mx ≤ s) && decide (g.cp ≤ s) && decide (g.xq ≤ s)

/-- SEM is zero when SEMEN is (R381). -/
def PmSem.wf (s : PmSem) : Bool := s.en || s.sem == 0

/-- Block formats (Table 1.13). -/
def Fmt.isBlock (f : Fmt) : Bool := f == .mx4 || f == .mx6 || f == .mx8

/-- Floating formats. -/
def Fmt.isFloat (f : Fmt) : Bool := f == .bf16 || f == .f32

/-- Integer formats (R87). -/
def Fmt.isInt (f : Fmt) : Bool := decide (1 ≤ f.code) && decide (f.code ≤ 8)

/-- The operand values an encoding admits; every event is well-formed. -/
def Instr.wf (i : Instr) : Bool :=
  match i with
  | .shli _ _ w sh => !(w && decide (32 ≤ sh.toNat))
  | .shri _ _ w sh => !(w && decide (32 ≤ sh.toNat))
  | .srai _ _ w sh => !(w && decide (32 ≤ sh.toNat))
  | .lea _ a pcrel _ _ => !pcrel || a == 0
  | .camo _ _ _ scope ord _ _ => ord != .none || scope == .co
  | .loop _ _ s stg len => len != 0 && stg.below s
  | .loopi _ s stg len _ => len != 0 && stg.below s
  | .sysw _ num => num.toNat / 16 != 0x10 && num.toNat / 16 != 0x11 && !(num.toNat / 8 == 0xE0 && decide (num.toNat % 8 < 6))
  | .paceGapWrite e _ => decide (e.toNat < 6)
  | .ldB o _ => o.xb == 0
  | .stRed o _ semen sem => o.ty == .raw && (if semen then decide (sem.toNat < 160) else sem == 0)
  | .vcvt _ _ _ tb tc ss ds ty rm sat _ =>
      ty != .raw && !(sat && (ty.isInt || ty.isBlock)) && !(rm != .rne && ty.isBlock) && ds == ty.isBlock &&
        (ss || tb == ⟨0, .plain⟩) && (ds || tc == ⟨0, .plain⟩)
  | .vfill _ _ ty _ iota xb => !ty.isBlock && (if iota then ty.isInt else xb == 0)
  | .mxdr _ _ _ ty _ _ => !ty.isBlock
  | .mxdrb _ _ shape _ _ nrow _ => decide (nrow.toNat < shapeRows shape.code)
  | .mxclr _ mask => mask != 0
  | .sqSub _ st xb => st || xb == 0
  | .sqGpr cnt slot _ => decide (slot.toNat + cnt.toNat ≤ 63)
  | .sqAcc k _ => k != 3
  | .barInitM sp scope _ _ => !sp || scope == .cl
  | .pmProg s _ _ => s.wf
  | .pmVer s _ _ => s.wf
  | .pmOpen s _ _ => s.wf
  | .pmSeal s _ _ => s.wf
  | .pmWear s _ => s.wf
  | .pmRemap s _ => s.wf
  | .pmClr s _ => s.wf
  | .pmClrR s _ => s.wf
  | .pmAct s _ => s.wf
  | .pmStat s _ => s.wf
  | .fxStat lnk _ => decide (lnk.toNat < 7)
  | .pblk _ p cnt pat => p != 0 && decide (pat.toNat < 2 ^ (cnt.toNat + 1))
  | .reservedOpcode w => reservedOp (bits w.toNat 24 8)
  | .reservedFieldValue w => !reservedOp (bits w.toNat 24 8) && decide (badFields w.toNat ≠ [])
  | .trapZ .. | .add .. | .sub .. | .and .. | .or .. | .xor .. | .shl .. | .shr .. | .sra .. | .mul .. | .mulh .. | .div .. | .rem .. | .min ..
  | .max .. | .addi .. | .andi .. | .ori .. | .xori .. | .cmp .. | .cmpi .. | .pcomb .. | .sel .. | .movi .. | .movhi .. | .cld .. | .cst ..
  | .sld .. | .sst .. | .cfence .. | .b .. | .call .. | .jr .. | .callr .. | .qjoin .. | .qflush .. | .sysr .. | .bkfmtWrite .. | .bkbndWrite ..
  | .exit .. | .token .. | .brk .. | .mxcfg .. | .mxcfgT .. | .mxst .. | .mxstAll .. | .pget .. | .pset .. | .bitcPop .. | .bitcClz ..
  | .bitcCtz .. | .ext .. | .ins .. | .lcr .. | .lcw .. | .contextRestore .. | .debugStep .. | .debugWindowAccess .. | .waittmo ..
  | .uncorrectableError .. | .correctedError .. | .pageWalk .. | .ldT .. | .ldS .. | .ldG .. | .ldGs .. | .ldW .. | .ldAcq .. | .pf .. | .pfW ..
  | .stT .. | .stS .. | .stSc .. | .stSs .. | .stRel .. | .pubv .. | .vadd .. | .vsub .. | .vmul .. | .vfma .. | .vfms .. | .vmin .. | .vmax ..
  | .vabs .. | .vneg .. | .vcmp .. | .vsel .. | .vand .. | .vor .. | .vxor .. | .vshl .. | .vshr .. | .vexp2 .. | .vlog2 .. | .vrcp .. | .vrsq ..
  | .vtanh .. | .vredr .. | .vredc .. | .vscan .. | .vtr .. | .vbcr .. | .vbcc .. | .vpermB .. | .vrng .. | .vbnd .. | .vmov .. | .vmovLoad ..
  | .vmovStore .. | .mxgo .. | .mxld .. | .mxsc .. | .mxscSp .. | .mxscW .. | .cpWait .. | .cpTw .. | .cpCancel .. | .copyTransferStart ..
  | .syncWordArrival .. | .copyTransferComplete .. | .swInit .. | .swWait .. | .swWaitSt .. | .sqGpw .. | .sqCrd .. | .barAlloc .. | .barInit ..
  | .barArr .. | .barWait .. | .barArw .. | .barFree .. | .barrierNotification .. | .staggeredRelease .. | .gateReached .. | .semInit ..
  | .semSigImm .. | .semSigReg .. | .semWaitImm .. | .semWaitReg .. | .wsRdCore .. | .wsRdBar .. | .wsRdSem .. | .pumpJob .. | .aqSend ..
  | .aqSendResultArrival .. | .merge .. | .mergeTimeout .. | .aqKvapp .. | .aqTins .. | .aqTacc .. | .aqComp .. | .aqAtt .. | .aqDet ..
  | .aqSeqOpen .. | .aqSeqClose .. | .aqSeqGrow .. | .aqSeqTrunc .. | .aqSeqPub .. | .aqSeqEvict .. | .aqSeqTclr .. | .fxBc .. | .fxAr ..
  | .fxRd .. | .fxAmax .. | .fxWait .. | .collectiveContribution .. | .roundTimeout .. | .collectiveDelivery .. | .flitReplay ..
  | .retrainComplete .. | .linkModuleLoss .. | .ckSeal .. | .ckRp .. | .ckRead .. | .dieReset .. | .dieRejoin .. | .chipletReset ..
  | .temperatureReading .. | .throttleDecay .. | .currentThrottleExpiry .. | .clusterGating .. | .clusterWake .. | .evbaseWrite ..
  | .evsizeWrite .. | .hostWindowRegisterWrite .. | .hostMemRead .. | .hostMemWrite .. | .negotiateAlgorithms .. | .getCertificate ..
  | .challenge .. | .getMeasurements .. | .commandCompletion .. | .peerPackageAccess .. | .reservedCommandCode .. | .unsupportedSpdmRequest ..
  | .fetchLine .. | .speculationCommit .. | .misprediction .. | .nop .. | .iterationRetirement .. | .loopRollback .. | .loopReentry ..
  | .exitCompletion .. | .faultStop .. | .preemption .. | .saveSequence .. | .debuggerHaltRequest .. | .dbgcmpMatch .. | .debugGo ..
  | .taskDispatch .. | .taskStaging .. | .prewaitExpiry .. | .fcastUpdate .. | .readyListEntry .. | .heldReplayStart .. | .heldPatch ..
  | .heldSubmission .. | .runRetirement .. | .sqYield .. | .sqYieldAl .. | .deferredBlockFree .. | .ckOpen .. | .ckOpenLv .. | .seal ..
  | .sealCompletion .. | .sealFailure .. | .submit .. | .replay .. | .patch .. | .accw .. | .preempt .. | .release .. | .abort .. | .pooladd ..
  | .pooldel .. | .setregMxkmax .. | .setregActhr .. | .setregPrewait .. | .setregWtmo .. | .setregStagger .. | .setregPaceFloor ..
  | .setregGatectl .. | .setregFxtmo .. | .setregFxdom .. | .setregAtgeo .. | .setregThrottle .. | .setregQosShare ..
  | .setregDomainCollectives .. | .ptroot .. | .tlbinv .. | .pubwin .. | .kvreg .. | .kvout .. | .kvin .. | .ckdom .. | .route .. | .linkup ..
  | .dieresetCmd .. | .preset .. | .dbgsel .. | .partcfg .. | .cfgupd .. | .scrub .. | .health .. | .liferd .. | .snapset .. | .snap ..
  | .snapshotWriteOut .. | .lifetimeRecordWrite .. | .getVersion .. | .getCapabilities .. | .getDigests .. | .powerOn .. | .powerLoss .. => true

end Sys2Proof
end

