-- ==== Sys2Proof/Machine/Num.lean ====
section
/-! DEFINITION. Number formats and arithmetic (03_numbers): element encodings are numbers, exact values are signed
numerators over positive denominators, and every rounding is made once. -/

namespace Sys2Proof.Machine

/-- Element size of a format in bits (R218). -/
def Fmt.size : Fmt → Nat
  | .raw | .s8 | .z8 | .mx8 => 8
  | .s16 | .z16 | .bf16 => 16
  | .s32 | .z32 | .f32 => 32
  | .s64 | .z64 => 64
  | .mx4 => 4
  | .mx6 => 6

/-- A type code as a format; every code below 14 is one. -/
def fmtOf (n : Nat) : Fmt :=
  ([.raw, .s8, .s16, .s32, .s64, .z8, .z16, .z32, .z64, .bf16, .f32, .mx4, .mx6, .mx8] : List Fmt).getD n .raw

/-- Signed formats whose element codes are two's complement (R87, R89). -/
def Fmt.signed : Fmt → Bool
  | .s8 | .s16 | .s32 | .s64 | .mx4 | .mx6 | .mx8 => true
  | _ => false

/-- The least value of an integer or code range (Table 3.3). -/
def intMin (f : Fmt) : Int := if Fmt.signed f then -(2 ^ (Fmt.size f - 1) : Nat) else 0
/-- The greatest value of an integer or code range (Table 3.3). -/
def intMax (f : Fmt) : Int := if Fmt.signed f then (2 ^ (Fmt.size f - 1) : Nat) - 1 else (2 ^ Fmt.size f : Nat) - 1
/-- Saturation to a format's range. -/
def satInt (f : Fmt) (i : Int) : Int := max (intMin f) (min (intMax f) i)
/-- The integer an element of an integer or block format encodes. -/
def intVal (f : Fmt) (v : Nat) : Int := if Fmt.signed f then sext (Fmt.size f) v else (v % 2 ^ Fmt.size f : Nat)
/-- The element that encodes an integer modulo the width. -/
def intEnc (n : Nat) (i : Int) : Nat := (i % (2 ^ n : Nat)).toNat

/-! ### Floating encodings, by fraction width w: 23 for FP32, 7 for BF16 -/

/-- The fraction width of a floating format. -/
def fracW (f : Fmt) : Nat := if f = .bf16 then 7 else 23
/-- The sign of an encoding. -/
def fNeg (w x : Nat) : Bool := x / 2 ^ (w + 8) % 2 == 1
/-- The exponent field. -/
def fExp (w x : Nat) : Nat := x / 2 ^ w % 256
/-- The fraction field. -/
def fFrac (w x : Nat) : Nat := x % 2 ^ w
/-- NaN (Table 3.2). -/
def fNan (w x : Nat) : Bool := fExp w x == 255 && fFrac w x != 0
/-- Infinity (Table 3.2). -/
def fInf (w x : Nat) : Bool := fExp w x == 255 && fFrac w x == 0
/-- Zero of either sign (Table 3.2). -/
def fZero (w x : Nat) : Bool := x % 2 ^ (w + 8) == 0
/-- An encoding from sign and magnitude. -/
def fPack (w : Nat) (neg : Bool) (mag : Nat) : Nat := (if neg then 2 ^ (w + 8) else 0) + mag
/-- Infinity of a sign. -/
def fMkInf (w : Nat) (neg : Bool) : Nat := fPack w neg (255 * 2 ^ w)
/-- The largest finite value of a sign. -/
def fMax (w : Nat) (neg : Bool) : Nat := fPack w neg (255 * 2 ^ w - 1)
/-- A generated NaN of a cause code (R97). -/
def fMkNan (w code : Nat) : Nat := 255 * 2 ^ w + 2 ^ (w - 1) + code

/-- An exact value: an integer over a positive natural number. -/
structure Exact where
  n : Int
  d : Nat
  deriving DecidableEq, Repr

/-- The exact value of a finite encoding (Table 3.2). -/
def fVal (w x : Nat) : Exact :=
  let e := fExp w x
  let m : Nat := if e = 0 then fFrac w x else 2 ^ w + fFrac w x
  let k := max e 1                       -- value = m * 2^(k - 127 - w)
  let n : Int := if fNeg w x then -(m : Int) else m
  if 127 + w ≤ k then ⟨n * (2 ^ (k - 127 - w) : Nat), 1⟩ else ⟨n, 2 ^ (127 + w - k)⟩

/-- Exact sum. -/
def Exact.add (a b : Exact) : Exact := ⟨a.n * b.d + b.n * a.d, a.d * b.d⟩
/-- Exact product. -/
def Exact.mul (a b : Exact) : Exact := ⟨a.n * b.n, a.d * b.d⟩
/-- Exact negation. -/
def Exact.neg (a : Exact) : Exact := ⟨-a.n, a.d⟩
/-- a < b. -/
def Exact.lt (a b : Exact) : Bool := decide (a.n * b.d < b.n * a.d)
/-- The value is zero. -/
def Exact.isZero (a : Exact) : Bool := a.n == 0

/-- Whether a magnitude with quotient `q`, remainder `r` over `d` moves up under a rounding mode (Table 3.6). -/
def roundsUp (rm : Rm) (neg : Bool) (q r d : Nat) : Bool :=
  match rm with
  | .rne => decide (d < 2 * r) || (decide (2 * r = d) && q % 2 == 1)
  | .rtz => false
  | .rdn => neg && r != 0
  | .rup => !neg && r != 0

/-- An exact value rounded to an integer (R92). -/
def roundInt (rm : Rm) (v : Exact) : Int :=
  let neg := decide (v.n < 0)
  let q := v.n.natAbs / v.d
  let r := v.n.natAbs % v.d
  let m : Nat := if roundsUp rm neg q r v.d then q + 1 else q
  if neg then -(m : Int) else m

/-- An exact non-zero value rounded once to a floating format; beyond the range by Table 3.6, or to the largest finite
value when saturating (R92, R93). The encoding of magnitude m * 2^(E - w), E at least -126, is (E + 126) * 2^w + m. -/
def roundFp (w : Nat) (rm : Rm) (sat : Bool) (v : Exact) : Nat :=
  let neg := decide (v.n < 0)
  let num := v.n.natAbs
  let lg : Int := (Nat.log2 num : Int) - Nat.log2 v.d
  let below : Bool := if 0 ≤ lg then decide (num < v.d * 2 ^ lg.toNat) else decide (num * 2 ^ (-lg).toNat < v.d)
  let e : Int := max (-126) (if below then lg - 1 else lg)
  let sh : Int := e - w                  -- units of 2^sh
  let nn := if 0 ≤ sh then num else num * 2 ^ (-sh).toNat
  let dd := if 0 ≤ sh then v.d * 2 ^ sh.toNat else v.d
  let q := nn / dd
  let r := nn % dd
  let m := if roundsUp rm neg q r dd then q + 1 else q
  let mag := (e + 126).toNat * 2 ^ w + m
  if mag < 255 * 2 ^ w then fPack w neg mag
  else if sat then fMax w neg
  else match rm with
    | .rne => fMkInf w neg
    | .rtz => fMax w neg
    | .rdn => if neg then fMkInf w neg else fMax w neg
    | .rup => if neg then fMax w neg else fMkInf w neg

/-- An exact value rounded, an exact zero being +0 (R86). -/
def roundFp0 (w : Nat) (rm : Rm) (sat : Bool) (v : Exact) : Nat := if v.isZero then 0 else roundFp w rm sat v

/-- The rank of a NaN's cause code (R98). -/
def nanRank (w x : Nat) : Nat := let c := fFrac w x % 8; if 1 ≤ c ∧ c ≤ 5 then c else 6

/-- The NaN that operands in order give (R98), quieted; none when none is a NaN. -/
def pickNan (w : Nat) : List Nat → Option Nat
  | [] => none
  | x :: xs =>
    if fNan w x then
      let q := if x / 2 ^ (w - 1) % 2 = 0 then x + 2 ^ (w - 1) else x
      match pickNan w xs with
      | some y => if nanRank w y < nanRank w x then some y else some q
      | none => some q
    else pickNan w xs

/-- Addition (R86, R98, R105); `nb` negates the second operand, but not a NaN. -/
def fAdd (w : Nat) (rm : Rm) (sat : Bool) (a b : Nat) (nb : Bool) : Nat :=
  match pickNan w [a, b] with
  | some n => n
  | none =>
    let sb := fNeg w b != nb
    if fInf w a then (if fInf w b && sb != fNeg w a then fMkNan w 3 else if sat then fMax w (fNeg w a) else a)
    else if fInf w b then (if sat then fMax w sb else fMkInf w sb)
    else
      let vb := fVal w b
      let r := (fVal w a).add (if nb then vb.neg else vb)
      if r.isZero then (if fZero w a && fZero w b && fNeg w a && sb then fPack w true 0 else 0) else roundFp w rm sat r

/-- Multiplication (R86, R97, R98, R105). -/
def fMul (w : Nat) (rm : Rm) (sat : Bool) (a b : Nat) : Nat :=
  match pickNan w [a, b] with
  | some n => n
  | none =>
    let s := fNeg w a != fNeg w b
    if fInf w a || fInf w b then
      (if fZero w a || fZero w b then fMkNan w 4 else if sat then fMax w s else fMkInf w s)
    else
      let r := (fVal w a).mul (fVal w b)
      if r.isZero then fPack w s 0 else roundFp w rm sat r

/-- Fused multiply-add a * b + c, or a * b - c with `nc`, rounded once (R105). -/
def fFma (w : Nat) (rm : Rm) (a b c : Nat) (nc : Bool) : Nat :=
  match pickNan w [a, b, c] with
  | some n => n
  | none =>
    let s := fNeg w a != fNeg w b
    let sc := fNeg w c != nc
    if fInf w a || fInf w b then
      (if fZero w a || fZero w b then fMkNan w 4
       else if fInf w c && sc != s then fMkNan w 3 else fMkInf w s)
    else if fInf w c then fMkInf w sc
    else
      let p := (fVal w a).mul (fVal w b)
      let vc := fVal w c
      let r := p.add (if nc then vc.neg else vc)
      if r.isZero then (if p.isZero && fZero w c && s && sc then fPack w true 0 else 0) else roundFp w rm false r

/-- a < b on encodings that are not NaN (R99). -/
def fLt (w a b : Nat) : Bool :=
  if fInf w a then fNeg w a && !(fInf w b && fNeg w b)
  else if fInf w b then !(fNeg w b)
  else (fVal w a).lt (fVal w b)

/-- a = b; a NaN equals nothing, zeros are equal (R99). -/
def fEq (w a b : Nat) : Bool := !fNan w a && !fNan w b && !fLt w a b && !fLt w b a

/-- Minimum or maximum by R99: NaN by R98; of zeros of opposite sign, -0 is the lesser. -/
def fMinMax (w : Nat) (isMax : Bool) (a b : Nat) : Nat :=
  match pickNan w [a, b] with
  | some n => n
  | none =>
    if fZero w a && fZero w b then (if fNeg w a == isMax then b else a)
    else if fLt w a b then (if isMax then b else a) else if fLt w b a then (if isMax then a else b) else a

/-- A NaN carried between FP32 and BF16 (R95). -/
def nanConv (ws wd x : Nat) : Nat := fPack wd (fNeg ws x) (255 * 2 ^ wd + 2 ^ (wd - 1) + x % 64)

/-- Conversion of one element between formats that are not block formats (R93-R95, Table 3.7). -/
def convElem (s d : Fmt) (rm : Rm) (sat : Bool) (v : Nat) : Nat :=
  if s = d ∨ s = .raw ∨ d = .raw then v
  else if s.isFloat then
    let ws := fracW s
    if d.isFloat then
      let wd := fracW d
      if fNan ws v then nanConv ws wd v
      else if fInf ws v then (if sat then fMax wd (fNeg ws v) else fMkInf wd (fNeg ws v))
      else if fZero ws v then fPack wd (fNeg ws v) 0
      else roundFp wd rm sat (fVal ws v)
    else if fNan ws v then 0
    else if fInf ws v then intEnc (Fmt.size d) (if fNeg ws v then intMin d else intMax d)
    else intEnc (Fmt.size d) (satInt d (roundInt rm (fVal ws v)))
  else
    let i := intVal s v
    if d.isFloat then roundFp0 (fracW d) rm sat ⟨i, 1⟩ else intEnc (Fmt.size d) (satInt d i)

/-- An implicit conversion: sat(rne(v, d), d) (R93). -/
def implicitConv (s d : Fmt) (v : Nat) : Nat := convElem s d .rne true v

/-! ### Block formats -/

/-- Code width of a block format. -/
def codeW (f : Fmt) : Nat := Fmt.size f

/-- The exact value of a finite S24 scale (Table 3.5). -/
def s24Val (s : Nat) : Exact :=
  let e := s / 2 ^ 16 % 256
  let m : Nat := 2 ^ 16 + s % 2 ^ 16
  if 143 ≤ e then ⟨(m * 2 ^ (e - 143) : Nat), 1⟩ else ⟨m, 2 ^ (143 - e)⟩

/-- Zero scale. -/
def s24Zero (s : Nat) : Bool := s / 2 ^ 16 % 256 == 0
/-- Infinite scale. -/
def s24Inf (s : Nat) : Bool := s / 2 ^ 16 % 256 == 255 && s % 2 ^ 16 == 0
/-- NaN scale. -/
def s24Nan (s : Nat) : Bool := s / 2 ^ 16 % 256 == 255 && s % 2 ^ 16 != 0

/-- The FP32 value of a block element of code `q` (an integer) under a scale, exact for a finite one (R89, Table 3.5). -/
def blockElem (f : Fmt) (s : Nat) (q : Int) : Nat :=
  if s24Nan s then fMkNan 23 2
  else if s24Inf s then (if q = 0 then fMkNan 23 4 else fMkInf 23 (decide (q < 0)))
  else if s24Zero s ∨ q = 0 then 0
  else roundFp 23 .rne false ((s24Val s).mul ⟨q, 2 ^ (codeW f - 1)⟩)

/-- The least finite S24 scale that is at least an exact positive value (R96). -/
def s24Ceil (a : Exact) : Nat :=
  let num := a.n.natAbs
  if decide (num * 2 ^ 126 ≤ a.d) then 0x010000
  else
    let lg : Int := (Nat.log2 num : Int) - Nat.log2 a.d
    let below : Bool := if 0 ≤ lg then decide (num < a.d * 2 ^ lg.toNat) else decide (num * 2 ^ (-lg).toNat < a.d)
    let e : Int := max (-126) (if below then lg - 1 else lg)
    let sh : Int := e - 16
    let nn := if 0 ≤ sh then num else num * 2 ^ (-sh).toNat
    let dd := if 0 ≤ sh then a.d * 2 ^ sh.toNat else a.d
    let m := (nn + dd - 1) / dd
    min 0xFEFFFF ((e + 126).toNat * 2 ^ 16 + m)

/-- A source value of a quantisation: NaN, or its exact value with infinities replaced (R96). -/
def quantVal (s : Fmt) (v : Nat) : Option Exact :=
  if s.isFloat then
    let w := fracW s
    if fNan w v then none
    else if fInf w v then some (fVal 23 (fMax 23 (fNeg w v)))
    else some (fVal w v)
  else some ⟨intVal s v, 1⟩

/-- Block quantisation of a group of source elements: the scale and the codes, as n-bit fields (R96). -/
def quantBlock (s d : Fmt) (vs : List Nat) : Nat × List Nat :=
  let q := vs.map (quantVal s)
  if q.any Option.isNone then (0xFF0001, vs.map (fun _ => 0))
  else
    let xs := q.filterMap id
    let amax := xs.foldl (fun m x => let a : Exact := ⟨x.n.natAbs, x.d⟩; if m.lt a then a else m) ⟨0, 1⟩
    if amax.isZero then (0, vs.map (fun _ => 0))
    else
      let sc := s24Ceil amax
      let sv := s24Val sc
      (sc, xs.map (fun x =>
        intEnc (codeW d) (satInt d (roundInt .rne ⟨x.n * (2 ^ (codeW d - 1) : Nat) * sv.d, x.d * sv.n.natAbs⟩))))

/-! ### Matrix arithmetic -/

/-- A contribution to an accumulator: a NaN or infinity encoding, or an exact value (R101, R102). -/
inductive Contrib
  | enc (x : Nat)
  | val (v : Exact)
  deriving DecidableEq, Repr

/-- The integer dot product of two code lists. -/
def dotInt : List Int → List Int → Int
  | a :: as, b :: bs => a * b + dotInt as bs
  | _, _ => 0

/-- The contribution of a pair of blocks (R101, Table 3.10). -/
def blockContrib (fa fb : Fmt) (sa sb : Nat) (qa qb : List Int) : Contrib :=
  let d := dotInt qa qb
  if s24Nan sa || s24Nan sb then .enc (fMkNan 23 2)
  else if s24Inf sa || s24Inf sb then
    (if s24Zero sa || s24Zero sb || d == 0 then .enc (fMkNan 23 4) else .enc (fMkInf 23 (decide (d < 0))))
  else if s24Zero sa || s24Zero sb || d == 0 then .val ⟨0, 1⟩
  else .val (((s24Val sa).mul (s24Val sb)).mul ⟨d, 2 ^ (codeW fa - 1 + (codeW fb - 1))⟩)

/-- The exact dot product of two lists of finite BF16 elements. -/
def dotBf : List Nat → List Nat → Exact
  | a :: as, b :: bs => ((fVal 7 a).mul (fVal 7 b)).add (dotBf as bs)
  | _, _ => ⟨0, 1⟩

/-- The contribution of a group of BF16 products (R102). -/
def bfContrib (as bs : List Nat) : Contrib :=
  let ps := List.zip as bs
  if ps.any (fun p => fNan 7 p.1 || fNan 7 p.2) then .enc (fMkNan 23 1)
  else if ps.any (fun p => (fZero 7 p.1 && fInf 7 p.2) || (fInf 7 p.1 && fZero 7 p.2)) then .enc (fMkNan 23 4)
  else
    let infs := ps.filter (fun p => fInf 7 p.1 || fInf 7 p.2)
    let pos := infs.any (fun p => fNeg 7 p.1 == fNeg 7 p.2)
    let neg := infs.any (fun p => fNeg 7 p.1 != fNeg 7 p.2)
    if pos && neg then .enc (fMkNan 23 3)
    else if pos then .enc (fMkInf 23 false)
    else if neg then .enc (fMkInf 23 true)
    else .val (dotBf as bs)

/-- The accumulator after a contribution, with one rounding (R103). -/
def accAdd (m : Nat) (c : Contrib) : Nat :=
  match c with
  | .enc x => fAdd 23 .rne false m x false
  | .val v =>
    match pickNan 23 [m] with
    | some n => n
    | none =>
      if fInf 23 m then m
      else
        let r := (fVal 23 m).add v
        if r.isZero then 0 else roundFp 23 .rne false r

/-- Whether adding a contribution rounds a finite sum to infinity (R309). -/
def accOverflows (m : Nat) (c : Contrib) : Bool :=
  match c with
  | .enc _ => false
  | .val _ => !fNan 23 m && !fInf 23 m && fInf 23 (accAdd m c)

/-! ### Bounds checks -/

/-- A bound of BKBND as the exact encoding it has under a format (R43): whether an element violates LO, HI. -/
def violates (f : Fmt) (lo hi : Nat) (v : Nat) : Bool :=
  if f.isFloat then
    let x := if f = .bf16 then v * 2 ^ 16 else v
    if fNan 23 x then true
    else (!fNan 23 lo && fLt 23 x lo) || (!fNan 23 hi && fLt 23 hi x)
  else
    let i := intVal f v
    let l : Int := if Fmt.signed f then sext 32 lo else lo
    let h : Int := if Fmt.signed f then sext 32 hi else hi
    decide (i < l) || decide (h < i)

/-- Whether a violating element is clamped to LO: v < LO, or a NaN (R44). -/
def clampsLow (f : Fmt) (lo : Nat) (v : Nat) : Bool :=
  if f.isFloat then
    let x := if f = .bf16 then v * 2 ^ 16 else v
    fNan 23 x || (!fNan 23 lo && fLt 23 x lo)
  else decide (intVal f v < (if Fmt.signed f then sext 32 lo else (lo : Int)))

/-- A bound converted to the bank format (R44). -/
def clampValue (f : Fmt) (b : Nat) : Nat :=
  match f with
  | .f32 => b
  | .bf16 => convElem .f32 .bf16 .rne false b
  | f => intEnc (Fmt.size f) (satInt f (if Fmt.signed f then sext 32 b else (b : Int)))

end Sys2Proof.Machine
end

