-- ==== Sys2Proof/Machine/State.lean ====
section
/-! DEFINITION. The state of a T9 module, as plain data, and its value after reset (INVENTORY.md, '## State'). -/

namespace Sys2Proof.Machine

/-- Engines and channels by the number of R363: 0 CC, 1 LD, 2 ST, 3 VX, 4 MX, 5 XQ, 6-13 CP channels 0-7. -/
abbrev Slot := Nat

/-- A captured or read scalar with its poison bit (R137, R138). -/
structure Scalar where
  v : Word
  poison : Bool
  deriving DecidableEq, Repr

/-- A tile register: full/empty bit, format tag, rows (an unlisted row is zero) and poisoned 8-byte granules,
numbered 16 to a row (R19, R20, R25, R28, Table 1.15). -/
structure Tile where
  full : Bool
  tag : Fmt
  rows : AMap Row
  pois : NSet
  deriving DecidableEq, Repr

/-- An accumulator: FP32 encodings by flat element index (unlisted is +0) and poisoned rows of 64 elements (R289,
Table 1.15). -/
structure Acc where
  el : AMap (BitVec 32)
  pois : NSet
  deriving DecidableEq, Repr

/-- Fault classes of Table 5.10. -/
inductive FaultClass
  | illegal | illegalLine | illegalLane | illegalZero | align | page | perm | wspace | atomscope | bankconf | bound
  | mxkmax | poison | loopue | syncover | syncfault | waittmo | token | cktorn | link
  deriving DecidableEq, Repr

/-- A raised fault: class, TRAPENG code and channel, status word, address, the bank whose VIOL it sets (R44), and the
MXINFO or CPINFO field it names (Tables 10.9, 11.7). -/
structure Trap where
  cls : FaultClass
  eng : Nat
  chan : Nat
  stat : Word
  va : Word
  viol : Option (Nat × Nat)
  aux : Option Nat
  deriving DecidableEq, Repr

/-- The trap record, registers 0x0010-0x0016 (Table 5.3). -/
structure TrapRec where
  cls : Word
  eng : Word
  cmdidx : Word
  stat : Word
  va : Word
  lane : Word
  pend : Word
  deriving DecidableEq, Repr

/-- A recorded wait: WSK's KIND, SUB and ARG, WSA, and WSC (Tables 12.6, 12.7). -/
structure Wait where
  kind : Nat
  sub : Nat
  arg : Nat
  wsa : Word
  wsc : Word
  deriving DecidableEq, Repr

/-- Speculative mark of a command (R31, R70): none; covered and executing on the prediction, or beyond a predicted
branch; an MX or VX lane behind a speculative lane of its sub-stream; covered and held against the prediction. -/
inductive SpecMark | none | run | follow | held
  deriving DecidableEq, Repr

/-- The loop iteration of a command (R156, R171): the loop's serial number, the iteration (for a CC lane min(j, N - 1)),
the pass it was fetched in, and whether the lane lies after the body (pass N + S - 1). -/
structure IterTag where
  ser : Nat
  it : Nat
  pass : Nat
  tail : Bool
  deriving DecidableEq, Repr

/-- An operand-log entry (R171): the instruction and its word, command index, lane address, captured scalars in the order
of `Instr.scalars`, speculative mark, iterations of the loops it was fetched in, innermost first; what a started command has read (its source tiles, R220, R238); the
phase a `bar.arw` has joined (R356) or the ticket of the seal a release has asked for (R460); the control core's index
when it was routed, its place in fetch order (R163, R320); and the accumulator or table copy an `mxgo` has captured (R296). -/
structure Cmd where
  instr : Instr
  raw : Word
  idx : Nat
  lane : Word
  vals : List Scalar
  spec : SpecMark
  iter : List IterTag
  started : Bool
  srcs : List Tile
  joined : Option Nat
  pos : Nat
  table : List Word
  accepted : Bool
  deriving DecidableEq, Repr

/-- An entry of an engine queue or channel order: a command; the gate of an XQ command (R349); a marker (R162) by the
command index of the CC lane that placed it, its MASK, whether that lane itself removes it (R45), and whether it lies beyond a
predicted branch; the start of a loop pass, in the CC order (R156); a transfer in its channel's order (R320). -/
inductive QEntry
  | cmd (c : Cmd)
  | gate (c : Cmd)
  | mark (id : Nat) (mask : BitVec 14) (own spec : Bool)
  | pass (ser j : Nat) (lc : BitVec 2)
  | xfer (id : Nat)
  deriving DecidableEq, Repr

/-- A pending prefix (R68-R71): class, predicate, pattern bits left, the value used, whether it was predicted. -/
structure Pfx where
  cls : Cls
  pred : PReg
  pat : List Bool
  val : Bool
  spec : Bool
  deriving DecidableEq, Repr

/-- A lane of the line being routed: its address, what stands there, and the way the path was taken to go at a branch
(R52, R55). -/
structure LaneBuf where
  addr : Word
  item : LaneItem
  taken : Option Bool
  deriving DecidableEq, Repr

/-- A line as fetch has read it, as one piece (R135): its address, its eight lanes, and the control core's index when its first lane
was routed (R57). -/
structure LineRead where
  addr : Word
  lanes : List Nat
  idx : Nat
  deriving DecidableEq, Repr

/-- Where fetch resumes when a prediction proves wrong (R33), with the line it stands in where that is already read. -/
structure Resume where
  pc : Word
  pfx : List Pfx
  line : Option LineRead
  deriving DecidableEq, Repr

/-- Speculation under one unresolved predicate (R31, R33): the predicate, its predicted value, the CC command that
resolves it, the resolved value once known, where the other path goes (a predicted branch), and a held fault of a line
fetched speculatively (R56). -/
structure Spec where
  pred : PReg
  val : Bool
  writer : Nat
  got : Option Bool
  resume : Option Resume
  held : Option (Trap × Word)
  deriving DecidableEq, Repr

/-- The fetch unit (R23, R52-R57, R69-R71): path position, lanes of the current line still to route, pending prefixes,
branches with a history, the CC command whose transfer fetch awaits, an unanswered `sq.yield`, the end of the path, and the line that the
position lies in where it is already read. -/
structure Fetch where
  pc : Word
  buf : List LaneBuf
  pfx : List Pfx
  hist : List Word
  stall : Option Nat
  yield : Bool
  ended : Bool
  spec : Option Spec
  line : Option LineRead
  deriving DecidableEq, Repr

/-- Registers at the start of a pass (R158). -/
structure Snap where
  x : List Scalar
  p : List Bool
  lc : List (BitVec 32)
  deriving DecidableEq, Repr

/-- One change a lane of a loop made that a roll-back undoes (R158). -/
inductive Undo
  | full (t : Nat) (old : Bool)
  | tokTaken (fifo : Nat)
  | tokSent (fifo : Nat)
  deriving DecidableEq, Repr

/-- An active hardware loop (R155-R160): counter, N, S, stages, first body lane, END, the pass being fetched, whether
fetch has left the body, iterations retired, the remembered re-entry, whether that pass is still to start, the roll-back
under way, whether its cancellation is done and the CC lane that consumed the poison, the first iteration fetched again after it, snapshots of passes, the pass
state of the outer loops at its start, undo records newest first with their iterations. -/
structure Loop where
  ser : Nat
  lc : BitVec 2
  n : Nat
  s : Nat
  stg : Stages
  body : Word
  fin : Word
  pass : Nat
  done : Bool
  retired : Nat
  from_ : Option Nat
  turn : Bool
  roll : Option Nat
  drain : Bool
  ccDrop : Option Nat
  start : Nat
  snaps : AMap Snap
  outer : List (Nat × Bool × Bool)
  undo : List (Nat × Undo)
  deriving DecidableEq, Repr

/-- A write of a command, resolved to the locations it names (R157): bytes of physical memory; elements of a bank; a
reduction at a bank; a semaphore signal (the bytes, or elements, that are poisoned counted from the first; whether the page is PUB and whether it bypasses the L2, as the
translation found it); a copy start, with its store's command index and
lane; a `camo`; the publication of a window. The bank forms are checked again where they are
performed (R241, R281, R308). -/
inductive Effect
  | mem (va : Word) (pa : Nat) (bytes : List Byte) (pois : NSet) (pub nc : Bool)
  | bank (core off : Nat) (fmt : Fmt) (els : List Nat) (pois : NSet) (k0 acc : Nat)
  | red (core off : Nat) (op : Red) (els : List (BitVec 32)) (k0 : Nat)
  | signal (key cnt : Nat)
  | copy (ch : Nat) (w : Word) (ccidx : Nat) (lane : Word)
  | amo (va : Word) (pa : Nat) (op : AmoOp) (sz64 : Bool) (xb cmp : Word) (d : XReg) (pub nc : Bool)
  | publish (win : Nat)
  deriving DecidableEq, Repr

/-- What completes a held write with the Wellhead (R243, R460): nothing, or a seal asked for by its iteration's
retirement. -/
inductive SealWait | no | want | asked (n : Nat)
  deriving DecidableEq, Repr

/-- An entry of a write hold (Table 5.12): the loop, the iteration whose retirement performs it, the engine, its command
and effects; for an XQ command the command itself is accepted then; the BOUND fault of a trapping bank but for the element
(R44), elements per row, whether its iteration has retired, so that it is performed as soon as those before it are, the queues whose later commands
a `qjoin` has put behind it (R109), and the pass of the lane that has since overwritten a held `camo`'s destination (log 48). -/
structure Held where
  ser : Nat
  rel : Nat
  slot : Slot
  cmd : Cmd
  effs : List Effect
  need : SealWait
  base : Trap
  rl : Nat
  due : Bool
  joined : NSet
  overAt : Option Nat
  deriving DecidableEq, Repr

/-- LPSTAT (Table 5.6). -/
structure LpStat where
  lc : BitVec 2
  count : BitVec 16
  iter : BitVec 32
  deriving DecidableEq, Repr

/-- DBGCTL and DBGCMP (Tables 5.7, 5.8), whether the match or line breakpoint that halted the core is passed (R180, R182), whether the DBGCMP
match that halted it is passed, the window's writes that wait for the resume (R181), offset and value, when the halt began, and by
slot the WSC of a wait with the cc it has spent halted (R364). -/
structure Dbg where
  halted : Bool
  brken : Bool
  lbrken : Bool
  cmpen : Bool
  stepeng : BitVec 4
  stepping : Bool
  why : BitVec 2
  bcode : BitVec 14
  passed : Bool
  cmpEng : BitVec 4
  cmpIdx : BitVec 48
  cmpDone : Bool
  writes : List (Nat × Word)
  haltAt : Option Nat
  paused : AMap (Nat × Nat)
  deriving DecidableEq, Repr

/-- A scratchpad bank's descriptor (Tables 1.13, 1.14). -/
structure Bank where
  viol : Bool
  act : BitVec 2
  fmt : Fmt
  hi : BitVec 32
  lo : BitVec 32
  deriving DecidableEq, Repr

/-- A running task, as its dispatch left it (R187, Tables 5.16, 6.8). -/
structure Task where
  id : Nat
  ser : Nat
  recIdx : Nat
  lin : Nat
  idx : List Nat
  replay : Option Nat
  cls : Nat
  ecls : Nat
  gang : Bool
  gpos : Nat
  dstage : Nat
  n0w : Nat
  handle : Word
  bound : Nat
  deriving DecidableEq, Repr

/-- What a core is doing: no task; running; stopped by a fault (R168); at rest to be saved, trapped or not, into an area
(R172). -/
inductive CoreMode
  | idle
  | running
  | stopped
  | resting (trapped : Bool) (area : Option Nat)
  deriving DecidableEq, Repr

/-- A TLB entry (R39): the virtual page's first address, its size, the physical page, and the entry's permission and
attribute bits (Table 1.12). -/
structure TlbEntry where
  va : Nat
  size : Nat
  pa : Nat
  w : Bool
  x : Bool
  nc : Bool
  pub : Bool
  sysat : Bool
  d : Bool
  deriving DecidableEq, Repr

/-- A running nest (R299, R315): its command, runs retired and in all, whether the auto-drain of the last retired run is
still to be made (R314), the bank groups it streams from (R46), and whether it rests after a retirement because the core stops. -/
structure Nest where
  cmd : Cmd
  run : Nat
  runs : Nat
  drain : Bool
  groups : NSet
  rested : Bool
  deriving DecidableEq, Repr

/-- A word of the scale cache (R303): whether it lies in W-space, its location, its value and poison. -/
structure ScaleWord where
  wsp : Bool
  addr : Nat
  v : BitVec 32
  pois : Bool
  deriving DecidableEq, Repr

/-- The matrix engine: shadow and active loop-nest tables (R290; a pending table lies in its command's log entry), the
running nest, MXSTAT, MXINFO's TV, TREG and RUN (Tables 10.7, 10.9), and the scale cache, oldest word first. -/
structure Mx where
  shadow : Vector Word 32
  active : Vector Word 32
  nest : Option Nest
  stat : BitVec 32
  tv : Bool
  treg : BitVec 5
  runs : BitVec 32
  cache : List ScaleWord
  deriving DecidableEq, Repr

/-- Progress of a transfer: in its channel's order; moving, its writes made and its arrivals still to count; faulted. -/
inductive XferPlace | waiting | moving | faulted
  deriving DecidableEq, Repr

/-- A journal entry (R339) and the transfer's progress: ID, template, PARAM, CC index and lane of its store; arrivals
not yet counted (core, offset, bytes); bytes counted in the current generation, and that generation (R335); and as its checks have resolved
them, its formats, the source row of each row, and whether its rows are still to move (R326, R327). -/
structure Xfer where
  id : Nat
  tn : Nat
  data : Word
  ccidx : Nat
  lane : Word
  place : XferPlace
  arr : List Nat
  sw : Option (Nat × Nat)
  counted : Nat
  gen : Nat
  scope : Nat
  f : Fmt
  d : Fmt
  ix : List Nat
  todo : Bool
  deriving DecidableEq, Repr

/-- The copy engine: templates as eight doublewords (R323; unlisted is zero), journals, CHNEXT and CHDONE, and CPINFO's
TENT, TDW, TV and BFLAG (Table 11.8). -/
structure Cp where
  tmpl : AMap (List Word)
  jrn : Vector (List Xfer) 8
  next : Vector (BitVec 32) 8
  done : Vector (BitVec 32) 8
  tent : BitVec 6
  tdw : BitVec 4
  tv : Bool
  bflag : Bool
  deriving DecidableEq, Repr

/-- Shadow state of run-ahead (R31, R32): shadow tiles written, those full, tiles pending-empty, shadow accumulators,
tokens pending-removed by FIFO, token sends held in completion order, commands completed on the prediction by slot, and
the changes to note for a roll-back when they commit; VXINFO bits, banks whose VIOL and MXSTAT bits that a commit sets (R256, R313). -/
structure Shadow where
  tiles : AMap Tile
  full : NSet
  pend : NSet
  accs : AMap Acc
  taken : AMap Nat
  sends : List (Slot × Nat × List IterTag)
  redo : AMap (List Cmd)
  undo : List (List IterTag × Undo)
  vx : NSet
  viols : NSet
  mxbits : NSet
  deriving DecidableEq, Repr

/-- Engine registers that no other field holds: LDINFO (Table 7.4), STINFO (Table 8.7), VXINFO (Table 9.8), each with its STALL, GPSTAT
(Table 6.7a), ATINFO and FXINFO tags (Tables 14.8, 15.6), FXLERR (Table 15.7), ESTEP, and for TCNT the cc counted before the task
came to its core and the quadrant's count then (Table 17.6). -/
structure EngRegs where
  wrem : BitVec 16
  pubn : BitVec 16
  stBflag : Bool
  vxBflag : Bool
  vxIsat : Bool
  vxOvf : Bool
  vxNang : Bool
  gpStale : Bool
  gpSlot : BitVec 6
  qtag : BitVec 16
  ftag : BitVec 16
  fxlerr : Word
  estep : BitVec 8
  hot : Nat
  hot0 : Nat
  stallLd : BitVec 16
  stallSt : BitVec 16
  stallVx : BitVec 16
  deriving DecidableEq, Repr

/-- An XQ command that its unit has accepted and not yet completed (R127, R165): unit code of Table 5.4, command, and
the moment of acceptance. -/
structure XqOut where
  unit : Nat
  cmd : Cmd
  since : Nat
  deriving DecidableEq, Repr

/-- A triple of R415: m and l as FP32 encodings, o's 128 elements. -/
structure Tri where
  m : Nat
  l : Nat
  o : List Nat
  deriving DecidableEq, Repr

/-- An outstanding `aq.send` (R417, R421, R423): command index, TD's tile, status address, query tag, status, VALUE, the triples
that each chiplet contributed for each query (none: lost), the merge points that have emitted (0 and 1 the first, 2 the root),
the blocks its snapshot reads (owner, layer, b), and since when. -/
structure AtOp where
  idx : Nat
  td : Nat
  stat : Option Nat
  tag : Nat
  status : Nat
  value : Nat
  trip : List (Option (List (Option Tri)))
  done : NSet
  reads : List (Nat × Nat × Nat)
  since : Nat
  deriving DecidableEq, Repr

/-- Where an outstanding collective command stands (R441, R445): on its way, counted in its round, answered. -/
inductive FxPlace | flying | counted | answered
  deriving DecidableEq, Repr

/-- An outstanding collective command (R440-R445): command index, FTAG, its word's CID, SEQ, NP, RANK, ROOT, NEL and DOM, operation
(0 `fx.bc`, 1 `fx.ar`, 2 `fx.rd`, 3 `fx.amax`) and RED, TS's tag, TD's tile and status address where used, the elements it
contributes (of `fx.amax` its candidate), its place, and the answer: status, VALUE, mask, tag and elements. -/
structure FxOp where
  idx : Nat
  ftag : Nat
  cid : Nat
  seq : Nat
  np : Nat
  rank : Nat
  root : Nat
  nel : Nat
  dom : Bool
  op : Nat
  red : Red
  tag : Fmt
  td : Option Nat
  stat : Option Nat
  els : List Nat
  place : FxPlace
  status : Nat
  value : Nat
  mask : Nat
  rtag : Fmt
  res : List Nat
  deriving DecidableEq, Repr

/-- A staged image (R191): the record's serial, and the task descriptor as it was loaded (none: it could not be read). The body's lines are
read again when they are fetched (R135, log 52). -/
structure Staged where
  ser : Nat
  desc : Option (List Byte)
  deriving DecidableEq, Repr

/-- One core (Table 1.4). Beside what its fields name: `rcNext` and `rcMore`, the control core and the queues joined to it whose next write
is a release at recovery scope (R117, R151); `fence`, that a full fence holds the next lane of the control core (R151); `trapAt`, when the
recorded fault was reported (R170); `stallAt`, since when the matrix engine's streaming stalls an engine (R46); `replays`, channel and ID of the
transfers that a restore replays before any engine starts (R179); `gapWas`, for each `sysw` to PACE.e that commands routed before it have
passed: its place in fetch order, e, and the GAP it replaced (R483); `paceAt`, when each engine took its last command, at 6 when fetch took
its last line (R482, R491). -/
structure Core where
  mode : CoreMode
  task : Option Task
  fetch : Fetch
  qs : Vector (List QEntry) 14
  cidx : Vector Nat 7
  x : Vector Scalar 32
  p : Vector Bool 8
  lc : Vector (BitVec 32) 4
  trap : TrapRec
  lpstat : LpStat
  livebk : BitVec 16
  livetl : BitVec 64
  dbg : Dbg
  tiles : Vector Tile 64
  toks : Vector Nat 8
  unsent : List (Slot × Nat × List IterTag)
  accs : Vector Acc 8
  sh : Shadow
  sp : Bytes
  spPois : NSet
  banks : Vector Bank 16
  loops : List Loop
  serial : Nat
  holds : List Held
  waits : AMap Wait
  tlb : List TlbEntry
  regs : EngRegs
  wbuf : List Nat
  gap : Vector (BitVec 8) 6
  gapWas : List (Nat × Nat × BitVec 8)
  paceAt : AMap Nat
  member : Bool
  staged : Option Staged
  exiting : Option (BitVec 8)
  rcNext : Bool
  rcMore : NSet
  fence : Bool
  trapAt : Nat
  stallAt : AMap Nat
  replays : List (Nat × Nat)
  xq : List XqOut
  atq : List AtOp
  fxq : List FxOp
  mx : Mx
  cp : Cp
  deriving DecidableEq, Repr

/-- A loop-nest record as read (Table 6.1). -/
structure Record where
  entry : Word
  ndim : Nat
  gang : Bool
  cls : Nat
  bflag : Bool
  dstage : Nat
  dscale : Bool
  livev : Bool
  order : List Nat
  n : List Nat
  arg0 : Word
  arg1 : Word
  livetl : Word
  livebk : BitVec 16
  npred : Nat
  succ : List Nat
  deriving DecidableEq, Repr

/-- Where a live record stands (R193): awaiting predecessors, in the ready list, in its class queue, bound, complete. -/
inductive RecPlace | preds | ready | queued | bound | complete
  deriving DecidableEq, Repr

/-- A live record: its index, fields, replay, predecessors left, place, next iteration, walked count of dimension 0 once
its walk has begun, tasks bound and not exited, largest STATUS, whether a task was aborted, the moment w counts from, its place
in the order of entry into queues, and the weight-set handle its submission latched (R380). -/
structure RecLive where
  idx : Nat
  rcd : Record
  replay : Option Nat
  rem : Nat
  place : RecPlace
  next : Nat
  n0w : Option Nat
  out : Nat
  status : Nat
  aborted : Bool
  since : Nat
  qseq : Nat
  handle : Word
  deriving DecidableEq, Repr

/-- A live replay (R199, R200): its number, the draft stages that have run in it (R204), the largest status of its complete
records, whether one ended ABORTED or SKIPPED, and the weight-set handle it latched (R380). -/
structure ReplayLive where
  m : Nat
  stages : NSet
  status : Nat
  odd : Bool
  handle : Word
  deriving DecidableEq, Repr

/-- A hardware barrier slot (R348, R353). -/
structure BarSlot where
  alloc : Bool
  tag : BitVec 16
  init : Bool
  expect : Nat
  arrived : Nat
  phase : BitVec 16
  tcomp : Word
  part : Nat
  deriving DecidableEq, Repr

/-- A pending wait at a unit (R359, R360): core, engine, command index, the phase or count waited for, and once the completion of its phase is
notified to its die, when it resumes. -/
structure UnitWait where
  core : Nat
  slot : Slot
  idx : Nat
  arg : Nat
  due : Option Nat
  deriving DecidableEq, Repr

/-- A semaphore and its pending waits in order of arrival (R360). -/
structure Sem where
  value : BitVec 32
  sat : Bool
  waits : List UnitWait
  deriving DecidableEq, Repr

/-- State of a saved context (R197, R198). -/
inductive CtxPlace | resume | trapped | lost
  deriving DecidableEq, Repr

/-- A saved context: its area, the core state that the area's undescribed regions hold (log 10), its place, since when, the core it was
saved from, and of a gang's first member the cluster's slots and semaphores by their numbers (R346). -/
structure Ctx where
  area : Nat
  core : Core
  place : CtxPlace
  since : Nat
  home : Nat
  bars : AMap BarSlot
  sems : AMap Sem
  deriving DecidableEq, Repr

/-- A submission waiting in the scheduler for queue room (R208). -/
structure HeldSub where
  core : Nat
  cmd : Cmd
  rcd : Record
  replay : Option Nat
  stat : Option Nat
  deriving DecidableEq, Repr

/-- A device patch waiting in the scheduler (R202). -/
structure HeldPatch where
  core : Nat
  cmd : Cmd
  p : Nat
  slot : Nat
  v : Word
  deriving DecidableEq, Repr

/-- A partition's scheduler (R184-R213): records by serial number, class queues of serials, ready list, replays, latest
replay L, counters, gp slots of both banks and those patched for replay L + 1, acceptance counters, saved contexts, save-area
pool, waiting operations, cores with a pre-emption requested (by a sq.yield or not), FCAST per die and when it was written. -/
structure Sched where
  recs : AMap RecLive
  queues : Vector (List Nat) 4
  ready : List Nat
  replays : List ReplayLive
  latest : Nat
  serial : Nat
  subIdx : Nat
  taskCnt : Nat
  gp : AMap Word
  patched : NSet
  qseq : Nat
  ac : Vector (BitVec 16) 3
  ctxs : List Ctx
  pool : NSet
  poolBusy : NSet
  heldSubs : List HeldSub
  heldPatches : List HeldPatch
  heldReplay : Option (Nat × Nat)
  preempts : List (Nat × Bool)
  fcast : AMap Word
  fcastAt : Nat
  deriving DecidableEq, Repr

/-- A publication window (Table 8.5). -/
structure PubWin where
  base : Word
  len : Nat
  cntpa : Word
  deriving DecidableEq, Repr

/-- A region of the checkpoint domain (Table 16.1), LEN in 2 MiB units. -/
structure CkRegion where
  wbase : Nat
  len : Nat
  mira : Nat
  mirb : Nat
  deriving DecidableEq, Repr

/-- A release at recovery scope that has asked for a seal (R460): its ticket, its core, engine and command, its own write, and whether
its task is gone. -/
structure RcRelease where
  n : Nat
  core : Nat
  slot : Slot
  cmd : Cmd
  own : List Effect
  gone : Bool
  deriving DecidableEq, Repr

/-- A seal past its snapshot S (R459): S, the granules and recovery-point lines logged, the releases it serves. -/
structure SealRun where
  at_ : Word
  gran : AMap (List Byte)
  lines : AMap (Word × Word)
  serves : List RcRelease
  deriving DecidableEq, Repr

/-- The checkpoint domain (R456-R470): regions, last epoch and its TSEAL; granules (PA / 256) dirty since the last
snapshot; the contents at the last epoch of every granule written since; granules held by a `camo` at `.rc`; the seal
under way; releases that ask for one, tickets given and their answers; recovery-point lines sealed and pending; CKSTAT's
STATE, TORN, CDIE, NCONT. -/
structure Ck where
  regions : List CkRegion
  epoch : Word
  tseal : Word
  dirty : NSet
  old : AMap (List Byte)
  locked : NSet
  run : Option SealRun
  asks : List RcRelease
  ticket : Nat
  answers : AMap Bool
  sealedLn : AMap (Word × Word)
  pendLn : AMap (Word × Word)
  st : BitVec 2
  torn : Bool
  cdie : BitVec 2
  ncont : BitVec 16
  deriving DecidableEq, Repr

/-- The Cistern (R370): bytes of the cells that serve W-space, by W-space address; valid words; 1 KiB codewords with an
uncorrectable error (R49); wear by cell (a word's own number, or 2^30 + 16,384 x slice + n for spare n); the spare that serves
a word; spares used; the bulk clears, each of which wore every cell once. -/
structure Cistern where
  data : Bytes
  valid : NSet
  bad : NSet
  wear : AMap Nat
  remap : AMap Nat
  used : NSet
  clears : Nat
  deriving DecidableEq, Repr

/-- The notification of a barrier's latest completion at a die: when it came, and STAGGER then (R358, R359). -/
structure Note where
  key : Nat
  die : Nat
  at_ : Nat
  gm1 : BitVec 4
  delta : BitVec 8
  deriving DecidableEq, Repr

/-- The sync units of the package (R345-R360): hardware slots and semaphores by number (`slotKey`, `semKey`), pending
waits of each barrier, the notification of its latest completion at each die, and notifications under way: barrier, die, the PHASE
completed to; what SY last wrote to each memory barrier's word (R355). -/
structure Sync where
  bars : AMap BarSlot
  sems : AMap Sem
  waits : List (Nat × UnitWait)
  notes : List Note
  pend : List (Nat × Nat × Nat)
  words : AMap Nat
  deriving DecidableEq, Repr

/-- States of a weight set (Table 13.3). -/
inductive SetSt | free | opened | sealed | part
  deriving DecidableEq, Repr

/-- An entry of the set table (R379): its state and GEN; the chunk table as first words and leaves; chunks programmed; ROOT and
SETID. -/
structure WSet where
  st : SetSt
  gen : BitVec 16
  chunks : List (Nat × List Byte)
  prog : NSet
  root : List Byte
  setid : List Byte
  deriving DecidableEq, Repr

/-- A queued Pump job (R382): its place in Pump order, the Pump's die, issuing core and task, its command, the block's address,
and what its block held at acceptance. -/
structure Job where
  order : Nat
  die : Nat
  core : Nat
  task : Nat
  instr : Instr
  xa : Word
  xb : Word
  handle : Word
  waddr : Word
  count : Nat
  arg : Word
  deriving DecidableEq, Repr

/-- The Pumps of a partition and its set table, by entry (R379, R384): jobs queued, jobs accepted since reset, and the ended
opens by task, place in Pump order and the handle each gave. -/
structure Pump where
  sets : AMap WSet
  jobs : List Job
  cnt : Nat
  opens : List (Nat × Nat × Option Word)
  deriving DecidableEq, Repr

/-- A token's key and value (R404): 128 BF16 elements each, and whether either is poisoned. -/
structure KvTok where
  k : BitVec 2048
  v : BitVec 2048
  pois : Bool
  deriving DecidableEq, Repr

/-- An entry of a chiplet's inverted table with its block (R404, R405): OWNER, LAYER, b, the bucket (none: the overflow list),
ABSENT, and the tokens written, by 64 x head group + position. -/
structure KvBlock where
  owner : Nat
  layer : Nat
  b : Nat
  bucket : Option Nat
  absent : Bool
  toks : AMap KvTok
  deriving DecidableEq, Repr

/-- States of a sequence (Table 14.1). -/
inductive SeqSt | free | live | stopped
  deriving DecidableEq, Repr

/-- A sequence descriptor (Table 14.1): NPEND is the number of pending nodes, listed in position order; the defined nodes with
their parents; tree blocks by layer, each by 64 x head group + node. -/
structure Seq where
  st : SeqSt
  len : Nat
  pfx : Nat
  plen : Nat
  ncomp : Nat
  nodes : AMap Nat
  pend : List Nat
  tree : AMap (AMap KvTok)
  deriving DecidableEq, Repr

/-- States of a prefix (R409). -/
inductive PfxSt | free | live | evicting
  deriving DecidableEq, Repr

/-- A prefix descriptor (R409). -/
structure Prefix where
  st : PfxSt
  gen : BitVec 12
  plen : Nat
  ref : Nat
  deriving DecidableEq, Repr

/-- A freed block that snapshots still read (R408): its owner, and the outstanding `aq.send`s as core and command index. -/
structure Dying where
  owner : Nat
  users : List (Nat × Nat)
  deriving DecidableEq, Repr

/-- The attention state of a partition (R403-R412): by chiplet index the blocks and the freed ones not yet back in the pool;
sequences, prefixes. -/
structure Kv where
  blocks : AMap (List KvBlock)
  dying : AMap (List Dying)
  seqs : AMap Seq
  prefixes : AMap Prefix
  deriving DecidableEq, Repr

/-- An open collective round (R441): key, attributes, when it opened, and the ranks counted: rank, whether intact, core, command
index, elements. -/
structure Round where
  cid : Nat
  seq : Nat
  dom : Bool
  np : Nat
  root : Nat
  nel : Nat
  op : Nat
  red : Red
  tag : Fmt
  opened : Nat
  ranks : List (Nat × Bool × Nat × Nat × List Nat)
  deriving DecidableEq, Repr

/-- The collective rounds of a partition, or of the domain: open ones, and DONE of each CID with a completed round. -/
structure Rounds where
  open_ : List Round
  done : AMap Nat
  deriving DecidableEq, Repr

/-- States of a link (R436, R450). -/
inductive LinkSt | up | degraded | retrain | down | absent
  deriving DecidableEq, Repr

/-- A die's end of a link (R436, R450): state, modules or lanes running, flits replayed, replays of the flit at hand, retrains,
packets lost, and the CYCLE of the last state change. -/
structure Link where
  st : LinkSt
  mods : Nat
  replays : Nat
  run : Nat
  retrains : Nat
  lost : Nat
  at_ : Nat
  deriving DecidableEq, Repr

/-- Host-set registers of a partition (R499, Table 18.7): MXKMAX, ACTHR, PREWAIT, WTMO, PACE FLOORs, GATECTL, FXTMO,
FXDOM, ATGEO, least throttle level, QoS share, domain collectives. -/
structure PartRegs where
  mxkmax : BitVec 16
  acthr : BitVec 48
  prewait : BitVec 16
  wtmo : BitVec 32
  floors : Vector (BitVec 8) 6
  gatectl : Word
  fxtmo : Word
  fxdom : Word
  atgeo : Word
  throttle : BitVec 8
  qos : BitVec 8
  domColl : Bool
  deriving DecidableEq, Repr

/-- A partition (R504): whether it exists, its dies, its reset's CYCLE base, page-table root, registers, scheduler,
publication windows, checkpoint domain, active weight-set handle (R379), Pumps,
attention state, collective rounds, route table (R437; by number, log 18), and the core its debug window presents (R514). -/
structure Part where
  dies : List Nat
  base : Nat
  root : Option Nat
  regs : PartRegs
  sched : Sched
  pubw : Vector PubWin 16
  ck : Ck
  handle : Word
  pump : Pump
  kv : Kv
  rounds : Rounds
  route : Option Nat
  dbgsel : Option Nat
  deriving DecidableEq, Repr

/-- A cached line (R40, R41): its non-zero bytes (none: the zero flag) and whether it is dirty. -/
structure L2Line where
  data : Bytes
  dirty : Bool
  deriving DecidableEq, Repr

/-- A quadrant's regulator and sensor (R485, R491): the last temperature, the thermal level, since when the temperature has been
low enough for the next level down, when the current cause began, and for TCNT the cc spent above level 0 until `hotAt`. -/
structure Quad where
  temp : BitVec 8
  lvl : Nat
  below : Option Nat
  cur : Option Nat
  hot : Nat
  hotAt : Nat
  deriving DecidableEq, Repr

/-- A dense die: whether it is up, its L2 by line number, STAGGER's GM1 and DELTA (Table 12.5), its quadrants. -/
structure Die where
  up : Bool
  l2 : AMap L2Line
  gm1 : BitVec 4
  delta : BitVec 8
  quads : Vector Quad 4
  deriving DecidableEq, Repr

/-- An attention chiplet: its KV region in device memory (R404), as base and length. -/
structure Chiplet where
  up : Bool
  kvBase : Nat
  kvLen : Nat
  deriving DecidableEq, Repr

/-- Who moves next (log 3): an event on a core and partition; an engine of a core; the start of an engine's next command while earlier ones are in
flight (R214, R253); a core's fetch, and the first command it routes; time. -/
inductive Turn
  | ev (core part : Nat) (irq : Bool) (i : Instr)
  | run (core : Nat) (slot : Slot)
  | early (core : Nat) (slot : Slot)
  | fetch (core : Nat)
  | elapse (n : Nat)
  deriving DecidableEq, Repr

/-- An event record (R502). -/
structure Event where
  code : Nat
  part : Nat
  cycle : Nat
  arg0 : Word
  arg1 : Word
  deriving DecidableEq, Repr

/-- A command in progress in a window (R497): its code, IRQ, captured arguments, when it began, and the status it will end
with where that is already known. -/
structure Running where
  code : Nat
  irq : Bool
  args : List Word
  since : Nat
  status : Option Nat
  deriving DecidableEq, Repr

/-- A launch window or the module window (Table 18.2): arguments, CMD, STAT's STATUS and VALUE, ring registers, whether the ring
is set, the events kept until then, DROP's two counts, and the command in progress. -/
structure Window where
  args : Vector Word 4
  cmd : BitVec 9
  status : BitVec 8
  value : BitVec 32
  evbase : Word
  evsize : Word
  evhead : Word
  evtail : Word
  isSet : Bool
  kept : List Event
  dropCmd : BitVec 32
  dropEv : BitVec 32
  run : Option Running
  deriving DecidableEq, Repr

/-- A record of the boot journal (R508): step, outcome, the alternative named for the next start, CYCLE's bits 39:0, and of the test of the
cluster sites the names that no site bears (R18; 32 x die + 8 x quadrant + c). -/
structure JournalRec where
  step : Nat
  outcome : Nat
  alt : Nat
  cycle : Nat
  map : List Nat
  deriving DecidableEq, Repr

/-- The lifetime records (Table 18.14), by numbers the model gives their granules: temperatures, voltages, corrected and
uncorrectable errors, die resets by cause; triggers ignored. -/
structure Life where
  temps : AMap Nat
  volts : AMap Nat
  corr : AMap Nat
  uncorr : AMap Nat
  resets : AMap Nat
  ignored : AMap Nat
  deriving DecidableEq, Repr

/-- A signed group of configuration rows (R509): its version and image, and the image that takes effect at the next start. -/
structure RowGroup where
  version : Nat
  image : List Byte
  next : Option (List Byte)
  deriving DecidableEq, Repr

/-- The configuration rows (R509, Table 18.12): the two signed groups; of the owner's group in effect the set-signing key pairs, DEBUGEN
and the default partition mode; the journals of the last eight starts, newest first; whether a scrub is marked in progress; the
lifetime records as last written. -/
structure Rows where
  vendor : RowGroup
  owner : RowGroup
  keys : List (List Byte × List Byte)
  debugen : Bool
  mode : Nat
  journals : List (List JournalRec)
  scrub : Bool
  life : Life
  deriving DecidableEq, Repr

/-- Snapshots (R512): whether SNAPSET is still unanswered by a trigger, its buffer and mask, and what the trigger latched: its CYCLE and
the cores as they stood. -/
structure SnapSt where
  armed : Bool
  buf : Word
  mask : Word
  latch : Option (Word × AMap Core)
  deriving DecidableEq, Repr

/-- A response of the module's SPDM responder (R510, R511), as its contents; the message formats are the standard's (log 20). -/
inductive SpdmResp
  | version (vs : List Nat)
  | capabilities
  | algorithms (sel : Nat)
  | digests (d : List Byte)
  | certificate (part : List Byte) (left : Nat)
  | challenge (nonce : BitVec 256) (digest sig sig2 : List Byte)
  | measurements (nonce : BitVec 256) (blocks : List (Nat × List Byte)) (sig sig2 : List Byte)
  | busy
  | unsupported (code : Nat)
  deriving DecidableEq, Repr

/-- The state of a module: `starting` says that the turn at hand only starts its command, `sites` the site (s0-s8) of each named cluster of a die
(R18; by 32 x die + 8 x quadrant + c, unlisted: the site of its own number; 16 + c where no site bears the name), `links` by die x 8 + LNK, `domain` the rounds with DOM = 1 (R441), `wins` are the launch windows 0-3 and the module window 4, `msix` the interrupt vectors sent,
`gated` the gated clusters and `spills` the L2 slots that each took when it was gated (R487), `busyAt` when a cluster was last not eligible for
gating (R486), `phase`, `alts` and `hxerr` MODSTAT's fields (Table 18.11), `seen` what the host's last access
through a window or CXL.mem returned, `doe` the responder's last answer, `talk` the requests and answers since GET_VERSION, `mode` the
partition mode in effect, `health` the last test's status and failing units (R517). -/
structure State where
  now : Nat
  picks : Nat
  cur : Nat
  slot : Slot
  cmd : Cmd
  part : Nat
  irq : Bool
  stalled : Bool
  starting : Bool
  agenda : List Turn
  mem : Bytes
  memPois : NSet
  unpub : AMap (Nat × Byte)
  sync : Sync
  cist : Cistern
  disabled : NSet
  sites : AMap Nat
  cores : AMap Core
  parts : Vector Part 4
  dies : Vector Die 4
  chips : Vector Chiplet 4
  links : AMap Link
  domain : Rounds
  wins : Vector Window 5
  msix : List Nat
  gated : NSet
  spills : AMap Nat
  busyAt : AMap Nat
  phase : BitVec 3
  alts : BitVec 8
  hxerr : BitVec 32
  seen : List Byte
  rows : Rows
  life : Life
  snap : SnapSt
  doe : Option SpdmResp
  talk : List Byte
  mode : Nat
  health : Nat × Nat
  deriving DecidableEq, Repr

/-- Why the machine stops without a next state. -/
inductive Fault
  /-- An event of the agenda cannot occur in this state: raised by the event meanings when the condition that the spec
  gives for the event does not hold. Safe: the hardware has no such step. -/
  | notEnabled
  deriving DecidableEq, Repr

/-- Why a meaning refuses. -/
inductive Refusal
  /-- Raised by a dispatch arm whose instruction has no meaning yet. Safe: nothing can be proved of it. -/
  | notModelled (mnemonic : String)
  deriving DecidableEq, Repr

/-- A clean zero scalar. -/
def Scalar.zero : Scalar := ⟨0, false⟩
/-- An empty tile at dispatch: empty, zero, FP32 (R25). -/
def Tile.empty : Tile := ⟨false, .f32, [], []⟩
/-- An accumulator at dispatch: +0 (R289). -/
def Acc.zero : Acc := ⟨[], []⟩
/-- A clear trap record (R140). -/
def TrapRec.zero : TrapRec := ⟨0, 0, 0, 0, 0, 0, 0⟩
/-- The command in hand before any is performed. -/
def Cmd.nil : Cmd := ⟨.nop, 0, 0, 0, [], .none, [], false, [], none, 0, [], false⟩
/-- Fetch of a core without a task. -/
def Fetch.reset : Fetch := ⟨0, [], [], [], none, false, true, none, none⟩
/-- A bank without a `.bank` directive: RAW, action off (R42). -/
def Bank.raw : Bank := ⟨false, 0, .raw, 0, 0⟩
/-- No run-ahead. -/
def Shadow.nil : Shadow := ⟨[], [], [], [], [], [], [], [], [], [], []⟩
/-- Engine registers at dispatch: zero. -/
def EngRegs.zero : EngRegs := ⟨0, 0, false, false, false, false, false, false, 0, 0, 0, 0, 0, 0, 0, 0, 0, 0⟩
/-- The matrix engine at dispatch (R289, R290). -/
def Mx.reset : Mx := ⟨Vector.replicate 32 0, Vector.replicate 32 0, none, 0, false, 0, 0, []⟩
/-- The copy engine at dispatch (R323, R329): templates zero, CHNEXT 1, CHDONE 0. -/
def Cp.reset : Cp := ⟨[], Vector.replicate 8 [], Vector.replicate 8 1, Vector.replicate 8 0, 0, 0, false, false⟩

/-- A core without a task: every register at its dispatch value (log 5). -/
def Core.reset : Core where
  mode := .idle
  task := none
  fetch := Fetch.reset
  qs := Vector.replicate 14 []
  cidx := Vector.replicate 7 0
  x := Vector.replicate 32 Scalar.zero
  p := Vector.replicate 8 false
  lc := Vector.replicate 4 0
  trap := TrapRec.zero
  lpstat := ⟨0, 0, 0⟩
  livebk := BitVec.allOnes 16
  livetl := BitVec.allOnes 64
  dbg := ⟨false, false, false, false, 0, false, 0, 0, false, 0, 0, false, [], none, []⟩
  tiles := Vector.replicate 64 Tile.empty
  toks := Vector.replicate 8 0
  unsent := []
  accs := Vector.replicate 8 Acc.zero
  sh := Shadow.nil
  sp := []
  spPois := []
  banks := Vector.replicate 16 Bank.raw
  loops := []
  serial := 0
  holds := []
  waits := []
  tlb := []
  regs := EngRegs.zero
  wbuf := []
  gap := Vector.replicate 6 0
  gapWas := []
  paceAt := []
  member := false
  staged := none
  exiting := none
  rcNext := false
  rcMore := []
  fence := false
  trapAt := 0
  stallAt := []
  replays := []
  xq := []
  atq := []
  fxq := []
  mx := Mx.reset
  cp := Cp.reset

/-- Host-set registers at partition reset (Tables 6.6, 10.8, 17.3, 17.4, 15.5, 14.7; R364). -/
def PartRegs.reset : PartRegs :=
  ⟨512, 0, 32, 0x10000, Vector.replicate 6 0, 0x10010, 1000, 0, 0, 0, 64, false⟩

/-- The scheduler at partition reset (R201, R203, R506). -/
def Sched.reset : Sched where
  recs := []
  queues := Vector.replicate 4 []
  ready := []
  replays := []
  latest := 0
  serial := 0
  subIdx := 0
  taskCnt := 0
  gp := []
  patched := []
  qseq := 0
  ac := Vector.replicate 3 0x8000
  ctxs := []
  pool := []
  poolBusy := []
  heldSubs := []
  heldPatches := []
  heldReplay := none
  preempts := []
  fcast := []
  fcastAt := 0

/-- No checkpoint domain (Table 16.4). -/
def Ck.reset : Ck := ⟨[], 0, 0, [], [], [], none, [], 0, [], [], [], 0, false, 0, 0⟩

/-- A partition of the given dies after its reset. -/
def Part.reset (ds : List Nat) : Part where
  dies := ds
  base := 0
  root := none
  regs := PartRegs.reset
  sched := Sched.reset
  pubw := Vector.replicate 16 ⟨0, 0, 0⟩
  ck := Ck.reset
  handle := 0
  pump := ⟨[], [], 0, []⟩
  kv := ⟨[], [], [], []⟩
  rounds := ⟨[], []⟩
  route := none
  dbgsel := none

/-- A die after reset: its L2 empty (log 5), STAGGER as Table 12.5. -/
def Die.reset : Die := ⟨true, [], 7, 64, Vector.replicate 4 ⟨0, 0, none, none, 0, 0⟩⟩

/-- A chiplet after reset: no KV region. -/
def Chiplet.reset : Chiplet := ⟨true, 0, 0⟩

/-- A window after its reset (R503, Tables 18.2-18.4). -/
def Window.reset : Window := ⟨Vector.replicate 4 0, 0, 0, 0, 0, 64, 0, 0, false, [], 0, 0, none⟩

/-- Lifetime records of a part that has counted nothing. -/
def Life.zero : Life := ⟨[], [], [], [], [], []⟩
/-- A group of rows without an image. -/
def RowGroup.empty : RowGroup := ⟨0, [], none⟩
/-- The configuration rows of a part without installed images (log 5). -/
def Rows.reset : Rows := ⟨RowGroup.empty, RowGroup.empty, [], false, 0, [], false, Life.zero⟩

/-- The module right after reset: power has come, no start step has run. -/
def State.reset : State where
  now := 0
  picks := 0
  cur := 0
  slot := 0
  cmd := Cmd.nil
  part := 0
  irq := false
  stalled := false
  starting := false
  agenda := []
  mem := []
  memPois := []
  unpub := []
  sync := ⟨[], [], [], [], [], []⟩
  cist := ⟨[], [], [], [], [], [], 0⟩
  disabled := []
  sites := []
  cores := []
  parts := #v[Part.reset [0, 1, 2, 3], Part.reset [], Part.reset [], Part.reset []]
  dies := Vector.replicate 4 Die.reset
  chips := Vector.replicate 4 Chiplet.reset
  links := []
  domain := ⟨[], []⟩
  wins := Vector.replicate 5 Window.reset
  msix := []
  gated := []
  spills := []
  busyAt := []
  phase := 0
  alts := 0
  hxerr := 0
  seen := []
  rows := Rows.reset
  life := Life.zero
  snap := ⟨false, 0, 0, none⟩
  doe := none
  talk := []
  mode := 0
  health := (0, 0)

end Sys2Proof.Machine
end

