-- ==== Sys2Proof/Machine/Ops.lean ====
section
/-! DEFINITION. The named operations over the state that the meanings share: registers, tiles, tokens, memory and its
translation, scratchpad and its bounds checks, held writes, taking a fault, and the end of a command. -/

namespace Sys2Proof.Machine

/-! ### Codes -/

/-- The code of a fault class (Table 5.10). -/
def FaultClass.code : FaultClass → Nat
  | .illegal => 0x01 | .illegalLine => 0x02 | .illegalLane => 0x03 | .illegalZero => 0x04
  | .align => 0x08 | .page => 0x09 | .perm => 0x0A | .wspace => 0x0B | .atomscope => 0x0C
  | .bankconf => 0x10 | .bound => 0x11 | .mxkmax => 0x12 | .poison => 0x18 | .loopue => 0x19
  | .syncover => 0x20 | .syncfault => 0x21 | .waittmo => 0x22 | .token => 0x23 | .cktorn => 0x28 | .link => 0x29

/-- TRAPENG.ENG of an engine slot (Table 5.4): CC 1, LD 2, ST 3, VX 4, MX 5, CP 6, XQ 7. -/
def slotEng (k : Slot) : Nat := if k < 5 then k + 1 else if k = 5 then 7 else 6
/-- TRAPENG.CHAN of an engine slot. -/
def slotChan (k : Slot) : Nat := if 6 ≤ k then k - 6 else 0
/-- The command-index counter of an engine slot: CC, LD, ST, VX, MX, XQ, CP. -/
def slotCtr (k : Slot) : Fin 7 := if k < 6 then ⟨k % 7, Nat.mod_lt _ (by decide)⟩ else 6
/-- The slot of a class, CP lanes excepted. -/
def clsSlot : Cls → Slot
  | .cc => 0 | .ld => 1 | .st => 2 | .vx => 3 | .mx => 4 | .xq => 5 | .cp => 6
/-- The opcode of an instruction word. -/
def opOf (raw : Word) : Nat := bits raw.toNat 24 8

/-! ### The step monad: a state, or a reason why the command in hand does not complete -/

/-- Why a command does not complete in this step: it faults; a held write of another command faults as it is performed
(R157); it waits; it waits, or faults, with a part of its effect performed; the matrix engine's streaming stalls it (R46); an address missed
in the TLB. -/
inductive Stop
  | trap (t : Trap)
  | held (s : State) (t : Trap) (idx : Nat) (lane : Word)
  | wait (w : Wait)
  | started (s : State) (w : Wait)
  | part (s : State) (t : Trap)
  | stall
  | miss (va : Word) (write : Bool) (mk : FaultClass → Word → Trap)

/-- A computation of a command. -/
abbrev M := StateT State (Except Stop)

/-- Raise a fault. -/
def raise {α : Type} (t : Trap) : M α := throw (.trap t)
/-- Wait: KIND, WSA, SUB and ARG of Table 12.7. -/
def waitFor {α : Type} (kind : Nat) (wsa : Word := 0) (sub arg : Nat := 0) : M α := throw (.wait ⟨kind, sub, arg, wsa, 0⟩)

/-- A state of a core's number, its dispatch values where it has none listed. -/
def State.core (s : State) (k : Nat) : Core := amGet Core.reset s.cores k
/-- The state with a core replaced. -/
def State.setCore (s : State) (k : Nat) (c : Core) : State := { s with cores := amSet s.cores k c }
/-- The state with a core changed. -/
def State.updCore (s : State) (k : Nat) (f : Core → Core) : State := s.setCore k (f (s.core k))
/-- The state with a partition changed. -/
def State.updPart (s : State) (p : Nat) (f : Part → Part) : State :=
  if h : p < 4 then { s with parts := s.parts.set p (f s.parts[p]) h } else s
/-- A partition. -/
def State.getPart (s : State) (p : Nat) : Part := s.parts.getD p (Part.reset [])
/-- The state with a die changed. -/
def State.updDie (s : State) (d : Nat) (f : Die → Die) : State :=
  if h : d < 4 then { s with dies := s.dies.set d (f s.dies[d]) h } else s
/-- A die. -/
def State.die (s : State) (d : Nat) : Die := s.dies.getD d Die.reset

/-- The die of a core (Table 5.5). -/
def coreDie (k : Nat) : Nat := k / 128 % 4
/-- The partition that owns a die (R504). -/
def State.dieOwner (s : State) (d : Nat) : Nat := ((List.range 4).find? (fun p => (s.getPart p).dies.contains d)).getD 0
/-- The partition of a core. -/
def State.corePart (s : State) (k : Nat) : Nat := s.dieOwner (coreDie k)

/-- The core in hand. -/
def core : M Core := do let s ← get; return s.core s.cur
/-- Change the core in hand. -/
def modCore (f : Core → Core) : M Unit := modify (fun s => s.updCore s.cur f)
/-- The partition of the core in hand. -/
def partNo : M Nat := do let s ← get; return s.corePart s.cur

/-- A fresh free value (log 2). -/
def pick : M Nat := do
  let s ← get
  set { s with picks := s.picks + 1 }
  return Config.oracle s.picks

/-- A free choice below `n`, made only where there is one. -/
def pickBelow (n : Nat) : M Nat := if n ≤ 1 then return 0 else do let v ← pick; return v % n

/-! ### Registers (R137, R138) -/

/-- A scalar register with its poison; x0 reads zero. -/
def Core.rdX (c : Core) (r : XReg) : Scalar := if r = 0 then Scalar.zero else c.x[r.toNat]'r.isLt
/-- A write of a scalar register; a write of x0 is discarded. -/
def Core.wrX (c : Core) (r : XReg) (v : Scalar) : Core := if r = 0 then c else { c with x := c.x.set r.toNat v r.isLt }
/-- A predicate; p0 reads 1. -/
def Core.rdP (c : Core) (p : PReg) : Bool := if p = 0 then true else c.p[p.toNat]'p.isLt
/-- A write of a predicate; a write of p0 is discarded. -/
def Core.wrP (c : Core) (p : PReg) (v : Bool) : Core := if p = 0 then c else { c with p := c.p.set p.toNat v p.isLt }
/-- A loop counter. -/
def Core.rdLc (c : Core) (n : BitVec 2) : BitVec 32 := c.lc[n.toNat]'n.isLt
/-- A write of a loop counter. -/
def Core.wrLc (c : Core) (n : BitVec 2) (v : BitVec 32) : Core := { c with lc := c.lc.set n.toNat v n.isLt }

/-! ### Queues -/

/-- The queue of a slot. -/
def Core.queue (c : Core) (k : Slot) : List QEntry := c.qs.getD k []
/-- A queue replaced. -/
def Core.setQueue (c : Core) (k : Slot) (q : List QEntry) : Core :=
  if h : k < 14 then { c with qs := c.qs.set k q h } else c
/-- The command of an entry. -/
def QEntry.cmd? : QEntry → Option Cmd
  | .cmd c => some c
  | _ => none
/-- Whether an entry is held against the prediction, and so stands aside (R31). -/
def QEntry.isHeld : QEntry → Bool
  | .cmd c => c.spec == .held
  | .gate c => c.spec == .held
  | _ => false
/-- The entry at the head of a queue: held entries stand aside, but in the control core they too hold the order (Table
1.8, R141). -/
def Core.headEntry (c : Core) (k : Slot) : Option QEntry :=
  if k = 0 then (c.queue 0).head? else (c.queue k).find? (fun e => !e.isHeld)
/-- A queue without its command of an index. -/
def dropCmd (idx : Nat) (q : List QEntry) : List QEntry :=
  q.filter (fun e => match e with | .cmd c => c.idx != idx | _ => true)
/-- A queue with its command of an index replaced. -/
def replCmd (n : Cmd) (q : List QEntry) : List QEntry :=
  q.map (fun e => match e with | .cmd c => if c.idx = n.idx then .cmd n else e | _ => e)
/-- Commands of a queue. -/
def cmdsOf (q : List QEntry) : List Cmd := q.filterMap QEntry.cmd?

/-! ### The fabric's paths (R435-R439) -/

/-- A link of a die with nothing wrong: its width by Table 15.1, ABSENT where the die has none. -/
def Link.fresh (d l : Nat) : Link :=
  ⟨if l < 6 ∨ (l = 6 ∧ d = 0) then .up else .absent, if l < 2 then 4 else if l < 4 then 3 else if l < 6 then 8 else if l = 6 ∧ d = 0 then 16 else 0, 0, 0, 0, 0, 0⟩
/-- A die's end of a link. -/
def State.link (s : State) (d l : Nat) : Link := amGet (Link.fresh d l) s.links (8 * d + l)
/-- The same link as the neighbouring die numbers it: a ring link has two ends. -/
def linkTwin (d l : Nat) : Option (Nat × Nat) :=
  if l = 0 then some ((d + 1) % 4, 1) else if l = 1 then some ((d + 3) % 4, 0) else none
/-- A link's end changed. -/
def State.setEnd (s : State) (d l : Nat) (f : Link → Link) : State := { s with links := amSet s.links (8 * d + l) (f (s.link d l)) }
/-- A link changed at both its ends. -/
def State.setLink (s : State) (d l : Nat) (f : Link → Link) : State :=
  match linkTwin d l with
  | some (d', l') => (s.setEnd d l f).setEnd d' l' f
  | none => s.setEnd d l f
/-- Whether a link carries packets, now or after its retrain. -/
def State.linkOk (s : State) (d l : Nat) : Bool := !((s.link d l).st == LinkSt.down || (s.link d l).st == LinkSt.absent)
/-- Whether a direction of the ring leads from one die to another. -/
def State.ringOk (s : State) (a b : Nat) : Bool :=
  (List.range ((b + 4 - a) % 4)).all (fun i => s.linkOk ((a + i) % 4) 0) ||
    (List.range ((a + 4 - b) % 4)).all (fun i => s.linkOk ((a + 4 - i) % 4) 1)
/-- Whether a die reaches a chiplet (R438). -/
def State.chipOk (s : State) (a c : Nat) : Bool :=
  (s.ringOk a c && s.linkOk c 2) || (s.ringOk a ((c + 1) % 4) && s.linkOk ((c + 1) % 4) 3)
/-- Whether a die reaches a peer package by a link its route table names (R437, R439). -/
def State.peerOk (s : State) (p a pkg : Nat) : Bool :=
  match (s.getPart p).route with
  | none => false
  | some n => (List.range 8).any (fun i => (Config.route n pkg).testBit i && s.ringOk a (i / 2) && s.linkOk (i / 2) (4 + i % 2))
/-- The link that a LINK of a core names (R439): the first of its die's links that is DOWN, then of the dies after it. -/
def State.lossLink (s : State) (k : Nat) : Nat × Nat :=
  let ls := (List.range 4).flatMap (fun i => (List.range 6).map (fun l => ((coreDie k + i) % 4, l)))
  (ls.find? (fun q => (s.link q.1 q.2).st == LinkSt.down)).getD (coreDie k, 0)
/-- A packet lost (R439, R450): the link's count, and the core's FXLERR. -/
def State.noteLoss (s : State) (k : Nat) : State :=
  let (d, l) := s.lossLink k
  let cyc := s.now - (s.getPart (s.corePart k)).base
  (s.setEnd d l (fun x => { x with lost := min (2 ^ 32 - 1) (x.lost + 1) })).updCore k (fun c =>
    { c with regs := { c.regs with fxlerr := BitVec.ofNat 64 (1 + d * 2 ^ 3 + l * 2 ^ 5 + cyc % 2 ^ 40 * 2 ^ 8) } })

/-! ### Faults -/

/-- TRAPSTAT for ILLEGAL (Table 5.14). -/
def illegalStat (opc flo flen value : Nat) (regv tag : Bool) : Word :=
  BitVec.ofNat 64 (flo % 64 + flen % 64 * 2 ^ 6 + tag.toNat * 2 ^ 12 + regv.toNat * 2 ^ 13 + opc % 256 * 2 ^ 16 + value % 2 ^ 32 * 2 ^ 32)

/-- An ILLEGAL of a command, by a field of its word (R65, R169). -/
def illegalAt (eng chan : Nat) (c : Cmd) (flo flen : Nat) : Trap :=
  ⟨.illegal, eng, chan, illegalStat (opOf c.raw) flo flen (bits c.raw.toNat flo flen) false false, c.lane, none, none⟩
/-- An ILLEGAL that refuses a format tag: VALUE is the tag, the field the operand that brings it (R28, log 1). -/
def illegalTag (eng chan : Nat) (c : Cmd) (flo flen : Nat) (f : Fmt) : Trap :=
  ⟨.illegal, eng, chan, illegalStat (opOf c.raw) flo flen f.code false true, c.lane, none, none⟩
/-- An ILLEGAL that refuses a bank's format, which no field of the word brings: FLO and FLEN are free (log 1). -/
def illegalBank (eng chan now : Nat) (c : Cmd) (f : Fmt) : Trap :=
  let x := Config.stall now (opOf c.raw)
  illegalTag eng chan c (x % 64) (x / 64 % 64) f

/-- The TRAPENG code under which an XQ opcode's unit reports, SQ 8 to CK 13 (R73). -/
def xqUnit (op : Nat) : Nat :=
  if op < 0xC6 then 8 else if op < 0xD6 then 9 else if op < 0xE2 then 10 else if op < 0xEE then 11 else if op < 0xF8 then 12 else 13

/-- The TRAPENG code for a command of a slot: for XQ, its unit. -/
def cmdEng (k : Slot) (c : Cmd) : Nat :=
  if k = 5 then (if reservedOp (opOf c.raw) then 7 else xqUnit (opOf c.raw)) else slotEng k

/-- The trap record of a fault (R169): CMDIDX is the command's index, TRAPLANE its lane address. -/
def trapRecord (t : Trap) (idx : Nat) (lane : Word) : TrapRec :=
  ⟨BitVec.ofNat 64 t.cls.code, BitVec.ofNat 64 (t.eng + t.chan * 16), BitVec.ofNat 64 (idx % 2 ^ 48), t.stat, t.va, lane, 0⟩

/-- A W1C flag: VIOL of a bank set (R44). -/
def Core.setViol (c : Core) (b : Nat) : Core :=
  if h : b < 16 then { c with banks := c.banks.set b { c.banks[b] with viol := true } h } else c

/-- The registers beside the trap record that a fault sets: VIOL (R44), MXINFO.TREG (Table 10.9), MXSTAT.BND of a drain (R309), CPINFO.TENT and TDW (Table 11.8). -/
def applyTrapMarks (s : State) (k : Nat) (t : Trap) : State :=
  let s := match t.viol with
    | some (c, b) => s.updCore c (·.setViol b)
    | none => s
  let s := if t.cls = .link then s.noteLoss k else s
  let s := if t.eng = 5 ∧ t.cls = .bound then
      s.updCore k (fun c => { c with mx := { c.mx with stat := c.mx.stat ||| (1 <<< (4 * bits t.stat.toNat 4 3 + 3) : BitVec 32) } })
    else s
  match t.aux with
  | some a =>
    if t.eng = 5 then s.updCore k (fun c => { c with mx := { c.mx with tv := true, treg := BitVec.ofNat 5 a } })
    else if t.eng = 6 then
      s.updCore k (fun c => { c with cp := { c.cp with tv := true, tent := BitVec.ofNat 6 (a / 16), tdw := BitVec.ofNat 4 a } })
    else s
  | none => s

/-- TRAPENG as a fault gives it (Table 5.4): engine and channel. -/
def Trap.engWord (t : Trap) : Nat := t.eng + t.chan * 16
/-- Whether a fault goes before the recorded one of the same cycle (R170): a lower ENG, or of two CP channels the lower. -/
def Trap.goesBefore (t : Trap) (r : TrapRec) : Bool :=
  let e := r.eng.toNat % 16
  decide (t.eng < e) || (t.eng == e && decide (t.chan < r.eng.toNat / 16))
/-- TRAPPEND with an engine's bit set (Table 5.3). -/
def TrapRec.addPend (r : TrapRec) (eng : Nat) : TrapRec := { r with pend := r.pend ||| (1 <<< eng : Word) }

/-- Whether a reported fault has stopped an engine or channel (R168): the recorded one is its own, or TRAPPEND names it. -/
def Core.stoppedAt (c : Core) (k : Slot) : Bool :=
  let bad : Bool := match c.mode with | .stopped => true | .resting t _ => t | _ => false
  let e := c.trap.eng.toNat % 16
  let own := if k = 5 then decide (7 ≤ e) else e == slotEng k && (decide (k < 6) || c.trap.eng.toNat / 16 == slotChan k)
  let pend := if k = 5 then decide (128 ≤ c.trap.pend.toNat) else c.trap.pend.toNat.testBit (slotEng k)
  bad && c.trap.cls != 0 && (own || pend)

/-- TAKING A FAULT (R168-R170): the first fault of a running core sets the trap record and stops the core, which FAULT_STOP
then brings to rest for a trapped save; a fault raised while the core comes to rest sets its engine's bit in TRAPPEND, or of the same cycle
takes the record over where its engine goes first. The matrix engine's fault ends its streaming. -/
def takeFault (s : State) (k : Nat) (t : Trap) (idx : Nat) (lane : Word) : State :=
  let s := applyTrapMarks s k t
  s.updCore k (fun c =>
    let c := if t.eng = 5 then { c with mx := { c.mx with nest := c.mx.nest.map (fun (n : Nest) => { n with rested := true }) } } else c
    match c.mode with
    | .stopped =>
      if c.trapAt = s.now ∧ t.goesBefore c.trap then
        { c with trap := { trapRecord t idx lane with pend := (c.trap.addPend (c.trap.eng.toNat % 16)).pend } }
      else { c with trap := c.trap.addPend t.eng }
    | .resting true _ => { c with trap := c.trap.addPend t.eng }
    | .resting false a => { c with mode := .resting true a, trap := trapRecord t idx lane, trapAt := s.now }
    | _ => { c with mode := .stopped, trap := trapRecord t idx lane, trapAt := s.now })

/-- Registers at this moment (R158). -/
def Core.snap (c : Core) : Snap := ⟨c.x.toList, c.p.toList, c.lc.toList⟩

/-- LOOPUE (R159): iteration, opcode of the consuming lane, engine code. -/
def loopueTrap (t : Trap) (it opc : Nat) : Trap :=
  { t with cls := .loopue, stat := BitVec.ofNat 64 (t.eng % 16 + opc % 256 * 2 ^ 16 + it % 2 ^ 32 * 2 ^ 32) }

/-- The iteration of a command in a loop. -/
def Cmd.tagIn (cmd : Cmd) (ser : Nat) : Option IterTag := cmd.iter.find? (fun g => g.ser == ser)

/-- A poison consumed by a command (R49, R158, R159): inside the innermost active loop the unit begins a roll-back at the
command's iteration, or restarts it at an earlier one; if that iteration is the remembered one, LOOPUE is raised; outside
a loop, or for an iteration already retired (log 15), POISON is. -/
def takePoison (s : State) (k : Nat) (t : Trap) (cmd : Cmd) : State :=
  let c := s.core k
  match c.loops with
  | l :: ls =>
    match cmd.tagIn l.ser with
    | some g =>
      if g.it < l.retired then takeFault s k t cmd.idx cmd.lane
      else if l.from_ = some g.it then takeFault s k (loopueTrap t g.it (opOf cmd.raw)) cmd.idx cmd.lane
      else
        let i := match l.roll with | some r => min r g.it | none => g.it
        s.setCore k { c with loops := { l with roll := some i, drain := false, ccDrop := if s.slot = 0 then some cmd.idx else l.ccDrop } :: ls }
    | none => takeFault s k t cmd.idx cmd.lane
  | [] => takeFault s k t cmd.idx cmd.lane

/-- A fault raised by a command: POISON is consumed under the loop rules, everything else is taken. -/
def cmdFault (s : State) (k : Nat) (t : Trap) (cmd : Cmd) : State :=
  if t.cls = .poison then takePoison s k t cmd else takeFault s k t cmd.idx cmd.lane

/-! ### Device memory: physical map, L2, translation -/

/-- Bytes of one chiplet's device memory (R35). -/
def chipBytes : Nat := 0x3000000000
/-- The LPDDR channel, of its chiplet's 32, that holds a device address (R35): granules of 256 B rotate over them. -/
def lpddrChannel (pa : Nat) : Nat := pa % chipBytes / 256 % 32
/-- Regions of the physical map (Table 1.10), with the parts of device memory that no plain access may touch. -/
inductive Region | device (chip : Nat) | kv | host | peer | aperture | window | unassigned
  deriving DecidableEq, Repr

/-- The region of a physical address (Table 1.10, R35, R321). -/
def State.region (s : State) (pa : Nat) : Region :=
  if pa < 4 * chipBytes then
    let c := s.chips.getD (pa / chipBytes) Chiplet.reset
    if c.kvBase ≤ pa ∧ pa < c.kvBase + c.kvLen then .kv else .device (pa / chipBytes)
  else if pa < 0x1000000000000 then .unassigned
  else if pa < 0x2000000000000 then .host
  else if pa < 0x2400000000000 then .peer
  else if pa < 0xF000000000000 then .unassigned
  else if pa < 0xF000000001000 then .aperture
  else .window

/-- The region of the checkpoint domain whose working range holds an address (R456). -/
def Ck.working (c : Ck) (pa : Nat) : Option CkRegion :=
  c.regions.find? (fun r => decide (0 < r.len) && decide (r.wbase ≤ pa) && decide (pa < r.wbase + r.len * 2 ^ 21))
/-- Whether an address lies in a mirror (R457). -/
def Ck.mirror (c : Ck) (pa : Nat) : Bool :=
  c.regions.any (fun r => decide (0 < r.len) &&
    ((decide (r.mira ≤ pa) && decide (pa < r.mira + (2 * r.len + 1) * 2 ^ 21)) ||
      (decide (r.mirb ≤ pa) && decide (pa < r.mirb + (2 * r.len + 1) * 2 ^ 21))))
/-- The partition whose device memory holds an address. -/
def State.paOwner (s : State) (pa : Nat) : Nat := s.dieOwner (pa / chipBytes)
/-- A granule of the checkpoint domain about to be written: dirty, with its contents at the last epoch kept (R458). -/
def Ck.touch (c : Ck) (g : Nat) (cur : List Byte) : Ck :=
  { c with dirty := nsAdd g c.dirty, old := if (amFind g c.old).isSome then c.old else amSet c.old g cur }
/-- Every granule of the checkpoint domain that a write of `n` bytes touches (R458). -/
def State.ckNote (s : State) (pa n : Nat) : State :=
  if 4 * chipBytes ≤ pa then s
  else
    let p := s.paOwner pa
    if (s.getPart p).ck.regions = [] then s
    else (granulesOf 256 pa n).foldl (fun s g =>
      if ((s.getPart p).ck.working (g * 256)).isSome then
        s.updPart p (fun x => { x with ck := x.ck.touch g (peekBytes s.mem (g * 256) 256) })
      else s) s

/-- The home die of a line (R40): for device memory by the partition that owns it, for host memory by the accessing
partition `p`. -/
def State.homeDie (s : State) (p pa : Nat) : Nat :=
  let owner := if pa < 4 * chipBytes then s.dieOwner (pa / chipBytes) else p
  let ds := (s.getPart owner).dies
  ds.getD (((pa / 2 ^ 12 % 4) ^^^ (pa / 2 ^ 20 % 4)) % max 1 ds.length) 0

/-- The die whose L2 holds a line. -/
def State.lineDie (s : State) (line : Nat) : Option Nat :=
  (List.range 4).find? (fun d => (amFind line (s.die d).l2).isSome)

/-- Whether lines of an address may be cached (R40). -/
def cacheable (pa : Nat) (nc : Bool) : Bool := !nc && decide (pa < 0x2000000000000)

/-- The non-zero bytes of a line, at offsets 0-127: a copy in an L2 is the line's latest value, for every access to it (R113). -/
def State.lineBytes (s : State) (line : Nat) : Bytes :=
  match s.lineDie line with
  | some d => match amFind line (s.die d).l2 with | some l => l.data | none => []
  | none => (windowCells s.mem (128 * line) 128).map (fun e => (e.1 - 128 * line, e.2))

/-- `n` bytes of physical memory. -/
def State.readPa (s : State) (pa n : Nat) : List Byte :=
  (piecesOf 128 pa n).flatMap (fun q =>
    let l := s.lineBytes (q.1 / 128)
    (List.range q.2).map (fun i => peekByte l (q.1 % 128 + i)))

/-- Whether any granule of physical memory in a range is poisoned (R49). -/
def State.paPoisoned (s : State) (pa n : Nat) : Bool := (granulesOf 32 pa n).any (fun g => s.memPois.contains g)

/-- Poison of granules of `g` after a write of `n` places from `a`, of which those in `bad` are poisoned: a granule wholly
written takes the written state, another keeps its poison and may gain it (log 14). -/
def patchPois (g : Nat) (old : NSet) (a n : Nat) (bad : NSet) : NSet :=
  let touched := granulesOf g a n
  let kept := old.filter (fun k => !(touched.contains k && decide (a ≤ k * g) && decide (k * g + g ≤ a + n)))
  bad.foldl (fun s b => nsAdd ((a + b) / g) s) kept

/-- Data slots and tags of a die's L2 (R40). -/
def l2Slots : Nat := 1048576
def l2Tags : Nat := 2097152
/-- A line replaced: written back where it is dirty, a zero-flagged one as zeros, and its tag and slot free (R41). -/
def State.evictLine (s : State) (d line : Nat) : State :=
  match amFind line (s.die d).l2 with
  | none => s
  | some l =>
    let s := if l.dirty then { s with mem := pokeBytes s.mem (128 * line) (peekBytes l.data 0 128) } else s
    s.updDie d (fun x => { x with l2 := amDel line x.l2 })
/-- Room in a die's L2 for a line (R40, R41): a tag, and a slot where it will hold a non-zero byte, beside those that spills hold (R487); the
line replaced is any (log 45). -/
def State.l2Room (s : State) (d line : Nat) (zero : Bool) : State :=
  let others := (s.die d).l2.filter (fun e => e.1 != line)
  let slots := others.filter (fun e => e.2.data != [])
  let held := ((s.gated.filter (fun c => c / 32 == d)).map (fun c => amGet 0 s.spills c)).sum
  let from_ := if !zero && decide (l2Slots ≤ slots.length + held) then slots else if decide (l2Tags ≤ others.length) then others else []
  match from_[Config.oracle s.picks % max 1 from_.length]? with
  | some v => { s.evictLine d v.1 with picks := s.picks + 1 }
  | none => s
/-- A line put into a die's L2. -/
def State.putLine (s : State) (d line : Nat) (l : L2Line) : State :=
  (s.l2Room d line (l.data == [])).updDie d (fun x => { x with l2 := amSet x.l2 line l })

/-- One piece, inside one line, written at its home (R40, R41), or past the L2, where a cached copy takes it too (R113). -/
def State.writePiece (s : State) (p pa : Nat) (bs : List Byte) (nc : Bool) : State :=
  let line := pa / 128
  if cacheable pa nc then
    let d := match s.lineDie line with | some d => d | none => s.homeDie p pa
    let cur := s.lineBytes line
    s.putLine d line ⟨pokeBytes cur (pa % 128) bs, true⟩
  else
    let s := match s.lineDie line with
      | some d => s.updDie d (fun x => { x with l2 := x.l2.map (fun (e : Nat × L2Line) => if e.1 = line then (line, { e.2 with data := pokeBytes e.2.data (pa % 128) bs }) else e) })
      | none => s
    { s with mem := pokeBytes s.mem pa bs }

/-- Bytes written to physical memory by partition `p`. -/
def State.writePa (s : State) (p pa : Nat) (bs : List Byte) (nc : Bool) (pois : NSet) : State :=
  let s' := (piecesOf 128 pa bs.length).foldl (fun s q => s.writePiece p q.1 ((bs.drop (q.1 - pa)).take q.2) nc) (s.ckNote pa bs.length)
  { s' with memPois := patchPois 32 s'.memPois pa bs.length pois }

/-- A 64-bit little-endian word of physical memory. -/
def State.readPa64 (s : State) (pa : Nat) : Nat := leNat (s.readPa pa 8)

/-- What a page-table entry at a level allows (Table 1.12): V, reserved bits, S64 and L as the level needs, PA aligned. -/
def pteOk (e level : Nat) (head : Bool) : Bool :=
  let v := bits e 0 1; let l := bits e 2 1; let s64 := bits e 3 1
  v == 1 && bits e 52 12 == 0 && bits e 11 1 == 0 && bits e 1 1 == 0 && (s64 == 0 || head) &&
    (level < 2 || l == 0) && (level != 0 || l == 1) &&
    (if l = 1 ∧ level = 1 then bits e 12 9 == 0 else if s64 = 1 then bits e 12 4 == 0 else true)

/-- The address field of an entry. -/
def ptePa (e : Nat) : Nat := bits e 12 40 * 2 ^ 12

/-- A walk from a table (R38): the entries used, innermost first, the leaf entry and the page size; or PAGE, or POISON. Reserved bits that are
not zero raise PAGE in every entry read, the head of a group at level 0 included (Table 1.12). -/
def State.walk (s : State) (va : Nat) : Nat → Nat → List Nat → Except FaultClass (List Nat × Nat × Nat)
  | 0, table, used =>
    let group := table + 8 * (bits va 16 5 * 16)
    if s.paPoisoned group 8 then .error .poison
    else
      let h := s.readPa64 group
      if bits h 52 12 ≠ 0 ∨ bits h 11 1 ≠ 0 ∨ bits h 1 1 ≠ 0 then .error .page
      else if bits h 0 1 = 1 ∧ bits h 3 1 = 1 then
        (if pteOk h 0 true then .ok (group :: used, h, 2 ^ 16) else .error .page)
      else
        let ea := table + 8 * bits va 12 9
        if s.paPoisoned ea 8 then .error .poison
        else
          let e := s.readPa64 ea
          if pteOk e 0 false then .ok (ea :: used, e, 2 ^ 12) else .error .page
  | level + 1, table, used =>
    let ea := table + 8 * bits va (12 + 9 * (level + 1)) (if level = 2 then 13 else 9)
    if s.paPoisoned ea 8 then .error .poison
    else
      let e := s.readPa64 ea
      if pteOk e (level + 1) false then
        (if bits e 2 1 = 1 then .ok (ea :: used, e, 2 ^ 21) else s.walk va level (ptePa e) (ea :: used))
      else .error .page

/-- A page-table entry with bits set, by atomic update (R38). -/
def State.orEntry (s : State) (p ea m : Nat) : State :=
  let e := s.readPa64 ea
  if e ||| m = e then s else s.writePa p ea (leBytes 8 (e ||| m)) false []

/-- The walker's translation of a missed address (R38, R39): A set in every entry used, D in the leaf of a permitted
write, the TLB filled, its oldest entry leaving when it is full; or the fault class. -/
def State.pageWalk (s : State) (k : Nat) (va : Word) (write : Bool) : Except FaultClass State :=
  let p := s.corePart k
  match (s.getPart p).root with
  | none => .error .page
  | some root =>
    if 2 ^ 52 ≤ va.toNat then .error .page
    else match s.walk va.toNat 3 root [] with
      | .error e => .error e
      | .ok (used, e, size) =>
        let w := bits e 4 1 == 1
        let d := write && w
        let s := used.foldl (fun s ea => s.orEntry p ea (2 ^ 9)) s
        let s := if d then (match used with | ea :: _ => s.orEntry p ea (2 ^ 10) | [] => s) else s
        let va0 := va.toNat / size * size
        let ent : TlbEntry := ⟨va0, size, ptePa e, w, bits e 5 1 == 1, bits e 8 1 == 1, bits e 7 1 == 1, bits e 6 1 == 1, d || bits e 10 1 == 1⟩
        .ok (s.updCore k (fun c =>
          let rest := c.tlb.filter (fun x => x.va != va0 || x.size != size)
          { c with tlb := (if rest.length < 256 then rest else rest.drop 1) ++ [ent] }))

/-- Kinds of access a translation serves. -/
inductive AccKind | read | write | fetch
  deriving DecidableEq, Repr

/-- A translated place: physical address, the bytes left in its page, its entry and region. -/
structure Place where
  pa : Nat
  left : Nat
  ent : TlbEntry
  reg : Region

/-- Whether an access of a die reaches a region (R438, R439). -/
def State.paOk (s : State) (p a pa : Nat) : Bool :=
  match s.region pa with
  | .device ch => s.chipOk a ch
  | .host => s.ringOk a 0
  | .peer => s.peerOk p a ((pa - 0x2000000000000) / 2 ^ 40)
  | _ => true

/-- Translation of one address by the core's TLB, with the checks of R35 and R38; a miss leaves the step to the walker.
Apertures and windows are left to the caller. While an entry is cached it is used as it was when it was filled: of the old and the new form of a
changed entry, which R39 both allows until the invalidation completes, always the old (log 32). -/
def translate (kind : AccKind) (mk : FaultClass → Word → Trap) (va : Word) : M Place := do
  let s ← get
  let c ← core
  if 2 ^ 52 ≤ va.toNat then raise (mk .page va)
  match c.tlb.find? (fun e => decide (e.va ≤ va.toNat) && decide (va.toNat < e.va + e.size)) with
  | none =>
    match s.pageWalk s.cur va (kind == .write) with
    | .error e => raise (mk e va)
    | .ok _ => throw (.miss va (kind == .write) mk)
  | some e =>
    if kind = .write ∧ ¬ e.w then raise (mk .perm va)
    if kind = .fetch ∧ ¬ e.x then raise (mk .perm va)
    if kind = .write ∧ ¬ e.d then throw (.miss va true mk)
    let pa := e.pa + (va.toNat - e.va)
    let r := s.region pa
    match r with
    | .unassigned => raise (mk .page va)
    | .kv => raise (mk .perm va)
    | .device ch =>
      if s.dieOwner ch ≠ s.corePart s.cur then raise (mk .perm va)
      let ck := (s.getPart (s.corePart s.cur)).ck
      if ck.mirror pa then raise (mk .perm va)
      if (ck.working pa).isSome then
        if ck.st = 2 then raise (mk .cktorn va)
        if ¬ e.nc then raise (mk .perm va)
        if ck.locked.contains (pa / 256) then waitFor 10
    | _ => pure ()
    if ¬ s.paOk (s.corePart s.cur) (coreDie s.cur) pa then raise (mk .link va)
    if cacheable pa e.nc ∧ ¬ (s.die (s.homeDie (s.corePart s.cur) pa)).up then waitFor 0
    return ⟨pa, e.size - (va.toNat - e.va), e, r⟩

/-- A translation for a data access: apertures and system windows raise PERM (R222, R240). -/
def translateData (kind : AccKind) (mk : FaultClass → Word → Trap) (va : Word) : M Place := do
  let p ← translate kind mk va
  match p.reg with
  | .aperture | .window => raise (mk .perm va)
  | _ => return p

/-- The same for the copy engine and the units, whose commands may touch more pages than the TLB holds: a miss is walked
within the step. -/
def walked (kind : AccKind) (mk : FaultClass → Word → Trap) (va : Word) : M Place := fun s =>
  match (translateData kind mk va).run s with
  | .error (.miss va' w mk') =>
    match s.pageWalk s.cur va' w with
    | .ok s' => (translateData kind mk va).run s'
    | .error e => .error (.trap (mk' e va'))
  | r => r

/-- The publication window of an address: the lowest enabled one (R246). -/
def Part.pubWindow (p : Part) (va : Nat) : Option Nat :=
  (List.range 16).find? (fun i =>
    let w := p.pubw.getD i ⟨0, 0, 0⟩
    decide (0 < w.len) && decide (w.base.toNat ≤ va) && decide (va < w.base.toNat + w.len * 65536))

/-- The effects that write `bs` at a virtual address, one per page piece, each translated by `tr` and checked first. -/
def storeBy (tr : Word → M Place) (mk : FaultClass → Word → Trap) (va : Word) (bs : List Byte) (pois : NSet) : M (List Effect) := do
  (piecesOf 4096 va.toNat bs.length).foldlM (fun (acc : List Effect) q => do
    let v := BitVec.ofNat 64 q.1
    let p ← tr v
    if p.ent.pub then
      let s ← get
      let pn ← partNo
      if ((s.getPart pn).pubWindow q.1).isNone then raise (mk .perm v)
    let d := q.1 - va.toNat
    return acc ++ [.mem v p.pa ((bs.drop d).take q.2) ((pois.filter (fun b => decide (d ≤ b) && decide (b < d + q.2))).map (· - d)) p.ent.pub p.ent.nc]) []
/-- The same by the core's translation. -/
def storeVa (mk : FaultClass → Word → Trap) (va : Word) (bs : List Byte) (pois : NSet) : M (List Effect) :=
  storeBy (translateData .write mk) mk va bs pois

/-! ### Scratchpads (R36, R42-R47) -/

/-- The core a scratchpad address word names and the offset (R36); the faults are PAGE. -/
def spTarget (mk : FaultClass → Word → Trap) (xa : Word) : M (Nat × Nat) := do
  let s ← get
  let n := xa.toNat
  let peer := bits n 24 1
  let idx := bits n 22 2
  if bits n 25 39 ≠ 0 then raise (mk .page xa)
  if peer = 0 ∧ idx ≠ 0 then raise (mk .page xa)
  let k := if peer = 0 then s.cur else s.cur / 4 * 4 + idx
  if s.disabled.contains k then raise (mk .page xa)
  return (k, bits n 0 22)

/-- The bank of an offset (R42). -/
def bankOf (off : Nat) : Nat := off / 2 ^ 18 % 16
/-- A bank's descriptor. -/
def Core.bank (c : Core) (b : Nat) : Bank := c.banks.getD b Bank.raw
/-- Poison of a scratchpad range. -/
def Core.spPoisoned (c : Core) (off n : Nat) : Bool := (granulesOf 32 off n).any (fun g => c.spPois.contains g)
/-- Bytes written to a scratchpad. -/
def Core.writeSp (c : Core) (off : Nat) (bs : List Byte) (pois : NSet) : Core :=
  { c with sp := pokeBytes c.sp off bs, spPois := patchPois 32 c.spPois off bs.length pois }

/-- Elements of `n` bits packed upwards from bit 0 (R20, R90). -/
def packEls (n : Nat) (els : List Nat) : Nat := els.foldr (fun e acc => e % 2 ^ n + acc * 2 ^ n) 0
/-- The bytes of packed elements. -/
def elBytes (n : Nat) (els : List Nat) : List Byte := leBytes ((els.length * n + 7) / 8) (packEls n els)
/-- `cnt` elements of `n` bits of a packed number. -/
def unpackEls (n cnt v : Nat) : List Nat := (List.range cnt).map (fun k => v / 2 ^ (n * k) % 2 ^ n)

/-- A bounds violation: element index, core, offset of the element. -/
structure Viol where
  k : Nat
  core : Nat
  off : Nat
  deriving DecidableEq, Repr

/-- The first element of a bank write that violates a trapping bank (R44). -/
def trapViol (b : Bank) (core off : Nat) (k0 : Nat) (els : List Nat) : Option Viol :=
  if b.act = 3 then
    ((List.range els.length).find? (fun i => violates b.fmt b.lo.toNat b.hi.toNat (els.getD i 0))).map
      (fun i => ⟨k0 + i, core, off + i * Fmt.size b.fmt / 8⟩)
  else none

/-- Elements after a bank's flag or clamp action, and whether any violated (R44). -/
def boundEls (b : Bank) (els : List Nat) : List Nat × Bool :=
  if b.act = 0 then (els, false)
  else
    let bad := els.any (violates b.fmt b.lo.toNat b.hi.toNat)
    if b.act = 2 then
      (els.map (fun v => if violates b.fmt b.lo.toNat b.hi.toNat v then
        clampValue b.fmt (if clampsLow b.fmt b.lo.toNat v then b.lo.toNat else b.hi.toNat) else v), bad)
    else (els, bad)

/-- The status bit of the writing engine that a flag or clamp action sets: ST, VX, MX (accumulator `acc`), CP. -/
def Core.setBflag (c : Core) (slot : Slot) (acc : Nat) : Core :=
  if slot = 2 then { c with regs := { c.regs with stBflag := true } }
  else if slot = 3 then { c with regs := { c.regs with vxBflag := true } }
  else if slot = 4 then { c with mx := { c.mx with stat := c.mx.stat ||| (1 <<< (4 * acc + 3) : BitVec 32) } }
  else if 6 ≤ slot then { c with cp := { c.cp with bflag := true } }
  else c

/-- The new value of a reduction element (R244). -/
def redNew (op : Red) (old v : Nat) : Nat :=
  match op with
  | .addF32 => fAdd 23 .rne false old v false
  | .addS32 => (old + v) % 2 ^ 32
  | .maxF32 => fMinMax 23 true old v
  | .minF32 => fMinMax 23 false old v

/-- The old elements a reduction reads. -/
def redOld (c : Core) (off n : Nat) : List Nat := unpackEls 32 n (leNat (peekBytes c.sp off (4 * n)))

/-- The elements a bank effect will write before its bounds check. -/
def effEls (s : State) : Effect → Option (Nat × Nat × Nat × List Nat)
  | .bank core off _ els _ k0 _ => some (core, off, k0, els)
  | .red core off op els k0 =>
    some (core, off, k0, List.zipWith (redNew op) (redOld (s.core core) off els.length) (els.map BitVec.toNat))
  | _ => none

/-- New value of an atomic (R150), at its width. -/
def amoNew (op : AmoOp) (n old xb cmp : Nat) : Nat :=
  let v := xb % 2 ^ n
  match op with
  | .swap => v
  | .add => (old + v) % 2 ^ n
  | .and => old &&& v
  | .or => old ||| v
  | .xor => old ^^^ v
  | .smin => if sext n old ≤ sext n v then old else v
  | .smax => if sext n v ≤ sext n old then old else v
  | .cas => if old = cmp % 2 ^ n then v else old

/-- A page write seen by publication: the bytes the host still sees (R129). -/
def State.holdUnpub (s : State) (p va pa : Nat) (bs : List Byte) : State :=
  match (s.getPart p).pubWindow va with
  | none => s
  | some w =>
    let old := s.readPa pa bs.length
    { s with unpub := (List.range bs.length).foldl (fun m i =>
        if (amFind (pa + i) m).isSome then m else amSet m (pa + i) (p * 16 + w, old.getD i 0)) s.unpub }

/-- The number of a semaphore as a core names it: cluster, die or package (Table 12.1). -/
def State.semKey (s : State) (k n : Nat) : Nat :=
  if n < 64 then 0x10000 + k / 4 * 64 + n else if n < 128 then 0x20000 + coreDie k * 64 + (n - 64)
  else 0x30000 + s.corePart k * 32 + (n - 128)
/-- A semaphore by its number. -/
def State.sem (s : State) (key : Nat) : Sem := amGet ⟨0, false, []⟩ s.sync.sems key
/-- A semaphore replaced. -/
def State.setSem (s : State) (key : Nat) (v : Sem) : State := { s with sync := { s.sync with sems := amPut ⟨0, false, []⟩ s.sync.sems key v } }
/-- A signal of `n` at a semaphore, saturating (R360). -/
def State.semSignal (s : State) (key n : Nat) : State :=
  let m := s.sem key
  let v := m.value.toNat + n
  if n = 0 then s else s.setSem key { m with value := BitVec.ofNat 32 (min v 0xFFFFFFFF), sat := m.sat || decide (0xFFFFFFFF < v) }

/-- The place of an entry that the control core's command `ccidx` puts into a channel's order: before the lanes and
markers that follow it in fetch order (R320). -/
def channelInsert (q : List QEntry) (ccidx : Nat) (e : QEntry) : List QEntry :=
  let before (x : QEntry) : Bool := match x with
    | .cmd c => decide (c.pos ≤ ccidx)
    | .mark id _ _ _ => decide (id < ccidx)
    | _ => true
  q.takeWhile before ++ [e] ++ q.dropWhile before
/-- Transfers of a channel that are not complete (R322). -/
def Core.journal (c : Core) (ch : Nat) : List Xfer := c.cp.jrn.getD ch []
/-- A journal replaced. -/
def Core.setJournal (c : Core) (ch : Nat) (j : List Xfer) : Core :=
  if h : ch < 8 then { c with cp := { c.cp with jrn := c.cp.jrn.set ch j h } } else c
/-- A transfer given its ID and put into channel order (R322); `order` is its place by the control core's index. -/
def Core.startCopy (c : Core) (ch : Nat) (w : Word) (ccidx : Nat) (lane : Word) (order : Nat) : Core :=
  let id := (c.cp.next.getD ch 0).toNat
  let x : Xfer := ⟨id, bits w.toNat 0 6, w, ccidx, lane, .waiting, [], none, 0, 0, 0, .raw, .raw, [], false⟩
  let c := c.setJournal ch (c.journal ch ++ [x])
  let c := if h : ch < 8 then { c with cp := { c.cp with next := c.cp.next.set ch (BitVec.ofNat 32 (id + 1)) h } } else c
  c.setQueue (6 + ch) (channelInsert (c.queue (6 + ch)) order (.xfer id))

/-- A window published (R129, R247): its bytes visible to the host, then its counter in host memory incremented. -/
def State.publish (s : State) (p win : Nat) : State :=
  let w := (s.getPart p).pubw.getD win ⟨0, 0, 0⟩
  let s := { s with unpub := s.unpub.filter (fun e => e.2.1 != p * 16 + win) }
  s.writePa p w.cntpa.toNat (leBytes 8 (leNat (s.readPa w.cntpa.toNat 8) + 1)) false []

/-- One effect of a command of `slot` on core `k`, performed; PUBN counts a publication then (Table 8.7). -/
def State.perform (s : State) (k : Nat) (slot : Slot) (e : Effect) : State :=
  match e with
  | .mem va pa bs pois pub nc =>
    let s := if pub then s.holdUnpub (s.corePart k) va.toNat pa bs else s
    s.writePa (s.corePart k) pa bs nc pois
  | .bank core off fmt els pois _ acc =>
    let b := (s.core core).bank (bankOf off)
    let (els, bad) := boundEls b els
    let s := s.updCore core (fun c =>
      let c := c.writeSp off (elBytes (Fmt.size fmt) els) (pois.flatMap (fun e => granulesOf 8 (Fmt.size fmt * e) (Fmt.size fmt)))
      if bad then c.setViol (bankOf off) else c)
    if bad then s.updCore k (·.setBflag slot acc) else s
  | .red core off op els _ =>
    let b := (s.core core).bank (bankOf off)
    let new := List.zipWith (redNew op) (redOld (s.core core) off els.length) (els.map BitVec.toNat)
    let (new, bad) := boundEls b new
    let s := s.updCore core (fun c =>
      let c := c.writeSp off (elBytes 32 new) []
      if bad then c.setViol (bankOf off) else c)
    if bad then s.updCore k (·.setBflag slot 0) else s
  | .amo va pa op sz64 xb cmp d pub nc =>
    let n := if sz64 then 64 else 32
    let old := leNat (s.readPa pa (n / 8))
    let new := leBytes (n / 8) (amoNew op n old xb.toNat cmp.toNat)
    let s := if pub then s.holdUnpub (s.corePart k) va.toNat pa new else s
    let s := s.writePa (s.corePart k) pa new nc []
    s.updCore k (·.wrX d ⟨word (sext n old), false⟩)
  | .signal key cnt => s.semSignal key cnt
  | .copy ch w ccidx lane => s.updCore k (fun c => c.startCopy ch w ccidx lane ccidx)
  | .publish win => (s.publish (s.corePart k) win).updCore k (fun c => { c with regs := { c.regs with pubn := BitVec.ofNat 16 (min 65535 (c.regs.pubn.toNat + 1)) } })

/-- The lowest violation of a trapping bank among the effects of one command of core `k`, checked before any is
performed; reductions are computed one after the other (R241, R244). -/
def effsViol (s : State) (k slot : Nat) (effs : List Effect) : Option Viol :=
  (effs.foldl (fun (acc : State × Option Viol) e =>
    let v := match effEls acc.1 e with
      | some (core, off, k0, els) => trapViol ((acc.1.core core).bank (bankOf off)) core off k0 els
      | none => none
    (match e with | .red .. => acc.1.perform k slot e | _ => acc.1,
     match acc.2, v with
      | some u, some v => if v.k < u.k then some v else some u
      | none, v => v
      | u, none => u)) (s, none)).2

/-- The state as the core's own agents see it: its held writes performed (R157). -/
def State.see (s : State) (k : Nat) : State :=
  (s.core k).holds.foldl (fun s h => h.effs.foldl (fun s e => match e with | .mem .. | .bank .. | .red .. => s.perform k h.slot e | _ => s) s) s

/-- Bytes with the poison of each (R49). -/
abbrev PBytes := List (Byte × Bool)
/-- The bytes. -/
def PBytes.bytes (b : PBytes) : List Byte := b.map (·.1)
/-- Whether any byte is poisoned. -/
def PBytes.poisoned (b : PBytes) : Bool := b.any (·.2)

/-- Whether the matrix engine of a core streams from a bank group that a range of its scratchpad meets (R46): a nest runs and has not come to
rest. -/
def Core.streams (c : Core) (off n : Nat) : Bool :=
  c.mx.nest.any (fun (x : Nest) => !x.rested && x.groups.any (fun g => decide (off / 2 ^ 20 ≤ g) && decide (g ≤ (off + n - 1) / 2 ^ 20)))
/-- A 16-bit count that stays at its greatest value. -/
def satAdd16 (x : BitVec 16) (n : Nat) : BitVec 16 := BitVec.ofNat 16 (min 65535 (x.toNat + n))
/-- STALL of an engine's register counted on (Tables 7.4, 8.7, 9.8). -/
def Core.addStall (c : Core) (k : Slot) (n : Nat) : Core :=
  if k = 1 then { c with regs := { c.regs with stallLd := satAdd16 c.regs.stallLd n } }
  else if k = 2 then { c with regs := { c.regs with stallSt := satAdd16 c.regs.stallSt n } }
  else if k = 3 then { c with regs := { c.regs with stallVx := satAdd16 c.regs.stallVx n } }
  else c
/-- An access to a scratchpad by any other agent stalls while the target core's matrix engine streams from the bank group (R46). -/
def awaitStream (k off n : Nat) : M Unit := do
  let s ← get
  if (s.core k).streams off n ∧ ¬ (k = s.cur ∧ s.slot = 4) then throw .stall
/-- An access to a scratchpad by the engine in hand (R46, R216, R234, R255): what it stalled, by the matrix engine's stream or by a bank shared with
another agent, is counted (log 9). -/
def accessSp (k off n : Nat) : M Unit := do
  let s ← get
  awaitStream k off n
  if 1 ≤ s.slot ∧ s.slot ≤ 3 then
    let streamed := match amFind s.slot (s.core s.cur).stallAt with | some t => (s.now - t) / 64 | none => 0
    modCore (fun c => ({ c with stallAt := amDel s.slot c.stallAt }).addStall s.slot (streamed + Config.stall s.now s.slot))

/-- `n` bytes of a scratchpad as the core in hand sees them, with their poison. -/
def readSp (k off n : Nat) : M PBytes := do
  accessSp k off n
  let s ← get
  let c := (s.see s.cur).core k
  return ((peekBytes c.sp off n).zip ((List.range n).map (fun i => c.spPois.contains ((off + i) / 32))))

/-- Bytes of physical memory with their poison. -/
def State.readPaP (s : State) (pa n : Nat) : PBytes :=
  (s.readPa pa n).zip ((List.range n).map (fun i => s.memPois.contains ((pa + i) / 32)))

/-- Bytes at a virtual address, translated by `tr`, as the core in hand sees them, with their poison. -/
def readBy (tr : Word → M Place) (va : Word) (n : Nat) : M PBytes := do
  (piecesOf 4096 va.toNat n).foldlM (fun (acc : PBytes) q => do
    let p ← tr (BitVec.ofNat 64 q.1)
    let s ← get
    return acc ++ (s.see s.cur).readPaP p.pa q.2) []
/-- The same by the core's translation. -/
def readVaSeen (mk : FaultClass → Word → Trap) (va : Word) (n : Nat) : M PBytes := readBy (translateData .read mk) va n

/-- The core that a W-space address names (R37). -/
def wCore (a : Nat) : Nat := bits a 36 2 * 128 + bits a 29 7
/-- Whether a W-space address is one the core in hand may read (R37, R223): 38 bits, a die of the partition, a cluster
with an enabled site. -/
def State.wOk (s : State) (p a : Nat) : Bool :=
  decide (a < 2 ^ 38) && (s.getPart p).dies.contains (bits a 36 2) &&
    !(nsRange (wCore a / 4 * 4) 4).all (fun k => s.disabled.contains k)
/-- Bytes of W-space: those of an invalid word, or of an uncorrectable codeword, are poisoned (R49, R370). -/
def State.readW (s : State) (a n : Nat) : PBytes :=
  (peekBytes s.cist.data a n).zip ((List.range n).map (fun i =>
    !s.cist.valid.contains ((a + i) / 2048) || s.cist.bad.contains ((a + i) / 1024)))

/-- A computation whose fault is a value. -/
def tryM {α : Type} (m : M α) : M (Except Trap α) := fun s =>
  match m.run s with
  | .ok (a, s') => .ok (.ok a, s')
  | .error (.trap t) => .ok (.error t, s)
  | .error e => .error e

/-- Rows of a command tried in order (log 7): all of them performed, or with the first fault, a part of the others' pieces that no rule chooses
(R133), by the free value that `perform` is given then; a lane of a loop that consumes poison performs nothing (R158). -/
def rowsOr {α : Type} (n : Nat) (row : Nat → M α) (perform : Option Nat → List (Nat × α) → M Unit) : M Unit := do
  let rs ← (List.range n).mapM (fun i => tryM (row i))
  let good := ((List.range n).zip rs).filterMap (fun p => match p.2 with | .ok a => some (p.1, a) | .error _ => none)
  match rs.findSome? (fun r => match r with | .error t => some t | .ok _ => none) with
  | none => perform none good
  | some t =>
    let s ← get
    if t.cls = .poison ∧ (s.core s.cur).loops.any (fun (l : Loop) => (s.cmd.tagIn l.ser).isSome) then raise t
    let v ← pick
    perform (some v) good
    let s ← get
    throw (.part s t)

/-! ### Tiles (R20, R25-R28, R32) -/

/-- A tile of a core. -/
def Core.tile (c : Core) (n : Nat) : Tile := c.tiles.getD n Tile.empty
/-- A tile replaced. -/
def Core.setTile (c : Core) (n : Nat) (t : Tile) : Core := if h : n < 64 then { c with tiles := c.tiles.set n t h } else c
/-- A row of a tile; bits 1,023:1,020 of an MXINT6 row read as zero (R20). -/
def Tile.row (t : Tile) (i : Nat) : Row :=
  let r := amGet 0 t.rows i
  if t.tag = .mx6 then BitVec.ofNat 1024 (r.toNat % 2 ^ 1020) else r
/-- A tile whose rows hold what they read as: of MXINT6 codes, zeros in bits 1,023:1,020 (R20). -/
def Tile.packed (t : Tile) : Tile :=
  if t.tag = .mx6 then { t with rows := t.rows.filterMap (fun e => let r : Row := BitVec.ofNat 1024 (e.2.toNat % 2 ^ 1020); if r = 0 then none else some (e.1, r)) } else t
/-- A row written. -/
def Tile.setRow (t : Tile) (i : Nat) (r : Row) : Tile := { t with rows := amPut 0 t.rows i r }
/-- Poison of bits `lo .. lo + n - 1` of row `i`: its 64-bit granules. -/
def Tile.bitsPoisoned (t : Tile) (i lo n : Nat) : Bool :=
  if n = 0 then false else (nsRange (16 * i + lo / 64) ((lo + n - 1) / 64 + 1 - lo / 64)).any (fun g => t.pois.contains g)
/-- The low `n` bits of a row replaced (R218). -/
def setLow (r : Row) (n v : Nat) : Row := BitVec.ofNat 1024 (v % 2 ^ n + r.toNat / 2 ^ n * 2 ^ n)

/-- Elements per row of a tag (R259). -/
def perRow (f : Fmt) : Nat := if f = .mx6 then 170 else 1024 / Fmt.size f
/-- Elements per tile of a tag (R259). -/
def perTile (f : Fmt) : Nat := 64 * perRow f
/-- Element `k` of a tile read under a tag (R259). -/
def Tile.el (t : Tile) (f : Fmt) (k : Nat) : Nat :=
  (t.row (k / perRow f)).toNat / 2 ^ (k % perRow f * Fmt.size f) % 2 ^ Fmt.size f
/-- Poison of element `k`. -/
def Tile.elPoisoned (t : Tile) (f : Fmt) (k : Nat) : Bool :=
  t.bitsPoisoned (k / perRow f) (k % perRow f * Fmt.size f) (Fmt.size f)
/-- The elements of row `i` under a tag. -/
def Tile.rowEls (t : Tile) (f : Fmt) (i : Nat) : List Nat := unpackEls (Fmt.size f) (perRow f) (t.row i).toNat
/-- Bits `lo`, `n` wide, of a row replaced. -/
def setBits (r : Row) (lo n v : Nat) : Row :=
  let x := r.toNat
  BitVec.ofNat 1024 (x % 2 ^ lo + v % 2 ^ n * 2 ^ lo + x / 2 ^ (lo + n) * 2 ^ (lo + n))
/-- Elements of `sz` bits, each with its poison, written into a row from bit 0; other bits are kept, but for bits 1,023:1,020 of MXINT6 codes,
which are written as zero (R20), and each 64-bit
granule takes the poison of the elements in it, one partly written keeping its own beside it (R25, R49, R218). -/
def Tile.putEls (t : Tile) (i sz : Nat) (els : List (Nat × Bool)) : Tile :=
  let n := els.length * sz
  let r := setBits (t.row i) 0 n (packEls sz (els.map (·.1)))
  let t := t.setRow i (if sz = 6 then BitVec.ofNat 1024 (r.toNat % 2 ^ 1020) else r)
  let bad := (granulesOf 64 0 n).filter (fun g => (granulesOf sz (64 * g) (min 64 (n - 64 * g))).any (fun e => (els.getD e (0, false)).2))
  let keep := if n % 64 = 0 then [] else if t.pois.contains (16 * i + n / 64) then [n / 64] else []
  { t with pois := nsPatch t.pois (16 * i) ((n + 63) / 64) (((nsRange 0 16).filter (fun g => bad.contains g || keep.contains g)).map (· + 16 * i)) }
/-- Elements of `sz` bits packed in bytes, each with its poison. -/
def PBytes.els (b : PBytes) (sz cnt : Nat) : List (Nat × Bool) :=
  let v := leNat b.bytes
  let pois := b.poisoned
  (List.range cnt).map (fun k =>
    (v / 2 ^ (sz * k) % 2 ^ sz, pois && (granulesOf 8 (sz * k) sz).any (fun j => (b.getD j (0, false)).2)))

/-- A tile of rows of elements: every row rebuilt from its elements. -/
def Tile.ofRows (f : Fmt) (els : List (List Nat)) : AMap Row :=
  ((List.range els.length).zip els).filterMap (fun p =>
    let r : Row := BitVec.ofNat 1024 (packEls (Fmt.size f) p.2)
    if r = 0 then none else some (p.1, r))

/-- Whether the command in hand executes run-ahead (R31). -/
def isSpec (c : Cmd) : Bool := c.spec == .run || c.spec == .follow

/-- The tile a command reads: the shadow where a speculative command finds one written (R32). -/
def Core.seenTile (c : Core) (spec : Bool) (n : Nat) : Tile :=
  if spec then (match amFind n c.sh.tiles with | some t => t | none => c.tile n) else c.tile n

/-- Whether a tile counts as full for a command. -/
def Core.tileFull (c : Core) (spec : Bool) (n : Nat) : Bool :=
  if spec then c.sh.full.contains n || ((c.tile n).full && !c.sh.pend.contains n) else (c.tile n).full

/-- Whether a non-speculative consume or produce must wait for resolution (R32). -/
def Core.tilePending (c : Core) (spec : Bool) (n : Nat) : Bool := !spec && (c.sh.pend.contains n || c.sh.full.contains n)

/-- A change by a loop's lane noted for a roll-back of the innermost active loop (R158). -/
def Core.noteAll (c : Core) (tags : List IterTag) (u : Undo) : Core :=
  match c.loops with
  | l :: ls => match tags.find? (fun g => g.ser == l.ser) with
    | some g => { c with loops := { l with undo := (g.it, u) :: l.undo } :: ls }
    | none => c
  | [] => c
/-- A change by a command noted. -/
def Core.note (c : Core) (cmd : Cmd) (u : Undo) : Core := c.noteAll cmd.iter u

/-- The full/empty bit of a tile set by a command. -/
def Core.setFull (c : Core) (cmd : Cmd) (n : Nat) (v : Bool) : Core :=
  if isSpec cmd then
    let u := c.sh.undo ++ [(cmd.iter, Undo.full n (c.tileFull true n))]
    (if v then { c with sh := { c.sh with full := nsAdd n c.sh.full, undo := u } }
     else { c with sh := { c.sh with full := nsDel n c.sh.full, pend := nsAdd n c.sh.pend, undo := u } })
  else
    let t := c.tile n
    (c.note cmd (.full n t.full)).setTile n { t with full := v }

/-- The contents, tag and poison of a tile written by a command; the bit is left. -/
def Core.putTile (c : Core) (cmd : Cmd) (n : Nat) (t : Tile) : Core :=
  let t := t.packed
  if isSpec cmd then { c with sh := { c.sh with tiles := amSet c.sh.tiles n { t with full := (c.tile n).full } } }
  else c.setTile n { t with full := (c.tile n).full }

/-- A sticky bit of VXINFO set (Table 9.8). -/
def Core.setVxBit (c : Core) (b : Nat) : Core :=
  if b = 7 then { c with regs := { c.regs with vxBflag := true } }
  else if b = 6 then { c with regs := { c.regs with vxIsat := true } }
  else if b = 5 then { c with regs := { c.regs with vxOvf := true } }
  else { c with regs := { c.regs with vxNang := true } }
/-- Sticky bits set by a VX command: held with a speculative result (R256). -/
def Core.noteVx (c : Core) (cmd : Cmd) (bs : List Nat) : Core :=
  if isSpec cmd then { c with sh := { c.sh with vx := bs.foldl (fun s b => nsAdd b s) c.sh.vx } }
  else bs.foldl (fun (c : Core) b => c.setVxBit b) c
/-- VIOL of a bank of the core set by a VX command. -/
def Core.noteViol (c : Core) (cmd : Cmd) (b : Nat) : Core :=
  if isSpec cmd then { c with sh := { c.sh with viols := nsAdd b c.sh.viols } } else c.setViol b

/-! ### Tokens (R29, R30) -/

/-- The FIFO from engine slot `a` to `b`, by R30's numbers. -/
def fifoOf (a b : Slot) : Nat :=
  if a = 1 ∧ b = 4 then 0 else if a = 4 ∧ b = 3 then 1 else if a = 3 ∧ b = 2 then 2 else if a = 2 ∧ b = 1 then 3
  else if a = 4 ∧ b = 1 then 4 else if a = 3 ∧ b = 4 then 5 else if a = 2 ∧ b = 3 then 6 else 7
/-- The left neighbour of an engine (Table 1.7). -/
def leftOf (k : Slot) : Slot := if k = 1 then 2 else if k = 4 then 1 else if k = 3 then 4 else 3
/-- The right neighbour of an engine (Table 1.7). -/
def rightOf (k : Slot) : Slot := if k = 1 then 4 else if k = 4 then 3 else if k = 3 then 2 else 1
/-- The engine that receives from a FIFO. -/
def fifoDst (f : Nat) : Slot := ([4, 3, 2, 1, 1, 4, 3, 2] : List Nat).getD f 1
/-- The engine that sends to a FIFO. -/
def fifoSrc (f : Nat) : Slot := ([1, 4, 3, 2, 4, 3, 2, 1] : List Nat).getD f 1
/-- Tokens in a FIFO. -/
def Core.tokCount (c : Core) (f : Nat) : Nat := c.toks.getD f 0
/-- A FIFO's count replaced. -/
def Core.setTok (c : Core) (f n : Nat) : Core := if h : f < 8 then { c with toks := c.toks.set f n h } else c
/-- The FIFOs a command takes from. -/
def tokTakes (k : Slot) (t : Tok) : List Nat :=
  (if t.wl then [fifoOf (leftOf k) k] else []) ++ (if t.wr then [fifoOf (rightOf k) k] else [])
/-- The FIFOs a command sends to. -/
def tokSends (k : Slot) (t : Tok) : List Nat :=
  (if t.sl then [fifoOf k (leftOf k)] else []) ++ (if t.sr then [fifoOf k (rightOf k)] else [])
/-- A token removed by a command; a speculative one only marks it (R32). -/
def Core.takeTok (c : Core) (cmd : Cmd) (f : Nat) : Core :=
  if isSpec cmd then { c with sh := { c.sh with
    taken := amSet c.sh.taken f (amGet 0 c.sh.taken f + 1), undo := c.sh.undo ++ [(cmd.iter, .tokTaken f)] } }
  else (c.note cmd (.tokTaken f)).setTok f (c.tokCount f - 1)
/-- A token sent at completion: appended, or left to send while its FIFO is full, or held with a speculative result. -/
def Core.sendTok (c : Core) (slot : Slot) (cmd : Cmd) (f : Nat) : Core :=
  if isSpec cmd then { c with sh := { c.sh with sends := c.sh.sends ++ [(slot, f, cmd.iter)] } }
  else if c.tokCount f < 16 then (c.noteAll cmd.iter (.tokSent f)).setTok f (c.tokCount f + 1)
  else { c with unsent := c.unsent ++ [(slot, f, cmd.iter)] }

/-- Unsent tokens appended as far as their FIFOs have room, in their order. -/
def Core.flushUnsent (c : Core) : Core :=
  c.unsent.foldl (fun c p =>
    if c.tokCount p.2.1 < 16 then (c.noteAll p.2.2 (.tokSent p.2.1)).setTok p.2.1 (c.tokCount p.2.1 + 1)
    else { c with unsent := c.unsent ++ [p] })
    { c with unsent := [] }

/-! ### Holding and performing writes (R157) -/

/-- Entries of a write hold (Table 5.12). -/
def holdLimit (k : Slot) : Nat := if k = 0 then 32 else if k = 2 then 16 else if k = 4 then 4 else if k = 3 then 8 else 16
/-- Bytes an effect writes into a bank. -/
def effBytes : Effect → Nat
  | .bank _ _ f els _ _ _ => (els.length * Fmt.size f + 7) / 8
  | _ => 0
/-- The bytes of a bank that an effect writes: core, offset, length. -/
def Effect.bankRange : Effect → Option (Nat × Nat × Nat)
  | .bank core off f els _ _ _ => some (core, off, (els.length * Fmt.size f + 7) / 8)
  | .red core off _ els _ => some (core, off, 4 * els.length)
  | _ => none
/-- Entries a command takes in its engine's hold (Table 5.12). -/
def holdCost (h : Held) : Nat :=
  if h.slot = 3 then max 1 (((h.effs.map effBytes).sum + 8191) / 8192)
  else if h.slot = 5 then max 1 h.cmd.srcs.length else 1
/-- Entries in use in an engine's hold. -/
def Core.holdUsed (c : Core) (k : Slot) : Nat := ((c.holds.filter (fun h => h.slot == k)).map holdCost).sum

/-- The innermost loop, where it holds the writes of a command (R157, R160). -/
def Core.holdsFor (c : Core) (cmd : Cmd) : Option IterTag :=
  match c.loops with
  | l :: _ => match cmd.tagIn l.ser with
    | some g => if g.it < l.retired then none else some g
    | none => none
  | [] => none

/-- The BOUND fault of a violation, from the engine's own fault and its elements per row: ST names row and element, VX
the flat index, CP the row (R44, Tables 8.6, 9.7, 11.6). -/
def boundTrap (slot : Slot) (base : Trap) (rl : Nat) (v : Viol) : Trap :=
  let e := if slot = 2 then (v.k / max 1 rl % 256) * 2 ^ 32 + (v.k % max 1 rl % 256) * 2 ^ 40 else if slot = 3 then v.k * 2 ^ 32
    else if 6 ≤ slot then v.k / max 1 rl % 2 ^ 32 * 2 ^ 32 else 0
  { base with cls := .bound, stat := base.stat ||| BitVec.ofNat 64 e, va := BitVec.ofNat 64 v.off, viol := some (v.core, bankOf v.off) }

/-- Effects performed in order. -/
def State.performAll (s : State) (k : Nat) (slot : Slot) (effs : List Effect) : State :=
  effs.foldl (fun s e => s.perform k slot e) s

/-- The effects of the command in hand checked against trapping banks (R44). -/
def checkBounds (base : Trap) (rl : Nat) (effs : List Effect) : M Unit := do
  let s ← get
  match effsViol (s.see s.cur) s.cur s.slot effs with
  | some v => raise (boundTrap s.slot base rl v)
  | none => pure ()

/-- The bank accesses of effects, one after the other (R46). -/
def accessEffs (effs : List Effect) : M Unit :=
  effs.forM (fun e => match e.bankRange with | some (k, off, n) => accessSp k off n | none => pure ())

/-- A write of a retired iteration that the command in hand comes after in core order, and that is not performed yet: of its own queue, or put
before it by a `qjoin` (R109, R110). -/
def Core.behindDue (c : Core) (k : Slot) : Bool := c.holds.any (fun h => h.due && (h.slot == k || h.joined.contains k))
/-- The wait for such a write (Table 12.7). -/
def awaitDue : M Unit := do
  let s ← get
  if (s.core s.cur).behindDue s.slot then waitFor 9 1

/-- The effects of the command in hand, checked against trapping banks and then performed, or put into the engine's
write hold in a loop (R44, R157). -/
def commit (base : Trap) (rl : Nat) (effs : List Effect) (need : SealWait := .no) : M Unit := do
  checkBounds base rl effs
  let s ← get
  let c ← core
  match c.holdsFor s.cmd with
  | some g =>
    let h : Held := ⟨g.ser, g.it, s.slot, s.cmd, effs, need, base, rl, false, [], none⟩
    if s.slot ≠ 2 ∧ holdLimit s.slot < c.holdUsed s.slot + holdCost h then waitFor 9 1
    modCore (fun c => { c with holds := c.holds ++ [h] })
  | none => do
    awaitDue
    accessEffs effs
    modify (fun s => s.performAll s.cur s.slot effs)

/-- A release that asks for a seal with its own write (R460): the state with the request, and its ticket. -/
def State.askSeal (s : State) (k : Nat) (slot : Slot) (cmd : Cmd) (own : List Effect) : State × Nat :=
  let p := s.corePart k
  let n := (s.getPart p).ck.ticket
  (s.updPart p (fun x => { x with ck := { x.ck with ticket := n + 1, asks := x.ck.asks ++ [⟨n, k, slot, cmd, own, false⟩] } }), n)

/-- Granules of the checkpoint domain that a `camo` at recovery scope holds until its seal completes (R460). -/
def State.lockFor (s : State) (p : Nat) (own : List Effect) : State :=
  own.foldl (fun s e => match e with
    | .amo _ pa _ _ _ _ _ _ _ =>
      if ((s.getPart p).ck.working pa).isSome then
        s.updPart p (fun x => { x with ck := { x.ck with locked := nsAdd (pa / 256) x.ck.locked } })
      else s
    | _ => s) s

/-- The own write of a release at recovery scope (R130, R460): performed when a seal has completed, which the command
asks for and awaits; where there is no domain, at once; a failed seal raises the fault `link` (R461). -/
def sealOwn (own : List Effect) (link : Trap) : M Unit := do
  awaitDue
  let s ← get
  let p ← partNo
  let ck := (s.getPart p).ck
  if ck.regions = [] then modify (fun s => s.performAll s.cur s.slot own)
  else match s.cmd.joined with
    | none =>
      let (s', n) := s.askSeal s.cur s.slot s.cmd own
      let cmd := { s.cmd with joined := some n }
      let s' := (s'.lockFor p own).updCore s.cur (fun c => c.setQueue s.slot (replCmd cmd (c.queue s.slot)))
      throw (.started { s' with cmd := cmd } ⟨10, 0, 0, BitVec.ofNat 64 (opOf cmd.raw), 0⟩)
    | some n =>
      match amFind n ck.answers with
      | none => waitFor 10 (BitVec.ofNat 64 (opOf s.cmd.raw))
      | some ok =>
        let cmd := { s.cmd with joined := none }
        let s' := s.updPart p (fun x => { x with ck := { x.ck with answers := amDel n x.ck.answers } })
        let s' := { (s'.updCore s.cur (fun c => c.setQueue s.slot (replCmd cmd (c.queue s.slot)))) with cmd := cmd }
        if ok then set s' else throw (.held s' link s.cmd.idx s.cmd.lane)

/-- Whether the next write of a queue is a release at recovery scope (R117, R151). -/
def Core.relNext (c : Core) (k : Slot) : Bool := if k = 0 then c.rcNext else c.rcMore.contains k
/-- That release made. -/
def Core.relMade (c : Core) (k : Slot) : Core := if k = 0 then { c with rcNext := false } else { c with rcMore := nsDel k c.rcMore }

/-- A write of the command in hand: after a release fence at recovery scope that precedes it in core order it is a release there (R117, R130,
R151), given to the Wellhead at once or, in a loop, at its iteration's retirement; `link` is the fault of a seal that fails. -/
def commitWrite (base : Trap) (rl : Nat) (effs : List Effect) (link : Trap) : M Unit := do
  let s ← get
  let c ← core
  if c.relNext s.slot then
    if (c.holdsFor s.cmd).isSome then commit base rl effs .want
    else do
      checkBounds base rl effs
      sealOwn effs link
    modCore (·.relMade s.slot)
  else commit base rl effs

/-! ### The end of a command -/

/-- The wait of an engine recorded, keeping its beginning while it stays the same (R363); KIND 0 records none. -/
def Core.setWait (c : Core) (k : Slot) (now : Nat) (w : Wait) : Core :=
  if w.kind = 0 then { c with waits := amDel k c.waits } else
  let w0 := amGet ⟨0, 0, 0, 0, 0⟩ c.waits k
  let since : Word := if w0.kind = w.kind ∧ w0.wsa = w.wsa ∧ w0.sub = w.sub ∧ w0.arg = w.arg then w0.wsc else BitVec.ofNat 64 now
  { c with waits := amSet c.waits k { w with wsc := since } }
/-- No wait of an engine. -/
def Core.clearWait (c : Core) (k : Slot) : Core := { c with waits := amDel k c.waits }

/-- A stall of an engine by the matrix engine's streaming begins, or goes on (R46). -/
def Core.beginStall (c : Core) (k : Slot) (now : Nat) : Core :=
  if (amFind k c.stallAt).isSome then c else { c with stallAt := amSet c.stallAt k now }

/-- A step of a single-stepped engine ends in a halt (R182). -/
def Core.endStep (c : Core) (k : Slot) : Core :=
  if c.dbg.stepping && decide (slotEng k = c.dbg.stepeng.toNat) then
    { c with dbg := { c.dbg with stepping := false, halted := true, why := 0 } } else c

/-- The command in hand leaves its queue: completed. A speculative MX or VX command is kept for its possible
re-execution (R33). -/
def Core.retire (c : Core) (k : Slot) (cmd : Cmd) : Core :=
  let c := (c.setQueue k (dropCmd cmd.idx (c.queue k))).clearWait k
  let c := if isSpec cmd then
    { c with sh := { c.sh with redo := amSet c.sh.redo k (amGet [] c.sh.redo k ++ [{ cmd with started := false, srcs := [] }]) } } else c
  c.endStep k

/-- Finish a computation on the command in hand: its state; a fault taken; a wait recorded; a missed address walked. -/
def settle (s0 : State) (r : Except Stop (Unit × State)) : Host.Outcome State Fault Refusal :=
  match r with
  | .ok (_, s) => .next { s with stalled := false }
  | .error (.trap t) =>
    if isSpec s0.cmd then
      .next { (s0.updCore s0.cur (fun c => c.clearWait s0.slot)) with stalled := true }
    else .next { cmdFault s0 s0.cur t s0.cmd with stalled := false }
  | .error (.held s t idx lane) => .next { takeFault s s.cur t idx lane with stalled := false }
  | .error (.wait w) => .next { (s0.updCore s0.cur (fun c => c.setWait s0.slot s0.now w)) with stalled := true }
  | .error (.part s t) => .next { cmdFault s s.cur t s0.cmd with stalled := false }
  | .error (.started s w) => .next { (s.updCore s0.cur (fun c => c.setWait s0.slot s0.now w)) with stalled := false }
  | .error .stall => .next { (s0.updCore s0.cur (fun c => (c.clearWait s0.slot).beginStall s0.slot s0.now)) with stalled := true }
  | .error (.miss va write mk) =>
    match s0.pageWalk s0.cur va write with
    | .ok s => .next { s with stalled := false }
    | .error e => .next { cmdFault s0 s0.cur (mk e va) s0.cmd with stalled := false }

/-- Run a computation on the state, with the command in hand. -/
def runM (s : State) (m : M Unit) : Host.Outcome State Fault Refusal := settle s (m.run s)

/-- The operands an engine lane waits for and releases (R25, R26, R29): tokens, source tiles and destination, each with
its field's lowest bit. -/
structure LaneOps where
  tok : Tok
  srcs : List (TileRef × Nat)
  dsts : List (TileRef × Nat)
  deriving DecidableEq, Repr

/-- No tokens. -/
def Tok.none : Tok := ⟨false, false, false, false⟩

/-- The first operand in a mode its place forbids (R26). -/
def LaneOps.illegal (o : LaneOps) : Option Nat :=
  match o.srcs.find? (fun p => p.1.mode == TileMode.produce) with
  | some p => some p.2
  | none => (o.dsts.find? (fun p => p.1.mode == TileMode.consume || p.1.mode == TileMode.peek)).map (·.2)

/-- The stronger mode of a tile named twice as a source: consume over peek over plain (R26). -/
def strongMode (srcs : List (TileRef × Nat)) (n : BitVec 6) : TileMode :=
  if srcs.any (fun p => p.1.n == n && p.1.mode == TileMode.consume) then .consume
  else if srcs.any (fun p => p.1.n == n && p.1.mode == TileMode.peek) then .peek else .plain

/-- Whether a command awaits the seal it has asked for (R460): not the phase that a `bar.arw` has joined (R356). -/
def Cmd.sealing (m : Cmd) : Bool := match m.instr with | .barArw _ _ => false | _ => m.joined.isSome
/-- Commands of a queue that have started. -/
def Core.begun (c : Core) (k : Slot) : Nat := ((cmdsOf (c.queue k)).filter (fun (m : Cmd) => m.started)).length

/-- The waits of a command that has not started, and its start: sources read and their tags checked, tokens taken,
consumes applied, then the destination's condition (R25, R26, R28, R29). A speculative produce waits for a committed bit that is empty or
pending-empty (R32), and, the model's own choice (log 46), for a shadow that is not full: a second speculative produce waits until a speculative
consume or the resolution has emptied the shadow. A store starts with a free store buffer, of 16, which the started and the held stores share (R232). -/
def startLane {α : Type} (o : LaneOps) (chk : List Tile → M α) : M α := do
  let s ← get
  let c ← core
  let cmd := s.cmd
  let spec := isSpec cmd
  if (c.unsent.any (fun p => p.1 == s.slot)) then waitFor 2 (BitVec.ofNat 64 ((c.unsent.map (·.2.1)).headD 0))
  for f in tokTakes s.slot o.tok do
    if c.tokCount f ≤ amGet 0 c.sh.taken f then waitFor 2 (BitVec.ofNat 64 f)
  for p in o.srcs do
    let n := p.1.n.toNat
    let m := strongMode o.srcs p.1.n
    if m = .consume ∧ c.tilePending spec n then waitFor 1 (BitVec.ofNat 64 n) 2
    if (m = .consume ∨ m = .peek) ∧ ¬ c.tileFull spec n then waitFor 1 (BitVec.ofNat 64 n) 0
  let tiles := o.srcs.map (fun p => c.seenTile spec p.1.n.toNat)
  let a ← chk tiles
  if s.slot = 2 ∧ holdLimit 2 ≤ c.holdUsed 2 + c.begun 2 then waitFor 9 2
  let c' := (tokTakes s.slot o.tok).foldl (fun c f => c.takeTok cmd f) c
  let c' := o.srcs.foldl (fun c p => if strongMode o.srcs p.1.n = .consume ∧ c.tileFull spec p.1.n.toNat then c.setFull cmd p.1.n.toNat false else c) c'
  for d in o.dsts do
    let n := d.1.n.toNat
    if d.1.mode = .produce ∧ c'.tilePending spec n then waitFor 1 (BitVec.ofNat 64 n) 2
    if d.1.mode = .produce ∧ c'.tileFull spec n then waitFor 1 (BitVec.ofNat 64 n) 1
  let cmd' := { cmd with started := true, srcs := tiles }
  set { (s.setCore s.cur (c'.setQueue s.slot (replCmd cmd' (c'.queue s.slot)))) with cmd := cmd' }
  return a

/-- The completion of an engine lane: the produce condition, the tokens sent, the command leaves its queue (R25, R29). -/
def finishLane (o : LaneOps) : M Unit := do
  let s ← get
  let cmd := s.cmd
  modCore (fun c =>
    let c := o.dsts.foldl (fun (c : Core) d => if d.1.mode = TileMode.produce then c.setFull cmd d.1.n.toNat true else c) c
    let c := (tokSends s.slot o.tok).foldl (fun c f => c.sendTok s.slot cmd f) c
    c.retire s.slot cmd)

/-- The wait for a prediction's resolution as the wait-state registers show it (R24, Table 12.7): of kind 1 with SUB 2, for no tile (log 47). -/
def specWait : Wait := ⟨1, 2, 0, 0, 0⟩

/-- An engine lane: illegal modes and the checks `pre` before every wait; `comp`, which sees the source tiles and raises what
it must before any is consumed; the start; the body; the completion. A fault or a wait of the body leaves the started command
at its queue head. A turn that only starts the command (R214, R253) leaves body and completion to a later one. -/
def engineCalc {α : Type} (s : State) (o : LaneOps) (pre : M Unit) (comp : List Tile → M α) (body : α → M Unit) :
    Host.Outcome State Fault Refusal :=
  match o.illegal with
  | some flo => settle s (.error (.trap (illegalAt (cmdEng s.slot s.cmd) (slotChan s.slot) s.cmd flo 8)))
  | none =>
    if isSpec s.cmd ∧ s.slot ≠ 3 ∧ s.slot ≠ 4 then settle s (.error (.wait specWait))
    else if s.cmd.started then runM s (do let a ← comp s.cmd.srcs; body a; finishLane o)
    else match (do pre; startLane o comp).run s with
      | .error e => settle s (.error e)
      | .ok (a, s1) => if s.starting then .next { s1 with stalled := false } else runM s1 (do body a; finishLane o)

/-- The same where the start only checks the tiles. -/
def engineLane (s : State) (o : LaneOps) (pre : M Unit) (body : List Tile → M Unit)
    (chk : List Tile → M Unit := fun _ => pure ()) : Host.Outcome State Fault Refusal :=
  engineCalc s o pre (fun tiles => do chk tiles; return tiles) body

/-- A scalar captured at routing (R53); consumed when poisoned, with the engine's own fault. -/
def captured (i : Nat) (mk : FaultClass → Word → Trap) : M Word := do
  let s ← get
  let x := s.cmd.vals.getD i Scalar.zero
  if x.poison then raise (mk .poison 0) else return x.v

/-- Whether the command in hand lies in the body of an active hardware loop (R155). -/
def Cmd.inBody (c : Cmd) : Bool := c.iter.any (fun g => !g.tail)

/-- An XQ command put into the XQ hold of the innermost loop where that holds writes (R157); whether it was. -/
def xqHeld : M Bool := do
  let s ← get
  let c ← core
  match c.holdsFor s.cmd with
  | none => do
    awaitDue
    return false
  | some g =>
    let h : Held := ⟨g.ser, g.it, 5, s.cmd, [], .no, illegalAt 7 0 s.cmd 0 0, 1, false, [], none⟩
    if holdLimit 5 < c.holdUsed 5 + holdCost h then waitFor 9 1
    modCore (fun c => { c with holds := c.holds ++ [h] })
    return true

/-- A computation tried for its faults only: the state stays. -/
def dryRun (m : M Unit) : M Unit := fun s =>
  match m.run s with
  | .error (.trap t) => .error (.trap t)
  | .error (.miss va w mk) => .error (.miss va w mk)
  | _ => .ok ((), s)

/-- An XQ command whose effect is to be a release at recovery scope (R117, R130): it awaits its seal before it is given to its unit. -/
def xqRelease : M Unit := do
  let s ← get
  let c ← core
  if c.relNext 5 then do
    sealOwn [] (illegalAt (cmdEng 5 s.cmd) 0 s.cmd 0 0 |> fun t => { t with cls := .link, stat := BitVec.ofNat 64 (opOf s.cmd.raw * 2 ^ 16), va := 0 })
    modCore (·.relMade 5)

/-- An XQ lane at the port: illegal modes, an instruction not allowed in a loop body, the checks `pre`, its tiles read, then its
act at the unit; in a loop the command passes its checks and is held, and is given to the port again at its iteration's
retirement (R127, R157). -/
def xqLane (s : State) (o : LaneOps) (inLoop : Bool) (pre : M Unit) (act : List Tile → M Unit)
    (chk : List Tile → M Unit := fun _ => pure ()) : Host.Outcome State Fault Refusal :=
  let done : M Unit := modCore (fun c => c.retire 5 s.cmd)
  match o.illegal with
  | some flo => settle s (.error (.trap (illegalAt (cmdEng 5 s.cmd) 0 s.cmd flo 8)))
  | none =>
    if !inLoop && s.cmd.inBody then settle s (.error (.trap (illegalAt (cmdEng 5 s.cmd) 0 s.cmd 24 8)))
    else if isSpec s.cmd then settle s (.error (.wait specWait))
    else if s.cmd.accepted then runM s (do act s.cmd.srcs; done)
    else
      let first : Except Stop (Unit × State) := if s.cmd.started then .ok ((), s) else (do pre; startLane o chk).run s
      match first with
      | .error e => settle s (.error e)
      | .ok (_, s1) => runM s1 (do
          if ((s1.core s1.cur).holdsFor s1.cmd).isSome then dryRun (act s1.cmd.srcs)
          let held ← xqHeld
          if held then pure () else do
            xqRelease
            act s1.cmd.srcs
          done)

/-- A result of `n` bytes in the issuing core's own scratchpad, aligned, in a bank whose ACT is off (R207, R352). -/
def resultAt (mk : FaultClass → Word → Trap) (xa : Word) (n align : Nat) : M Nat := do
  if bits xa.toNat 25 39 ≠ 0 ∨ (bits xa.toNat 24 1 = 0 ∧ bits xa.toNat 22 2 ≠ 0) then raise (mk .page xa)
  if bits xa.toNat 24 1 = 1 then raise (mk .perm xa)
  let o := bits xa.toNat 0 22
  if o % align ≠ 0 then raise (mk .align xa)
  let c ← core
  if 0x400000 < o + n then raise (mk .page xa)
  if (nsRange (bankOf o) (bankOf (o + n - 1) + 1 - bankOf o)).any (fun b => (c.bank b).act != 0) then raise (mk .perm xa)
  return o
/-- Bytes of a result written (R46, R207). -/
def writeResult (o : Nat) (bs : List Byte) : M Unit := do
  let s ← get
  awaitStream s.cur o bs.length
  modCore (fun c => c.writeSp o bs [])

/-- CORELOC (Table 5.5). -/
def State.coreloc (s : State) (k : Nat) : Nat :=
  let gang := (s.core k).task.any (fun t => t.gang)
  k % 512 + s.corePart k * 2 ^ 9 + gang.toNat * 2 ^ 11
/-- CYCLE of a partition (Table 5.3). -/
def State.cycle (s : State) (p : Nat) : Nat := s.now - (s.getPart p).base

end Sys2Proof.Machine
end

