-- ==== Sys2Proof/Machine/Operands.lean ====
section
/-! DEFINITION. Operands: the scalar registers a lane captures, reads and writes, the predicates it writes, and the
lane's place in a loop (R53, R31, R138, R156). -/

namespace Sys2Proof.Machine

/-- The status register of an instruction, where it has one. -/
def StatReg.list : StatReg → List XReg
  | .none => []
  | .at x => [x]
/-- The scalar register of a vector source, where it is one. -/
def VSrc.list : VSrc → List XReg
  | .scalar x => [x]
  | .tile _ => []

/-- The scalar registers an engine lane captures when it is routed, in order (R53, R171). -/
def scalarsOf : Instr → List XReg
  | .ldT o | .ldS o | .ldW o => [o.xa, o.xb]
  | .ldG o _ | .ldGs o _ => [o.xa, o.xb]
  | .ldB o _ => [o.xa, o.xb]
  | .ldAcq o _ _ => [o.xa, o.xb]
  | .pf _ _ xa | .pfW _ _ xa => [xa]
  | .stT o | .stS o => [o.xa, o.xb]
  | .stSc o _ | .stSs o _ => [o.xa, o.xb]
  | .stRel o _ _ => [o.xa, o.xb]
  | .stRed o _ _ _ => [o.xa, o.xb]
  | .vadd _ _ _ b _ _ | .vsub _ _ _ b _ _ | .vmul _ _ _ b _ _ => VSrc.list b
  | .vfma _ _ _ b _ _ | .vfms _ _ _ b _ _ => VSrc.list b
  | .vmin _ _ _ b | .vmax _ _ _ b | .vand _ _ _ b | .vor _ _ _ b | .vxor _ _ _ b | .vshl _ _ _ b => VSrc.list b
  | .vcmp _ _ _ b _ | .vshr _ _ _ b _ => VSrc.list b
  | .vsel _ _ _ _ b => VSrc.list b
  | .vbcr _ _ _ xb | .vbcc _ _ _ xb => [xb]
  | .vrng _ _ xa xb _ => [xa, xb]
  | .vmovLoad _ _ xa | .vmovStore _ _ xa => [xa]
  | .vfill _ _ _ xa _ xb => [xa, xb]
  | .mxdrb _ _ _ xa xb _ _ => [xa, xb]
  | .cpWait _ xa | .cpTw _ _ _ xa _ => [xa]
  | .swInit _ xa xb => [xa, xb]
  | .swWait _ xa xg => [xa, xg]
  | .swWaitSt _ xa xg xr => [xa, xg, xr]
  | .sqSub xa st xb => if st then [xa, xb] else [xa]
  | .sqGpr _ _ xa | .sqGpw _ xa | .sqCrd xa | .sqAcc _ xa => [xa]
  | .barAlloc _ xa | .barArr _ xa | .barArw _ xa | .barFree xa => [xa]
  | .barInit xa xn | .barInitM _ _ xa xn => [xa, xn]
  | .barWait _ xa xg => [xa, xg]
  | .semInit _ xa | .semSigReg _ _ xa | .semWaitReg _ _ xa => [xa]
  | .wsRdCore xa xg | .wsRdBar xa xg | .wsRdSem xa xg => [xa, xg]
  | .pmProg _ xa xb | .pmVer _ xa xb | .pmOpen _ xa xb | .pmSeal _ xa xb => [xa, xb]
  | .pmWear _ xa | .pmRemap _ xa | .pmClr _ xa | .pmClrR _ xa | .pmAct _ xa | .pmStat _ xa => [xa]
  | .aqSend _ _ xa st | .aqKvapp _ _ xa st | .aqTins _ xa st | .aqTacc _ xa st => xa :: StatReg.list st
  | .aqComp xa st | .aqDet xa st => xa :: StatReg.list st
  | .aqAtt xa xp st => xa :: xp :: StatReg.list st
  | .aqSeqOpen xa st | .aqSeqClose xa st | .aqSeqGrow xa st | .aqSeqTrunc xa st => xa :: StatReg.list st
  | .aqSeqPub xa st | .aqSeqEvict xa st | .aqSeqTclr xa st => xa :: StatReg.list st
  | .fxBc _ _ xa st | .fxAr _ _ _ xa st | .fxRd _ _ _ xa st => xa :: StatReg.list st
  | .fxAmax _ _ xa xb st => xa :: xb :: StatReg.list st
  | .fxWait xa | .fxStat _ xa => [xa]
  | .ckSeal st => StatReg.list st
  | .ckRp _ xa xb => [xa, xb]
  | .ckRead xa => [xa]
  | _ => []

/-- The scalar register a control-core lane writes. -/
def ccDst : Instr → Option XReg
  | .add d _ _ _ | .sub d _ _ _ | .and d _ _ _ | .or d _ _ _ | .xor d _ _ _ | .shl d _ _ _ | .shr d _ _ _ => some d
  | .sra d _ _ _ | .mul d _ _ _ | .mulh d _ _ _ _ | .div d _ _ _ _ | .rem d _ _ _ _ | .min d _ _ _ _ => some d
  | .max d _ _ _ _ | .addi d _ _ | .andi d _ _ | .ori d _ _ | .xori d _ _ | .shli d _ _ _ | .shri d _ _ _ => some d
  | .srai d _ _ _ | .sel d _ _ _ _ | .movi d _ | .movhi d _ | .lea d _ _ _ _ | .cld d _ _ _ | .sld d _ _ _ => some d
  | .camo d _ _ _ _ _ _ | .callr d _ | .sysr d _ | .mxst d _ _ | .mxstAll d _ | .pget d => some d
  | .bitcPop d _ _ | .bitcClz d _ _ | .bitcCtz d _ _ | .ext d _ _ _ | .ins d _ _ | .lcr d _ => some d
  | .call .. => some 31
  | _ => none

/-- The scalar registers a control-core lane reads. -/
def ccSrcs : Instr → List XReg
  | .add _ a b _ | .sub _ a b _ | .and _ a b _ | .or _ a b _ | .xor _ a b _ | .shl _ a b _ | .shr _ a b _ => [a, b]
  | .sra _ a b _ | .mul _ a b _ | .mulh _ a b _ _ | .div _ a b _ _ | .rem _ a b _ _ | .min _ a b _ _ => [a, b]
  | .max _ a b _ _ | .cmp _ a b _ _ _ | .sel _ a b _ _ | .ext _ a b _ => [a, b]
  | .addi _ a _ | .andi _ a _ | .ori _ a _ | .xori _ a _ | .shli _ a _ _ | .shri _ a _ _ | .srai _ a _ _ => [a]
  | .cmpi _ a _ _ | .lea _ a _ _ _ | .cld _ a _ _ | .sld _ a _ _ | .jr a | .callr _ a | .loop _ a _ _ _ => [a]
  | .cst d a _ _ | .sst d a _ _ => [d, a]
  | .camo d a b _ _ _ op => if op = .cas then [d, a, b] else [a, b]
  | .ins d a b => [d, a, b]
  | .movhi d _ => [d]
  | .sysw a _ | .bkfmtWrite _ a | .bkbndWrite _ a | .paceGapWrite _ a | .mxcfg _ a _ | .mxcfgT a _ => [a]
  | .pset a _ | .bitcPop _ a _ | .bitcClz _ a _ | .bitcCtz _ a _ | .lcw _ a => [a]
  | _ => []

/-- The predicates a control-core lane writes. -/
def predDsts : Instr → List PReg
  | .cmp pd .. | .cmpi pd .. | .pcomb pd .. => [pd]
  | .pset _ m => ((List.range 7).filter (fun k => m.getLsbD k)).map (fun k => BitVec.ofNat 3 (k + 1))
  | _ => []

/-- Whether a lane of the control core may transfer control: fetch waits for it, or follows it. -/
def isTransfer : Instr → Bool
  | .b .. | .call .. | .jr .. | .callr .. | .loop .. | .loopi .. => true
  | _ => false

/-- Whether a lane waits in every queue as a `qjoin` of all of them, itself removing the markers (R45). -/
def isBankWrite : Instr → Bool
  | .bkfmtWrite .. | .bkbndWrite .. => true
  | _ => false

/-- The queue that holds the gate of an SY instruction, where its ENG is not `xq` (R349). -/
def gateSlot : GateEng → Option Slot
  | .xq => none | .ld => some 1 | .st => some 2 | .vx => some 3 | .mx => some 4
/-- The gate of a lane. -/
def gateOf : Instr → Option Slot
  | .barArr e _ | .barWait e _ _ | .barArw e _ => gateSlot e
  | .semSigImm e _ _ | .semSigReg e _ _ | .semWaitImm e _ _ | .semWaitReg e _ _ => gateSlot e
  | _ => none
/-- The channel of a CP lane: CH of Table 11.4, in a lane with a reserved value or opcode too. -/
def chanOf : Instr → Nat
  | .cpWait ch _ | .cpTw _ ch _ _ _ | .cpCancel ch | .swInit ch _ _ | .swWait ch _ _ | .swWaitSt ch _ _ _ => ch.toNat
  | .reservedFieldValue w | .reservedOpcode w => bits w.toNat 20 3
  | _ => 0
/-- The queue of a lane: its class's, for a CP lane its channel's. -/
def laneSlot (cls : Cls) (i : Instr) : Slot := if cls = .cp then 6 + chanOf i else clsSlot cls
/-- Whether a lane is an `sq.yield` (R211). -/
def isYield : Instr → Bool
  | .sqYield | .sqYieldAl => true
  | _ => false
/-- Whether a lane ends the path (R52). -/
def isExit : Instr → Bool
  | .exit _ => true
  | _ => false
/-- The queues a `qjoin` mask names, the control core's as slot 0 (R162). -/
def maskSlots (m : BitVec 14) : List Slot :=
  (List.range 14).filterMap (fun b => if m.getLsbD b then some (if b < 3 then b + 1 else if b = 3 then 4 else if b = 4 then 5 else if b = 5 then 0 else b) else none)

/-- The tile of an SX position. -/
def vTiles : VSrc → List TileRef
  | .tile t => [t]
  | .scalar _ => []
/-- The tiles of a lane that it starts with: sources, and destinations (R25, R26). -/
def tilesOf : Instr → List TileRef × List TileRef
  | .ldT o | .ldS o | .ldB o _ | .ldW o | .ldAcq o _ _ => ([], [o.td])
  | .ldG o ti | .ldGs o ti => ([ti], [o.td])
  | .stT o | .stS o | .stRel o _ _ | .stRed o _ _ _ => ([o.ts], [])
  | .stSc o ti | .stSs o ti => ([o.ts, ti], [])
  | .vadd _ td ta b _ _ | .vsub _ td ta b _ _ | .vmul _ td ta b _ _ | .vmin _ td ta b | .vmax _ td ta b | .vcmp _ td ta b _ | .vand _ td ta b
  | .vor _ td ta b | .vxor _ td ta b | .vshl _ td ta b | .vshr _ td ta b _ => (ta :: vTiles b, [td])
  | .vfma _ td ta b tc _ | .vfms _ td ta b tc _ => (ta :: tc :: vTiles b, [td])
  | .vsel _ td tm ta b => (tm :: ta :: vTiles b, [td])
  | .vabs _ td ta _ | .vneg _ td ta _ | .vexp2 _ td ta | .vlog2 _ td ta | .vrcp _ td ta | .vrsq _ td ta | .vtanh _ td ta | .vredr _ td ta _ _
  | .vredc _ td ta _ _ | .vtr _ td ta | .vbcr _ td ta _ | .vbcc _ td ta _ | .vbnd _ td ta _ | .vmov _ td ta => ([ta], [td])
  | .vcvt _ td ta tb tc ss ds _ _ _ _ => (ta :: (if ss then [tb] else []), td :: (if ds then [tc] else []))
  | .vscan _ td ta tf _ _ _ _ => ([ta, tf], [td])
  | .vpermB _ td ta tb tc _ => ([ta, tb, tc], [td])
  | .vrng _ td _ _ _ | .vmovLoad _ td _ | .vfill _ td _ _ _ _ => ([], [td])
  | .vmovStore _ ts _ => ([ts], [])
  | .mxdr _ td _ _ _ _ => ([], [td])
  | .mxld _ ta _ _ => ([ta], [])
  | .aqSend _ tq _ _ => ([tq], [])
  | .aqKvapp tk tv _ _ => ([tk, tv], [])
  | .aqTins t _ _ | .aqTacc t _ _ => ([t], [])
  | .fxBc _ ts _ _ | .fxAr _ _ ts _ _ | .fxRd _ _ ts _ _ | .fxAmax _ ts _ _ _ => ([ts], [])
  | _ => ([], [])

/-- The token field of a lane (R62). -/
def tokOf : Instr → Tok
  | .ldT o | .ldS o | .ldW o | .ldG o _ | .ldGs o _ | .ldB o _ | .ldAcq o _ _ => o.tok
  | .pf t _ _ | .pfW t _ _ => t
  | .stT o | .stS o | .stSc o _ | .stSs o _ | .stRel o _ _ | .stRed o _ _ _ => o.tok
  | .pubv t _ => t
  | .vadd t .. | .vsub t .. | .vmul t .. | .vfma t .. | .vfms t .. | .vmin t .. | .vmax t .. | .vabs t .. => t
  | .vneg t .. | .vcmp t .. | .vsel t .. | .vand t .. | .vor t .. | .vxor t .. | .vshl t .. | .vshr t .. => t
  | .vcvt t .. | .vexp2 t .. | .vlog2 t .. | .vrcp t .. | .vrsq t .. | .vtanh t .. | .vredr t .. | .vredc t .. => t
  | .vscan t .. | .vtr t .. | .vbcr t .. | .vbcc t .. | .vpermB t .. | .vrng t .. | .vbnd t .. | .vmov t .. => t
  | .vmovLoad t .. | .vmovStore t .. | .vfill t .. => t
  | .mxgo t | .mxdr t .. | .mxdrb t .. | .mxclr t .. | .mxld t .. | .mxsc t | .mxscSp t | .mxscW t => t
  | _ => Tok.none

/-- Whether a held write is a `camo` whose destination is a register that no later lane has overwritten (R150, log 48). -/
def Held.writesX (h : Held) (r : XReg) : Bool :=
  h.overAt.isNone && h.effs.any (fun e => match e with | .amo _ _ _ _ _ _ d _ _ => d == r | _ => false)
/-- A scalar register that a held `camo` will write (R150). -/
def Core.xHeld (c : Core) (r : XReg) : Bool := r != 0 && c.holds.any (·.writesX r)
/-- A scalar register some control-core lane still to execute, or a held `camo`, will write (R53, R150). -/
def Core.xPending (c : Core) (r : XReg) : Bool := (r != 0 && (cmdsOf (c.queue 0)).any (fun m => ccDst m.instr == some r)) || c.xHeld r
/-- The last control-core lane still to execute that writes a predicate: while there is one, the predicate is unresolved
(R31). -/
def Core.predWriter (c : Core) (p : PReg) : Option Nat :=
  if p = 0 then none else (((cmdsOf (c.queue 0)).filter (fun m => (predDsts m.instr).contains p)).getLast?).map (·.idx)

/-- The stage of a class in a loop (R155). -/
def stageOf (g : Stages) : Cls → Nat
  | .cc => 0 | .ld => g.ld.toNat | .st => g.st.toNat | .vx => g.vx.toNat | .mx => g.mx.toNat | .cp => g.cp.toNat
  | .xq => g.xq.toNat

/-- The iteration a lane of a class fetched now has in one loop; `none` where the loop suppresses it (R156, R158). -/
def Loop.tag (l : Loop) (cls : Cls) : Option IterTag :=
  if l.done then some ⟨l.ser, l.n - 1, l.n + l.s - 1, true⟩
  else if cls = .cc then some ⟨l.ser, min l.pass (l.n - 1), l.pass, false⟩
  else
    let g := stageOf l.stg cls
    let k := l.pass - g
    if l.pass < g ∨ l.n ≤ k ∨ k < l.start ∨ (l.roll.any (fun i => decide (i ≤ k))) = true then none
    else some ⟨l.ser, k, l.pass, false⟩

/-- The iterations of a lane of a class fetched now, innermost loop first; `none` where a loop suppresses it. -/
def Core.laneTags (c : Core) (cls : Cls) : Option (List IterTag) := c.loops.mapM (fun l => l.tag cls)

/-- An instruction's last lane (R67). -/
def lastLane (a : Word) (long : Bool) : Word := if long then a + 4 else a
/-- The lane that follows an instruction (R67). -/
def nextLane (a : Word) (long : Bool) : Word :=
  let l := lastLane a long
  if l.toNat % 32 = 28 then l + 8 else l + 4

/-- Whether an instruction word's opcode takes two lanes (Table 2.9). -/
def isLong (raw : Word) : Bool := longOp (opOf raw)

/-- The predicate that fetch speculates on, resolved by the lane that writes it last (R154). -/
def Core.resolve (c : Core) (idx : Nat) : Core :=
  match c.fetch.spec with
  | some sp =>
    if sp.writer = idx ∧ sp.got.isNone then
      { c with fetch := { c.fetch with spec := some { sp with got := some (c.rdP sp.pred) } } } else c
  | none => c

/-- Whether a control-core lane may start: it is not speculative (Table 1.8). -/
def ccReady (c : Cmd) : Bool := c.spec == SpecMark.none
/-- Whether a register that a lane reads awaits a held `camo` (R150). -/
def Core.awaitsAmo (c : Core) (i : Instr) : Bool := (ccSrcs i).any c.xHeld
/-- Whether a full fence holds the next lane: an access before it in core order is still held (R151). -/
def Core.awaitsFence (c : Core) : Bool := c.fence && c.holds.any (fun h => h.slot == 0 || h.joined.contains 0)
/-- Whether a lane writes the destination of a held `camo`. -/
def Core.overwrites (c : Core) (m : Cmd) : Bool := (ccDst m.instr).any c.xHeld
/-- Such a lane: the register keeps what the later lane writes (R53, log 48). -/
def Core.overwrite (c : Core) (m : Cmd) : Core :=
  match ccDst m.instr with
  | some d => { c with holds := c.holds.map (fun h => if h.writesX d then { h with overAt := some (((m.tagIn h.ser).map (·.pass)).getD h.rel) } else h) }
  | none => c

/-- A control-core lane: waits for resolution when speculative, for a held `camo` of a register it reads, and after a full fence for the accesses
before it; performs its body, resolves the predicate it writes, and leaves the queue. -/
def ccLane (s : State) (body : M Unit) : Host.Outcome State Fault Refusal :=
  if !ccReady s.cmd then settle s (.error (.wait specWait))
  else if (s.core s.cur).awaitsAmo s.cmd.instr || (s.core s.cur).awaitsFence then settle s (.error (.wait ⟨9, 0, 0, 1, 0⟩))
  else runM s (do
    if (s.core s.cur).fence || (s.core s.cur).overwrites s.cmd then modCore (fun c => { (if c.overwrites s.cmd then c.overwrite s.cmd else c) with fence := false })
    body
    modCore (fun c => (c.retire 0 s.cmd).resolve s.cmd.idx))

/-- The status word of a control-core fault other than ILLEGAL: the opcode in bits 23:16 (R169). -/
def ccTrap (cmd : Cmd) (cls : FaultClass) (va : Word) : Trap :=
  ⟨cls, 1, 0, BitVec.ofNat 64 (opOf cmd.raw * 2 ^ 16), va, none, none⟩
/-- A fault of the control-core lane in hand. -/
def ccRaise {α : Type} (cls : FaultClass) (va : Word) : M α := do let s ← get; raise (ccTrap s.cmd cls va)
/-- A scalar read as a value: a poisoned register is consumed (R138). -/
def readX (r : XReg) : M Word := do
  let c ← core
  let x := c.rdX r
  if x.poison then ccRaise .poison 0 else return x.v
/-- A clean result written (R138). -/
def writeX (r : XReg) (v : Word) : M Unit := modCore (·.wrX r ⟨v, false⟩)

/-- An ILLEGAL of the control-core lane in hand, by a field of its word (R169). -/
def ccIllegal {α : Type} (flo flen : Nat) : M α := do let s ← get; raise (illegalAt 1 0 s.cmd flo flen)
/-- The fault constructor of a control-core access. -/
def ccMk (cmd : Cmd) : FaultClass → Word → Trap := fun cls va => ccTrap cmd cls va

end Sys2Proof.Machine
end

