-- ==== Sys2Proof/Machine/Fetch.lean ====
section
/-! DEFINITION. Fetch: the path through lines, the line checks, predictions, prefixes, routing (02_encoding R50-R75,
01_machine R23, R31-R33), and the start of loop passes (R156). -/

namespace Sys2Proof.Machine

/-- Whether a lane address may be a target of control (R66): lane index not 0, bits 1:0 zero. -/
def laneOk (a : Word) : Bool := a.toNat % 4 == 0 && a.toNat % 32 != 0

/-- Whether the innermost loop's roll-back has fetch wait for the re-entry (R158): the passes that complete the
iterations below the poisoned one are fetched. -/
def Core.rollStop (c : Core) : Bool :=
  match c.loops with
  | l :: _ => l.roll.any (fun i => l.done || decide (i + l.s ≤ l.pass + 1))
  | [] => false

/-- Whether a debugger's step has fetch go on (R182): the stepped engine has nothing queued. -/
def Core.stepFetch (c : Core) : Bool :=
  (List.range 14).all (fun k => decide (slotEng k ≠ c.dbg.stepeng.toNat) || (c.queue k).isEmpty)
/-- Whether fetch may go on: a task runs and is not halted, the path has not ended, no transfer, yield, fault or
roll-back holds it, and no prediction awaits its resolution (R33). -/
def Core.fetching (c : Core) : Bool :=
  c.mode == CoreMode.running && !c.dbg.halted && (!c.dbg.stepping || c.stepFetch) && !c.fetch.ended && !c.fetch.yield && c.fetch.stall.isNone &&
    !(c.fetch.spec.any (fun sp => sp.held.isSome || sp.got.isSome)) && !c.rollStop && laneOk c.fetch.pc

/-- A loop of the stack replaced. -/
def Core.setLoop (c : Core) (l : Loop) : Core :=
  { c with loops := c.loops.map (fun m => if m.ser = l.ser then l else m) }

/-- The loop whose next pass is still to start. -/
def Core.turnLoop (c : Core) : Option Loop := c.loops.find? (·.turn)

/-- The start of a pass by fetch (R156): it waits for a prediction to resolve, and where it would start a ninth
unretired iteration. -/
def Core.beginPass (c : Core) (l : Loop) : Option Core :=
  if c.fetch.spec.isSome ∨ (l.pass < l.n ∧ l.retired + 8 ≤ l.pass) then none
  else some ((c.setLoop { l with turn := false }).setQueue 0 (c.queue 0 ++ [.pass l.ser l.pass l.lc]))

/-- Whether an instruction at `a` occupies a loop's END lane (R155). -/
def Loop.endsAt (l : Loop) (a : Word) (long : Bool) : Bool := l.fin == a || (long && l.fin == a + 4)

/-- Where fetch goes after the last lane of the bodies that end at `a`, innermost first: back to the first body that has
a pass left, or on past all of them (R156). -/
def loopEnds (c : Core) (a : Word) (long : Bool) : List Loop → Core
  | [] => c
  | l :: ls =>
    if l.done then loopEnds c a long ls
    else if l.endsAt a long then
      if l.pass + 1 < l.n + l.s - 1 then
        { (c.setLoop { l with pass := l.pass + 1, turn := true }) with fetch := { c.fetch with pc := l.body, buf := [], pfx := [], line := none } }
      else
        let c := c.setLoop { l with done := true }
        loopEnds (c.setQueue 0 (c.queue 0 ++ [.pass l.ser (l.n + l.s - 1) l.lc])) a long ls
    else c

/-- The path after an instruction that did not transfer (R67, R156). -/
def Core.pathAfter (c : Core) (a : Word) (long : Bool) : Core :=
  loopEnds { c with fetch := { c.fetch with pc := nextLane a long } } a long c.loops

/-- The path after a taken transfer (R66, R69). -/
def Core.goTo (c : Core) (target : Word) : Core :=
  { c with fetch := { c.fetch with pc := target, buf := [], pfx := [], stall := none, line := none } }

/-- Whether an address lies in a loop's body (R155). -/
def Loop.contains (l : Loop) (a : Word) : Bool := decide (l.body.toNat ≤ a.toNat) && decide (a.toNat ≤ l.fin.toNat)
/-- Whether a transfer from inside the body of some loop leads out of it (R160). -/
def Core.leavesLoop (c : Core) (target : Word) : Bool := c.loops.any (fun l => !l.done && !l.contains target)
/-- Whether an instruction at `a` ends the body of some active loop. -/
def Core.endsBody (c : Core) (a : Word) (long : Bool) : Bool := c.loops.any (fun l => !l.done && l.endsAt a long)

/-- The next pattern bit of a class's pending prefix: whether the instruction executes under the value in use, and
whether that value is only predicted; and the prefixes left (R69, R70). -/
def takeCover (ps : List Pfx) (cls : Cls) : Option (Bool × Bool) × List Pfx :=
  match ps with
  | [] => (none, [])
  | p :: rest =>
    if p.cls = cls then
      match p.pat with
      | [] => takeCover rest cls
      | b :: bs => (some (b == p.val, p.spec), if bs = [] then rest else { p with pat := bs } :: rest)
    else
      let (r, rest') := takeCover rest cls
      (r, p :: rest')

/-- The command-index counter of a class advanced (R54). -/
def Core.bumpIdx (c : Core) (k : Slot) : Core :=
  { c with cidx := c.cidx.set (slotCtr k) ((c.cidx[slotCtr k] + 1) % 2 ^ 48) }

/-- Whether a queue's sub-stream already holds a speculative lane (R31). -/
def Core.specBefore (c : Core) (k : Slot) : Bool :=
  (cmdsOf (c.queue k)).any (fun m => m.spec != SpecMark.none) || !(amGet [] c.sh.redo k).isEmpty

/-- Markers placed in queues (R162, R45). -/
def Core.placeMarks (c : Core) (mask : BitVec 14) (id : Nat) (own spec : Bool) : Core :=
  (maskSlots mask).foldl (fun c k => c.setQueue k (c.queue k ++ [.mark id mask own spec])) c

/-- The target of a `b` or `call` (R60). -/
def branchTarget (a : Word) (off : BitVec 19) : Word := a + off.signExtend 64 <<< 2

/-- A branch on a predicate, put into the control core's order as command `idx`: followed where its outcome is known,
predicted where it is not (R31, R55, R60, R66), else awaited by fetch. -/
def Core.followBranch (c : Core) (a : Word) (idx : Nat) (p : PReg) (neg : Bool) (target : Word) (guess : Bool) : Option Core :=
  let stall := { c with fetch := { c.fetch with stall := some idx } }
  let follows := laneOk target && !c.leavesLoop target
  match c.predWriter p with
  | none =>
    if c.rdP p ^^ neg then (if follows then some (c.goTo target) else some stall) else some (c.pathAfter a false)
  | some w =>
    if c.endsBody a false ∨ c.leavesLoop target then some stall
    else match c.fetch.spec with
      | some sp =>
        if sp.pred = p ∧ sp.got.isNone ∧ sp.writer = w then
          let resume := match sp.resume with
            | some r => r
            | none => if sp.val ^^ neg then ⟨nextLane a false, c.fetch.pfx, c.fetch.line⟩ else ⟨target, [], none⟩
          let c := { c with fetch := { c.fetch with spec := some { sp with resume := some resume } } }
          if sp.val ^^ neg then (if follows then some (c.goTo target) else some stall) else some (c.pathAfter a false)
        else none
      | none =>
        if guess ∧ ¬ follows then some stall
        else
          let resume : Resume := if guess then ⟨nextLane a false, c.fetch.pfx, c.fetch.line⟩ else ⟨target, [], none⟩
          let c := { c with fetch := { c.fetch with spec := some ⟨p, guess ^^ neg, w, none, some resume, none⟩ } }
          if guess then some (c.goTo target) else some (c.pathAfter a false)

/-- The path after a control-core lane put into its order as command `idx`; `none` where fetch holds the lane. -/
def Core.followCc (c : Core) (b : LaneBuf) (i : Instr) (idx : Nat) (long : Bool) : Option Core :=
  let beyond := c.fetch.spec.any (fun sp => sp.resume.isSome)
  let stall := { c with fetch := { c.fetch with stall := some idx } }
  let viaReg (r : XReg) (after : Core) :=
    let t := c.rdX r
    if c.xPending r || t.poison || decide (2 ^ 52 ≤ t.v.toNat) || !laneOk t.v || c.leavesLoop t.v then some stall
    else some (after.goTo t.v)
  match i with
  | .b p neg hint off | .call p neg hint off =>
    c.followBranch b.addr idx p neg (branchTarget b.addr off) (b.taken.getD hint)
  | .jr r => viaReg r c
  | .callr _ r => viaReg r c
  | .loop .. | .loopi .. => if c.fetch.spec.isSome then none else some stall
  | .exit _ => if beyond then none else some { c with fetch := { c.fetch with ended := true, buf := [], pfx := [] } }
  | .qjoin m => some ((c.placeMarks m idx false beyond).pathAfter b.addr long)
  | .bkfmtWrite .. | .bkbndWrite .. =>
    if beyond then none else some ((c.placeMarks 0x3FDF idx true false).pathAfter b.addr long)
  | _ => some (c.pathAfter b.addr long)

/-- Whether both pending tables are in use (R290). -/
def Core.tablesFull (c : Core) : Bool := decide (2 ≤ ((cmdsOf (c.queue 4)).filter (fun (m : Cmd) => m.table != [] && !m.started)).length)
/-- Whether fetch holds an `mxgo` (R296): a control-core lane before it has not executed, or both pending tables are in use. -/
def Core.holdsMxgo (c : Core) (i : Instr) : Bool :=
  match i with
  | .mxgo _ => (c.queue 0).any (fun e => (e.cmd?).isSome) || c.tablesFull
  | _ => false
/-- What a lane captures as it is routed beside its scalars: an `mxgo` its table (R296), a `sysr` the command counts before it (Table 5.3). -/
def Core.captureTable (c : Core) (i : Instr) : List Word :=
  match i with
  | .mxgo _ => c.mx.shadow.toList
  | .sysr .. => c.cidx.toList.map (fun n => BitVec.ofNat 64 (n % 2 ^ 48))
  | _ => []

/-- One lane of the line routed (R23, R53, R54, R69-R71, R156); `none` where fetch holds it. -/
def Core.routeLane (c : Core) (b : LaneBuf) (cls : Cls) (i : Instr) (w : Nat) (long : Bool) : Option Core :=
  let k := laneSlot cls i
  let (cov, pfx) := takeCover c.fetch.pfx cls
  let beyond := c.fetch.spec.any (fun sp => sp.resume.isSome)
  let steers := isTransfer i || isExit i || isBankWrite i || isYield i || (match i with | .qjoin _ => true | _ => false)
  let idx := c.cidx[slotCtr k]
  let c1 := { (c.bumpIdx k) with fetch := { c.fetch with pfx := pfx, buf := c.fetch.buf.drop 1 } }
  if (cov.any (fun v => v.2) : Bool) && steers then none
  else match c.laneTags cls, cov with
    | none, _ => some (c1.pathAfter b.addr long)
    | some tags, cv =>
      let dropped := match cv with | some (false, spec) => !spec || beyond | _ => false
      if dropped then some (c1.pathAfter b.addr long)
      else if cls ≠ .cc ∧ (scalarsOf i).any c.xPending = true then none
      else if c.holdsMxgo i then none
      else
        let mark : SpecMark :=
          if beyond then .run
          else match cv with
            | some (true, true) => .run
            | some (false, true) => .held
            | _ => if (k = 3 ∨ k = 4) ∧ c.fetch.spec.isSome ∧ c.specBefore k then .follow else .none
        let cmd : Cmd := ⟨i, BitVec.ofNat 64 w, idx, b.addr, (scalarsOf i).map c.rdX, mark, tags, false, [], none,
          c.cidx[slotCtr 0], c.captureTable i, false⟩
        let c2 := c1.setQueue k (c1.queue k ++ [QEntry.cmd cmd])
        let c3 := match gateOf i with
          | some g => c2.setQueue g (c2.queue g ++ [QEntry.gate cmd])
          | none => c2
        if cls = .cc then c3.followCc b i idx long
        else if isYield i then
          let c4 := c3.pathAfter b.addr long
          some { c4 with fetch := { c4.fetch with yield := true } }
        else some (c3.pathAfter b.addr long)

/-- Lanes of the line routed until one is held, a prefix stands next, or the line ends. -/
def routeBuf : Nat → Core → Core
  | 0, c => c
  | fuel + 1, c =>
    if !c.fetching then c
    else match c.turnLoop with
      | some l => match c.beginPass l with
        | some c' => routeBuf fuel c'
        | none => c
      | none =>
        match c.fetch.buf with
        | [] => c
        | b :: _ => match b.item with
          | .instr cls i w len => match c.routeLane b cls i w (len == 2) with
            | some c' => routeBuf fuel c'
            | none => c
          | .pfx _ => c
          | .empty => c

/-! ### The line checks (R56)

A line is checked as a whole before any of its lanes is routed. Which lanes lie on the path may depend on what is not known yet: a predicate, a
prefix's outcome, a count. Where it does, the lanes above are checked as if the path went on to them: if all pass, what is not known does not
matter. If one fails, the line waits until it is known; and where the line's own lanes decide it, the line is taken up to the lane that the path
may leave at, and its rest is checked when it is reached (log 49). -/

/-- Outcomes of a class's pending prefix for the instructions it still covers while a line is checked (unknown: none), and whether lanes before
the line decide it. -/
structure Pend where
  cls : Cls
  runs : List (Option Bool)
  settled : Bool
  deriving DecidableEq, Repr
/-- The end of a body while a line is checked: END, whether the path goes back there (unknown: none), and whether that is decided before the
line. -/
structure BodyEnd where
  fin : Word
  back : Option Bool
  settled : Bool
  deriving DecidableEq, Repr
/-- Whether a lane on the way acts as its kind does (unknown: none), and whether lanes before the line decide it. -/
structure Fate where
  is : Option Bool
  settled : Bool
  deriving DecidableEq, Repr
/-- The outcome of a check: the lanes to route; a failure; or the line waits for a resolution. -/
inductive Walk
  | ok (bs : List LaneBuf)
  | bad (e : LineErr)
  | hold
  deriving DecidableEq, Repr

/-- Whether an earlier lane of the line writes a predicate. -/
def writesP (before : List LaneBuf) (p : PReg) : Bool :=
  p != 0 && before.any (fun b => match b.item with | .instr _ i _ _ => (predDsts i).contains p | _ => false)
/-- Whether an earlier lane of the line writes a scalar register. -/
def writesX (before : List LaneBuf) (r : XReg) : Bool :=
  r != 0 && before.any (fun b => match b.item with | .instr _ i _ _ => ccDst i == some r | _ => false)
/-- A predicate as the line's check knows it. -/
def Core.fateP (c : Core) (before : List LaneBuf) (p : PReg) : Fate :=
  if writesP before p then ⟨none, false⟩ else if (c.predWriter p).isSome then ⟨none, true⟩ else ⟨some (c.rdP p), true⟩
/-- The pending prefixes when a line is entered. -/
def Core.pends (c : Core) : List Pend := c.fetch.pfx.map (fun f => ⟨f.cls, f.pat.map (fun b => if f.spec then none else some (b == f.val)), true⟩)
/-- The ends of the bodies of the active loops when a line is entered, innermost first. -/
def Core.bodyEnds (c : Core) : List BodyEnd :=
  (c.loops.filter (fun (l : Loop) => !l.done)).map (fun l => ⟨l.fin, some (decide (l.pass + 1 < l.n + l.s - 1)), true⟩)
/-- Whether an instruction of a class executes under its pending prefix, and what is left pending. -/
def takePend (ps : List Pend) (cls : Cls) : Fate × List Pend :=
  match ps.find? (fun p => p.cls == cls) with
  | none => (⟨some true, true⟩, ps)
  | some p => (⟨p.runs.headD (some true), p.settled⟩,
      (ps.map (fun q => if q.cls = cls then { q with runs := q.runs.drop 1 } else q)).filter (fun q => q.runs != []))
/-- Whether the path goes back at a lane that ends bodies, innermost first, and the ends still ahead. -/
def takeEnd (a : Word) (long : Bool) : List BodyEnd → Fate × List BodyEnd
  | [] => (⟨some false, true⟩, [])
  | e :: es =>
    if e.fin = a ∨ (long = true ∧ e.fin = a + 4) then
      match e.back with
      | some false => takeEnd a long es
      | b => (⟨b, e.settled⟩, es)
    else (⟨some false, true⟩, e :: es)
/-- The count of a loop instruction, where it is known. -/
def Core.countOf (c : Core) (before : List LaneBuf) : Instr → Option Nat × Bool
  | .loop _ x _ _ _ => if writesX before x then (none, false) else if c.xPending x then (none, true) else (some (c.rdX x).v.toNat, true)
  | .loopi _ _ _ _ n => (some n.toNat, true)
  | _ => (some 1, true)
/-- Whether an instruction that executes leaves the line at its own lane. -/
def Core.leaves (c : Core) (before : List LaneBuf) (i : Instr) : Fate :=
  match i with
  | .b p neg _ _ | .call p neg _ _ => let f := c.fateP before p; ⟨f.is.map (· ^^ neg), f.settled⟩
  | .jr _ | .callr .. | .exit _ => ⟨some true, true⟩
  | .loop .. | .loopi .. => let n := c.countOf before i; ⟨n.1.map (· == 0), n.2⟩
  | _ => ⟨some false, true⟩
/-- The body that a loop instruction at `a` begins. -/
def Core.begins (c : Core) (before : List LaneBuf) (a : Word) (i : Instr) : List BodyEnd :=
  match i with
  | .loop _ _ sm1 _ len | .loopi _ sm1 _ len _ =>
    let n := c.countOf before i
    [⟨a + BitVec.ofNat 64 (4 * len.toNat), n.1.map (fun n => decide (1 < n + sm1.toNat)), n.2⟩]
  | _ => []
/-- The way the part takes an unresolved branch to go (R55): that of the prediction under way, the branch's HINT where there is no history, else
its own. -/
def Core.guessBranch (c : Core) (a : Word) (i : Instr) : M Bool :=
  match i with
  | .b p neg hint _ | .call p neg hint _ =>
    match c.fetch.spec with
    | some sp => return if sp.pred = p then sp.val ^^ neg else hint
    | none => if c.fetch.hist.contains a then do let v ← pickBelow 2; return (v == 1) else return hint
  | _ => return false

/-- The lanes of a line on the path from lane `k`, with their checks 3-8 (R56); lane `entry` is where the path enters the line. -/
def walkLine (c : Core) (line : Word) (lanes : List Nat) (entry : Nat) :
    Nat → Nat → List Pend → List BodyEnd → List LaneBuf → M Walk
  | 0, _, _, _, out => return .ok out
  | fuel + 1, k, pend, ends, out => do
    if 8 ≤ k then return .ok out
    let a := line + BitVec.ofNat 64 (4 * k)
    match readLane lanes k (k == entry) with
    | .error e => return .bad e
    | .ok .empty => walkLine c line lanes entry fuel (k + 1) pend ends out
    | .ok (.pfx i) =>
      match i with
      | .pblk cls p cnt pat =>
        if pend.any (fun q => q.cls == cls) then return .bad ⟨6, k, 0⟩
        else
          let f := c.fateP out p
          let runs := (List.range (cnt.toNat + 1)).map (fun j => f.is.map (fun v => pat.getLsbD j == v))
          walkLine c line lanes entry fuel (k + 1) (pend ++ [⟨cls, runs, f.settled⟩]) ends (out ++ [⟨a, .pfx i, none⟩])
      | _ => return .ok out
    | .ok (.instr cls i w len) =>
      let (run, pend') := takePend pend cls
      let go := c.leaves out i
      let (back, ends') := takeEnd a (len == 2) (c.begins out a i ++ ends)
      let mayLeave : Bool := (run.is != some false && go.is != some false) || back.is != some false
      let mayStay : Bool := (run.is != some true || go.is != some true) && back.is != some true
      let settled : Bool := (run.is.isSome || run.settled) && (go.is.isSome || go.settled) && (back.is.isSome || back.settled)
      let guess ← if run.is = some true ∧ go.is = none then c.guessBranch a i else pure false
      let taken := if run.is = some true ∧ go.is = none then some guess else go.is
      let here := out ++ [(⟨a, .instr cls i w len, taken⟩ : LaneBuf)]
      if !mayStay then return .ok here
      else
        let above ← walkLine c line lanes entry fuel (k + len) pend' ends' here
        match above with
        | .ok bs => return if mayLeave && taken == some true then .ok here else .ok bs
        | _ => if !mayLeave then return above else if settled then return .hold else return .ok here

/-- The TRAPSTAT word of a fetch fault (Table 2.4). -/
def fetchStat (lane chk opc : Nat) : Word := BitVec.ofNat 64 (lane + chk * 2 ^ 4 + opc * 2 ^ 8)

/-- The fault of a failed line check, with its TRAPLANE (R57). -/
def lineTrap (line : Word) (e : LineErr) : Trap :=
  let cls : FaultClass := if e.chk = 8 then .illegalLane else if e.chk = 9 then .illegalZero else .illegalLine
  ⟨cls, 1, 0, fetchStat e.lane e.chk e.opc, line + BitVec.ofNat 64 (4 * e.lane), none, none⟩

/-- The control core's index at a line (R57): as it was when the first of its lanes was routed. -/
def Core.idxAt (c : Core) (lane : Word) : Nat :=
  match c.fetch.line with
  | some l => if l.addr.toNat = lane.toNat / 32 * 32 then l.idx else c.cidx[slotCtr 0]
  | none => c.cidx[slotCtr 0]
/-- A fault of fetch: taken as the control core's (R57), or held where the line is fetched speculatively (R56). -/
def fetchFault (s : State) (t : Trap) (lane : Word) : State :=
  let c := s.core s.cur
  match c.fetch.spec with
  | some sp =>
    if sp.resume.isSome then
      s.setCore s.cur { c with fetch := { c.fetch with spec := some { sp with held := some (t, lane) } } }
    else takeFault s s.cur t (c.idxAt lane) lane
  | none => takeFault s s.cur t (c.idxAt lane) lane

/-- Entries of the line's lanes for a queue, with the markers and gates they place (R23, R162, R349). -/
def lineNeeds (bs : List LaneBuf) (k : Slot) : Nat :=
  (bs.map (fun b => match b.item with
    | .instr cls i _ _ =>
      (if laneSlot cls i = k then 1 else 0) + (if gateOf i = some k then 1 else 0) +
        (match i with
        | .qjoin m => if (maskSlots m).contains k then 1 else 0
        | .bkfmtWrite .. | .bkbndWrite .. => 1
        | _ => 0)
    | _ => 0)).sum

/-- Entries of a queue that take its room: transfers lie in their journal. -/
def Core.entries (c : Core) (k : Slot) : Nat := ((c.queue k).filter (fun e => match e with | .xfer _ => false | _ => true)).length
/-- Whether every queue a line names has room for its lanes and markers: 64 entries of LD, ST, VX, MX and XQ, and 32 of the copy
engine's command queue, all its channels together (R19, R23, R162, R320). -/
def Core.lineRoom (c : Core) (bs : List LaneBuf) : Bool :=
  ((nsRange 1 5).all (fun k => lineNeeds bs k = 0 || decide (c.entries k + lineNeeds bs k ≤ 64))) &&
    (let need := ((nsRange 6 8).map (lineNeeds bs)).sum
     need == 0 || decide (((nsRange 6 8).map c.entries).sum + need ≤ 32))

/-- A line read as one piece, translated and free of poison, with the checks of its header (R50, R56, R57). Of a line written since the task's
dispatch, of which R135 allows the old or the new form, the new is read (log 6). -/
def newLine (line : Word) (entry : Nat) : M LineRead := do
  let c ← core
  let mk : FaultClass → Word → Trap := fun cls _ => ⟨cls, 1, 0, fetchStat entry 0 0, line, none, none⟩
  let p ← translate .fetch mk c.fetch.pc
  match p.reg with
  | .aperture | .window => raise (mk .perm line)
  | _ => pure ()
  let s ← get
  let base := p.pa / 32 * 32
  if s.paPoisoned base 32 then raise (mk .poison line)
  let bytes := s.readPa base 32
  let lanes := (List.range 8).map (fun k => leNat ((bytes.drop (4 * k)).take 4))
  match checkHeader (lanes.getD 0 0) with
  | some e => raise (lineTrap line e)
  | none => return ⟨line, lanes, c.cidx[slotCtr 0]⟩

/-- A wait of fetch, shown in the control core's wait-state registers where it has no wait of its own (R23, R24, log 47). -/
def Core.fetchWaits (c : Core) (now : Nat) (w : Wait) : Core := if (amFind 0 c.waits).isSome then c else c.setWait 0 now w
/-- The end of such a wait. -/
def Core.fetchMoves (c : Core) : Core :=
  let own : Bool := match c.queue 0 with | .cmd m :: _ => m.spec != SpecMark.none | _ => false
  match amFind 0 c.waits with
  | some w => if (w.kind = 9 ∧ (w.wsa = 0 ∨ w.wsa = 4)) ∨ (w.kind = 1 ∧ own = false) then c.clearWait 0 else c
  | none => c

/-- The line at the path position, read where the position does not lie in one already read, checked as a whole and taken into the buffer (R50,
R56); a failed check stops at a fault. A breakpoint halts the core before any lane is routed (R180), a NOSPEC line waits for resolution: the
order of the three, which the spec leaves open, is the checks, the halt, the wait (log 49). -/
def readLine : M Unit := do
  let c ← core
  let pc := c.fetch.pc
  let line := BitVec.ofNat 64 (pc.toNat / 32 * 32)
  let at_ := pc.toNat / 4 % 8
  let known := c.fetch.line.filter (fun l => l.addr == line)
  let l ← match known with
    | some l => pure l
    | none => newLine line at_
  let r ← walkLine c line l.lanes (if known.isSome then 8 else at_) 8 at_ c.pends c.bodyEnds []
  let h := l.lanes.getD 0 0
  match r with
  | .bad e => raise (lineTrap line e)
  | .hold => throw (.wait specWait)
  | .ok bs =>
    if (List.range 7).all (fun k => nibble h (k + 1) == 0) then raise (lineTrap line ⟨9, 0, 0⟩)
    if known.isNone ∧ bits h 30 1 = 1 ∧ c.dbg.lbrken ∧ ¬ c.dbg.passed then
      modCore (fun c => { c with dbg := { c.dbg with halted := true, why := 3 } })
    else if known.isNone ∧ bits h 31 1 = 1 ∧ (nsRange 1 7).any (fun p => (c.predWriter (BitVec.ofNat 3 p)).isSome) then throw (.wait specWait)
    else if ¬ c.lineRoom bs then waitFor 9
    else
      modCore (fun c => { c.fetchMoves with
        dbg := { c.dbg with passed := if known.isNone ∧ bits h 30 1 = 1 then false else c.dbg.passed },
        fetch := { c.fetch with buf := bs, line := some l, pc := match bs with | [] => line + 36 | b :: _ => b.addr } })

/-- Finish a computation of fetch: a fault is the control core's, a missed page is walked, a wait stalls fetch. -/
def settleFetch (s0 : State) (r : Except Stop (Unit × State)) : Host.Outcome State Fault Refusal :=
  match r with
  | .ok (_, s) => .next { s with stalled := false }
  | .error (.trap t) =>
    let lane := if t.cls = .illegalLine ∨ t.cls = .illegalLane ∨ t.cls = .illegalZero then t.va else (s0.core s0.cur).fetch.pc
    .next { fetchFault s0 t lane with stalled := false }
  | .error (.held s t idx lane) => .next { takeFault s s.cur t idx lane with stalled := false }
  | .error (.part s t) => .next { fetchFault s t (s0.core s0.cur).fetch.pc with stalled := false }
  | .error (.wait w) | .error (.started _ w) => .next { (s0.updCore s0.cur (·.fetchWaits s0.now w)) with stalled := true }
  | .error .stall => .next { s0 with stalled := true }
  | .error (.miss va write mk) =>
    match s0.pageWalk s0.cur va write with
    | .ok s => .next { s with stalled := false }
    | .error e => .next { fetchFault s0 (mk e va) (s0.core s0.cur).fetch.pc with stalled := false }

/-- Whether fetch holds the lane that stands next for want of a pending table. -/
def Core.awaitsTable (c : Core) : Bool :=
  c.tablesFull && (match c.fetch.buf with | b :: _ => (match b.item with | .instr _ (.mxgo _) _ _ => true | _ => false) | [] => false)

/-- FETCH_LINE (R56): the line is read where the last is used up, and its lanes are routed. -/
def execFetchLine (s : State) : Host.Outcome State Fault Refusal :=
  let c := s.core s.cur
  if !c.fetching then .fault .notEnabled
  else if !c.fetch.buf.isEmpty then
    let c' := routeBuf 16 c
    if c'.fetch.buf.length < c.fetch.buf.length then .next { s.setCore s.cur c'.fetchMoves with stalled := false }
    else .next { (if c.awaitsTable then s.updCore s.cur (·.fetchWaits s.now ⟨9, 0, 0, 4, 0⟩) else s) with stalled := true }
  else match c.turnLoop with
    | some l => match c.beginPass l with
      | some c' => .next { s.setCore s.cur c' with stalled := false }
      | none => .next { s with stalled := true }
    | none => settleFetch s ((do readLine; modCore (routeBuf 16)).run s)

/-- The prefix that stands next in the line being routed. -/
def Core.nextPrefix (c : Core) : Option Instr :=
  if c.fetching && c.turnLoop.isNone then
    match c.fetch.buf with
    | b :: _ => match b.item with | .pfx i => some i | _ => none
    | [] => none
  else none

/-- A prefix (R68-R71): its outcome is decided at its position: by the predicate, or while that is unresolved by the
prediction, which a second unresolved predicate awaits (R33). -/
def execPblk (cls : Cls) (p : PReg) (cnt : BitVec 3) (pat : BitVec 8) (s : State) : Host.Outcome State Fault Refusal :=
  let c := s.core s.cur
  if c.nextPrefix ≠ some (.pblk cls p cnt pat) then .fault .notEnabled
  else
    let bs := (List.range (cnt.toNat + 1)).map (fun i => pat.getLsbD i)
    let place (c : Core) (v spec : Bool) : Core :=
      let a := match c.fetch.buf with | b :: _ => b.addr | [] => c.fetch.pc
      let c : Core := { c with fetch := { c.fetch with pfx := c.fetch.pfx ++ [⟨cls, p, bs, v, spec⟩], buf := c.fetch.buf.drop 1 } }
      routeBuf 16 (c.pathAfter a false)
    match c.predWriter p with
    | none => .next { s.setCore s.cur (place c (c.rdP p) false) with stalled := false }
    | some w =>
      match c.fetch.spec with
      | some sp =>
        if sp.pred = p ∧ sp.writer = w ∧ sp.got.isNone then
          .next { s.setCore s.cur (place c sp.val true) with stalled := false }
        else .next { s with stalled := true }
      | none =>
        let v := Config.oracle s.picks % 2 == 1
        let c : Core := { c with fetch := { c.fetch with spec := some ⟨p, v, w, none, none, none⟩ } }
        .next { (s.setCore s.cur (place c v true)) with picks := s.picks + 1, stalled := false }

/-! ### Resolution of a prediction (R33) -/

/-- Entries of a queue after a correct prediction: held ones dropped, the others no longer speculative. -/
def commitQueue (q : List QEntry) : List QEntry :=
  q.filterMap (fun e => match e with
    | .cmd m => if m.spec = .held then none else some (.cmd { m with spec := .none })
    | .gate m => if m.spec = .held then none else some (.gate { m with spec := .none })
    | .mark id m own _ => some (.mark id m own false)
    | e => some e)

/-- Entries after a misprediction: those that rested on it removed, the others to execute. -/
def discardQueue (q : List QEntry) : List QEntry :=
  q.filterMap (fun e => match e with
    | .cmd m =>
      if m.spec = .run then none
      else if m.spec = .none then some e else some (.cmd { m with spec := .none, started := false, srcs := [] })
    | .gate m => if m.spec = .run then none else some (.gate { m with spec := .none })
    | .mark _ _ _ spec => if spec then none else some e
    | e => some e)

/-- Commands put back before the first of their queue that is younger. -/
def reissue (q : List QEntry) (ms : List Cmd) : List QEntry :=
  ms.foldr (fun m q =>
    q.takeWhile (fun e => match e with | .cmd n => decide (n.idx < m.idx) | _ => false) ++ [.cmd m] ++
      q.dropWhile (fun e => match e with | .cmd n => decide (n.idx < m.idx) | _ => false)) q

/-- The queues of a core changed alike. -/
def Core.mapQueues (c : Core) (f : Slot → List QEntry → List QEntry) : Core :=
  (List.range 14).foldl (fun c k => c.setQueue k (f k (c.queue k))) c

/-- Shadow state committed (R33). -/
def Core.commitShadow (c : Core) : Core :=
  let sh := c.sh
  let c := sh.tiles.foldl (fun c e => c.setTile e.1 { e.2 with full := (c.tile e.1).full }) c
  let c := sh.pend.foldl (fun c n => c.setTile n { c.tile n with full := false }) c
  let c := sh.full.foldl (fun c n => c.setTile n { c.tile n with full := true }) c
  let c := sh.accs.foldl (fun c e => if h : e.1 < 8 then { c with accs := c.accs.set e.1 e.2 h } else c) c
  let c := sh.taken.foldl (fun c e => c.setTok e.1 (c.tokCount e.1 - e.2)) c
  let c := sh.undo.foldl (fun c u => c.noteAll u.1 u.2) c
  let c := sh.vx.foldl (fun (c : Core) b => c.setVxBit b) c
  let c := sh.viols.foldl (fun (c : Core) b => c.setViol b) c
  let c := { c with mx := { c.mx with stat := sh.mxbits.foldl (fun (w : BitVec 32) b => w ||| (1 <<< b : BitVec 32)) c.mx.stat } }
  let c := { c with unsent := c.unsent ++ sh.sends, sh := Shadow.nil }
  c.flushUnsent

/-- SPECULATION_COMMIT (R33). -/
def execSpeculationCommit (s : State) : Host.Outcome State Fault Refusal :=
  let c := s.core s.cur
  match c.fetch.spec with
  | some sp =>
    if sp.got = some sp.val then
      let c := (c.commitShadow).mapQueues (fun _ q => commitQueue q)
      let c := { c with
        mx := { c.mx with nest := c.mx.nest.map (fun n => { n with cmd := { n.cmd with spec := .none } }) },
        fetch := { c.fetch with spec := none, pfx := c.fetch.pfx.map (fun p => { p with spec := false }) } }
      let s := { s.setCore s.cur c with stalled := false }
      match sp.held with
      | some (t, lane) => .next (takeFault s s.cur t (c.idxAt lane) lane)
      | none => .next s
    else .fault .notEnabled
  | none => .fault .notEnabled

/-- MISPREDICTION (R33). -/
def execMisprediction (s : State) : Host.Outcome State Fault Refusal :=
  let c := s.core s.cur
  match c.fetch.spec with
  | some sp =>
    match sp.got with
    | some v =>
      if v = sp.val then .fault .notEnabled
      else
        let redo := c.sh.redo
        let fix (ps : List Pfx) := ps.map (fun p => if p.spec then { p with spec := false, val := v } else p)
        let f : Fetch := match sp.resume with
          | some r => { c.fetch with spec := none, pc := r.pc, pfx := fix r.pfx, buf := [], line := r.line, stall := none, ended := false, yield := false }
          | none => { c.fetch with spec := none, pfx := fix c.fetch.pfx }
        let nest := if c.mx.nest.any (fun (n : Nest) => n.cmd.spec != SpecMark.none) then none else c.mx.nest
        let again (k : Slot) : List Cmd :=
          ((amGet [] redo k).filter (fun (m : Cmd) => m.spec == SpecMark.follow)).map (fun (m : Cmd) => { m with spec := .none })
        let c : Core := { c with sh := Shadow.nil, fetch := f, mx := { c.mx with nest := nest } }
        let c := c.mapQueues (fun k q => reissue (discardQueue q) (again k))
        .next { s.setCore s.cur c with stalled := false }
    | none => .fault .notEnabled
  | none => .fault .notEnabled

end Sys2Proof.Machine
end

