-- ==== Sys2Proof/Machine/Loop.lean ====
section
/-! DEFINITION. The hardware loop unit: loop instructions, iteration retirement, roll-back and re-entry, write holds
performed (R155-R161). -/

namespace Sys2Proof.Machine

/-! ### Held writes performed (R157) -/

/-- How performing held writes ended: as far as seals under way allow; at a fault of one of them; at a journal without room; at a bank group that a
matrix engine streams from. -/
inductive Released
  | done (s : State)
  | faulted (s : State) (t : Trap) (h : Held)
  | full (s : State)
  | stalled (s : State) (k : Slot)

/-- Whether an effect starts a copy that its channel's journal has no room for (R157, R322). -/
def journalFull (c : Core) : Effect → Bool
  | .copy ch _ _ _ => decide (32 ≤ (c.journal ch).length)
  | _ => false

/-- A scalar register of a snapshot replaced. -/
def Snap.setX (n : Snap) (d : XReg) (v : Scalar) : Snap := if d = 0 then n else { n with x := n.x.set d.toNat v }
/-- The value that a held `camo` has returned noted in the snapshots of the passes after its own, up to a lane that overwrote it (R150, R158,
log 48). -/
def Held.noteX (h : Held) (d : XReg) (v : Scalar) (l : Loop) : Loop :=
  if l.ser ≠ h.ser then l
  else
    let own := ((h.cmd.tagIn h.ser).map (·.pass)).getD h.rel
    { l with snaps := l.snaps.map (fun (e : Nat × Snap) => if own < e.1 ∧ h.overAt.all (fun j => decide (e.1 ≤ j)) = true then (e.1, e.2.setX d v) else e) }

/-- A held effect performed: a copy start takes its place behind every entry of its channel (R320); a `camo` writes its register, unless a later
lane has. -/
def lateEffect (s : State) (k : Nat) (h : Held) : Effect → State
  | .copy ch w ccidx lane => s.updCore k (fun c => c.startCopy ch w ccidx lane (2 ^ 48))
  | .amo va pa op sz64 xb cmp d pub nc =>
    let n := if sz64 then 64 else 32
    let old : Scalar := ⟨word (sext n (leNat (s.readPa pa (n / 8)))), false⟩
    (s.perform k h.slot (.amo va pa op sz64 xb cmp (if h.overAt.isSome then 0 else d) pub nc)).updCore k (fun c =>
      { c with loops := c.loops.map (h.noteX d old) })
  | e => s.perform k h.slot e

/-- A held XQ command given back to the port, behind those given back before it (R157). -/
def Core.regiveXq (c : Core) (cmd : Cmd) : Core :=
  let acc (e : QEntry) : Bool := match e with | .cmd m => m.accepted | _ => false
  c.setQueue 5 ((c.queue 5).takeWhile acc ++ [.cmd { cmd with accepted := true, iter := [] }] ++ (c.queue 5).dropWhile acc)

/-- The fault of one held bank write against the descriptor that stands when it is performed (R157, R241, R281, R308, R149): a block format under an
action, or an element size that does not match it, of a scalar store; a format other than the write's; a reduction of a poisoned element. -/
def heldFault (s : State) (h : Held) : Effect → Option Trap
  | .bank core off f els _ _ _ =>
    let b := (s.core core).bank (bankOf off)
    let eng := cmdEng h.slot h.cmd
    if h.slot = 0 then
      if b.act ≠ 0 ∧ Fmt.isBlock b.fmt then some { h.base with cls := .perm, va := BitVec.ofNat 64 off }
      else if b.act ≠ 0 ∧ Fmt.size b.fmt ≠ Fmt.size f * els.length then some { h.base with cls := .align, va := BitVec.ofNat 64 off }
      else none
    else if b.fmt ≠ f ∧ (b.fmt ≠ .raw ∨ (h.slot ≠ 2 ∧ f.isBlock = true)) then some (illegalBank eng (slotChan h.slot) s.now h.cmd b.fmt)
    else none
  | .red core off op els _ =>
    let b := (s.core core).bank (bankOf off)
    let f : Fmt := if op = .addS32 then .s32 else .f32
    if b.fmt ≠ f then some (illegalBank (cmdEng h.slot h.cmd) 0 s.now h.cmd b.fmt)
    else if (s.core core).spPoisoned off (4 * els.length) then some { h.base with cls := .poison, stat := BitVec.ofNat 64 (1 + opOf h.cmd.raw * 2 ^ 16), va := BitVec.ofNat 64 off }
    else none
  | _ => none
/-- The fault of a held write as it is performed. -/
def Held.fault (h : Held) (s : State) (k : Nat) : Option Trap :=
  match h.effs.findSome? (heldFault s h) with
  | some t => some t
  | none => (effsViol s k h.slot h.effs).map (boundTrap h.slot h.base h.rl)
/-- Whether a held write meets a bank group that a matrix engine streams from (R46). -/
def Held.streamed (h : Held) (s : State) : Bool :=
  h.effs.any (fun e => match e.bankRange with | some (k, off, n) => (s.core k).streams off n | none => false)

/-- A held write's entry dropped. -/
def Core.dropHeld (c : Core) (h : Held) : Core := { c with holds := c.holds.filter (fun x => x != h) }
/-- A held write's entry replaced. -/
def Core.replHeld (c : Core) (h n : Held) : Core := { c with holds := c.holds.map (fun x => if x = h then n else x) }

/-- Held writes of retired iterations performed in order, each checked again (R157): a fault leaves its command and every later one held; a
release at recovery scope asks for its seal and leaves its own write, its last effect, to it, which those behind it await (R110, R115). -/
def releaseHolds (s : State) (k : Nat) : List Held → Released
  | [] => .done s
  | h :: hs =>
    let drop (s : State) : State := s.updCore k (·.dropHeld h)
    match h.need with
    | .asked _ => .done s
    | need =>
      if h.slot = 5 then releaseHolds ((drop s).updCore k (·.regiveXq h.cmd)) k hs
      else if h.effs.any (journalFull (s.core k)) then .full s
      else if h.streamed s then .stalled s h.slot
      else match h.fault s k with
        | some t => .faulted s t h
        | none =>
          if need = .want ∧ (s.getPart (s.corePart k)).ck.regions ≠ [] then
            let own := h.effs.drop (h.effs.length - 1)
            let (s, n) := (h.effs.dropLast.foldl (fun s e => lateEffect s k h e) s).askSeal k h.slot h.cmd own
            .done ((s.lockFor (s.corePart k) own).updCore k (·.replHeld h { h with effs := own, need := .asked n }))
          else releaseHolds (h.effs.foldl (fun s e => lateEffect s k h e) (drop s)) k hs

/-- The held writes that are due. -/
def Core.dueHolds (c : Core) : List Held := c.holds.filter (·.due)
/-- Held writes of a core made due. -/
def Core.makeDue (c : Core) (p : Held → Bool) : Core := { c with holds := c.holds.map (fun h => if p h then { h with due := true } else h) }
/-- Whether a held write that is due may be performed: none awaits a seal before it. -/
def Core.dueReady (c : Core) : Bool := match c.dueHolds with | h :: _ => (match h.need with | .asked _ => false | _ => true) | [] => false
/-- Whether the next due write is of an engine that a fault has stopped. -/
def Core.dueStopped (c : Core) : Bool := match c.dueHolds with | h :: _ => c.stoppedAt h.slot | [] => false
/-- The due writes of a core performed as far as they may be. -/
def State.performDue (s : State) (k : Nat) : Released := releaseHolds s k (s.core k).dueHolds

/-- Whether an entry of the loop's lanes with an iteration at or below `k`, the lanes after the body aside, remains in a
queue. -/
def QEntry.inIter (ser k : Nat) (e : QEntry) : Bool :=
  let at_ (m : Cmd) : Bool := (m.tagIn ser).any (fun g => !g.tail && decide (g.it ≤ k))
  match e with
  | .cmd m => at_ m
  | .gate m => at_ m
  | .pass s j _ => s == ser && decide (j ≤ k)
  | _ => false

/-- Whether every lane of iteration `k` has reached its commit point or completed (R157): every pass that holds one is
fetched, and none remains in a queue. The control core's lanes count as the iteration's, except while one waits for a held
`camo`, or after a full fence for the writes held before it (log 15). -/
def Core.lanesDone (c : Core) (l : Loop) (k : Nat) : Bool :=
  (l.done || decide (k + l.s ≤ l.pass)) &&
    (nsRange 1 13).all (fun q => (c.queue q).all (fun e => !e.inIter l.ser k)) &&
    ((c.queue 0).all (fun e => !e.inIter l.ser k) ||
      (match c.queue 0 with | .cmd m :: _ => c.awaitsAmo m.instr || c.awaitsFence | _ => false)) &&
    c.sh.redo.all (fun e => e.2.all (fun m => !(m.tagIn l.ser).any (fun g => !g.tail && decide (g.it ≤ k)))) &&
    c.unsent.all (fun u => !u.2.2.any (fun g => g.ser == l.ser && !g.tail && decide (g.it ≤ k)))

/-- Whether the innermost loop's next iteration may retire (R157, R158). -/
def Core.canRetire (c : Core) : Bool :=
  match c.loops with
  | l :: _ => decide (l.retired < l.n) && l.roll.all (fun i => decide (l.retired < i)) && c.lanesDone l l.retired
  | [] => false

/-- The innermost loop's next iteration retired: its held writes are due, and with the last iteration the loop ends. -/
def Core.retireIter (c : Core) : Core :=
  match c.loops with
  | l :: ls =>
    let n := l.retired + 1
    let c := c.makeDue (fun h => h.ser == l.ser && decide (h.rel ≤ l.retired))
    let l := { l with retired := n, snaps := l.snaps.filter (fun e => decide (n ≤ e.1)), undo := l.undo.filter (fun u => decide (n ≤ u.1)) }
    { c with loops := if l.done ∧ n = l.n then ls else l :: ls }
  | [] => c
/-- What performing due writes comes to. -/
def settleDue (k : Nat) (r : Released) : State :=
  match r with
  | .done s => { s.updCore k (fun c => if (amFind 0 c.waits).any (fun (w : Wait) => w.kind == 9 && w.wsa == 3) then c.clearWait 0 else c) with stalled := false }
  | .faulted s t h => { takeFault s k t h.cmd.idx h.cmd.lane with stalled := false }
  | .full s => { s.updCore k (·.setWait 0 s.now ⟨9, 0, 0, 3, 0⟩) with stalled := true }
  | .stalled s n => { s.updCore k (·.beginStall n s.now) with stalled := true }

/-- ITERATION_RETIREMENT (R157): writes that are due are performed, before another iteration retires; else the innermost loop's next iteration
retires, and its held writes are performed. A core that comes to rest performs what is due, up to a write whose engine a fault has stopped. -/
def execIterationRetirement (s : State) : Host.Outcome State Fault Refusal :=
  let c := s.core s.cur
  let running := c.mode == CoreMode.running && !c.dbg.halted
  if c.dueReady then (if c.dueStopped then .fault .notEnabled else .next (settleDue s.cur (s.performDue s.cur)))
  else if running && c.canRetire then .next (settleDue s.cur ((s.updCore s.cur (·.retireIter)).performDue s.cur))
  else .fault .notEnabled

/-- Queues without the commands that a test picks, nor the gates and markers they placed. -/
def Core.cancel (c : Core) (p : Cmd → Bool) : Core :=
  let ids := ((cmdsOf (c.queue 0)).filter p).map (·.idx)
  c.mapQueues (fun _ q => q.filter (fun e => match e with
    | .cmd m => !p m
    | .gate m => !p m
    | .mark id _ _ _ => !ids.contains id
    | _ => true))

/-- Whether a roll-back to iteration `i` of a loop cancels a command of an engine, or of the control core after the body
(R156, R158). -/
def cancels (ser i : Nat) (engine : Bool) (m : Cmd) : Bool :=
  (m.tagIn ser).any (fun g => g.tail || (engine && decide (i ≤ g.it)))

/-- The engines' part of a cancellation. -/
def Core.cancelFrom (c : Core) (ser i : Nat) : Core :=
  let c := c.cancel (fun m => cancels ser i (decide (0x40 ≤ opOf m.raw)) m)
  { c with
    unsent := c.unsent.filter (fun u => !u.2.2.any (fun g => g.ser == ser && (g.tail || decide (i ≤ g.it))))
    mx := { c.mx with nest := c.mx.nest.filter (fun n => !cancels ser i true n.cmd) } }

/-- LOOP_ROLLBACK (R158 step 1): commands of the poisoned iteration and later ones not yet completed are cancelled, and
the control-core lane that consumed the poison performs nothing. -/
def execLoopRollback (s : State) : Host.Outcome State Fault Refusal :=
  let c := s.core s.cur
  match c.loops with
  | l :: _ =>
    match l.roll with
    | some i =>
      if l.drain then .fault .notEnabled
      else
        let c := c.cancelFrom l.ser i
        let c := match l.ccDrop with
          | some idx =>
            let lane := (((cmdsOf (c.queue 0)).find? (fun (m : Cmd) => m.idx == idx)).map (fun (m : Cmd) => (m.lane, isLong m.raw))).getD (0, false)
            let c := (c.cancel (fun m => m.idx == idx && decide (opOf m.raw < 0x40))).resolve idx
            if c.fetch.stall = some idx then ({ c with fetch := { c.fetch with stall := none } }).pathAfter lane.1 lane.2 else c
          | none => c
        .next { s.setCore s.cur (match c.loops with
          | l :: ls => { c with loops := { l with drain := true, ccDrop := none } :: ls }
          | [] => c) with stalled := false }
    | none => .fault .notEnabled
  | [] => .fault .notEnabled

/-- One undo record applied (R158 step 3). -/
def Core.undoOne (c : Core) : Undo → Core
  | .full t old => c.setTile t { c.tile t with full := old }
  | .tokTaken f => c.setTok f (c.tokCount f + 1)
  | .tokSent f => c.setTok f (c.tokCount f - 1)

/-- The registers of a snapshot restored. -/
def Core.restoreRegs (c : Core) (n : Snap) : Core :=
  { c with
    x := Vector.ofFn (fun i : Fin 32 => n.x.getD i.val Scalar.zero)
    p := Vector.ofFn (fun i : Fin 8 => n.p.getD i.val false)
    lc := Vector.ofFn (fun i : Fin 4 => n.lc.getD i.val 0) }

/-- LOOP_REENTRY (R158 steps 3 and 4). -/
def execLoopReentry (s : State) : Host.Outcome State Fault Refusal :=
  let c := s.core s.cur
  match c.loops with
  | l :: ls =>
    match l.roll with
    | some i =>
      if !l.drain ∨ l.retired < i then .fault .notEnabled
      else
        let c := c.cancelFrom l.ser i
        let c := c.cancel (fun m => (m.tagIn l.ser).isSome)
        let stale (ser j : Nat) : Bool := ser == l.ser || ((List.range ls.length).any (fun i =>
          match ls[i]?, l.outer[i]? with
          | some o, some (p, _, t) => o.ser == ser && (decide (p < j) || (decide (p = j) && t))
          | _, _ => false))
        let c := c.setQueue 0 ((c.queue 0).filter (fun e => match e with | .pass ser j _ => !stale ser j | _ => true))
        let c := (l.undo.filter (fun u => decide (i ≤ u.1))).foldl (fun c u => c.undoOne u.2) c
        let c : Core := match amFind i l.snaps with | some n => c.restoreRegs n | none => c
        let l' := { l with pass := i, done := false, turn := true, roll := none, drain := false, from_ := some i, start := i,
                           undo := l.undo.filter (fun u => decide (u.1 < i)), snaps := l.snaps.filter (fun e => decide (e.1 < i)) }
        let outer := (List.range ls.length).filterMap (fun j =>
          (ls[j]?).map (fun o => match l.outer[j]? with
            | some (p, d, t) => { o with pass := p, done := d, turn := t }
            | none => o))
        let c := { c with
          loops := l' :: outer
          holds := c.holds.filter (fun h => h.due || !(h.ser == l.ser && decide (i ≤ h.rel)))
          sh := Shadow.nil
          exiting := none
          lpstat := ⟨l.lc, if c.lpstat.count = 0xFFFF then 0xFFFF else c.lpstat.count + 1, BitVec.ofNat 32 i⟩
          fetch := { c.fetch with pc := l.body, buf := [], pfx := [], stall := none, ended := false, yield := false, spec := none, line := none } }
        .next { s.setCore s.cur c with stalled := false }
    | none => .fault .notEnabled
  | [] => .fault .notEnabled

/-- The start of a pass in the control core's order (R156, R158): its loop counter, and the registers noted. -/
def Core.startPass (c : Core) (ser j : Nat) (lc : BitVec 2) : Core :=
  let c := c.wrLc lc (BitVec.ofNat 32 j)
  let c := { c with loops := c.loops.map (fun (l : Loop) => if l.ser = ser ∧ j < l.n + l.s - 1 then { l with snaps := amSet l.snaps j c.snap } else l) }
  c.setQueue 0 ((c.queue 0).drop 1)

/-- Due writes performed within a lane of the control core: a fault of one of them is that write's own. -/
def performDueM : M Unit := do
  let s ← get
  match s.performDue s.cur with
  | .done s => set s
  | .faulted s t h => throw (.held s t h.cmd.idx h.cmd.lane)
  | .full _ => waitFor 9 3
  | .stalled .. => throw .stall
/-- Loops abandoned (R160): each loop that a test picks ends, and every held write of it is performed. -/
def abandonLoops (p : Loop → Bool) : M Unit := do
  let c ← core
  let gone := (c.loops.filter p).map (fun (l : Loop) => l.ser)
  if gone = [] then return ()
  modCore (fun c => { (c.makeDue (fun h => gone.contains h.ser)) with loops := c.loops.filter (fun (l : Loop) => !p l) })
  performDueM

/-- The word at a lane address and its nibble, read for the loop unit. -/
def laneAt (a : Word) : M (Nat × Nat) := do
  let s ← get
  let line := a.toNat / 32 * 32
  let p ← translate .fetch (ccMk s.cmd) (BitVec.ofNat 64 line)
  let b := s.readPa p.pa 32
  return (leNat ((b.drop (a.toNat % 32)).take 4), nibble (leNat (b.take 4)) (a.toNat / 4 % 8))
/-- The lane that follows the instruction which occupies a lane: the first or the second lane of it (R67, R155). -/
def afterLane (a : Word) : M Word := do
  let (w, n) ← laneAt a
  return nextLane a (n != 9 && longOp (w / 2 ^ 24 % 256))
/-- Whether an END lies beyond an outer body (R160): above its END, but for the second lane of the instruction that stands there. -/
def beyondEnd (outer fin : Word) : M Bool := do
  if fin.toNat ≤ outer.toNat then return false
  else if fin.toNat ≠ outer.toNat + 4 then return true
  else do
    let (_, n) ← laneAt fin
    return (n != 9)

/-- A loop instruction (R155, R156, R160): its checks; a body skipped with N = 0, which as a taken transfer out of an outer body abandons that loop
(log 50); else its first pass. Only the innermost loop holds writes: those held for the outer ones are performed when a loop starts in their
bodies (log 34). -/
def startLoop (lc : BitVec 2) (n : Nat) (sm1 : BitVec 2) (stg : Stages) (len : BitVec 12) : M Unit := do
  let s ← get
  let c ← core
  let a := s.cmd.lane
  let body := nextLane a true
  let fin := a + BitVec.ofNat 64 (4 * len.toNat)
  if c.loops.any (·.done) then waitFor 9 1
  if c.loops.any (fun l => decide (1 < l.s)) then ccIllegal 24 8
  if c.loops.any (fun l => l.lc == lc) then ccIllegal 19 2
  if fin.toNat < body.toNat then ccIllegal 46 12
  if fin.toNat % 32 = 0 then ccRaise .align fin
  let beyond ← c.loops.mapM (fun l => beyondEnd l.fin fin)
  if beyond.any id then ccIllegal 46 12
  if n = 0 then
    let t ← afterLane fin
    abandonLoops (fun l => !l.contains t)
    modCore (fun c => (c.wrLc lc 0).goTo t)
  else
    modCore (·.makeDue (fun _ => true))
    performDueM
    modCore (fun c =>
      let l : Loop := ⟨c.serial, lc, n, sm1.toNat + 1, stg, body, fin, 0, false, 0, none, true, none, false, none, 0, [],
        c.loops.map (fun (o : Loop) => (o.pass, o.done, o.turn)), []⟩
      { c with loops := l :: c.loops, serial := c.serial + 1, fetch := { c.fetch with stall := none, pc := body } })

/-- `loop` (R155): of an XA whose upper half is not zero the ILLEGAL names the XA field, FLO 14 and FLEN 5 of the word, with the register's number as
VALUE: the spec names neither (log 50). -/
def execLoop (lc : BitVec 2) (a : XReg) (sm1 : BitVec 2) (stg : Stages) (len : BitVec 12) (s : State) :
    Host.Outcome State Fault Refusal :=
  ccLane s (do
    let n ← readX a
    if 2 ^ 32 ≤ n.toNat then ccIllegal 14 5
    startLoop lc n.toNat sm1 stg len)

/-- `loopi` (R155). -/
def execLoopi (lc sm1 : BitVec 2) (stg : Stages) (len : BitVec 12) (n : BitVec 14) (s : State) :
    Host.Outcome State Fault Refusal :=
  ccLane s (startLoop lc n.toNat sm1 stg len)

/-- `lcr` (R161). -/
def execLcr (d : XReg) (n : BitVec 2) (s : State) : Host.Outcome State Fault Refusal :=
  ccLane s (do
    let c ← core
    writeX d ((c.rdLc n).setWidth 64))

/-- `lcw` (R161): the counter of an active loop is refused. -/
def execLcw (n : BitVec 2) (a : XReg) (s : State) : Host.Outcome State Fault Refusal :=
  ccLane s (do
    let v ← readX a
    let c ← core
    if c.loops.any (fun l => l.lc == n) then ccIllegal 19 2
    modCore (·.wrLc n (v.setWidth 32)))

end Sys2Proof.Machine
end

