-- ==== Sys2Proof/Machine/Flags.lean ====
section
/-! DEFINITION. Integer results and conditions of the control core: the T9 has no flags; a comparison gives a predicate
(R142-R144, R147). -/

namespace Sys2Proof.Machine

/-- The width W selects (R142). -/
def aluW (w : Bool) : Nat := if w then 32 else 64
/-- An ALU operand: the low w bits, zero- or sign-extended (R142). -/
def aluIn (w u : Bool) (x : Word) : Int := if u then ((x.toNat % 2 ^ aluW w : Nat) : Int) else sext (aluW w) x.toNat
/-- An ALU result: the low w bits, zero- or sign-extended (R142). -/
def aluOut (w u : Bool) (r : Int) : Word :=
  let n := (r % (2 ^ aluW w : Nat)).toNat
  if u then BitVec.ofNat 64 n else word (sext (aluW w) n)
/-- An ALU instruction of Table 5.11 on two register values. -/
def alu (f : Nat → Int → Int → Int) (w u : Bool) (x y : Word) : Word := aluOut w u (f (aluW w) (aluIn w u x) (aluIn w u y))

/-- The low w bits of an operand as a natural number. -/
def lowBits (w : Nat) (a : Int) : Nat := (a % (2 ^ w : Nat)).toNat
/-- A shift count: b[5:0], or b[4:0] when W = 1. -/
def shCount (w : Nat) (b : Int) : Nat := lowBits w b % w

/-- Table 5.11. -/
def fAddI (_ : Nat) (a b : Int) : Int := a + b
/-- Table 5.11, sub. -/
def fSubI (_ : Nat) (a b : Int) : Int := a - b
/-- Table 5.11, and. -/
def fAndI (w : Nat) (a b : Int) : Int := ((lowBits w a &&& lowBits w b : Nat) : Int)
/-- Table 5.11, or. -/
def fOrI (w : Nat) (a b : Int) : Int := ((lowBits w a ||| lowBits w b : Nat) : Int)
/-- Table 5.11, xor. -/
def fXorI (w : Nat) (a b : Int) : Int := ((lowBits w a ^^^ lowBits w b : Nat) : Int)
/-- Table 5.11, shl. -/
def fShlI (w : Nat) (a b : Int) : Int := a * (2 ^ shCount w b : Nat)
/-- Table 5.11, shr. -/
def fShrI (w : Nat) (a b : Int) : Int := ((lowBits w a / 2 ^ shCount w b : Nat) : Int)
/-- Table 5.11, sra. -/
def fSraI (w : Nat) (a b : Int) : Int := a / (2 ^ shCount w b : Nat)
/-- Table 5.11, mul. -/
def fMulI (_ : Nat) (a b : Int) : Int := a * b
/-- Table 5.11, mulh. -/
def fMulhI (w : Nat) (a b : Int) : Int := (a * b) / (2 ^ w : Nat)
/-- Table 5.11, div: truncated. -/
def fDivI (w : Nat) (a b : Int) : Int := if b = 0 then (2 ^ w : Nat) - 1 else a.tdiv b
/-- Table 5.11, rem: the sign of the dividend. -/
def fRemI (_ : Nat) (a b : Int) : Int := if b = 0 then a else a - b * a.tdiv b
/-- Table 5.11, min. -/
def fMinI (_ : Nat) (a b : Int) : Int := if a ≤ b then a else b
/-- Table 5.11, max. -/
def fMaxI (_ : Nat) (a b : Int) : Int := if a ≤ b then b else a

/-- A condition on the low n bits of two values (R147). -/
def condHolds (c : Cond) (n : Nat) (a b : Nat) : Bool :=
  let x := a % 2 ^ n
  let y := b % 2 ^ n
  match c with
  | .eq => x == y
  | .ne => x != y
  | .lt => decide (sext n x < sext n y)
  | .ge => decide (sext n y ≤ sext n x)
  | .ltu => decide (x < y)
  | .geu => decide (y ≤ x)

/-- How `cmp` combines its condition with the predicate (R147). -/
def combine (m : Comb) (old c : Bool) : Bool :=
  match m with | .set => c | .and => old && c | .or => old || c

/-- The ones among the low n bits. -/
def popCount (n v : Nat) : Nat := ((List.range n).filter (fun i => v.testBit i)).length
/-- The leading zeros below bit n; n for a zero operand (R144). -/
def leadZeros (n v : Nat) : Nat := (((List.range n).reverse.takeWhile (fun i => !v.testBit i))).length
/-- The trailing zeros; n for a zero operand (R144). -/
def trailZeros (n v : Nat) : Nat := ((List.range n).takeWhile (fun i => !v.testBit i)).length

/-- `ext` (R144). -/
def extField (s : Bool) (x ctl : Word) : Word :=
  let pos := bits ctl.toNat 0 6
  let len := bits ctl.toNat 8 6 + 1
  let f := x.toNat / 2 ^ pos % 2 ^ len
  if s then word (sext len f) else BitVec.ofNat 64 f

/-- `ins` (R144): the low len bits of `x` put at pos of `d`. -/
def insField (d x ctl : Word) : Word :=
  let pos := bits ctl.toNat 0 6
  let len := bits ctl.toNat 8 6 + 1
  let m := BitVec.ofNat 64 ((2 ^ len - 1) * 2 ^ pos)
  (d &&& ~~~m) ||| (BitVec.ofNat 64 (x.toNat % 2 ^ len * 2 ^ pos) &&& m)

/-- Bytes of a scalar access (R149). -/
def memSize : MemSz → Nat
  | .s8 | .z8 => 1 | .s16 | .z16 => 2 | .s32 | .z32 => 4 | .s64 => 8
/-- A loaded scalar, extended as its code says (R149). -/
def memExtend (z : MemSz) (v : Nat) : Word :=
  match z with
  | .s8 => word (sext 8 v) | .s16 => word (sext 16 v) | .s32 => word (sext 32 v)
  | _ => BitVec.ofNat 64 v

end Sys2Proof.Machine
end

