-- ==== Sys2Proof/Machine/Ld.lean ====
section
/-! DEFINITION. The load engine (07_load_engine R214-R228), with the row addresses that the store engine shares. -/

namespace Sys2Proof.Machine

/-! ### Rows (R218, R222, R240) -/

/-- The alignment in bytes that a format asks of a row address. -/
def fmtAlign (f : Fmt) : Nat := max 1 (Fmt.size f / 8)

/-- The bits of a tile row that may be named: 1,020 for MXINT6, else 1,024. -/
def rowLimit (f : Fmt) : Nat := if f = .mx6 then 1020 else 1024

/-- A scratchpad row of `n` bytes: its offset, computed exactly, inside the scratchpad. -/
def spRow (mk : FaultClass → Word → Trap) (xa : Word) (off : Int) (n : Nat) : M Nat := do
  let o : Int := (bits xa.toNat 0 22 : Int) + off
  if o < 0 ∨ 0x400000 < o + n then raise (mk .page (xa + BitVec.ofInt 64 off))
  return o.toNat

/-- Alignment of a scratchpad row, which lies in one bank. -/
def spAligned (mk : FaultClass → Word → Trap) (xa : Word) (off : Int) (o n : Nat) (f : Fmt) : M Unit :=
  if o % fmtAlign f ≠ 0 ∨ bankOf o ≠ bankOf (o + n - 1) then raise (mk .align (xa + BitVec.ofInt 64 off)) else pure ()

/-- The index of row `i` from an index copy (R220): sign- or zero-extended by the tile's tag; a poisoned one is consumed. -/
def rowIndex (mk : FaultClass → Word → Trap) (ti : Tile) (i : Nat) : M Int := do
  if ti.elPoisoned ti.tag i then raise (mk .poison 0)
  return intVal ti.tag (ti.el ti.tag i)

/-- The tags an index tile may have (R220). -/
def indexTag (f : Fmt) : Bool := f == .s32 || f == .z32 || f == .s64 || f == .z64

/-! ### Loads -/

/-- A fault of an LD command: Table 7.3. -/
def ldTrap (c : Cmd) (cause row : Nat) : FaultClass → Word → Trap :=
  fun cls va => ⟨cls, 2, 0, BitVec.ofNat 64 (cause + opOf c.raw * 2 ^ 16 + row * 2 ^ 32), va, none, none⟩
/-- An ILLEGAL of the command in hand by a field of its word. -/
def laneIllegal {α : Type} (flo flen : Nat) : M α := do
  let s ← get
  raise (illegalAt (cmdEng s.slot s.cmd) (slotChan s.slot) s.cmd flo flen)
/-- An ILLEGAL of the command in hand that refuses a tag. -/
def laneTag {α : Type} (flo flen : Nat) (f : Fmt) : M α := do
  let s ← get
  raise (illegalTag (cmdEng s.slot s.cmd) (slotChan s.slot) s.cmd flo flen f)

/-- The tag written, from the source format and TYPE (R219). -/
def ldTag (f ty : Fmt) : M Fmt :=
  if ty = .raw then pure f
  else if f = .raw ∨ ty = f then pure ty
  else if f.isBlock ∨ ty.isBlock then laneTag 3 4 ty
  else pure ty

/-- Bits of a source element (R218). -/
def ldWidth (f t : Fmt) : Nat := if f = .raw ∧ t ≠ .raw then Fmt.size t else Fmt.size f

/-- The row limits of R218 that the tag decides. -/
def ldLimit (o : LdArgs) (t : Fmt) : M Unit :=
  if rowLimit t < (o.nel.toNat + 1) * Fmt.size t then laneIllegal 42 8 else pure ()

/-- The limits that need no format: rows (R218). -/
def rowsFit (tr : BitVec 3) (nrow : BitVec 6) : M Unit :=
  if 64 < 8 * tr.toNat + nrow.toNat + 1 then laneIllegal 50 6 else pure ()

/-- The format and tag of a scratchpad load: the FMT of the bank that holds row 0 (R219). -/
def spFormat (mk : FaultClass → Word → Trap) (k : Nat) (xa : Word) (off : Int) : M Fmt := do
  let o ← spRow mk xa off 1
  let s ← get
  return ((s.core k).bank (bankOf o)).fmt

/-- A source row of a load (R218, R222, R223): its elements in F with their poison. -/
def ldRowAt (sp : Option (Nat × Fmt)) (o : LdArgs) (flag : Bool) (f t : Fmt) (xa : Word) (i : Nat) (off : Int) :
    M (List (Nat × Bool)) := do
  let s ← get
  let mk := ldTrap s.cmd 1 i
  let nel := o.nel.toNat + 1
  let n := (nel * ldWidth f t + 7) / 8
  let va := xa + BitVec.ofInt 64 off
  if flag ∧ i = 0 ∧ va.toNat % 8 ≠ 0 then raise (mk .align va)
  match sp with
  | some (k, _) =>
    let p ← spRow mk xa off n
    spAligned mk xa off p n f
    let b := ((s.core k).bank (bankOf p)).fmt
    if b ≠ f then raise (illegalBank 2 0 s.now s.cmd b)
    return (← readSp k p n).els (ldWidth f t) nel
  | none =>
    if va.toNat % fmtAlign f ≠ 0 then raise (mk .align va)
    return (← readVaSeen mk va n).els (ldWidth f t) nel

/-- The rows of a load written into the tile as they arrive (R218, R221); with all of them the tag (R28). -/
def ldFill (o : LdArgs) (f t : Fmt) (row : Nat → M (List (Nat × Bool))) : M Unit := do
  let s ← get
  let n := o.td.n.toNat
  let conv (v : Nat) : Nat := if f = t ∨ f = .raw then v else implicitConv f t v
  rowsOr (o.nrow.toNat + 1) row (fun part rs => modCore (fun c =>
    let kept : List (Nat × List (Nat × Bool)) := match part with | none => rs | some v => rs.filter (fun r => v.testBit r.1)
    let tile := kept.foldl (fun (a : Tile) r =>
      a.putEls (8 * o.tr.toNat + r.1) (Fmt.size t) (r.2.map (fun e => (conv e.1, e.2)))) (c.tile n).packed
    c.putTile s.cmd n (if part.isNone then { tile with tag := t } else tile)))

/-- A load from device memory or a scratchpad: `spc` selects the scratchpad, `ti` the index tile, `bc` the broadcast of one
source row, `flag` an acquire's flag piece (R219-R222, R224). -/
def ldLane (o : LdArgs) (ti : Option TileRef) (spc bc flag : Bool) (s : State) : Host.Outcome State Fault Refusal :=
  engineLane s ⟨o.tok, (ti.toList).map (fun t => (t, 56)), [(o.td, 12)]⟩
    (do
      if ¬ spc ∨ o.ty ≠ .raw then ldLimit o o.ty
      rowsFit o.tr o.nrow
      if flag ∧ ¬ spc ∧ (o.nel.toNat + 1) * Fmt.size o.ty < 57 then laneIllegal 42 8)
    (fun tiles => do
      let xa ← captured 0 (ldTrap s.cmd 3 0)
      let xb ← if bc then pure 0 else captured 1 (ldTrap s.cmd 3 0)
      let off (i : Nat) : M Int := do
        if bc then return 0
        match tiles with
        | t :: _ =>
          let x ← rowIndex (ldTrap s.cmd 2 i) t i
          return x * xb.toInt
        | [] => return (i : Int) * xb.toInt
      if spc then
        let (k, _) ← spTarget (ldTrap s.cmd 1 0) xa
        let o0 ← off 0
        let f ← spFormat (ldTrap s.cmd 1 0) k xa o0
        let t ← ldTag f o.ty
        ldLimit o t
        if flag ∧ (o.nel.toNat + 1) * ldWidth f t < 57 then laneIllegal 42 8
        ldFill o f t (fun i => do
          let d ← off i
          ldRowAt (some (k, f)) o flag f t xa i d)
      else
        ldFill o o.ty o.ty (fun i => do
          let d ← off i
          ldRowAt none o flag o.ty o.ty xa i d))
    (fun tiles => match tiles with
      | t :: _ => if indexTag t.tag then pure () else laneTag 56 8 t.tag
      | [] => pure ())

/-- `ld.t` (R221). -/
def execLdT (o : LdArgs) (s : State) : Host.Outcome State Fault Refusal := ldLane o none false false false s
/-- `ld.s` (R221). -/
def execLdS (o : LdArgs) (s : State) : Host.Outcome State Fault Refusal := ldLane o none true false false s
/-- `ld.g` (R220, R221). -/
def execLdG (o : LdArgs) (ti : TileRef) (s : State) : Host.Outcome State Fault Refusal := ldLane o (some ti) false false false s
/-- `ld.gs` (R220, R221). -/
def execLdGs (o : LdArgs) (ti : TileRef) (s : State) : Host.Outcome State Fault Refusal := ldLane o (some ti) true false false s
/-- `ld.b` (R221): one source row into every tile row. -/
def execLdB (o : LdArgs) (sp : Bool) (s : State) : Host.Outcome State Fault Refusal := ldLane o none sp true false s
/-- `ld.acq` (R224): an acquire whose flag piece is the first 8 bytes of row 0. One core that performs its accesses in order
reads every other piece after it. -/
def execLdAcq (o : LdArgs) (sp : Bool) (_scope : Scope) (s : State) : Host.Outcome State Fault Refusal :=
  ldLane o none sp false true s

/-- The W-words that `n` bytes from a W-space address touch outside the core's own slice (R37). -/
def remoteWords (k a n : Nat) : NSet := (granulesOf 2048 a n).filter (fun g => wCore (g * 2048) != k)

/-- `ld.w` (R223): rows of W-space; rows of an invalid word arrive poisoned; remote words are counted (Table 7.4). -/
def execLdW (o : LdArgs) (s : State) : Host.Outcome State Fault Refusal :=
  engineLane s ⟨o.tok, [], [(o.td, 12)]⟩
    (do ldLimit o o.ty; rowsFit o.tr o.nrow)
    (fun _ => do
      let xa ← captured 0 (ldTrap s.cmd 3 0)
      let xb ← captured 1 (ldTrap s.cmd 3 0)
      if 2 ^ 38 ≤ xa.toNat then raise (ldTrap s.cmd 1 0 .wspace xa)
      let nel := o.nel.toNat + 1
      let n := (nel * Fmt.size o.ty + 7) / 8
      let at_ (i : Nat) : Word := xa + BitVec.ofNat 64 i * xb
      let t ← get
      let pn ← partNo
      ldFill o o.ty o.ty (fun i => do
        let a := at_ i
        if a.toNat % fmtAlign o.ty ≠ 0 then raise (ldTrap s.cmd 1 i .align a)
        if ¬ t.wOk pn a.toNat ∨ ¬ t.wOk pn (a.toNat + n - 1) then raise (ldTrap s.cmd 1 i .wspace a)
        if ¬ t.ringOk (coreDie t.cur) (bits a.toNat 36 2) then raise (ldTrap s.cmd 1 i .link a)
        return (t.readW a.toNat n).els (Fmt.size o.ty) nel)
      let words := (List.range (o.nrow.toNat + 1)).foldl (fun (w : NSet) i =>
        (remoteWords t.cur (at_ i).toNat n).foldl (fun w g => nsAdd g w) w) []
      modCore (fun c => { c with regs := { c.regs with wrem := satAdd16 c.regs.wrem words.length } }))

/-! ### Prefetches (R225, R226) -/

/-- A clean line filled into its home L2 (R40, R225). -/
def State.fillLine (s : State) (p pa : Nat) : State :=
  let line := pa / 128
  match s.lineDie line with
  | some _ => s
  | none => s.putLine (s.homeDie p pa) line ⟨s.lineBytes line, false⟩

/-- A prefetch of one line: its translation, walked where it misses; dropped where it faults or may not be cached. -/
def prefetchLine (va : Word) : M Unit := fun s =>
  match (translate .read (ldTrap s.cmd 1 0) va).run s with
  | .ok (p, s') =>
    .ok ((), match p.reg with
      | .device _ | .host => if p.ent.nc then s' else s'.fillLine (s'.corePart s'.cur) p.pa
      | _ => s')
  | .error (.miss va w mk) => .error (.miss va w mk)
  | .error _ => .ok ((), s)

/-- `pf` (R225). -/
def execPf (tok : Tok) (nl : BitVec 8) (_xa : XReg) (s : State) : Host.Outcome State Fault Refusal :=
  engineLane s ⟨tok, [], []⟩ (pure ()) (fun _ => do
    let x := s.cmd.vals.getD 0 Scalar.zero
    if x.poison then return ()
    for i in List.range (nl.toNat + 1) do
      prefetchLine (BitVec.ofNat 64 (x.v.toNat / 128 * 128 + 128 * i)))

/-- The W buffer with a word fetched into it: 32 words, the one filled earliest leaving (R226). -/
def wbufAdd (buf : List Nat) (w : Nat) : List Nat :=
  if buf.contains w then buf else (if buf.length < 32 then buf else buf.drop 1) ++ [w]

/-- `pf.w` (R226). -/
def execPfW (tok : Tok) (nw : BitVec 5) (_xa : XReg) (s : State) : Host.Outcome State Fault Refusal :=
  engineLane s ⟨tok, [], []⟩ (pure ()) (fun _ => do
    let x := s.cmd.vals.getD 0 Scalar.zero
    if x.poison then return ()
    let t ← get
    let pn ← partNo
    let words := (nsRange (x.v.toNat / 2048) (nw.toNat + 1)).filter (fun g =>
      t.wOk pn (g * 2048) && wCore (g * 2048) != t.cur)
    modCore (fun c => { c with wbuf := words.foldl wbufAdd c.wbuf }))

end Sys2Proof.Machine
end

