-- ==== Sys2Proof/Machine/St.lean ====
section
/-! DEFINITION. The store engine (08_store_engine R232-R249): plain, scatter, release and reduce-stores, publication. -/

namespace Sys2Proof.Machine

/-- A fault of an ST command: Table 8.6. -/
def stTrap (c : Cmd) (cause row : Nat) : FaultClass → Word → Trap :=
  fun cls va => ⟨cls, 3, 0, BitVec.ofNat 64 (cause + opOf c.raw * 2 ^ 16 + row * 2 ^ 32), va, none, none⟩

/-- A list in one of its orders, by a free choice. -/
def shuffle {α : Type} : Nat → Nat → List α → List α
  | 0, _, _ => []
  | n + 1, v, l =>
    match l.drop (v % max 1 l.length) with
    | x :: _ => x :: shuffle n (v / max 1 l.length) (l.eraseIdx (v % max 1 l.length))
    | [] => []

/-- The bytes of a row of MXINT6 codes at an offset, cut where both a naturally aligned 8-byte piece and a code end, every 24 bytes: position in the
row and length. -/
def mx6Pieces (off n : Nat) : List (Nat × Nat) :=
  let p0 := ((List.range 24).find? (fun p => p % 3 == 0 && (off + p) % 8 == 0)).getD 0
  (piecesOf 24 (24 - p0) n).map (fun q => (q.1 - (24 - p0), q.2))
/-- An effect cut into the naturally aligned pieces of at most 8 bytes that are performed at once (R108); MXINT6 codes, which
a piece may cut, where no code is cut. -/
def Effect.pieces : Effect → List Effect
  | .mem va pa bs pois pub nc => (piecesOf 8 pa bs.length).map (fun q =>
      let d := q.1 - pa
      .mem (va + BitVec.ofNat 64 d) q.1 ((bs.drop d).take q.2)
        ((pois.filter (fun b => decide (d ≤ b) && decide (b < d + q.2))).map (· - d)) pub nc)
  | .bank core off f els pois k0 acc =>
    let sz := Fmt.size f
    let n := (els.length * sz + 7) / 8
    (if f = .mx6 then mx6Pieces off n else (piecesOf 8 off n).map (fun q => (q.1 - off, q.2))).map (fun q =>
      let d := q.1 * 8 / sz
      let m := if q.1 + q.2 = n then els.length - d else q.2 * 8 / sz
      .bank core (off + q.1) f ((els.drop d).take m)
        ((pois.filter (fun b => decide (d ≤ b) && decide (b < d + m))).map (· - d)) (k0 + d) acc)
  | .red core off op els k0 => (List.range els.length).map (fun i =>
      .red core (off + 4 * i) op ((els.drop i).take 1) (k0 + i))
  | e => [e]

/-- The bytes an effect writes: space (0 memory, else core and one), start and length. -/
def Effect.range : Effect → Option (Nat × Nat × Nat)
  | .mem _ pa bs .. => some (0, pa, bs.length)
  | .bank core off f els _ _ _ => some (core + 1, off, (els.length * Fmt.size f + 7) / 8)
  | .red core off _ els _ => some (core + 1, off, 4 * els.length)
  | _ => none
/-- Whether two effects write a byte in common. -/
def Effect.meets (a b : Effect) : Bool :=
  match a.range, b.range with
  | some (s, x, n), some (t, y, m) => s == t && decide (x < y + m) && decide (y < x + n)
  | _, _ => false
/-- Whether some two of a list of effects write a byte in common. -/
def effsMeet : List Effect → Bool
  | [] => false
  | e :: es => es.any (Effect.meets e) || effsMeet es

/-- The pieces of a command in the order they are performed: any, where two write the same byte (R239, R244). -/
def orderEffs (effs : List Effect) : M (List Effect) := do
  if effsMeet effs then
    let ps := effs.flatMap Effect.pieces
    let v ← pick
    return shuffle ps.length v ps
  else return effs

/-- The destination format in device memory (Table 8.3). -/
def stDevFmt (ty t : Fmt) : M Fmt :=
  if ty = .raw ∨ ty = t then pure t
  else if t = .raw then pure ty
  else if ty.isBlock ∨ t.isBlock then laneTag 3 4 ty
  else pure ty

/-- The destination format in a scratchpad, by the format of row 0's bank (Table 8.3). -/
def stSpFmt (ty t b : Fmt) : M Fmt :=
  if ty ≠ .raw ∧ ty ≠ b then laneTag 3 4 ty
  else if b = .raw then pure t
  else if t = .raw ∨ t = b then pure b
  else if t.isBlock ∨ b.isBlock then laneTag 12 8 t
  else pure b

/-- The limits of R236 that the formats decide. -/
def stLimit (o : StArgs) (t d : Fmt) : M Unit :=
  let nel := o.nel.toNat + 1
  if (nel * Fmt.size d) % 8 ≠ 0 ∨ rowLimit t < nel * Fmt.size t then laneIllegal 42 8 else pure ()

/-- The elements of buffer row `i` in the destination format, each with its poison (R237); bytes of a RAW tile move
unchanged, and what would lie above the row's 1,024 bits is free (log 16). -/
def stRowEls (o : StArgs) (ts : Tile) (d : Fmt) (free i : Nat) : List (Nat × Bool) :=
  let nel := o.nel.toNat + 1
  let r := 8 * o.tr.toNat + i
  let move := ts.tag = d ∨ ts.tag = .raw ∨ d = .raw
  let w := if move then Fmt.size d else Fmt.size ts.tag
  let bits := (ts.row r).toNat + free * 2 ^ 1024
  let conv (v : Nat) : Nat := if move then v else implicitConv ts.tag d v
  (List.range nel).map (fun e => (conv (bits / 2 ^ (e * w) % 2 ^ w), ts.bitsPoisoned r (e * w) w))

/-- Positions of the poisoned among a row's elements. -/
def poisIdx (els : List (Nat × Bool)) : NSet := (List.range els.length).filter (fun i => (els.getD i (0, false)).2)
/-- Bytes that the poisoned elements of a row touch. -/
def poisBytes (sz : Nat) (els : List (Nat × Bool)) : NSet := (poisIdx els).flatMap (fun e => granulesOf 8 (sz * e) sz)

/-- The writes of row `i` (R239, R240): its address formed and checked, its elements placed. -/
def stRowAt (sp : Option Nat) (flag : Bool) (bank d : Fmt) (xa : Word) (els : List (Nat × Bool)) (i : Nat) (off : Int) :
    M (List Effect) := do
  let s ← get
  let mk := stTrap s.cmd 1 i
  let n := els.length * Fmt.size d / 8
  let va := xa + BitVec.ofInt 64 off
  if flag ∧ i = 0 ∧ va.toNat % 8 ≠ 0 then raise (mk .align va)
  match sp with
  | some k =>
    let p ← spRow mk xa off n
    spAligned mk xa off p n d
    let b := ((s.core k).bank (bankOf p)).fmt
    if b ≠ bank then raise (illegalBank 3 0 s.now s.cmd b)
    return [.bank k p d (els.map (·.1)) (poisIdx els) (i * els.length) 0]
  | none =>
    if va.toNat % fmtAlign d ≠ 0 then raise (mk .align va)
    storeVa mk va (elBytes (Fmt.size d) (els.map (·.1))) (poisBytes (Fmt.size d) els)

/-- The flag piece of a release's row 0, and the rest of that row (R242); of MXINT6 codes the flag takes the byte that holds the end of its last
code with it. -/
def splitFlag : List Effect → List Effect × List Effect
  | .mem va pa bs pois pub nc :: es =>
    ([.mem va pa (bs.take 8) (pois.filter (fun b => decide (b < 8))) pub nc],
      (if bs.length ≤ 8 then [] else [.mem (va + 8) (pa + 8) (bs.drop 8) ((pois.filter (fun b => decide (8 ≤ b))).map (· - 8)) pub nc]) ++ es)
  | .bank k p f els pois k0 acc :: es =>
    let m := if f = .mx6 then 12 else (64 + Fmt.size f - 1) / Fmt.size f
    ([.bank k p f (els.take m) (pois.filter (fun b => decide (b < m))) k0 acc],
      (if els.length ≤ m then [] else
        [.bank k (p + m * Fmt.size f / 8) f (els.drop m) ((pois.filter (fun b => decide (m ≤ b))).map (· - m)) (k0 + m) acc]) ++ es)
  | es => ([], es)

/-- Pieces that a free value chooses. -/
def somePieces (v : Nat) (ps : List Effect) : List Effect :=
  ((List.range ps.length).zip ps).filterMap (fun p => if v.testBit p.1 then some p.2 else none)
/-- Writes of a store: all of them committed, the flag piece of a release last and at recovery scope by the Wellhead (R242,
R243); of a command that faults, any part of its pieces, but none into a hold, none where a trap forbids them all, and never the flag (R133,
R248). -/
def stFinish (flag rc : Bool) (rl : Nat) (part : Option Nat) (rows : List (Nat × List Effect)) : M Unit := do
  let s ← get
  let base := stTrap s.cmd 6 0 .bound 0
  let effs := rows.flatMap (·.2)
  match part with
  | none =>
    if flag then
      let (own, rest) := splitFlag effs
      if rc then
        checkBounds base rl effs
        let held := ((s.core s.cur).holdsFor s.cmd).isSome
        if held then do
          let rest ← orderEffs rest
          commit base rl (rest ++ own) .want
        else do
          if s.cmd.joined.isNone then commit base rl (← orderEffs rest)
          sealOwn own (stTrap s.cmd 7 0 .link 0)
        modCore (·.relMade 2)
      else commitWrite base rl ((← orderEffs rest) ++ own) (stTrap s.cmd 7 0 .link 0)
    else commitWrite base rl (← orderEffs effs) (stTrap s.cmd 7 0 .link 0)
  | some v =>
    if ((s.core s.cur).holdsFor s.cmd).isSome ∨ s.cmd.joined.isSome ∨ (effsViol (s.see s.cur) s.cur s.slot effs).isSome then pure ()
    else
      let row0 : List Effect := (rows.filter (fun r => flag && r.1 == 0)).flatMap (·.2)
      let rest : List Effect := (rows.filter (fun r => !(flag && r.1 == 0))).flatMap (·.2)
      let ps := ((splitFlag row0).2 ++ rest).flatMap Effect.pieces
      let ps ← orderEffs (somePieces v ps)
      accessEffs ps
      modify (fun s => s.performAll s.cur s.slot ps)

/-- A store into device memory or a scratchpad: `spc` selects the scratchpad, `ti` the index tile, `rel` a release's scope
(R236-R243). -/
def stLane (o : StArgs) (ti : Option TileRef) (spc : Bool) (rel : Option Scope) (s : State) : Host.Outcome State Fault Refusal :=
  let chkIx (ti : Tile) : M Unit := if indexTag ti.tag then pure () else laneTag 56 8 ti.tag
  engineLane s ⟨o.tok, (o.ts, 12) :: (ti.toList).map (fun t => (t, 56)), []⟩
    (rowsFit o.tr o.nrow)
    (fun tiles => do
      let ts := tiles.headD Tile.empty
      let mk3 := stTrap s.cmd 3 0
      let xa ← captured 0 mk3
      let xb ← captured 1 mk3
      let flag := rel.isSome
      let nel := o.nel.toNat + 1
      let free ← if ts.tag = .raw ∧ 16 < nel then pick else pure 0
      let off (i : Nat) : M Int := do
        match tiles.drop 1 with
        | t :: _ =>
          let x ← rowIndex (stTrap s.cmd 2 i) t i
          return x * xb.toInt
        | [] => return (i : Int) * xb.toInt
      let rl := nel
      if spc then
        let mk := stTrap s.cmd 1 0
        let (k, _) ← spTarget mk xa
        let o0 ← off 0
        let p0 ← spRow mk xa o0 1
        let t ← get
        let b := ((t.core k).bank (bankOf p0)).fmt
        let d ← stSpFmt o.ty ts.tag b
        stLimit o ts.tag d
        if flag ∧ nel * Fmt.size d < 64 then laneIllegal 42 8
        rowsOr (o.nrow.toNat + 1) (fun i => do
          let x ← off i
          stRowAt (some k) flag b d xa (stRowEls o ts d free i) i x) (stFinish flag (rel == some Scope.rc) rl)
      else
        let d ← stDevFmt o.ty ts.tag
        rowsOr (o.nrow.toNat + 1) (fun i => do
          let x ← off i
          stRowAt none flag d d xa (stRowEls o ts d free i) i x) (stFinish flag (rel == some Scope.rc) rl))
    (fun tiles => do
      let ts := tiles.headD Tile.empty
      if ¬ spc then
        let d ← stDevFmt o.ty ts.tag
        stLimit o ts.tag d
        if rel.isSome ∧ (o.nel.toNat + 1) * Fmt.size d < 64 then laneIllegal 42 8
      match tiles.drop 1 with
      | t :: _ => chkIx t
      | [] => pure ())

/-- `st.t` (R239). -/
def execStT (o : StArgs) (s : State) : Host.Outcome State Fault Refusal := stLane o none false none s
/-- `st.s` (R239). -/
def execStS (o : StArgs) (s : State) : Host.Outcome State Fault Refusal := stLane o none true none s
/-- `st.sc` (R239). -/
def execStSc (o : StArgs) (ti : TileRef) (s : State) : Host.Outcome State Fault Refusal := stLane o (some ti) false none s
/-- `st.ss` (R239). -/
def execStSs (o : StArgs) (ti : TileRef) (s : State) : Host.Outcome State Fault Refusal := stLane o (some ti) true none s
/-- `st.rel` (R242, R243). -/
def execStRel (o : StArgs) (sp : Bool) (scope : Scope) (s : State) : Host.Outcome State Fault Refusal :=
  stLane o none sp (some scope) s

/-- The tag and bank format a reduction asks for (R244). -/
def redFmt (r : Red) : Fmt := match r with | .addS32 => .s32 | _ => .f32

/-- A core's task is one of a gang (R346). -/
def Core.inGang (c : Core) : Bool := c.task.any (fun t => t.gang)

/-- `st.red` (R244, R245): all its rows checked before any element is performed; the optional signal last. -/
def execStRed (o : StArgs) (red : Red) (semen : Bool) (sem : BitVec 8) (s : State) : Host.Outcome State Fault Refusal :=
  let f := redFmt red
  engineLane s ⟨o.tok, [(o.ts, 12)], []⟩
    (do
      if semen ∧ 160 ≤ sem.toNat then laneIllegal 56 8
      rowsFit o.tr o.nrow)
    (fun tiles => do
      let ts := tiles.headD Tile.empty
      let mk3 := stTrap s.cmd 3 0
      let xa ← captured 0 mk3
      let xb ← captured 1 mk3
      let t ← get
      if semen ∧ sem.toNat < 64 ∧ ¬ (t.core t.cur).inGang then raise (stTrap s.cmd 8 0 .perm 0)
      let (k, _) ← spTarget (stTrap s.cmd 1 0) xa
      let nel := o.nel.toNat + 1
      let effs ← (List.range (o.nrow.toNat + 1)).mapM (fun i => do
        let mk := stTrap s.cmd 1 i
        let off : Int := (i : Int) * xb.toInt
        let p ← spRow mk xa off (4 * nel)
        spAligned mk xa off p (4 * nel) f
        let b := ((t.core k).bank (bankOf p)).fmt
        if b ≠ f then raise (illegalBank 3 0 t.now s.cmd b)
        let els := stRowEls o ts f 0 i
        if els.any (·.2) then raise (mk .poison (xa + BitVec.ofInt 64 off))
        if ((t.see t.cur).core k).spPoisoned p (4 * nel) then raise (mk .poison (xa + BitVec.ofInt 64 off))
        return Effect.red k p red (els.map (fun e => BitVec.ofNat 32 e.1)) (i * nel))
      let effs ← orderEffs effs
      commitWrite (stTrap s.cmd 6 0 .bound 0) nel
        (effs ++ (if semen then [Effect.signal (t.semKey t.cur sem.toNat) 1] else [])) (stTrap s.cmd 7 0 .link 0))
    (fun tiles => do
      let ts := tiles.headD Tile.empty
      if ts.tag ≠ f then laneTag 12 8 ts.tag
      stLimit o ts.tag f)

/-- `pubv` (R247). -/
def execPubv (tok : Tok) (win : BitVec 4) (s : State) : Host.Outcome State Fault Refusal :=
  engineLane s ⟨tok, [], []⟩ (pure ()) (fun _ => do
    let t ← get
    let w := (t.getPart (t.corePart t.cur)).pubw.getD win.toNat ⟨0, 0, 0⟩
    if w.len = 0 then raise (stTrap s.cmd 5 0 .perm 0)
    commitWrite (stTrap s.cmd 5 0 .bound 0) 1 [.publish win.toNat] (stTrap s.cmd 7 0 .link 0))

end Sys2Proof.Machine
end

