-- ==== Sys2Proof/Machine/Cp.lean ====
section
/-! DEFINITION. The copy engine and sync words (11_copy_engine R320-R342), and `qflush` (R163). -/

namespace Sys2Proof.Machine

/-! ### Sync words (R334-R338) -/

/-- A sync word (Table 11.5). -/
structure SyncWord where
  target : Nat
  count : Nat
  gen : Nat
  flags : Nat
  fsrc : Nat
  ftid : Nat
  deriving DecidableEq, Repr

/-- The sync word at an offset of a core's scratchpad. -/
def Core.syncWord (c : Core) (off : Nat) : SyncWord :=
  let v := leNat (peekBytes c.sp off 16)
  ⟨bits v 0 32, bits v 32 32, bits v 64 16, bits v 80 8, bits v 88 8, bits v 96 32⟩
/-- A sync word written. -/
def State.setSyncWord (s : State) (k off : Nat) (w : SyncWord) : State :=
  s.updCore k (fun c => c.writeSp off
    (leBytes 16 (w.target + w.count * 2 ^ 32 + w.gen * 2 ^ 64 + w.flags * 2 ^ 80 + w.fsrc * 2 ^ 88 + w.ftid * 2 ^ 96)) [])

/-- One arrival of `n` bytes counted (R335). -/
def SyncWord.count_ (w : SyncWord) (n : Nat) : SyncWord :=
  let c := (w.count + n) % 2 ^ 32
  if c = w.target ∧ w.flags % 2 = 0 then { w with gen := (w.gen + 1) % 2 ^ 16, count := 0 }
  else if w.target < c then { w with count := c, flags := w.flags ||| 1 }
  else { w with count := c }

/-- Where the transfer's counts stand after an arrival: the bytes it has counted since GEN last changed (R335). -/
def countedAfter (counted gen : Nat) (w w' : SyncWord) (n : Nat) : Nat × Nat :=
  let c := if gen = w.gen then counted else 0
  (if w'.gen ≠ w.gen then 0 else c + n, w'.gen)

/-- One arrival of a transfer counted at its sync word. -/
def State.countArrival (s : State) (x : Xfer) (n : Nat) : State × Xfer :=
  match x.sw with
  | none => (s, x)
  | some (k, off) =>
    let w := (s.core k).syncWord off
    let w' := w.count_ n
    let (c, g) := countedAfter x.counted x.gen w w' n
    (s.setSyncWord k off w', { x with counted := c, gen := g })

/-- A transfer's counts of the current generation subtracted; a faulted one sets FAULT, FSRC and FTID where FAULT was clear
(R338). -/
def State.uncount (s : State) (k ch : Nat) (x : Xfer) (fault : Bool) : State :=
  match x.sw with
  | none => s
  | some (sk, off) =>
    let w := (s.core sk).syncWord off
    let w := if x.gen = w.gen then { w with count := (w.count + 2 ^ 32 - x.counted % 2 ^ 32) % 2 ^ 32 } else w
    let w := if fault ∧ w.flags / 2 % 2 = 0 then { w with flags := w.flags ||| 2, fsrc := ch + k % 4 * 8, ftid := x.id } else w
    s.setSyncWord sk off w

/-- CHDONE of a channel by its journal: everything before the oldest incomplete transfer is complete (R329). -/
def Core.chDone (c : Core) (ch : Nat) : Nat :=
  match c.journal ch with
  | x :: _ => (x.id + 2 ^ 32 - 1) % 2 ^ 32
  | [] => ((c.cp.next.getD ch 0).toNat + 2 ^ 32 - 1) % 2 ^ 32
/-- CHDONE brought up to date. -/
def Core.noteDone (c : Core) (ch : Nat) : Core :=
  if h : ch < 8 then { c with cp := { c.cp with done := c.cp.done.set ch (BitVec.ofNat 32 (c.chDone ch)) h } } else c
/-- A transfer out of its journal and its channel's order: complete (R329, R333). -/
def Core.dropXfer (c : Core) (ch id : Nat) : Core :=
  let c := c.setJournal ch ((c.journal ch).filter (fun (x : Xfer) => x.id != id))
  (c.setQueue (6 + ch) ((c.queue (6 + ch)).filter (fun e => e != QEntry.xfer id))).noteDone ch
/-- A transfer of a journal replaced. -/
def Core.setXfer (c : Core) (ch : Nat) (x : Xfer) : Core :=
  c.setJournal ch ((c.journal ch).map (fun (y : Xfer) => if y.id = x.id then x else y))
/-- A transfer cancelled: its delivery stops and its counts are subtracted (R333). -/
def State.cancelXfer (s : State) (k ch : Nat) (x : Xfer) : State :=
  (s.uncount k ch x false).updCore k (·.dropXfer ch x.id)

/-! ### Templates (R323, R325) -/

/-- A template entry: its eight doublewords. -/
def Core.template (c : Core) (n : Nat) : List Nat := (amGet (List.replicate 8 (0 : Word)) c.cp.tmpl n).map BitVec.toNat

/-- The format that a template itself gives a side (R326): none where a scratchpad's bank gives it. -/
def tmplFmt (space code : Nat) : Option Fmt := if space = 1 ∧ code = 0 then none else some (fmtOf code)
/-- Whether a transfer of one format to another has block scales (R326). -/
def scalesUsed (f d : Fmt) : Bool := f != .raw && d != .raw && f != d && (f.isBlock || d.isBlock)
/-- Whether a template by itself leaves the block scales unused: what the formats of its banks decide is checked with them. -/
def scalesIdle (ctl : Nat) : Bool :=
  match tmplFmt (bits ctl 12 2) (bits ctl 16 4), tmplFmt (bits ctl 14 2) (bits ctl 20 4) with
  | some f, some d => !scalesUsed f d
  | some f, none => f == .raw
  | none, some d => d == .raw
  | none, none => false
/-- The first refusal of order 1 of Table 11.3 in a template: doubleword, lowest bit, width (Tables 11.1, 11.2). -/
def tmplRefused (w : List Nat) : Option (Nat × Nat × Nat) :=
  let ctl := w.getD 2 0
  let f (dw lo n : Nat) : Nat := bits (w.getD dw 0) lo n
  let nz (dw lo n : Nat) : Option (Nat × Nat × Nat) := if f dw lo n ≠ 0 then some (dw, lo, n) else none
  let when_ (b : Bool) (x : Nat × Nat × Nat) : Option (Nat × Nat × Nat) := if b then some x else none
  ([when_ (bits ctl 12 2 == 3) (2, 12, 2), when_ (decide (2 ≤ bits ctl 14 2)) (2, 14, 2),
    when_ (decide (14 ≤ bits ctl 16 4)) (2, 16, 4), when_ (decide (14 ≤ bits ctl 20 4)) (2, 20, 4), nz 2 24 2,
    when_ (decide (5 ≤ bits ctl 26 3)) (2, 26, 3), nz 2 1 11, nz 2 38 26, nz 3 16 16, nz 5 25 39, nz 6 25 39, nz 7 52 12] ++
   [(if bits ctl 36 2 = 0 then nz 2 31 5 else none), (if bits ctl 30 1 = 0 then nz 5 0 25 else none),
    (if bits ctl 29 1 = 0 then nz 6 0 25 else none), (if scalesIdle ctl then nz 7 0 52 else none), (if scalesIdle ctl then nz 3 48 16 else none)]).findSome? id

/-- An ILLEGAL of a template: the field within doubleword `dw` of entry `tn`, which CPINFO records (R325, R332). -/
def tmplTrap (opc ch tn dw lo n value : Nat) (tag : Bool) (lane : Word) : Trap :=
  ⟨.illegal, 6, ch, illegalStat opc lo n value true tag, lane, none, some (tn * 16 + dw)⟩

/-! ### Transfers (R325-R329) -/

/-- A fault of a transfer: Table 11.6. -/
def xferTrap (ch tn cause row : Nat) : FaultClass → Word → Trap :=
  fun cls va => ⟨cls, 6, ch, BitVec.ofNat 64 (cause + 2 ^ 7 + tn * 2 ^ 8 + 0x1E * 2 ^ 16 + row % 2 ^ 32 * 2 ^ 32), va, none, none⟩

/-- A place a transfer reads or writes: device memory, a scratchpad by the address word of row 0, W-space. -/
inductive Side | dv | sp | w
  deriving DecidableEq, Repr

/-- A row of a scratchpad side: core and offset, computed exactly from the base's address word (R327). -/
def spSide (mk : FaultClass → Word → Trap) (base : Word) (off : Int) (n : Nat) : M (Nat × Nat) := do
  let (k, _) ← spTarget mk base
  let o ← spRow mk base off n
  return (k, o)

/-- `n` bytes of a side at an offset from its base. -/
def readSide (side : Side) (mk : FaultClass → Word → Trap) (base : Word) (off : Int) (n : Nat) : M PBytes := do
  let va := base + BitVec.ofInt 64 off
  match side with
  | .dv => readBy (walked .read mk) va n
  | .sp =>
    let (k, o) ← spSide mk base off n
    readSp k o n
  | .w =>
    let s ← get
    let p ← partNo
    if ¬ s.wOk p va.toNat ∨ ¬ s.wOk p (va.toNat + n - 1) then raise (mk .wspace va)
    if ¬ s.ringOk (coreDie s.cur) (bits va.toNat 36 2) then raise (mk .link va)
    return s.readW va.toNat n

/-- The writes of a row on a destination side. -/
def writeSide (side : Side) (mk : FaultClass → Word → Trap) (base : Word) (off : Int) (f : Fmt) (els : List (Nat × Bool)) (k0 : Nat) :
    M (List Effect) := do
  let va := base + BitVec.ofInt 64 off
  let n := els.length * Fmt.size f / 8
  match side with
  | .sp =>
    let (k, o) ← spSide mk base off n
    return [.bank k o f (els.map (·.1)) (poisIdx els) k0 0]
  | _ => storeBy (walked .write mk) mk va (elBytes (Fmt.size f) (els.map (·.1))) (poisBytes (Fmt.size f) els)

/-- The format of the bank that an offset from a scratchpad base lies in; none where the place does not exist. -/
def bankAt (base : Word) (off : Int) : M (Option Bank) := do
  match ← tryM (spSide (fun cls va => ⟨cls, 6, 0, 0, va, none, none⟩) base off 1) with
  | .error _ => return none
  | .ok (k, o) => do
    let s ← get
    return some ((s.core k).bank (bankOf o))

/-- What a transfer does, resolved from its template and PARAM. -/
structure Plan where
  tn : Nat
  ch : Nat
  lane : Word
  ssp : Side
  dsp : Side
  src : Word
  dst : Word
  spitch : Int
  dpitch : Int
  nrow : Nat
  nel : Nat
  sclp : Nat
  scla : Word
  f : Fmt
  d : Fmt
  idx : Option Word
  sw : Option Word
  scope : Nat

/-- Whether a transfer converts (R326). -/
def Plan.converts (p : Plan) : Bool := p.f != .raw && p.d != .raw && p.f != p.d
/-- The width at which source elements move: RAW moves bytes of the other side's elements. -/
def Plan.sfmt (p : Plan) : Fmt := if p.f = .raw then p.d else p.f
/-- The format in which destination elements are written. -/
def Plan.dfmt (p : Plan) : Fmt := if p.f = .raw ∨ p.d ≠ .raw then p.d else p.f
/-- Bytes of a source row. -/
def Plan.srcRow (p : Plan) : Nat := p.nel * Fmt.size p.sfmt / 8
/-- Bytes of a destination row. -/
def Plan.dstRow (p : Plan) : Nat := p.nel * Fmt.size p.dfmt / 8


/-- The format of one side (R326). -/
def sideFmt (ch tn : Nat) (lane : Word) (side : Side) (base : Word) (code flo : Nat) : M Fmt := do
  if side = .sp then
    match ← bankAt base 0 with
    | none => return fmtOf code
    | some b =>
      if code ≠ 0 ∧ b.fmt ≠ .raw ∧ fmtOf code ≠ b.fmt then raise (tmplTrap 0x1E ch tn 2 flo 4 b.fmt.code true lane)
      return if code = 0 then b.fmt else fmtOf code
  else return fmtOf code

/-- A scratchpad row must lie in one bank of the side's bank format (R326); the upper half of the status word holds the format refused, or of a
gathered row its row. -/
def rowBank (ch tn : Nat) (lane : Word) (base : Word) (off : Int) (n flo : Nat) (gathered : Option Nat := none) : M Unit := do
  match ← bankAt base 0, ← bankAt base off, ← bankAt base (off + n - 1) with
  | some b0, some b1, some b2 =>
    let o : Int := (bits base.toNat 0 22 : Int) + off
    if b1.fmt ≠ b0.fmt then raise (tmplTrap 0x1E ch tn 2 flo 4 (gathered.getD b1.fmt.code) true lane)
    if bankOf o.toNat ≠ bankOf (o.toNat + n - 1) then raise (tmplTrap 0x1E ch tn 2 flo 4 (gathered.getD b2.fmt.code) true lane)
  | _, _, _ => return ()

/-- Order 4 of Table 11.3 on words of the engine in a scratchpad (index list, sync word, scales): aligned, in banks whose ACT is off. What lies
outside the scratchpads is no condition of the table: it faults where it is read. -/
def actOff (mk : FaultClass → Word → Trap) (xa : Word) (n align : Nat) : M Unit := do
  match ← tryM (spTarget mk xa) with
  | .error _ => pure ()
  | .ok (k, o) => do
    let s ← get
    let last := min 0x3FFFFF (o + n - 1)
    if (nsRange (bankOf o) (bankOf last + 1 - bankOf o)).any (fun b => ((s.core k).bank b).act != 0) then raise (mk .perm xa)
    if o % align ≠ 0 then raise (mk .align xa)

/-- A word that must lie in the core's own scratchpad (R323, R337). -/
def ownWord (mk : FaultClass → Word → Trap) (xa : Word) : M Unit := do
  let s ← get
  match ← tryM (spTarget mk xa) with
  | .ok (k, _) => if k ≠ s.cur then raise (mk .perm xa)
  | .error _ => pure ()

/-- A word of the engine in a scratchpad: its core and offset, aligned, in banks whose ACT is off. -/
def plainWord (mk : FaultClass → Word → Trap) (xa : Word) (n align : Nat) : M (Nat × Nat) := do
  let (k, o) ← spSide mk xa 0 n
  if o % align ≠ 0 then raise (mk .align xa)
  let s ← get
  if (nsRange (bankOf o) (bankOf (o + n - 1) + 1 - bankOf o)).any (fun b => ((s.core k).bank b).act != 0) then raise (mk .perm xa)
  awaitStream k o n
  return (k, o)

/-- What transfer `x` of channel `ch` does, its formats resolved as `f` and `d` (R323, R327). -/
def Xfer.plan (c : Core) (ch : Nat) (x : Xfer) (f d : Fmt) : Plan :=
  let w := c.template x.tn
  let ctl := w.getD 2 0
  let param : Int := sext 32 (bits x.data.toNat 32 32) * (2 ^ bits ctl 31 5 : Nat)
  let src : Word := BitVec.ofNat 64 (w.getD 0 0) + (if bits ctl 36 1 = 1 then BitVec.ofInt 64 param else 0)
  let dst : Word := BitVec.ofNat 64 (w.getD 1 0) + (if bits ctl 37 1 = 1 then BitVec.ofInt 64 param else 0)
  let ssp : Side := if bits ctl 12 2 = 0 then .dv else if bits ctl 12 2 = 1 then .sp else .w
  let dsp : Side := if bits ctl 14 2 = 0 then .dv else .sp
  ⟨x.tn, ch, x.lane, ssp, dsp, src, dst, sext 32 (bits (w.getD 4 0) 0 32), sext 32 (bits (w.getD 4 0) 32 32),
    bits (w.getD 3 0) 0 16 + 1, bits (w.getD 3 0) 32 16 + 1, bits (w.getD 3 0) 48 16, BitVec.ofNat 64 (bits (w.getD 7 0) 0 52), f, d,
    if bits ctl 30 1 = 1 then some (BitVec.ofNat 64 (bits (w.getD 5 0) 0 25)) else none,
    if bits ctl 29 1 = 1 then some (BitVec.ofNat 64 (bits (w.getD 6 0) 0 25)) else none, bits ctl 26 3⟩

/-- The bytes that a transfer writes into banks whose ACT is trap (Table 11.3 order 3). -/
def Plan.trapped (p : Plan) : M Nat :=
  if p.dsp = .sp then
    (List.range p.nrow).foldlM (fun (n : Nat) i => do
      match ← bankAt p.dst ((i : Int) * p.dpitch) with
      | some b => return if b.act = 3 then n + p.dstRow else n
      | none => return n) 0
  else return 0

/-- The checks of Table 11.3 on transfer `x` of channel `ch`, and what it will do. -/
def planXfer (ch : Nat) (x : Xfer) : M Plan := do
  let c ← core
  let w := c.template x.tn
  let ctl := w.getD 2 0
  let ill (dw lo n : Nat) (tag : Option Fmt) : Trap :=
    let v := match tag with | some f => f.code | none => if dw = 8 then bits x.data.toNat lo n else bits (w.getD dw 0) lo n
    tmplTrap 0x1E ch x.tn dw lo n v tag.isSome x.lane
  if bits x.data.toNat 6 26 ≠ 0 then raise (ill 8 6 26 none)
  if ctl % 2 = 0 then raise (ill 2 0 1 none)
  match tmplRefused w with
  | some (dw, lo, n) => raise (ill dw lo n none)
  | none => pure ()
  let q := x.plan c ch .raw .raw
  let f ← sideFmt ch x.tn x.lane q.ssp q.src (bits ctl 16 4) 16
  let d ← sideFmt ch x.tn x.lane q.dsp q.dst (bits ctl 20 4) 20
  let p := x.plan c ch f d
  let blk := scalesUsed f d
  if blk ∧ f.isBlock ∧ d.isBlock then raise (ill 2 20 4 (some d))
  if blk ∧ d.isBlock ∧ p.nel % 64 ≠ 0 then raise (ill 3 32 16 none)
  if ¬ blk ∧ bits (w.getD 7 0) 0 52 ≠ 0 then raise (ill 7 0 52 none)
  if ¬ blk ∧ p.sclp ≠ 0 then raise (ill 3 48 16 none)
  if p.nel * Fmt.size p.sfmt % 8 ≠ 0 then raise (ill 2 16 4 (some p.sfmt))
  if p.nel * Fmt.size p.dfmt % 8 ≠ 0 then raise (ill 2 20 4 (some p.dfmt))
  if p.ssp = .sp ∧ p.idx.isNone then
    for i in List.range p.nrow do rowBank ch x.tn x.lane p.src ((i : Int) * p.spitch) p.srcRow 16
  if p.dsp = .sp then
    for i in List.range p.nrow do rowBank ch x.tn x.lane p.dst ((i : Int) * p.dpitch) p.dstRow 20
  if 32768 < (← p.trapped) then raise (ill 3 0 16 none)
  match p.idx with
  | some a => do
    ownWord (xferTrap ch x.tn 3 0) a
    actOff (xferTrap ch x.tn 3 0) a (4 * p.nrow) 4
  | none => pure ()
  match p.sw with
  | some a => actOff (xferTrap ch x.tn 4 0) a 16 16
  | none => pure ()
  if blk ∧ (if f.isBlock then p.ssp else p.dsp) = .sp then
    actOff (xferTrap ch x.tn 5 0) p.scla (4 * ((p.nrow - 1) * p.sclp + (p.nel + 63) / 64)) 1
  if p.ssp = .w ∧ p.idx.isNone then
    let s ← get
    let pn ← partNo
    for i in List.range p.nrow do
      let a := p.src + BitVec.ofInt 64 ((i : Int) * p.spitch)
      if ¬ s.wOk pn a.toNat ∨ ¬ s.wOk pn (a.toNat + p.srcRow - 1) then raise (xferTrap ch x.tn 1 i .wspace a)
  return p

/-- A row converted (R326): destination elements, and for a block destination its scales. -/
def Plan.convert (p : Plan) (els : List (Nat × Bool)) (scales : List (Nat × Bool)) : List (Nat × Bool) × List (Nat × Bool) :=
  if !p.converts then (els, [])
  else if p.d.isBlock then
    let bs := (List.range (p.nel / 64)).map (fun b =>
      let g := (els.drop (64 * b)).take 64
      let bad := g.any (·.2)
      let q := quantBlock p.f p.d (g.map (·.1))
      ((q.2.map (fun v => (v, bad))), (q.1, bad)))
    (bs.flatMap (·.1), bs.map (·.2))
  else if p.f.isBlock then
    ((List.range els.length).map (fun e =>
      let v := els.getD e (0, false)
      let sc := scales.getD (e / 64) (0, false)
      let x := blockElem p.f (sc.1 % 2 ^ 24) (intVal p.f v.1)
      let x := if fInf 23 x then fMax 23 (fNeg 23 x) else x
      (implicitConv .f32 p.d x, v.2 || sc.2)), [])
  else (els.map (fun v => (implicitConv p.f p.d v.1, v.2)), [])

/-- The writes of row `i` of a transfer, whose source row is `r` (R327). -/
def Plan.rowAt (p : Plan) (i r : Nat) : M (List Effect) := do
  let mk1 := xferTrap p.ch p.tn 1 i
  let mk5 := xferTrap p.ch p.tn 5 i
  let off : Int := (r : Int) * p.spitch
  if p.ssp = .sp ∧ p.idx.isSome then rowBank p.ch p.tn p.lane p.src off p.srcRow 16 (some i)
  let b ← readSide p.ssp mk1 p.src off p.srcRow
  let els := b.els (Fmt.size p.sfmt) p.nel
  let at_ (n : Nat) : Int := 4 * ((i * p.sclp + n : Nat) : Int)
  let scales ← if p.converts ∧ p.f.isBlock then (List.range ((p.nel + 63) / 64)).mapM (fun n => do
      let w ← readSide p.ssp mk5 p.scla (at_ n) 4
      return (leNat w.bytes, w.poisoned)) else pure []
  let (out, sc) := p.convert els scales
  let main ← writeSide p.dsp (xferTrap p.ch p.tn 2 i) p.dst ((i : Int) * p.dpitch) p.dfmt out (i * p.nel)
  let extra ← (List.range sc.length).mapM (fun n => writeSide p.dsp mk5 p.scla (at_ n) .z32 [sc.getD n (0, false)] (i * p.nel))
  return main ++ extra.flatten

/-- The arrivals of a destination row: at most 256 bytes each (R335). -/
def arrivals (n : Nat) : List Nat := (piecesOf 256 0 n).map (·.2)

/-- A transfer's fault taken: its counts subtracted with FAULT set where its checks had passed, its channel stopped (R338,
R340). -/
def xferFault (s : State) (k ch : Nat) (x : Xfer) (t : Trap) : State :=
  let s := (s.uncount k ch x true).updCore k (·.setXfer ch { x with place := .faulted, counted := 0, arr := [] })
  takeFault s k t x.id x.lane

/-- The index list of a transfer, read once at its start (R327): the source row of each row. A poisoned element is consumed; one that lies beyond
the scratchpad raises PAGE with its row. -/
def Plan.rows (p : Plan) : M (List Nat) := do
  match p.idx with
  | none => return List.range p.nrow
  | some a =>
    (List.range p.nrow).mapM (fun i => do
      let b ← readSide .sp (xferTrap p.ch p.tn 3 i) a (4 * (i : Int)) 4
      if b.poisoned then raise (xferTrap p.ch p.tn 3 i .poison (a + BitVec.ofNat 64 (4 * i)))
      return leNat b.bytes)

/-- A transfer starts (R325-R327): its checks, of which a failing one leaves its sync word as it was; then its sync word's FAULT, which its
replay clears (R338), and its index list. Its rows are still to move. -/
def startXfer (ch : Nat) (x : Xfer) : M Unit := do
  match ← tryM (planXfer ch x) with
  | .error t => modify (fun s => takeFault (s.updCore s.cur (·.setXfer ch { x with place := .faulted })) s.cur t x.id x.lane)
  | .ok p => do
    let x := { x with counted := 0, scope := p.scope, place := XferPlace.moving, arr := [], f := p.f, d := p.d, todo := true }
    match ← tryM (match p.sw with | some a => do let q ← spTarget (xferTrap ch x.tn 4 0) a; awaitStream q.1 q.2 16; pure (some q) | none => pure none) with
    | .error t => modify (fun s => xferFault s s.cur ch x t)
    | .ok sw => do
      let s ← get
      match sw with
      | some (k, o) =>
        let w := (s.core k).syncWord o
        if w.flags / 2 % 2 = 1 ∧ w.fsrc = ch + s.cur % 4 * 8 ∧ w.ftid = x.id then
          modify (fun s => s.setSyncWord k o { w with flags := w.flags &&& 0xFD })
      | none => pure ()
      let gen := match sw with | some (k, o) => (s.core k).syncWord o |>.gen | none => 0
      let x := { x with sw := sw, gen := gen }
      match ← tryM p.rows with
      | .error t => modify (fun s => xferFault s s.cur ch x t)
      | .ok ix => modCore (·.setXfer ch { x with ix := ix })

/-- Rows of a transfer moved one after the other, each read and then written; the effects performed, and where a row faults its fault with the
rows left (R327). -/
def Plan.move (p : Plan) : List (Nat × Nat) → List Effect → M (List Effect × Option (Trap × List (Nat × Nat)))
  | [], done => return (done, none)
  | r :: rs, done => do
    match ← tryM (p.rowAt r.2 r.1) with
    | .error t => return (done, some (t, rs))
    | .ok effs => do
      accessEffs effs
      modify (fun s => s.performAll s.cur (6 + p.ch) effs)
      p.move rs (done ++ effs)

/-- The rows of a transfer in the order they move: any, where it matters (R327). -/
def Plan.order (p : Plan) (rows : List (Nat × Nat)) : M (List (Nat × Nat)) := do
  if p.ssp = p.dsp ∨ p.dpitch.natAbs < p.dstRow then do
    let v ← pick
    return shuffle rows.length v rows
  else return rows

/-- The arrivals of `n` rows of a transfer left to count (R335). -/
def Plan.arrivals (p : Plan) (n : Nat) : List Nat := if p.sw.isSome then (List.replicate n (Machine.arrivals p.dstRow)).flatten else []

/-- The rows of a started transfer moved (R327, R328, R340): under a trap action every element is checked before any is written; of a byte that
several rows write the last is any of them; with a fault a part of the rows' pieces is written, and of the arrivals counted, that no rule chooses. -/
def moveXfer (ch : Nat) (x : Xfer) : M Unit := do
  let c ← core
  let p := x.plan c ch x.f x.d
  let rows := x.ix.zipIdx
  let fault (t : Trap) : M Unit := modify (fun s => xferFault s s.cur ch x t)
  let done : M Unit := modCore (·.setXfer ch { x with todo := false, arr := p.arrivals p.nrow })
  if 0 < (← p.trapped) then
    match ← tryM (rows.mapM (fun r => p.rowAt r.2 r.1)) with
    | .error t => fault t
    | .ok effs => do
      let s ← get
      match effsViol (s.see s.cur) s.cur (6 + ch) effs.flatten with
      | some v => fault (boundTrap (6 + ch) (xferTrap ch x.tn 6 0 .bound 0) p.nel v)
      | none => do
        let effs ← orderEffs effs.flatten
        accessEffs effs
        modify (fun s => s.performAll s.cur (6 + ch) effs)
        done
  else do
    let rows ← p.order rows
    match ← p.move rows [] with
    | (effs, none) => do
      if effsMeet effs then
        let again ← orderEffs effs
        modify (fun s => s.performAll s.cur (6 + ch) again)
      done
    | (_, some (t, left)) => do
      let v ← pick
      let good ← left.filterMapM (fun r => do
        match ← tryM (p.rowAt r.2 r.1) with
        | .ok effs => return some effs
        | .error _ => return none)
      let effs := somePieces v (good.flatten.flatMap Effect.pieces)
      accessEffs effs
      modify (fun s => s.performAll s.cur (6 + ch) effs)
      let n ← pick
      let arr := (p.arrivals (rows.length - 1 - left.length)).zipIdx.filter (fun e => n.testBit e.2)
      modify (fun s =>
        let (s, x) := arr.foldl (fun (a : State × Xfer) e => a.1.countArrival a.2 e.1) (s, x)
        xferFault s s.cur ch x t)

/-- The transfer at the head of a channel's order, where it may start (R320, R182). -/
def Core.startable (c : Core) (ch : Nat) : Option Xfer :=
  if c.mode == CoreMode.running && !c.dbg.halted && (!c.dbg.stepping || c.dbg.stepeng == 6) then
    match (c.queue (6 + ch)).head? with
    | some (.xfer id) => (c.journal ch).find? (fun (x : Xfer) => x.id == id)
    | _ => none
  else none
/-- Started transfers of a channel whose rows are still to move: at a halt they run on (R339). -/
def Core.movable (c : Core) (ch : Nat) : List Xfer :=
  if c.mode == CoreMode.running then (c.journal ch).filter (fun (x : Xfer) => x.place == XferPlace.moving && x.todo) else []

/-- COPY_TRANSFER_START (R320, R325): the transfer at the head of its channel's order starts, and its rows move at once or later; or the rows of
one that has started move: transfers of a channel are in flight together, and which goes on, no rule chooses (R344, log 51). -/
def execCopyTransferStart (ch : BitVec 3) (s : State) : Host.Outcome State Fault Refusal :=
  let c := s.core s.cur
  let n := ch.toNat
  let run (m : M Unit) (s1 : State) : Host.Outcome State Fault Refusal :=
    match m.run s1 with
    | .ok (_, t) => .next { t with stalled := false }
    | .error _ => .next { s with stalled := true }
  let begin_ (x : Xfer) (s1 : State) : Host.Outcome State Fault Refusal :=
    run (do
      startXfer n x
      let now ← pickBelow 2
      let c ← core
      if now = 0 then
        match (c.movable n).find? (fun (y : Xfer) => y.id == x.id) with
        | some y => moveXfer n y
        | none => pure ()
      modCore (·.endStep (6 + n))) (s1.updCore s.cur (fun c => c.setQueue (6 + n) ((c.queue (6 + n)).drop 1)))
  match c.startable n, c.movable n with
  | none, [] => .fault .notEnabled
  | some x, [] => begin_ x s
  | head, y :: ys =>
    let s1 := { s with picks := s.picks + 1 }
    let v := Config.oracle s.picks
    match head, v % 2 with
    | some x, 0 => begin_ x s1
    | _, _ => run (moveXfer n ((y :: ys).getD (v / 2 % (ys.length + 1)) y)) s1

/-- The arrivals a core's transfers still have to count: channel, transfer, bytes, its place in the transfer's list. -/
def Core.arrivalList (c : Core) : List (Nat × Xfer × Nat × Nat) :=
  (List.range 8).flatMap (fun ch => (c.journal ch).flatMap (fun (x : Xfer) =>
    if x.place = .moving then x.arr.zipIdx.map (fun a => (ch, x, a.1, a.2)) else []))

/-- SYNC_WORD_ARRIVAL (R335): the k-th arrival under way is counted, once no matrix engine streams from its word's bank group (R46). -/
def execSyncWordArrival (k : BitVec 8) (s : State) : Host.Outcome State Fault Refusal :=
  match (s.core s.cur).arrivalList[k.toNat]? with
  | none => .fault .notEnabled
  | some (ch, x, n, j) =>
    if x.sw.any (fun w => (s.core w.1).streams w.2 16) then .next { s with stalled := true }
    else
    let (t, x) := s.countArrival x n
    .next { t.updCore s.cur (·.setXfer ch { x with arr := x.arr.eraseIdx j }) with stalled := false }

/-- COPY_TRANSFER_COMPLETE (R329): a transfer whose bytes are all counted; which of them, no rule chooses. -/
def execCopyTransferComplete (ch : BitVec 3) (s : State) : Host.Outcome State Fault Refusal :=
  let ready := ((s.core s.cur).journal ch.toNat).filter (fun (x : Xfer) => x.place == XferPlace.moving && !x.todo && x.arr.isEmpty)
  match ready with
  | [] => .fault .notEnabled
  | [x] => .next { s.updCore s.cur (·.dropXfer ch.toNat x.id) with stalled := false }
  | x :: _ =>
    let y := ready.getD (Config.oracle s.picks % ready.length) x
    .next { s.updCore s.cur (·.dropXfer ch.toNat y.id) with stalled := false, picks := s.picks + 1 }

/-! ### CP lanes (R330-R337) -/

/-- A fault of a CP lane: Table 11.6. -/
def cpTrap (c : Cmd) (cause : Nat) : FaultClass → Word → Trap :=
  fun cls va => ⟨cls, 6, chanOf c.instr, BitVec.ofNat 64 (cause + opOf c.raw * 2 ^ 16), va, none, none⟩

/-- Whether a copy-aperture store before index `pos` in fetch order may still take its place (R320); one that its loop
holds does not. -/
def Core.cstBefore (c : Core) (pos : Nat) : Bool :=
  (cmdsOf (c.queue 0)).any (fun m => (match m.instr with | .cst .. => true | _ => false) && (c.holdsFor m).isNone && decide (m.idx < pos))

/-- A CP lane (R320): it starts at the head of its channel's order, behind every copy-aperture store before it. -/
def cpLane (s : State) (pre body : M Unit) : Host.Outcome State Fault Refusal :=
  if (s.core s.cur).cstBefore s.cmd.pos then settle s (.error (.wait ⟨0, 0, 0, 0, 0⟩))
  else engineLane s ⟨Tok.none, [], []⟩ pre (fun _ => body)

/-- `cp.wait` (R331). -/
def execCpWait (ch : BitVec 3) (_xa : XReg) (s : State) : Host.Outcome State Fault Refusal :=
  cpLane s (pure ()) (do
    let x ← captured 0 (cpTrap s.cmd 8)
    let id := x.toNat % 2 ^ 32
    let c ← core
    if ¬ atOrAfter 32 (c.cp.done.getD ch.toNat 0).toNat id then waitFor 7 (BitVec.ofNat 64 id))

/-- `cp.tw` (R332): it waits for the transfers that have started with an entry it writes; one that has not started reads its entry only then
(R325). -/
def execCpTw (sp : Bool) (ch : BitVec 3) (tn : BitVec 6) (_xa : XReg) (cnt : BitVec 6) (s : State) :
    Host.Outcome State Fault Refusal :=
  cpLane s (if 63 < tn.toNat + cnt.toNat then laneIllegal 32 6 else pure ()) (do
    let xa ← captured 0 (cpTrap s.cmd 8)
    if xa.toNat % 64 ≠ 0 then raise (cpTrap s.cmd 9 .align xa)
    let n := cnt.toNat + 1
    let c ← core
    let uses (x : Xfer) : Bool := decide (tn.toNat ≤ x.tn) && decide (x.tn < tn.toNat + n) && x.place != XferPlace.waiting
    if (List.range 8).any (fun h => (c.journal h).any uses) then waitFor 0
    let b ← readSide (if sp then .sp else .dv) (cpTrap s.cmd 9) xa 0 (64 * n)
    match (List.range b.length).find? (fun i => (b.getD i (0, false)).2) with
    | some i => raise (cpTrap s.cmd 9 .poison (xa + BitVec.ofNat 64 i))
    | none => pure ()
    let entry (j : Nat) : List Word := (List.range 8).map (fun w => BitVec.ofNat 64 (leNat ((b.bytes.drop (64 * j + 8 * w)).take 8)))
    for j in List.range n do
      match tmplRefused ((entry j).map BitVec.toNat) with
      | some (dw, lo, w) =>
        raise (tmplTrap 0xB5 ch.toNat (tn.toNat + j) dw lo w (bits ((entry j).getD dw 0).toNat lo w) false s.cmd.lane)
      | none => pure ()
    modCore (fun c => { c with cp := { c.cp with
      tmpl := (List.range n).foldl (fun m j => amPut (List.replicate 8 0) m (tn.toNat + j) (entry j)) c.cp.tmpl } }))

/-- `cp.cancel` (R333): every incomplete transfer of the channel. -/
def execCpCancel (ch : BitVec 3) (s : State) : Host.Outcome State Fault Refusal :=
  cpLane s (pure ()) (do
    let c ← core
    modify (fun s => (c.journal ch.toNat).foldl (fun s x => s.cancelXfer s.cur ch.toNat x) s))

/-- `sw.init` (R336). -/
def execSwInit (_ch : BitVec 3) (_xa _xb : XReg) (s : State) : Host.Outcome State Fault Refusal :=
  cpLane s (pure ()) (do
    let xa ← captured 0 (cpTrap s.cmd 8)
    let xb ← captured 1 (cpTrap s.cmd 8)
    let (k, o) ← plainWord (cpTrap s.cmd 4) xa 16 16
    modify (fun s => s.setSyncWord k o ⟨xb.toNat % 2 ^ 32, 0, ((s.core k).syncWord o).gen, 0, 0, 0⟩))

/-- A sync word looked at by a waiter, which consumes its poison, and whether the generation has been reached (R337). -/
def lookSync (c : Cmd) (xa : Word) (g : Nat) : M (SyncWord × Bool) := do
  let (k, o) ← plainWord (cpTrap c 4) xa 16 16
  let s ← get
  if (s.core k).spPoisoned o 16 then raise (cpTrap c 4 .poison xa)
  let w := (s.core k).syncWord o
  return (w, atOrAfter 16 w.gen g)

/-- `sw.wait` (R337). -/
def execSwWait (_ch : BitVec 3) (_xa _xg : XReg) (s : State) : Host.Outcome State Fault Refusal :=
  cpLane s (pure ()) (do
    let xa ← captured 0 (cpTrap s.cmd 8)
    let xg ← captured 1 (cpTrap s.cmd 8)
    let g := xg.toNat % 2 ^ 16
    let (w, met) ← lookSync s.cmd xa g
    if w.flags / 2 % 2 = 1 then
      let t := cpTrap s.cmd 4 .syncfault xa
      raise { t with stat := t.stat ||| BitVec.ofNat 64 (w.fsrc % 8 * 2 ^ 4 + w.fsrc / 8 % 4 * 2 ^ 14 + w.ftid * 2 ^ 32) }
    if w.flags % 2 = 1 then raise (cpTrap s.cmd 0 .syncover xa)
    if ¬ met then waitFor 6 (xa &&& 0x1FFFFFF) 0 g)

/-- `sw.wait.st` (R337). -/
def execSwWaitSt (_ch : BitVec 3) (_xa _xg _xr : XReg) (s : State) : Host.Outcome State Fault Refusal :=
  cpLane s (pure ()) (do
    let xa ← captured 0 (cpTrap s.cmd 8)
    let xg ← captured 1 (cpTrap s.cmd 8)
    let xr ← captured 2 (cpTrap s.cmd 8)
    let g := xg.toNat % 2 ^ 16
    ownWord (cpTrap s.cmd 4) xr
    let (k, o) ← plainWord (cpTrap s.cmd 4) xr 8 8
    let (w, met) ← lookSync s.cmd xa g
    if ¬ met ∧ w.flags % 4 = 0 then waitFor 6 (xa &&& 0x1FFFFFF) 0 g
    let v := w.gen + w.flags % 2 * 2 ^ 16 + w.flags / 2 % 2 * 2 ^ 17 + met.toNat * 2 ^ 18 + w.count * 2 ^ 32
    modify (fun s => s.updCore k (fun c => c.writeSp o (leBytes 8 v) [])))

/-! ### `qflush` (R163) -/

/-- The queues a `qflush` names. -/
def flushSlots (cp : BitVec 8) (q : BitVec 5) : List Slot :=
  ((List.range 5).filter (fun b => q.getLsbD b)).map (· + 1) ++ ((List.range 8).filter (fun b => cp.getLsbD b)).map (· + 6)

/-- Whether a flush leaves a command of a named queue: routed after it, or in LD, ST, VX or XQ begun already. -/
def flushKeeps (k : Slot) (pos : Nat) (m : Cmd) : Bool :=
  decide (pos < m.pos) || (if k = 1 ∨ k = 2 ∨ k = 3 then m.started else k == 5 && m.accepted)

/-- A core's queues flushed as `qflush` at index `pos` of the control core does; units forget the waits removed. -/
def State.flush (s : State) (k : Nat) (slots : List Slot) (pos : Nat) : State :=
  let c := s.core k
  let gone (q : Slot) (m : Cmd) : Bool := slots.contains q && !flushKeeps q pos m
  let xqGone : List Nat := ((cmdsOf (c.queue 5)).filter (gone 5)).map (·.idx)
  let c := c.mapQueues (fun q es => es.filter (fun e => match e with
    | .cmd m => !gone q m
    | .gate m => !((slots.contains q && decide (m.pos ≤ pos)) || (xqGone.contains m.idx && !m.accepted))
    | .mark id _ _ _ => !(slots.contains q && decide (id < pos))
    | _ => true))
  let nestGone := c.mx.nest.any (fun (n : Nest) => slots.contains 4 && decide (n.cmd.pos ≤ pos))
  let c : Core := { c with mx := { c.mx with nest := if nestGone then none else c.mx.nest } }
  let c := slots.foldl (fun c q => c.clearWait q) c
  let s := s.setCore k c
  let s := ((List.range 8).filter (fun ch => slots.contains (6 + ch))).foldl (fun s ch =>
    ((s.core k).journal ch).foldl (fun s (x : Xfer) => if x.ccidx < pos then s.cancelXfer k ch x else s) s) s
  let here (u : UnitWait) : Bool := u.core == k && !(cmdsOf ((s.core k).queue 5)).any (fun m => m.idx == u.idx) &&
    !((List.range 5).any (fun q => ((s.core k).queue q).any (fun e => match e with | .gate m => m.idx == u.idx | _ => false)))
  { s with sync := { s.sync with
      waits := s.sync.waits.filter (fun w => !here w.2)
      sems := s.sync.sems.map (fun e => (e.1, { e.2 with waits := e.2.waits.filter (fun u => !here u) })) } }

/-- `qflush` (R160, R163). -/
def execQflush (cp : BitVec 8) (q : BitVec 5) (s : State) : Host.Outcome State Fault Refusal :=
  ccLane s (do
    if s.cmd.iter.any (fun g => !g.tail) then ccIllegal 24 8
    modify (fun t => t.flush t.cur (flushSlots cp q) s.cmd.idx))

end Sys2Proof.Machine
end

