-- ==== Sys2Proof/Machine/Sync.lean ====
section
/-! DEFINITION. The synchronisation unit (12_sync_unit R345-R366): barriers, semaphores, gates, wait snapshots. -/

namespace Sys2Proof.Machine

/-- The code of a gate engine (R349). -/
def GateEng.code : GateEng → Nat
  | .xq => 0 | .ld => 1 | .st => 2 | .vx => 3 | .mx => 4
/-- The gate engine of an SY lane. -/
def engOf : Instr → GateEng
  | .barArr e _ | .barWait e _ _ | .barArw e _ => e
  | .semSigImm e _ _ | .semSigReg e _ _ | .semWaitImm e _ _ | .semWaitReg e _ _ => e
  | _ => .xq

/-- A fault of an SY command: Table 12.9. -/
def syTrap (c : Cmd) (cause arg : Nat) : FaultClass → Word → Trap := fun cls va =>
  ⟨cls, 9, 0, BitVec.ofNat 64 (cause + (engOf c.instr).code * 2 ^ 8 + opOf c.raw * 2 ^ 16 + arg % 2 ^ 32 * 2 ^ 32), va, none, none⟩
/-- The same with no address. -/
def syRaise {α : Type} (cause arg : Nat) : M α := do let s ← get; raise (syTrap s.cmd cause arg .perm 0)

/-! ### The port and the gates (R349, R361, R362) -/

/-- The command in hand replaced where it waits: in the XQ queue, or as a gate. -/
def putCmd (m : Cmd) : M Unit := modify (fun s =>
  { (s.updCore s.cur (fun c => c.setQueue s.slot ((c.queue s.slot).map (fun e => match e with
      | .cmd n => if n.idx = m.idx ∧ s.slot = 5 then .cmd m else e
      | .gate n => if n.idx = m.idx then .gate m else e
      | _ => e)))) with cmd := m })

/-- The command in hand leaves the port or its gate. -/
def syDone : M Unit := do
  let s ← get
  if s.slot = 5 then modCore (fun c => c.retire 5 s.cmd)
  else modCore (fun c => ((c.setQueue s.slot ((c.queue s.slot).filter (fun e => match e with
    | .gate n => n.idx != s.cmd.idx
    | _ => true))).clearWait s.slot).endStep s.slot)

/-- An SY command: at the XQ port a gated one passes at once and acts at its gate, unless it comes from a loop's hold; in a loop
body it is refused, or after its check held (R349, R361). One that R361 does not hold, met after a body whose last iteration
has not retired, waits for that retirement (R156; DEDUCED, log 29). -/
def syLane (s : State) (inLoop : Bool) (pre check act : M Unit) : Host.Outcome State Fault Refusal :=
  if s.slot = 5 ∧ !inLoop ∧ s.cmd.inBody then settle s (.error (.trap (illegalAt 9 0 s.cmd 24 8)))
  else if isSpec s.cmd then settle s (.error (.wait specWait))
  else runM s (do
    pre
    if s.slot = 5 ∧ (gateOf s.cmd.instr).isSome ∧ ¬ s.cmd.accepted then syDone
    else
      check
      if !inLoop ∧ ¬ s.cmd.accepted then
        let c ← core
        if (c.holdsFor s.cmd).isSome then waitFor 9 1
      let held ← if s.cmd.accepted then pure false else xqHeld
      if held then pure () else act
      syDone)

/-! ### Barrier handles and words (R348, R353, Table 12.4) -/

/-- What a handle names: a hardware slot, a word in device memory, a word in a scratchpad. -/
inductive BarRef
  | slot (key scope : Nat)
  | mem (va : Word)
  | sp (xa : Word)
  deriving DecidableEq, Repr

/-- A barrier's state, whatever holds it. -/
structure BarState where
  expect : Nat
  arrived : Nat
  phase : Nat
  init : Bool
  scope : Nat
  tcomp : Nat
  deriving DecidableEq, Repr

/-- A free hardware slot. -/
def BarSlot.empty : BarSlot := ⟨false, 0, false, 0, 0, 0, 0, 0⟩
/-- A hardware slot by its number. -/
def State.barSlot (s : State) (key : Nat) : BarSlot := amGet BarSlot.empty s.sync.bars key
/-- A hardware slot replaced. -/
def State.setBarSlot (s : State) (key : Nat) (b : BarSlot) : State :=
  { s with sync := { s.sync with bars := amPut BarSlot.empty s.sync.bars key b } }
/-- The number of a hardware slot as a core names it: cluster, die or package. -/
def slotKey (k scope n : Nat) : Nat :=
  if scope = 1 then 0x10000 + k / 4 * 32 + n else if scope = 2 then 0x20000 + coreDie k * 64 + n else 0x30000 + n
/-- Slots of a scope (Table 12.1). -/
def slotCount (scope : Nat) : Nat := if scope = 1 then 32 else if scope = 2 then 64 else 16

/-- A handle read, with the checks of R346-R348. -/
def barRef (h : Word) : M BarRef := do
  let s ← get
  let n := h.toNat
  let arg := n % 2 ^ 32
  let kind := bits n 62 2
  if kind = 0 then
    let scope := bits n 48 2
    let slot := bits n 0 6
    if scope = 0 ∨ bits n 50 12 ≠ 0 ∨ bits n 18 14 ≠ 0 ∨ bits n 6 10 ≠ 0 ∨ slotCount scope ≤ slot ∨ (scope ≠ 2 ∧ bits n 16 2 ≠ 0) then
      syRaise 1 arg
    if scope = 1 ∧ ¬ (s.core s.cur).inGang then syRaise 6 arg
    if scope = 2 ∧ bits n 16 2 ≠ coreDie s.cur then syRaise 6 arg
    let key := slotKey s.cur scope slot
    let b := s.barSlot key
    if scope = 3 ∧ b.alloc ∧ b.part ≠ s.corePart s.cur then syRaise 6 arg
    if ¬ b.alloc ∨ b.tag.toNat ≠ bits n 32 16 then syRaise 1 arg
    return .slot key scope
  else if kind = 3 ∨ bits n 0 6 ≠ 0 then syRaise 1 arg
  else if kind = 1 then
    if bits n 52 10 ≠ 0 then syRaise 1 arg
    return .mem (BitVec.ofNat 64 (bits n 0 52))
  else
    if bits n 25 37 ≠ 0 then syRaise 1 arg
    return .sp (BitVec.ofNat 64 (bits n 0 25))

/-- The place of a barrier word in device memory, with the faults of R355. -/
def barWordAt (va : Word) : M Place := do
  let s ← get
  let mk := syTrap s.cmd 3 0
  let p ← translateData .write mk va
  if p.reg = .host ∧ ¬ p.ent.sysat then raise (mk .atomscope va)
  if p.ent.pub ∧ ((s.getPart (s.corePart s.cur)).pubWindow va.toNat).isNone then raise (mk .perm va)
  return p
/-- The place of a barrier word in a scratchpad. -/
def barSpAt (xa : Word) : M (Nat × Nat) := do
  let s ← get
  plainWord (syTrap s.cmd 3 0) xa 64 64

/-- The state that a barrier word holds (Table 12.4). -/
def barOfBytes (b : List Byte) : BarState :=
  let v := leNat b
  ⟨bits v 0 32, bits v 32 32, bits v 64 16, bits v 88 1 == 1, bits v 80 8, bits v 128 64⟩
/-- The first 24 bytes of a barrier word. -/
def barBytes (b : BarState) : List Byte :=
  leBytes 24 (b.expect % 2 ^ 32 + b.arrived % 2 ^ 32 * 2 ^ 32 + b.phase * 2 ^ 64 + b.scope * 2 ^ 80 + b.init.toNat * 2 ^ 88 + b.tcomp * 2 ^ 128)

/-- A barrier's number among the waits. -/
def barKey (r : BarRef) : M Nat := do
  match r with
  | .slot key _ => return key
  | .mem va => do let p ← barWordAt va; return 2 ^ 60 + p.pa
  | .sp xa => do let (k, o) ← barSpAt xa; return 2 ^ 61 + k * 2 ^ 22 + o

/-- A barrier word as a barrier: the state it holds where only SY operations have changed it since its `bar.init.m`; after a write by
another agent an undefined one, free (R355, log 17). -/
def wordBar (key : Nat) (bs : List Byte) : M BarState := do
  let s ← get
  match amFind key s.sync.words with
  | none => return barOfBytes bs
  | some v =>
    if leNat bs = v then return barOfBytes bs
    else do
      let own ← pick
      return barOfBytes (leBytes 24 own)
/-- What SY last wrote to a barrier word: noted at `bar.init.m`, and by an operation that finds the word as SY left it. -/
def noteWord (key : Nat) (old new : List Byte) (init : Bool) : M Unit := modify (fun s =>
  match amFind key s.sync.words with
  | some v => if init ∨ leNat old = v then { s with sync := { s.sync with words := amSet s.sync.words key (leNat new) } } else s
  | none => if init then { s with sync := { s.sync with words := amSet s.sync.words key (leNat new) } } else s)

/-- A barrier's state read at its home. -/
def readBar (r : BarRef) : M BarState := do
  let s ← get
  match r with
  | .slot key scope =>
    let b := s.barSlot key
    return ⟨b.expect, b.arrived, b.phase.toNat, b.init, scope, b.tcomp.toNat⟩
  | .mem va => do
    let p ← barWordAt va
    let s ← get
    if s.paPoisoned p.pa 24 then raise (syTrap s.cmd 3 0 .poison va)
    wordBar (2 ^ 60 + p.pa) (s.readPa p.pa 24)
  | .sp xa => do
    let (k, o) ← barSpAt xa
    if (s.core k).spPoisoned o 24 then raise (syTrap s.cmd 3 0 .poison xa)
    wordBar (2 ^ 61 + k * 2 ^ 22 + o) (peekBytes (s.core k).sp o 24)

/-- A barrier's state written at its home. -/
def writeBar (r : BarRef) (b : BarState) : M Unit := do
  match r with
  | .slot key _ => modify (fun s => s.setBarSlot key { (s.barSlot key) with
      expect := b.expect, arrived := b.arrived, phase := BitVec.ofNat 16 b.phase, init := b.init, tcomp := BitVec.ofNat 64 b.tcomp })
  | .mem va => do
    let p ← barWordAt va
    let s ← get
    noteWord (2 ^ 60 + p.pa) (s.readPa p.pa 24) (barBytes b) false
    modify (fun s => s.perform s.cur s.slot (.mem va p.pa (barBytes b) [] p.ent.pub p.ent.nc))
  | .sp xa => do
    let (k, o) ← barSpAt xa
    let s ← get
    noteWord (2 ^ 61 + k * 2 ^ 22 + o) (peekBytes (s.core k).sp o 24) (barBytes b) false
    modify (fun s => s.updCore k (fun c => c.writeSp o (barBytes b) []))

/-- Notifications sent to every die where a core waits at a barrier whose phase has just completed (R359). -/
def State.notify (s : State) (key phase : Nat) : State :=
  let dies := (List.range 4).filter (fun d => s.sync.waits.any (fun w => w.1 == key && coreDie w.2.core == d))
  { s with sync := { s.sync with
      notes := s.sync.notes.filter (fun (n : Note) => n.key != key)
      pend := s.sync.pend ++ dies.map (fun d => (key, d, phase)) } }
/-- Waits pending at a barrier that has been initialised, evaluated again (R355). -/
def State.rewait (s : State) (key : Nat) : State :=
  { s with sync := { s.sync with waits := s.sync.waits.map (fun w => if w.1 = key then (w.1, { w.2 with due := none }) else w) } }

/-- An arrival (R353): the phase it joins. -/
def arrive (r : BarRef) (arg : Nat) : M Nat := do
  let b ← readBar r
  if ¬ b.init then syRaise 2 arg
  if b.arrived + 1 = b.expect then
    let s ← get
    writeBar r { b with arrived := 0, phase := (b.phase + 1) % 2 ^ 16, tcomp := s.cycle (s.corePart s.cur) }
    let key ← barKey r
    modify (fun s => s.notify key ((b.phase + 1) % 2 ^ 16))
  else writeBar r { b with arrived := (b.arrived + 1) % 2 ^ 32 }
  return b.phase

/-- A wait at a unit registered. -/
def register (key arg : Nat) : M Unit := modify (fun s =>
  let u : UnitWait := ⟨s.cur, s.slot, s.cmd.idx, arg, none⟩
  if s.sync.waits.any (fun w => w.1 == key && { w.2 with due := none } == u) then s
  else { s with sync := { s.sync with
    waits := s.sync.waits.filter (fun w => !(w.2.core == s.cur && w.2.slot == s.slot && w.2.idx == s.cmd.idx)) ++ [(key, u)] } })
/-- The wait of the command in hand forgotten. -/
def unregister : M Unit := modify (fun s =>
  { s with sync := { s.sync with waits := s.sync.waits.filter (fun w => !(w.2.core == s.cur && w.2.slot == s.slot && w.2.idx == s.cmd.idx)) } })

/-- The stagger index of a core (R358). -/
def staggerIdx (k : Nat) : Nat := k % 128

/-- Whether a wait is that of the command in hand. -/
def UnitWait.mine (s : State) (u : UnitWait) : Bool := u.core == s.cur && u.slot == s.slot && u.idx == s.cmd.idx
/-- The delay of a core's group (R358, R359). -/
def Note.delay (n : Note) (k : Nat) : Nat := (staggerIdx k % (n.gm1.toNat + 1)) * n.delta.toNat

/-- The wait for phase `g` of a barrier (R356, R359): until the phase is done and its notification has come (kind 4), then until
the core's release time (kind 5): of a wait that was pending then, the one it was given, whatever completes after it (R122); of one evaluated
later, by the latest notification at its die. What has been registered stays; `anew`: the command has just arrived. -/
def awaitPhase (anew : Bool) (r : BarRef) (h : Word) (g sub : Nat) : M Unit := do
  let b ← readBar r
  let key ← barKey r
  let old ← get
  let again := !anew && old.sync.waits.any (fun w => w.2.mine old)
  register key g
  let s ← get
  let stop (kind : Nat) : Stop := if again then .wait ⟨kind, sub, g, h, 0⟩ else .started s ⟨kind, sub, g, h, 0⟩
  let d := coreDie s.cur
  match (s.sync.waits.find? (fun w => w.1 == key && w.2.mine s)).bind (fun w => w.2.due) with
  | some t => if s.now < t then throw (stop 5)
  | none => do
    if ¬ atOrAfter 16 b.phase ((g + 1) % 2 ^ 16) ∨
        s.sync.pend.any (fun p => p.1 == key && p.2.1 == d && atOrAfter 16 p.2.2 ((g + 1) % 2 ^ 16)) = true then throw (stop 4)
    match s.sync.notes.find? (fun (n : Note) => n.key == key && n.die == d) with
    | some n => if s.now < n.at_ + n.delay s.cur then throw (stop 5)
    | none => pure ()
  unregister

/-! ### Barrier instructions (R354-R357) -/

/-- The code of a slot scope (Table 12.2). -/
def SlotScope.code : SlotScope → Nat
  | .cluster => 1 | .die => 2 | .package => 3
/-- The code of a memory barrier's scope (Table 2.7). -/
def MbScope.code : MbScope → Nat
  | .cl => 1 | .di => 2 | .pk => 3 | .sy => 4

/-- A captured scalar of an SY command. -/
def sySc (i : Nat) : M Word := do let s ← get; captured i (syTrap s.cmd 8 0)

/-- The lowest free slot of a scope. -/
def State.freeSlot (s : State) (scope : Nat) : Option Nat :=
  (List.range (slotCount scope)).find? (fun n => !(s.barSlot (slotKey s.cur scope n)).alloc)

/-- `bar.alloc` (R354). -/
def execBarAlloc (scope : SlotScope) (_xa : XReg) (s : State) : Host.Outcome State Fault Refusal :=
  syLane s false (pure ()) (pure ()) (do
    let xa ← sySc 0
    let o ← resultAt (syTrap s.cmd 4 0) xa 16 16
    let sc := scope.code
    let s ← get
    if sc = 1 ∧ ¬ (s.core s.cur).inGang then syRaise 6 0
    match s.freeSlot sc with
    | none => writeResult o (leBytes 16 1)
    | some n =>
      let key := slotKey s.cur sc n
      let tag := (s.barSlot key).tag + 1
      modify (fun s => s.setBarSlot key ⟨true, tag, false, (s.barSlot key).expect, 0, 0, (s.barSlot key).tcomp, s.corePart s.cur⟩)
      let h := n + (if sc = 2 then coreDie s.cur * 2 ^ 16 else 0) + tag.toNat * 2 ^ 32 + sc * 2 ^ 48
      writeResult o (leBytes 8 0 ++ leBytes 8 h))

/-- EXPECT from a register: its low 16 bits, 0 meaning 65,536. -/
def expectOf (x : Word) : Nat := if x.toNat % 2 ^ 16 = 0 then 65536 else x.toNat % 2 ^ 16

/-- `bar.init` (R355). -/
def execBarInit (_xa _xn : XReg) (s : State) : Host.Outcome State Fault Refusal :=
  syLane s false (pure ()) (pure ()) (do
    let h ← sySc 0
    let xn ← sySc 1
    match ← barRef h with
    | .slot key _ => modify (fun s => (s.setBarSlot key
        { (s.barSlot key) with expect := expectOf xn, arrived := 0, phase := 0, init := true }).rewait key)
    | _ => syRaise 1 (h.toNat % 2 ^ 32))

/-- `bar.init.m` (R355): the bytes that the part holds for itself are free (log 17). -/
def execBarInitM (sp : Bool) (scope : MbScope) (_xa _xn : XReg) (s : State) : Host.Outcome State Fault Refusal :=
  syLane s false (pure ()) (pure ()) (do
    let xa ← sySc 0
    let xn ← sySc 1
    if xa.toNat % 64 ≠ 0 then raise (syTrap s.cmd 3 0 .align xa)
    let own ← pick
    let b : BarState := ⟨expectOf xn, 0, 0, true, scope.code, own % 2 ^ 64⟩
    let bytes := barBytes b ++ leBytes 40 (own / 2 ^ 64)
    if sp then
      let (k, o) ← barSpAt xa
      noteWord (2 ^ 61 + k * 2 ^ 22 + o) [] (barBytes b) true
      modify (fun s => (s.updCore k (fun c => c.writeSp o bytes [])).rewait (2 ^ 61 + k * 2 ^ 22 + o))
    else
      let p ← barWordAt xa
      noteWord (2 ^ 60 + p.pa) [] (barBytes b) true
      modify (fun s => (s.perform s.cur s.slot (.mem xa p.pa bytes [] p.ent.pub p.ent.nc)).rewait (2 ^ 60 + p.pa)))

/-- `bar.arr` (R356). -/
def execBarArr (_eng : GateEng) (_xa : XReg) (s : State) : Host.Outcome State Fault Refusal :=
  syLane s true (pure ())
    (do
      let h ← sySc 0
      let r ← barRef h
      let b ← readBar r
      if ¬ b.init then syRaise 2 (h.toNat % 2 ^ 32))
    (do
      let h ← sySc 0
      let r ← barRef h
      let _ ← arrive r (h.toNat % 2 ^ 32))

/-- SUB of a barrier wait (Table 12.7). -/
def barSub (kind : Nat) (e : GateEng) : Nat := (kind + e.code * 2 ^ 1) % 16

/-- `bar.wait` (R356, R359). -/
def execBarWait (eng : GateEng) (_xa _xg : XReg) (s : State) : Host.Outcome State Fault Refusal :=
  syLane s false (pure ()) (pure ()) (do
    let h ← sySc 0
    let g ← sySc 1
    let r ← barRef h
    awaitPhase false r h (g.toNat % 2 ^ 16) (barSub 0 eng))

/-- `bar.arw` (R356): the phase joined is kept with the command, so that a re-issue only waits. -/
def execBarArw (eng : GateEng) (_xa : XReg) (s : State) : Host.Outcome State Fault Refusal :=
  syLane s false (pure ()) (pure ()) (do
    let h ← sySc 0
    let r ← barRef h
    match s.cmd.joined with
    | some g => awaitPhase false r h g (barSub 1 eng)
    | none => do
      let key ← barKey r
      register key 0
      let g ← arrive r (h.toNat % 2 ^ 32)
      putCmd { s.cmd with joined := some g }
      awaitPhase true r h g (barSub 1 eng))

/-- `bar.free` (R357). -/
def execBarFree (_xa : XReg) (s : State) : Host.Outcome State Fault Refusal :=
  syLane s false (pure ()) (pure ()) (do
    let h ← sySc 0
    match ← barRef h with
    | .slot key _ => modify (fun s => s.setBarSlot key { (s.barSlot key) with alloc := false })
    | _ => syRaise 1 (h.toNat % 2 ^ 32))

/-! ### Semaphores (R360) -/

/-- Reserved semaphore numbers. -/
def semPre (sem : BitVec 8) : M Unit := do
  let s ← get
  if 160 ≤ sem.toNat then raise (illegalAt 9 0 s.cmd 12 8)
/-- The owner of a cluster semaphore. -/
def semCheck (sem : BitVec 8) : M Unit := do
  let c ← core
  if sem.toNat < 64 ∧ ¬ c.inGang then syRaise 6 sem.toNat

/-- `sem.init` (R360). -/
def execSemInit (sem : BitVec 8) (_xa : XReg) (s : State) : Host.Outcome State Fault Refusal :=
  syLane s false (semPre sem) (semCheck sem) (do
    let x ← sySc 0
    modify (fun s =>
      let k := s.semKey s.cur sem.toNat
      s.setSem k { (s.sem k) with value := x.setWidth 32, sat := false }))

/-- `sem.sig` with a count `n` (R360). -/
def semSig (sem : BitVec 8) (n : M Nat) (s : State) : Host.Outcome State Fault Refusal :=
  syLane s true (semPre sem) (do semCheck sem; let _ ← n) (do
    let n ← n
    modify (fun s => s.semSignal (s.semKey s.cur sem.toNat) n))

/-- `sem.wait` with a count `n` (R360): the pending waits are served in their order of arrival. -/
def semWait (e : GateEng) (sem : BitVec 8) (n : M Nat) (s : State) : Host.Outcome State Fault Refusal :=
  syLane s false (semPre sem) (semCheck sem) (do
    let n ← n
    if n ≠ 0 then
      let t ← get
      let key := t.semKey t.cur sem.toNat
      let m := t.sem key
      let mine (u : UnitWait) : Bool := u.core == t.cur && u.slot == t.slot && u.idx == t.cmd.idx
      let again := m.waits.any mine
      let ws := if again then m.waits else m.waits ++ [⟨t.cur, t.slot, t.cmd.idx, n, none⟩]
      let w : Wait := ⟨3, e.code, min n 0xFFFF, BitVec.ofNat 64 sem.toNat, 0⟩
      if (ws.head?.any mine) ∧ n ≤ m.value.toNat then
        set (t.setSem key { m with value := m.value - BitVec.ofNat 32 n, waits := ws.drop 1 })
      else throw (if again then .wait w else .started (t.setSem key { m with waits := ws }) w))

/-- `sem.sig` with an immediate count. -/
def execSemSigImm (_e : GateEng) (sem : BitVec 8) (cnt : BitVec 7) (s : State) : Host.Outcome State Fault Refusal :=
  semSig sem (pure (cnt.toNat + 1)) s
/-- `sem.sig` with a register count. -/
def execSemSigReg (_e : GateEng) (sem : BitVec 8) (_xa : XReg) (s : State) : Host.Outcome State Fault Refusal :=
  semSig sem (do return (← sySc 0).toNat % 2 ^ 32) s
/-- `sem.wait` with an immediate count. -/
def execSemWaitImm (e : GateEng) (sem : BitVec 8) (cnt : BitVec 7) (s : State) : Host.Outcome State Fault Refusal :=
  semWait e sem (pure (cnt.toNat + 1)) s
/-- `sem.wait` with a register count. -/
def execSemWaitReg (e : GateEng) (sem : BitVec 8) (_xa : XReg) (s : State) : Host.Outcome State Fault Refusal :=
  semWait e sem (do return (← sySc 0).toNat % 2 ^ 32) s

/-! ### Gates and release (R349, R359) -/

/-- The gate at the head of a queue whose XQ command has passed the port. -/
def Core.readyGate (c : Core) (k : Slot) : Option Cmd :=
  match c.headEntry k with
  | some (.gate m) => if isSpec m || (cmdsOf (c.queue 5)).any (fun n => n.idx == m.idx) then none else some m
  | _ => none

/-- A gated command acts at its gate. -/
def runGate (m : Cmd) (s : State) : Host.Outcome State Fault Refusal :=
  match m.instr with
  | .barArr e xa => execBarArr e xa s
  | .barWait e xa xg => execBarWait e xa xg s
  | .barArw e xa => execBarArw e xa s
  | .semSigImm e sem cnt => execSemSigImm e sem cnt s
  | .semSigReg e sem xa => execSemSigReg e sem xa s
  | .semWaitImm e sem cnt => execSemWaitImm e sem cnt s
  | .semWaitReg e sem xa => execSemWaitReg e sem xa s
  | _ => .fault .notEnabled

/-- GATE_REACHED (R349): the engine of `slot` has completed everything before its gate. -/
def execGateReached (slot : BitVec 4) (s : State) : Host.Outcome State Fault Refusal :=
  match (s.core s.cur).readyGate slot.toNat with
  | some m => runGate m { s with slot := slot.toNat, cmd := m }
  | none => .fault .notEnabled

/-- The barrier wait at the head of a slot. -/
def Core.slotWait (c : Core) (k : Slot) : Option Cmd :=
  let m := if k = 5 then (match c.headEntry 5 with | some (.cmd m) => some m | _ => none) else c.readyGate k
  match m with
  | some m => if (amGet ⟨0, 0, 0, 0, 0⟩ c.waits k).kind = 5 then some m else none
  | none => none

/-- STAGGERED_RELEASE (R359): a waiter whose phase has completed resumes once its release time has come. -/
def execStaggeredRelease (slot : BitVec 4) (s : State) : Host.Outcome State Fault Refusal :=
  match (s.core s.cur).slotWait slot.toNat with
  | some m => runGate m { s with slot := slot.toNat, cmd := m }
  | none => .fault .notEnabled

/-- BARRIER_NOTIFICATION (R359): the k-th notification under way reaches its die, and sets when the waits pending there for the phase resume. -/
def execBarrierNotification (k : BitVec 8) (s : State) : Host.Outcome State Fault Refusal :=
  match s.sync.pend[k.toNat]? with
  | none => .fault .notEnabled
  | some (key, d, phase) =>
    let n : Note := ⟨key, d, s.now, (s.die d).gm1, (s.die d).delta⟩
    .next { s with stalled := false, sync := { s.sync with
      pend := s.sync.pend.eraseIdx k.toNat
      notes := s.sync.notes.filter (fun (x : Note) => !(x.key == key && x.die == d)) ++ [n]
      waits := s.sync.waits.map (fun w =>
        if w.1 = key ∧ coreDie w.2.core = d ∧ w.2.due.isNone = true ∧ atOrAfter 16 phase ((w.2.arg + 1) % 2 ^ 16) = true then
          (w.1, { w.2 with due := some (s.now + n.delay w.2.core) }) else w) } }

/-! ### Wait snapshots (R365) -/

/-- A wait's KIND, SUB and ARG (Table 12.6). -/
def wsk (w : Wait) : Nat := w.kind + w.sub * 2 ^ 4 + w.arg * 2 ^ 32

/-- WSC: the CYCLE at which a wait began, 0 when there is none (R363). -/
def State.wsc (s : State) (p : Nat) (w : Wait) : Nat := if w.kind = 0 then 0 else (w.wsc.toNat - (s.getPart p).base) % 2 ^ 64
/-- An `ws.rd`, held in a loop (R361): its checks, then its snapshot. -/
def wsLane (s : State) (n align : Nat) (bytes : Word → M (List Byte)) : Host.Outcome State Fault Refusal :=
  let read : M (Nat × List Byte) := do
    let xa ← sySc 0
    let xg ← sySc 1
    let o ← resultAt (syTrap s.cmd 4 0) xa n align
    let b ← bytes xg
    return (o, b)
  syLane s true (pure ()) (dryRun (discard read)) (do
    let (o, b) ← read
    writeResult o b)

/-- The index of the command at the head of a slot's queue, where it waits. -/
def Core.waitIdx (c : Core) (k : Slot) : Nat :=
  if (amFind k c.waits).isNone then 0
  else match c.headEntry k with
    | some (.cmd m) => m.idx
    | some (.gate m) => m.idx
    | some (.mark id _ _ _) => id
    | _ => 0

/-- `ws.rd.core` (R365). -/
def execWsRdCore (_xa _xg : XReg) (s : State) : Host.Outcome State Fault Refusal :=
  wsLane s 512 64 (fun xg => do
    let s ← get
    let k := xg.toNat % 512
    let p := s.corePart s.cur
    if s.disabled.contains k ∨ ¬ (s.getPart p).dies.contains (coreDie k) then syRaise 6 k
    let c := s.core k
    let id := match c.task with | some t => t.id | none => 0
    let entry (e : Nat) : List Byte :=
      let w := amGet ⟨0, 0, 0, 0, 0⟩ c.waits e
      leBytes 8 (wsk w) ++ leBytes 8 w.wsa.toNat ++ leBytes 8 (s.wsc p w) ++ leBytes 8 (c.waitIdx e % 2 ^ 48)
    return leBytes 8 id ++ leBytes 8 (s.coreloc k) ++ leBytes 8 (s.cycle p) ++ leBytes 8 c.dbg.halted.toNat ++ leBytes 32 0 ++
      (List.range 14).flatMap entry)

/-- `ws.rd.bar` (R365): whether a memory barrier counts as allocated is not stated, and free (log 17). -/
def execWsRdBar (_xa _xg : XReg) (s : State) : Host.Outcome State Fault Refusal :=
  wsLane s 32 32 (fun xg => do
    let r ← barRef xg
    let b ← readBar r
    let key ← barKey r
    let t ← get
    let (alloc, tag) ← match r with
      | .slot key _ => pure (1, (t.barSlot key).tag.toNat)
      | _ => do let v ← pick; pure (v % 2, 0)
    let n := (t.sync.waits.filter (fun w => w.1 == key)).length
    return leBytes 4 b.expect ++ leBytes 4 b.arrived ++ leBytes 2 b.phase ++ leBytes 1 b.scope ++ leBytes 1 (b.init.toNat + alloc * 2) ++
      leBytes 4 n ++ leBytes 8 b.tcomp ++ leBytes 8 tag)

/-- `ws.rd.sem` (R365). -/
def execWsRdSem (_xa _xg : XReg) (s : State) : Host.Outcome State Fault Refusal :=
  wsLane s 16 16 (fun xg => do
    let n := xg.toNat % 256
    if 160 ≤ n then syRaise 1 n
    let t ← get
    if n < 64 ∧ ¬ (t.core t.cur).inGang then syRaise 6 n
    let m := t.sem (t.semKey t.cur n)
    return leBytes 4 m.value.toNat ++ leBytes 4 m.waits.length ++ leBytes 1 m.sat.toNat ++ leBytes 7 0)

end Sys2Proof.Machine
end

