-- ==== Sys2Proof/Machine/Throttle.lean ====
section
/-! DEFINITION. The throttle level of a quadrant and the gaps of the engines' queues (17_power R481-R484, R491, R493). -/

namespace Sys2Proof.Machine

/-- A quadrant's regulator and sensor. -/
def State.quad (s : State) (d q : Nat) : Quad := (s.die d).quads.getD q ⟨0, 0, none, none, 0, 0⟩
/-- The quadrant of a core on its die (Table 5.5). -/
def coreQuad (k : Nat) : Nat := k / 32 % 4
/-- The threshold of a thermal level (Table 17.5). -/
def threshold (lvl : Nat) : Nat := if lvl = 1 then 95 else if lvl = 2 then 100 else 105
/-- The highest level whose threshold a temperature has reached. -/
def thermalLevel (t : Nat) : Nat := if 105 ≤ t then 3 else if 100 ≤ t then 2 else if 95 ≤ t then 1 else 0
/-- The least level that the host has set for the partition of a die. -/
def State.hostLevel (s : State) (d : Nat) : Nat := (s.getPart (s.dieOwner d)).regs.throttle.toNat
/-- The throttle level in force: the highest of the three causes (R491). -/
def State.level (s : State) (d q : Nat) : Nat :=
  let x := s.quad d q
  max x.lvl (max x.cur.isSome.toNat (s.hostLevel d))
/-- PWRSTAT.CAUSE: the highest code of a cause in force (Table 17.6). -/
def State.levelCause (s : State) (d q : Nat) : Nat :=
  let x := s.quad d q
  if 0 < s.hostLevel d then 3 else if x.cur.isSome then 2 else if 0 < x.lvl then 1 else 0
/-- TADD of a level (Table 17.5). -/
def tadd (lvl : Nat) : Nat := if lvl = 0 then 0 else if lvl = 1 then 4 else if lvl = 2 then 16 else 64
/-- The cc that a quadrant has spent above level 0. -/
def State.quadHot (s : State) (d q : Nat) : Nat :=
  let x := s.quad d q
  x.hot + (if 0 < s.level d q then s.now - x.hotAt else 0)
/-- A quadrant changed, its cc above level 0 counted up to now. -/
def State.updQuad (s : State) (d q : Nat) (f : Quad → Quad) : State :=
  let h := s.quadHot d q
  s.updDie d (fun x => if hq : q < 4 then { x with quads := x.quads.set q { (f x.quads[q]) with hot := h, hotAt := s.now } hq } else x)
/-- TCNT's cc of a core's task (Table 17.6). -/
def State.coreHot (s : State) (k : Nat) : Nat :=
  let c := s.core k
  c.regs.hot + (s.quadHot (coreDie k) (coreQuad k) - c.regs.hot0)
/-- A task that comes to a core counts from its quadrant's count now. -/
def State.markHot (s : State) (k : Nat) : State :=
  let h := s.quadHot (coreDie k) (coreQuad k)
  s.updCore k (fun c => { c with regs := { c.regs with hot0 := h } })

/-- The effective gap of an engine queue of a core over a GAP (R482). -/
def State.effOver (s : State) (k e gap : Nat) : Nat :=
  let floor := ((s.getPart (s.corePart k)).regs.floors.getD e 0).toNat
  min 255 (max gap floor + tadd (s.level (coreDie k) (coreQuad k)))
/-- The effective gap of an engine queue of a core, as PACE.e shows it (Table 17.3). -/
def State.eff (s : State) (k e : Nat) : Nat := s.effOver k e ((s.core k).gap.getD e 0).toNat

/-- The engine of a queue as Table 17.2 numbers the pacing registers; the control core has none. -/
def paceEng (k : Slot) : Nat := if k = 5 then 5 else if 6 ≤ k then 4 else k - 1
/-- The GAP in force at a command's routing (R483). -/
def Core.gapOf (c : Core) (e pos : Nat) : Nat :=
  match c.gapWas.find? (fun g => g.2.1 == e && decide (pos ≤ g.1)) with
  | some g => g.2.2.toNat
  | none => (c.gap.getD e 0).toNat
/-- GAP written (R481, R483): commands routed before the write keep the one they were routed under. -/
def Core.setGap (c : Core) (e pos : Nat) (v : BitVec 8) : Core :=
  let late (g : Nat × Nat × BitVec 8) : Bool := (nsRange 1 13).any (fun k => paceEng k == g.2.1 && (cmdsOf (c.queue k)).any (fun m => decide (m.pos ≤ g.1)))
  if h : e < 6 then { c with gap := c.gap.set e v h, gapWas := (c.gapWas ++ [(pos, e, c.gap[e])]).filter late } else c
/-- Whether the gap lets an engine take a command routed at `pos` now (R482). -/
def State.gapOver (s : State) (k : Nat) (slot : Slot) (pos : Nat) : Bool :=
  let c := s.core k
  match amFind (paceEng slot) c.paceAt with
  | some t => slot == 0 || decide (t + s.effOver k (paceEng slot) (c.gapOf (paceEng slot) pos) ≤ s.now)
  | none => true
/-- Whether an engine may take what stands at the head of its queue (R482, R484): the steps of a command once taken are not spaced. -/
def State.paced (s : State) (k : Nat) (slot : Slot) : Bool :=
  match (s.core k).headEntry slot with
  | some (.cmd m) => m.started || s.gapOver k slot m.pos
  | some (.xfer _) => s.gapOver k slot (2 ^ 64)
  | _ => true
/-- Whether fetch may take a line: at throttle level 3 one every 4 cc (Table 17.5). -/
def State.fetchPaced (s : State) (k : Nat) : Bool :=
  decide (s.level (coreDie k) (coreQuad k) < 3) || (match amFind 6 (s.core k).paceAt with | some t => decide (t + 4 ≤ s.now) | none => true)
/-- Entries of a queue not yet taken: by index of a command, by ID of a transfer. -/
def Core.untaken (c : Core) (k : Slot) : List Nat := (c.queue k).filterMap (fun e => match e with
  | .cmd m => if m.started then none else some (2 * m.idx)
  | .xfer id => some (2 * id + 1)
  | _ => none)
/-- The moments at which the engines of a core took commands in a step. -/
def Core.notePace (old new : Core) (now : Nat) : Core :=
  if old.mode = .running ∧ new.mode = .running ∧ old.task = new.task then
    (nsRange 1 13).foldl (fun (c : Core) k =>
      if (old.untaken k).any (fun i => !(new.untaken k).contains i) then { c with paceAt := amSet c.paceAt (paceEng k) now } else c) new
  else { new with paceAt := if old.task = new.task then new.paceAt else [] }

end Sys2Proof.Machine
end

