-- ==== Sys2Proof/Machine/Window.lean ====
section
/-! DEFINITION. Memory accesses of a partition's own agents, which no core issues, and the event rings of the windows
(18_host_and_start R497, R502, R503; 01_machine R35, R38). -/

namespace Sys2Proof.Machine

/-- A translation through a partition's tables for an access of the scheduler, a save sequencer or a host command: the physical
address and whether the page bypasses the L2, with the checks of R35 and R38. -/
def State.partXlate (s : State) (p : Nat) (write : Bool) (va : Nat) : Except FaultClass (State × Nat × Bool) :=
  match (s.getPart p).root with
  | none => .error .page
  | some root =>
    if 2 ^ 52 ≤ va then .error .page
    else match s.walk va 3 root [] with
      | .error e => .error e
      | .ok (used, e, size) =>
        let w := bits e 4 1 == 1
        let nc := bits e 8 1 == 1
        if write && !w then .error .perm
        else
          let s := used.foldl (fun s ea => s.orEntry p ea (2 ^ 9)) s
          let s := if write then (match used with | ea :: _ => s.orEntry p ea (2 ^ 10) | [] => s) else s
          let pa := ptePa e + va % size
          if !s.paOk p ((s.getPart p).dies.headD 0) pa then .error .link
          else match s.region pa with
          | .unassigned => .error .page
          | .kv | .aperture | .window => .error .perm
          | .device ch =>
            let ck := (s.getPart p).ck
            if s.dieOwner ch ≠ p || ck.mirror pa then .error .perm
            else if (ck.working pa).isSome then (if ck.st = 2 then .error .cktorn else if !nc then .error .perm else .ok (s, pa, nc))
            else .ok (s, pa, nc)
          | _ => .ok (s, pa, nc)

/-- `n` bytes read through a partition's tables; poison is POISON. -/
def State.partRead (s : State) (p : Nat) (va n : Nat) : Except FaultClass (State × List Byte) :=
  (piecesOf 4096 va n).foldlM (fun (acc : State × List Byte) q => do
    let (s, pa, _) ← acc.1.partXlate p false q.1
    if s.paPoisoned pa q.2 then .error .poison
    else return (s, acc.2 ++ s.readPa pa q.2)) (s, [])

/-- Bytes written through a partition's tables, every page checked first. -/
def State.partWrite (s : State) (p : Nat) (va : Nat) (bs : List Byte) (pois : NSet := []) : Except FaultClass State := do
  let ps ← (piecesOf 4096 va bs.length).foldlM (fun (acc : State × List (Nat × Nat × Nat × Bool)) q => do
    let (s, pa, nc) ← acc.1.partXlate p true q.1
    return (s, acc.2 ++ [(q.1, q.2, pa, nc)])) (s, [])
  return ps.2.foldl (fun (s : State) (q : Nat × Nat × Nat × Bool) =>
    let d := q.1 - va
    s.writePa p q.2.2.1 ((bs.drop d).take q.2.1) q.2.2.2
      ((pois.filter (fun b => decide (d ≤ b) && decide (b < d + q.2.1))).map (· - d))) ps.1

/-- The first physical address of host memory (Table 1.10). -/
def hostBase : Nat := 0x1000000000000

/-! ### Event rings (R502, R503) -/

/-- A window. -/
def State.win (s : State) (w : Nat) : Window := s.wins.getD w Window.reset
/-- A window replaced. -/
def State.setWin (s : State) (w : Nat) (x : Window) : State := if h : w < 5 then { s with wins := s.wins.set w x h } else s
/-- The entries of a ring: a power of two from 64 to 65,536, any other value reading as 64. -/
def Window.entries (w : Window) : Nat :=
  let n := w.evsize.toNat
  if ((nsRange 6 11).map (fun e => 2 ^ e)).contains n then n else 64

/-- The vector of an event (Table 18.8). -/
def eventVector (w code : Nat) : Nat :=
  if w = 4 then (if code = 14 then 17 else 16)
  else 4 * w + (if code = 1 then 0 else if code = 2 then 2 else if 3 ≤ code ∧ code ≤ 6 then 1 else 3)

/-- The bytes of an event record. -/
def Event.bytes (e : Event) : List Byte :=
  leBytes 4 e.code ++ leBytes 4 e.part ++ leBytes 8 e.cycle ++ leBytes 8 e.arg0.toNat ++ leBytes 8 e.arg1.toNat

/-- An event written into the ring of a window: the record, EVHEAD, the message; lost where the ring is full. -/
def State.ringWrite (s : State) (w : Nat) (e : Event) : State :=
  let x := s.win w
  let n := x.entries
  let h := x.evhead.toNat % n
  if (h + 1) % n = x.evtail.toNat % n then s.setWin w { x with dropEv := x.dropEv + 1 }
  else
    let s := s.writePa 0 (hostBase + (x.evbase.toNat + 32 * h) % 2 ^ 48) e.bytes true []
    { s.setWin w { x with evhead := BitVec.ofNat 64 ((h + 1) % n) } with msix := s.msix ++ [eventVector w e.code] }

/-- An event posted: into the ring where it is set, else kept among at most 16 (R503). -/
def State.post (s : State) (w code part : Nat) (arg0 arg1 : Word) : State :=
  let e : Event := ⟨code, part, s.cycle part, arg0, arg1⟩
  let x := s.win w
  if x.isSet then s.ringWrite w e
  else if x.kept.length < 16 then s.setWin w { x with kept := x.kept ++ [e] }
  else s.setWin w { x with dropEv := x.dropEv + 1 }

/-! ### Commands (R497) -/

/-- STAT of a window (Table 18.4). -/
def Window.stat (x : Window) : Word :=
  BitVec.ofNat 64 (x.run.isSome.toNat + x.status.toNat * 2 ^ 8 + x.value.toNat * 2 ^ 32)
/-- The end of a command: STATUS and VALUE written, BUSY cleared, CMDDONE where asked for (R497). -/
def State.cmdDone (s : State) (w : Nat) (status value : Nat) : State :=
  let x := s.win w
  let y := { x with status := BitVec.ofNat 8 status, value := BitVec.ofNat 32 value, run := none }
  let s := s.setWin w y
  match x.run with
  | some r => if r.irq then s.post w 1 (if w = 4 then 0 else w) (BitVec.ofNat 64 r.code) y.stat else s
  | none => s
/-- A write of CMD: discarded and counted while a command runs; else the arguments are captured, the command enters and `act`
performs it or leaves it in progress (R496, R497). While a scrub runs the answer is BUSY (R516), but not while a health test runs alone
(Table 18.5); a module that FAILED to start leaves it unanswered (R507). -/
def hostCmd (s : State) (w code : Nat) (act : List Word → State → State) : Host.Outcome State Fault Refusal :=
  let x := s.win w
  if s.phase = 0 ∨ (w < 4 ∧ (s.getPart w).dies = []) then .fault .notEnabled
  else if x.run.isSome then .next (s.setWin w { x with dropCmd := x.dropCmd + 1 })
  else
    let args := x.args.toList
    let x := { x with cmd := BitVec.ofNat 9 (code + (if s.irq then 256 else 0)), run := some ⟨code, s.irq, args, s.now, none⟩ }
    let s := s.setWin w x
    if (code = 0x44 ∧ w = 4) ∨ s.phase = 1 ∨ (s.phase = 4 ∧ s.rows.scrub = false) then .next (act args s)
    else if s.phase = 2 then .next s
    else .next (s.cmdDone w 1 0)

end Sys2Proof.Machine
end

