-- ==== Sys2Proof/Machine/Sched.lean ====
section
/-! DEFINITION. The scheduler of a partition (06_scheduler R184-R213): records, queues, selection, dispatch, replays, patches,
the SQ instructions, and the end of a task (R165). -/

namespace Sys2Proof.Machine

/-! ### Records (R185, R186) -/

/-- A field of `n` bytes of a byte string. -/
def fldAt (bs : List Byte) (off n : Nat) : Nat := leNat ((bs.drop off).take n)

/-- The record that 128 bytes hold (Table 6.1). -/
def Record.parse (bs : List Byte) : Record :=
  let a := fldAt bs 8 4
  let ord := fldAt bs 12 4
  let livev := bits a 9 1 == 1
  { entry := BitVec.ofNat 64 (fldAt bs 0 8), ndim := bits a 0 2, gang := bits a 2 1 == 1, cls := bits a 3 2, bflag := bits a 5 1 == 1
    dstage := bits a 6 2, dscale := bits a 8 1 == 1, livev := livev
    order := (List.range 4).map (fun j => bits ord (2 * j) 2)
    n := (List.range 4).map (fun d => fldAt bs (16 + 4 * d) 4)
    arg0 := BitVec.ofNat 64 (fldAt bs 0x20 8), arg1 := BitVec.ofNat 64 (fldAt bs 0x28 8)
    livetl := if livev then BitVec.ofNat 64 (fldAt bs 0x30 8) else BitVec.allOnes 64
    livebk := if livev then BitVec.ofNat 16 (fldAt bs 0x38 2) else BitVec.allOnes 16
    npred := fldAt bs 0x3C 4
    succ := (List.range 4).map (fun j => fldAt bs (0x40 + 4 * j) 4) }

/-- The used counts, dimension 0 as walked. -/
def Record.counts (r : Record) (n0 : Nat) : List Nat := (List.range (r.ndim + 1)).map (fun d => if d = 0 then n0 else r.n.getD d 0)
/-- The iterations of a record, P. -/
def Record.total (r : Record) (n0 : Nat) : Nat := (r.counts n0).prod

/-- The conditions of Table 6.1; `nrec` is the Almanac's NREC, none for a submitted record. -/
def Record.ok (r : Record) (bs : List Byte) (nrec : Option Nat) : Bool :=
  let a := fldAt bs 8 4
  r.entry.toNat % 512 == 0 && bits a 10 22 == 0 && (!r.dscale || r.dstage != 0) && bits (fldAt bs 12 4) 8 24 == 0 &&
    (List.range 4).all (fun j => if j ≤ r.ndim then decide (r.order.getD j 0 ≤ r.ndim) && !((r.order.take j).contains (r.order.getD j 0))
      else r.order.getD j 0 == 0) &&
    (List.range 4).all (fun d => decide (d ≤ r.ndim) || r.n.getD d 0 == 0) && decide (r.total (r.n.getD 0 0) ≤ 2 ^ 48) &&
    fldAt bs 0x3A 2 == 0 && (bs.drop 0x50).all (· == 0) &&
    (match nrec with
      | none => r.npred == 0 && r.succ.all (· == 0xFFFFFFFF)
      | some n => r.succ.all (fun x => x == 0xFFFFFFFF || decide (x < n)))

/-- The indexes of iteration L (R186). -/
def Record.indexes (r : Record) (n0 lin : Nat) : List Nat :=
  let walk := (List.range (r.ndim + 1)).foldr (fun j (acc : Nat × AMap Nat) =>
    let d := r.order.getD j 0
    let n := if d = 0 then n0 else r.n.getD d 0
    (acc.1 / max 1 n, amSet acc.2 d (acc.1 % max 1 n))) (lin, [])
  (List.range 4).map (fun d => amGet 0 walk.2 d)

/-! ### Queues and completion (R193, R198-R200) -/

/-- The scheduler of a partition changed. -/
def State.updSched (s : State) (p : Nat) (f : Sched → Sched) : State := s.updPart p (fun x => { x with sched := f x.sched })
/-- The scheduler of a partition. -/
def State.sched (s : State) (p : Nat) : Sched := (s.getPart p).sched
/-- A class queue. -/
def Sched.queue (d : Sched) (c : Nat) : List Nat := d.queues.getD c []
/-- A class queue replaced. -/
def Sched.setQueue (d : Sched) (c : Nat) (q : List Nat) : Sched := if h : c < 4 then { d with queues := d.queues.set c q h } else d
/-- A live record. -/
def Sched.rcd? (d : Sched) (ser : Nat) : Option RecLive := amFind ser d.recs
/-- A live record changed. -/
def Sched.updRec (d : Sched) (ser : Nat) (f : RecLive → RecLive) : Sched :=
  match d.rcd? ser with
  | some r => { d with recs := amSet d.recs ser (f r) }
  | none => d
/-- Ready records of a class, in the order they became ready. -/
def Sched.readyOf (d : Sched) (c : Nat) : List Nat := d.ready.filter (fun ser => (d.rcd? ser).any (fun r => r.rcd.cls == c))
/-- Whether a class queue has room for a record that is not of the ready list. -/
def Sched.hasRoom (d : Sched) (c : Nat) : Bool := decide ((d.queue c).length < 256) && (d.readyOf c).isEmpty

/-- A record entering its queue at the tail. -/
def Sched.enqueue (d : Sched) (now ser : Nat) : Sched :=
  match d.rcd? ser with
  | none => d
  | some r =>
    let q := d.queue r.rcd.cls
    let d := { d with qseq := d.qseq + 1, ready := d.ready.filter (· != ser) }
    (d.updRec ser (fun r => { r with place := .queued, since := now, qseq := d.qseq })).setQueue r.rcd.cls (q ++ [ser])
/-- A ready record entering its queue, or its replay's ready list. -/
def Sched.becomeReady (d : Sched) (now ser : Nat) : Sched :=
  match d.rcd? ser with
  | none => d
  | some r =>
    if d.hasRoom r.rcd.cls then d.enqueue now ser
    else { (d.updRec ser (fun r => { r with place := .ready })) with ready := d.ready ++ [ser] }
/-- A record leaving its queue; w of the next counts from now. -/
def Sched.dequeue (d : Sched) (now ser : Nat) : Sched :=
  match d.rcd? ser with
  | none => d
  | some r =>
    let q := (d.queue r.rcd.cls).filter (· != ser)
    let d := d.setQueue r.rcd.cls q
    match q with
    | h :: _ => if (d.queue r.rcd.cls) = q ∧ r.place = .queued then d.updRec h (fun x => { x with since := max x.since now }) else d
    | [] => d

/-- A submission accepted: its index and the record in its queue. -/
def Sched.accept (d : Sched) (now : Nat) (r : Record) (replay : Option Nat) (handle : Word) : Sched × Nat :=
  let idx := 0x8000 + d.subIdx % 0x8000
  let ser := d.serial
  let live : RecLive := ⟨idx, r, replay, 0, .ready, 0, none, 0, 0, false, now, 0, handle⟩
  (({ d with serial := ser + 1, subIdx := d.subIdx + 1, recs := amSet d.recs ser live }).enqueue now ser, idx)

/-- A complete record taken away: its status joins its replay's, and its successors come nearer to their queues. -/
def Sched.finish (d : Sched) (now ser : Nat) (odd : Bool) : Sched :=
  match d.rcd? ser with
  | none => d
  | some r =>
    let d := d.dequeue now ser
    let d := { d with recs := amDel ser d.recs, ready := d.ready.filter (· != ser) }
    let d := { d with replays := d.replays.map (fun (x : ReplayLive) =>
      if r.replay = some x.m then { x with status := max x.status r.status, odd := x.odd || odd } else x) }
    let named := if r.idx < 0x8000 then r.rcd.succ else []
    let heirs := d.recs.filter (fun e => e.2.replay == r.replay && decide (e.2.idx < 0x8000) && named.contains e.2.idx)
    heirs.foldl (fun (d : Sched) e =>
      let n := (named.filter (· == e.2.idx)).length
      let left := e.2.rem - n
      let d := d.updRec e.1 (fun x => { x with rem := left })
      if e.2.rem ≠ 0 ∧ left = 0 then d.becomeReady now e.1 else d) d

/-- Replays with no record left retire, and the host is told (R199); the status of one that held an aborted or skipped record is
free (log 2). -/
def State.retireReplays (s : State) (p : Nat) : State :=
  (s.sched p).replays.foldl (fun (s : State) x =>
    if (s.sched p).recs.any (fun e => e.2.replay == some x.m) then s
    else
      let s := s.updSched p (fun d => { d with replays := d.replays.filter (fun y => y.m != x.m) })
      let arg : Word := if x.odd then BitVec.ofNat 64 (Config.oracle s.picks) else BitVec.ofNat 64 x.status
      ({ s with picks := if x.odd then s.picks + 1 else s.picks }).post p 2 p (BitVec.ofNat 64 x.m) arg) s

/-- Whether a record has no iterations. -/
def RecLive.empty (r : RecLive) : Bool := r.rcd.total (r.rcd.n.getD 0 0) == 0
/-- Empty records that stand in a queue complete as they enter it: every task of every iteration has exited (R185, R193, log 52). -/
def Sched.settleEmpty (now : Nat) : Nat → Sched → Sched
  | 0, d => d
  | n + 1, d =>
    match d.recs.find? (fun e => e.2.place == RecPlace.queued && e.2.empty) with
    | some e => settleEmpty now n (d.finish now e.1 false)
    | none => d
/-- What follows an entry into the queues: empty records complete, replays retire. -/
def State.settleQueues (s : State) (p : Nat) : State :=
  (s.updSched p (fun d => d.settleEmpty s.now d.recs.length)).retireReplays p

/-- A record complete. -/
def State.finishRec (s : State) (p ser : Nat) (odd : Bool) : State :=
  (s.updSched p (fun d => d.finish s.now ser odd)).settleQueues p

/-- A task of a record ended: exited with a status, or aborted (R193, R198). -/
def State.taskEnded (s : State) (p : Nat) (t : Task) (status : Nat) (aborted : Bool) : State :=
  let s := s.updSched p (fun d => d.updRec t.ser (fun r =>
    { r with out := r.out - 1, status := if aborted then r.status else max r.status status, aborted := r.aborted || aborted }))
  match (s.sched p).rcd? t.ser with
  | some r => if r.place = .bound ∧ r.out = 0 then s.finishRec p t.ser r.aborted else s
  | none => s

/-! ### Selection (R192, R194-R196) -/

/-- The effective class of a candidate that has waited since a moment. -/
def effClass (now cls since : Nat) : Nat := cls - (now - since) / 128000

/-- A candidate: a record or the contexts of one task or gang, its effective class, ready moment, class queue, and whether it
needs a cluster. -/
structure Cand where
  rcd : Option Nat
  ctx : List Nat
  e : Nat
  since : Nat
  cls : Nat
  gang : Bool

/-- The order of R195. -/
def Cand.before (a b : Cand) : Bool :=
  if a.e ≠ b.e then decide (a.e < b.e)
  else if a.since ≠ b.since then decide (a.since < b.since)
  else if a.cls ≠ b.cls then decide (a.cls < b.cls) else a.rcd.isNone && b.rcd.isSome
/-- Candidates in order. -/
def candSort (l : List Cand) : List Cand :=
  l.foldl (fun acc c => acc.takeWhile (fun x => !c.before x) ++ [c] ++ acc.dropWhile (fun x => !c.before x)) []

/-- Whether the head of a queue may be bound: with BFLAG only once every earlier record of its queue is complete (R194). -/
def Sched.eligible (d : Sched) (r : RecLive) : Bool :=
  !r.rcd.bflag || decide (0 < r.next) ||
    !(d.recs.any (fun e => e.2.rcd.cls == r.rcd.cls && decide (e.2.qseq < r.qseq) && e.2.place == RecPlace.bound))

/-- Whether two tasks are members of one gang. -/
def Task.mate (t u : Task) : Bool := t.gang && u.gang && u.ser == t.ser && u.lin == t.lin
/-- The candidates of a partition (R195): heads of queues that have an unbound iteration, and contexts on the resume list; those of one gang
go together, once none of its members is still to report (R176). Of a gang's context, w counts from the report of the member with the lowest
gang position: the rule names one report and a gang makes four, so this is the model's choice (log 52). -/
def Sched.cands (d : Sched) (now : Nat) (saving : List Task) : List Cand :=
  let heads := (List.range 4).filterMap (fun c => match d.queue c with
    | ser :: _ => (d.rcd? ser).bind (fun r =>
      if d.eligible r && decide (r.next < r.rcd.total (r.n0w.getD (r.rcd.n.getD 0 0))) then some ⟨some ser, [], effClass now c r.since, r.since, c, r.rcd.gang⟩ else none)
    | [] => none)
  let ready := d.ctxs.filter (fun x => x.place == CtxPlace.resume)
  let ctxs := ready.filterMap (fun x => x.core.task.bind (fun t =>
    if t.gang then
      let g := ready.filter (fun y => y.core.task.any t.mate)
      if g.all (fun y => y.core.task.all (fun u => decide (t.gpos ≤ u.gpos))) ∧ ¬ saving.any t.mate then
        some ⟨none, g.map (·.area), effClass now t.cls x.since, x.since, t.cls, true⟩ else none
    else some ⟨none, [x.area], effClass now t.cls x.since, x.since, t.cls, false⟩))
  candSort (heads ++ ctxs)

/-- The enabled cores of a partition in logical order. -/
def State.partCores (s : State) (p : Nat) : List Nat :=
  ((s.getPart p).dies.flatMap (fun d => if (s.die d).up then nsRange (d * 128) 128 else [])).filter (fun k => !s.disabled.contains k)
/-- Whether a core is coming to rest, or rests, to be saved. -/
def Core.resting (c : Core) : Bool := match c.mode with | .resting _ _ => true | _ => false
/-- Whether a core comes to rest, or rests, for a pre-emption: an area is kept for it. -/
def Core.yielding (c : Core) : Bool := match c.mode with | .resting _ (some _) => true | _ => false
/-- Whether a core is still to report the save of a pre-emption: asked for, or under way. -/
def State.leaving (s : State) (k : Nat) : Bool :=
  (s.core k).yielding || ((s.core k).mode == CoreMode.running && (s.sched (s.corePart k)).preempts.any (fun q => q.1 == k))
/-- Whether a core can take a task: it has none, and its cluster awaits no report of a gang's save (R176). -/
def State.coreFree (s : State) (k : Nat) : Bool :=
  (s.core k).mode == CoreMode.idle && !(nsRange (k / 4 * 4) 4).any (fun j => (s.core j).inGang && s.leaving j)
/-- The candidates of a partition now; none while a health test has every core (R517, log 24). -/
def State.cands (s : State) (p : Nat) : List Cand :=
  if s.phase = 4 then [] else
  (s.sched p).cands s.now (s.cores.filterMap (fun e => if s.corePart e.1 == p && s.leaving e.1 then e.2.task else none))
/-- Clusters of a partition with four enabled cores. -/
def State.fullClusters (s : State) (p : Nat) : List Nat :=
  let ks := s.partCores p
  (ks.filter (fun k => k % 4 == 0 && [k + 1, k + 2, k + 3].all ks.contains)).map (· / 4)
/-- The moment of binding of a cluster's youngest running task, 0 with none. -/
def State.youngest (s : State) (c : Nat) : Nat :=
  ((nsRange (4 * c) 4).map (fun k => match (s.core k).task with | some t => t.id | none => 0)).foldl max 0
/-- The cluster the scheduler chooses for a gang (R192). -/
def State.gangCluster (s : State) (p : Nat) : Option Nat :=
  (s.fullClusters p).foldl (fun best c => match best with
    | none => some c
    | some b => if s.youngest c < s.youngest b then some c else some b) none

/-- The first candidate that can be served, and its cores. A gang that cannot be placed keeps its chosen cluster and lets only candidates of a
higher effective class go before it (R195, R196); another candidate that cannot be placed lets none. `taken` are the cores kept, `wait` the
effective class of the last gang passed over. -/
def State.pickCand (s : State) (p : Nat) : List Cand → List Nat → Option Nat → Option (Cand × List Nat)
  | [], _, _ => none
  | c :: cs, taken, wait =>
    if c.gang then
      match s.gangCluster p with
      | none => s.pickCand p cs taken (some c.e)
      | some g =>
        let ks := nsRange (4 * g) 4
        if ks.all (fun k => s.coreFree k && !taken.contains k) then some (c, ks) else s.pickCand p cs (taken ++ ks) (some c.e)
    else if wait.any (fun e => decide (c.e ≤ e)) then none
    else ((s.partCores p).find? (fun k => s.coreFree k && !taken.contains k)).map (fun k => (c, [k]))
/-- The choice of R195 now. -/
def State.selection (s : State) (p : Nat) : Option (Cand × List Nat) := s.pickCand p (s.cands p) [] none

/-- The record the selection would serve next, where no context goes before it. -/
def State.nextRec (s : State) (p : Nat) : Option Nat := (s.cands p).head?.bind (·.rcd)
/-- Preloads dropped where the selection has changed (R191). -/
def State.dropStale (s : State) (p : Nat) : State :=
  let nx := s.nextRec p
  s.cores.foldl (fun (s : State) e =>
    if s.corePart e.1 = p ∧ e.2.staged.any (fun (g : Staged) => some g.ser != nx) = true then s.updCore e.1 (fun c => { c with staged := none }) else s) s

/-! ### Dispatch (R187, R188, R190, R204) -/

/-- The first value of a task descriptor that is refused: byte offset of its doubleword and TRAPSTAT (R42, R188). -/
def descBad (bs : List Byte) : Option (Nat × Word) :=
  (List.range 64).findSome? (fun i =>
    let w := fldAt bs (8 * i) 8
    let at_ (flo flen : Nat) : Option (Nat × Word) := some (8 * i, illegalStat 0 flo flen (bits w flo flen) true false)
    if i < 16 then (if 14 ≤ bits w 0 4 then at_ 0 4 else if bits w 0 4 = 0 ∧ bits w 4 2 ≠ 0 then at_ 4 2 else none)
    else if i < 32 then none
    else (List.range 8).findSome? (fun j =>
      if i < 40 then (if 14 ≤ bits w (8 * j) 4 then at_ (8 * j) 4 else if bits w (8 * j + 4) 4 ≠ 0 then at_ (8 * j + 4) 4 else none)
      else if bits w (8 * j) 8 ≠ 0 then at_ (8 * j) 8 else none))

/-- A bank's descriptor from its two words (Tables 1.13, 1.14). -/
def Bank.ofWords (f b : Nat) : Bank :=
  ⟨bits f 7 1 == 1, BitVec.ofNat 2 (bits f 4 2), fmtOf (bits f 0 4), BitVec.ofNat 32 (bits b 32 32), BitVec.ofNat 32 (bits b 0 32)⟩

/-- A core as a task finds it: every register at its dispatch value, the W buffer clear (R226), DBGCMP's match still to come (R180); the
scratchpad, the TLB and the other debug registers stay (log 5). -/
def Core.fresh (c : Core) : Core :=
  { Core.reset with sp := c.sp, spPois := c.spPois, tlb := c.tlb, dbg := { c.dbg with stepping := false, passed := false, cmpDone := false }, staged := c.staged }

/-- A core that starts a task with its descriptor (R187, R188). -/
def Core.start (c : Core) (t : Task) (r : Record) (desc : List Byte) : Core :=
  let x (i : Nat) : Scalar :=
    let v : Word := if 1 ≤ i ∧ i ≤ 4 then BitVec.ofNat 64 (t.idx.getD (i - 1) 0) else if i = 5 then BitVec.ofNat 64 t.lin
      else if i = 6 then r.arg0 else if i = 7 then r.arg1 else if i = 8 then BitVec.ofNat 64 t.gpos else 0
    ⟨v, false⟩
  { c.fresh with
    mode := .running
    task := some t
    fetch := { Fetch.reset with pc := r.entry + 0x204, ended := false }
    x := Vector.ofFn (fun (i : Fin 32) => x i.val)
    livebk := r.livebk
    livetl := r.livetl
    banks := Vector.ofFn (fun (i : Fin 16) => Bank.ofWords (fldAt desc (8 * i.val) 8) (fldAt desc (0x80 + 8 * i.val) 8))
    tiles := Vector.ofFn (fun (i : Fin 64) => { Tile.empty with tag := fmtOf (fldAt desc (0x100 + i.val) 1) })
    staged := none }

/-- The descriptor of a record for a start on some cores: as it is staged there, else read now (R191). -/
def State.descriptor (s : State) (p ser : Nat) (r : Record) (ks : List Nat) : Except FaultClass (State × List Byte) :=
  match ks.findSome? (fun k => (s.core k).staged.bind (fun (g : Staged) => if g.ser = ser then g.desc else none)) with
  | some d => .ok (s, d)
  | none => s.partRead p r.entry.toNat 512
/-- The tasks of an iteration started on their cores with their descriptor; one that is refused, or cannot be read, stops its task at command
index 0 of CC (R188). -/
def State.startTasks (s : State) (p : Nat) (r : Record) (ts : List (Nat × Task)) : State :=
  let bad (s : State) (cls : FaultClass) (va stat : Word) : State :=
    ts.foldl (fun (s : State) kt =>
      takeFault ((s.updCore kt.1 (fun c => c.start kt.2 r [])).markHot kt.1) kt.1 ⟨cls, 1, 0, stat, va, none, none⟩ 0 (r.entry + 0x204)) s
  match s.descriptor p ((ts.map (fun kt => kt.2.ser)).headD 0) r (ts.map (·.1)) with
  | .error e => bad s e r.entry 0
  | .ok (s, desc) =>
    match descBad desc with
    | some (off, stat) => bad s .illegal (r.entry + BitVec.ofNat 64 off) stat
    | none => ts.foldl (fun (s : State) kt => (s.updCore kt.1 (fun c => c.start kt.2 r desc)).markHot kt.1) s

/-- A core's first line read and routed, its page walked before where it must be; a line that must wait stays with fetch. -/
def State.firstLine : Nat → State → Nat → State
  | 0, s, _ => s
  | n + 1, s, k =>
    if (s.core k).fetch.line.isSome || (s.core k).cidx.toList.any (· != 0) then s
    else match execFetchLine { s with cur := k, slot := 0 } with
      | .next s' => State.firstLine n { s' with cur := s.cur, slot := s.slot, stalled := false } k
      | _ => s
/-- The first lanes of started tasks routed with their binding, on every core of a gang (R190, R192, R194). -/
def State.firstLines (s : State) (ks : List Nat) : State := ks.foldl (fun (s : State) k => s.firstLine 3 k) s

/-- The walked count of dimension 0, or none where the record is skipped (R204). -/
def State.draft (s : State) (p : Nat) (r : Record) : Option Nat :=
  let n0 := r.n.getD 0 0
  if r.dstage = 0 then some n0
  else
    let k := r.dstage - 1
    let ac := ((s.sched p).ac.getD k 0).toNat
    if ac < bits (s.getPart p).regs.acthr.toNat (16 * k) 16 then none
    else some (if r.dscale then max 1 (n0 * ac / 65536) else n0)

/-- The objects of a cluster as a gang finds them (R346). -/
def State.gangObjects (s : State) (p g : Nat) : State :=
  (List.range 32).foldl (fun (s : State) n => s.setBarSlot (0x10000 + g * 32 + n) ⟨true, 0, true, 4, 0, 0, 0, p⟩)
    { s with sync := { s.sync with sems := s.sync.sems.filter (fun e => !(decide (0x10000 + g * 64 ≤ e.1) && decide (e.1 < 0x10000 + (g + 1) * 64))) } }
/-- The objects of a cluster released once no member of a gang is left on it (R346). -/
def State.releaseGang (s : State) (g : Nat) : State :=
  if (nsRange (4 * g) 4).any (fun k => (s.core k).inGang) then s
  else { s with sync := { s.sync with
    bars := s.sync.bars.filter (fun e => !(decide (0x10000 + g * 32 ≤ e.1) && decide (e.1 < 0x10000 + (g + 1) * 32)))
    sems := s.sync.sems.filter (fun e => !(decide (0x10000 + g * 64 ≤ e.1) && decide (e.1 < 0x10000 + (g + 1) * 64)))
    waits := s.sync.waits.filter (fun w => !(decide (0x10000 + g * 32 ≤ w.1) && decide (w.1 < 0x10000 + (g + 1) * 32))) } }

/-- The cluster of a core woken (R488). -/
def State.wake (s : State) (k : Nat) : State := { s with gated := nsDel (k / 4) s.gated }

/-- TASK_DISPATCH (R190, R195): the selection's record binds its next iteration, which is to route its first lanes; its first iteration decides a
draft (R204). A selected context is left to CONTEXT_RESTORE. -/
def execTaskDispatch (s : State) : Host.Outcome State Fault Refusal :=
  let p := s.part
  match s.selection p with
  | some (⟨some ser, _, e, _, cls, _⟩, ks) =>
    match (s.sched p).rcd? ser with
    | none => .fault .notEnabled
    | some r =>
      match (match r.n0w with | some n => some n | none => s.draft p r.rcd) with
      | none => .next ((s.finishRec p ser true).dropStale p)
      | some n0 =>
        let s := s.updSched p (fun d => (d.updRec ser (fun r => { r with n0w := some n0 })))
        let s := if r.rcd.dstage = 0 then s else s.updSched p (fun d => { d with replays := d.replays.map (fun (x : ReplayLive) =>
          if r.replay = some x.m then { x with stages := nsAdd (r.rcd.dstage - 1) x.stages } else x) })
        let total := r.rcd.total n0
        if total ≤ r.next then .fault .notEnabled
        else
          let lin := r.next
          let handle := match r.replay with
            | some m => ((s.sched p).replays.find? (fun x => x.m == m)).elim 0 (fun x => x.handle)
            | none => r.handle
          let id0 := (s.sched p).taskCnt + 1
          let ts := ((List.range ks.length).zip ks).map (fun q =>
            (q.2, ({ id := id0 + q.1, ser := ser, recIdx := r.idx, lin := lin, idx := r.rcd.indexes n0 lin, replay := r.replay
                     cls := cls, ecls := e, gang := r.rcd.gang, gpos := q.1, dstage := r.rcd.dstage, n0w := n0
                     handle := handle, bound := s.now } : Task)))
          let last := decide (lin + 1 = total)
          let s := s.updSched p (fun d =>
            let d := { d with taskCnt := d.taskCnt + ks.length }
            let d := d.updRec ser (fun r => { r with next := lin + 1, out := r.out + ks.length, since := s.now })
            if last then (d.dequeue s.now ser).updRec ser (fun r => { r with place := .bound }) else d)
          let s := ks.foldl (fun (s : State) k => s.wake k) s
          let s := if r.rcd.gang then s.gangObjects p (ks.headD 0 / 4) else s
          .next (((s.startTasks p r.rcd ts).firstLines ks).dropStale p)
  | _ => .fault .notEnabled

/-- TASK_STAGING (R191, R192): the record the selection would serve next is preloaded onto a core with a running task. Where that is a gang's
it is the only one staged anywhere, so nothing else goes onto the cluster it has chosen. -/
def execTaskStaging (s : State) : Host.Outcome State Fault Refusal :=
  let k := s.cur
  let p := s.corePart k
  match s.nextRec p with
  | some ser =>
    if (s.core k).mode = .running ∧ (s.core k).staged.isNone ∧ (s.partCores p).contains k then
      match ((s.sched p).rcd? ser).map (fun r => s.partRead p r.rcd.entry.toNat 512) with
      | some (.ok (s', d)) => .next (s'.updCore k (fun c => { c with staged := some ⟨ser, some d⟩ }))
      | _ => .next (s.updCore k (fun c => { c with staged := some ⟨ser, none⟩ }))
    else .fault .notEnabled
  | none => .fault .notEnabled

/-! ### Pre-emption requests (R197) -/

/-- Free save areas of a partition. -/
def Sched.freeAreas (d : Sched) : NSet := d.pool.filter (fun a => !d.poolBusy.contains a)
/-- The cores that stop together with a core: those that run its gang (R176). -/
def State.gangOf (s : State) (k : Nat) : List Nat :=
  match (s.core k).task with
  | some t => if t.gang then (nsRange (k / 4 * 4) 4).filter (fun j => j == k || (s.core j).task.any t.mate) else [k]
  | none => [k]
/-- A pre-emption of a core's running task asked for, and of its gang's. -/
def State.askPreempt (s : State) (k : Nat) (yield : Bool) : State :=
  let ks := (s.gangOf k).filter (fun j => (s.core j).mode == CoreMode.running && (s.core j).task.isSome)
  s.updSched (s.corePart k) (fun d => { d with preempts := d.preempts ++
    (ks.filter (fun j => !(d.preempts.any (fun q => q.1 == j)))).map (fun j => (j, yield && j == k)) })
/-- Running tasks of a partition with their cores. -/
def State.runningTasks (s : State) (p : Nat) : List (Nat × Task) :=
  s.cores.filterMap (fun e => if s.corePart e.1 = p ∧ e.2.mode = .running then e.2.task.map (fun t => (e.1, t)) else none)

/-- The victim of a waiting candidate (R197): the running task with the highest effective class, bound last among equals; for a gang the cores of
the cluster whose best running task, the one of the lowest effective class, has the highest, and of equal clusters, where the rule names none, the
lowest (the model's choice, log 52). -/
def State.victim (s : State) (p : Nat) (c : Cand) : List Nat :=
  let run := s.runningTasks p
  if !run.any (fun q => decide (c.e < q.2.ecls)) then []
  else if c.gang then
    let best := (s.fullClusters p).foldl (fun (acc : Option (Nat × Nat)) g =>
      match (run.filter (fun q => q.1 / 4 == g)).map (·.2.ecls) with
      | [] => acc
      | e :: es =>
        let m := es.foldl min e
        match acc with
        | some (_, b) => if b < m then some (g, m) else acc
        | none => some (g, m)) none
    match best with
    | some (g, _) => nsRange (4 * g) 4
    | none => []
  else
    match run.foldl (fun (acc : Option (Nat × Task)) q => match acc with
        | none => some q
        | some a => if a.2.ecls < q.2.ecls ∨ (a.2.ecls = q.2.ecls ∧ a.2.id < q.2.id) then some q else acc) none with
    | some (k, _) => [k]
    | none => []

/-- PREWAIT_EXPIRY (R197): a candidate has waited PREWAIT with no free core. -/
def execPrewaitExpiry (s : State) : Host.Outcome State Fault Refusal :=
  let p := s.part
  let limit := 2000 * (s.getPart p).regs.prewait.toNat
  if (s.partCores p).any s.coreFree ∨ (s.sched p).preempts ≠ [] then .fault .notEnabled
  else match (s.cands p).find? (fun c => decide (limit ≤ s.now - c.since) && (s.victim p c != [])) with
    | some c => .next ((s.victim p c).foldl (fun (s : State) k => s.askPreempt k false) s)
    | none => .fault .notEnabled

/-! ### Forecast (R205) -/

/-- The enabled cores of a quadrant of a die. -/
def State.quadCores (s : State) (d q : Nat) : List Nat :=
  if (s.die d).up then (nsRange (d * 128 + q * 32) 32).filter (fun k => !s.disabled.contains k) else []
/-- Cores of a quadrant that hold a running task. -/
def State.quadRunning (s : State) (d q : Nat) : Nat := ((s.quadCores d q).filter (fun k => (s.core k).mode != CoreMode.idle)).length
/-- Work waiting to be served: iterations and contexts, a gang counting four, at most 65,535. -/
def Sched.waiting (d : Sched) : Nat :=
  let its := (((List.range 4).flatMap d.queue).map (fun ser => match d.rcd? ser with
    | some r => (r.rcd.total (r.n0w.getD (r.rcd.n.getD 0 0)) - r.next) * (if r.rcd.gang then 4 else 1)
    | none => 0)).sum
  min 65535 (its + (d.ctxs.filter (fun x => x.place == CtxPlace.resume)).length)
/-- FCAST of a die (Table 6.7). -/
def State.fcastOf (s : State) (p d : Nat) : Word :=
  let c := (s.partCores p).length
  let w := (s.sched p).waiting
  BitVec.ofNat 64 (((List.range 4).map (fun q =>
    let ks := s.quadCores d q
    let b := (ks.filter (fun k => (s.core k).mode != CoreMode.idle || (s.core k).staged.isSome)).length
    let pred := min ks.length (b + (w * ks.length + (max 1 c - 1)) / max 1 c)
    (b + pred * 2 ^ 8) * 2 ^ (16 * q))).sum)

/-! ### Replays and patches (R199-R202) -/

/-- Whether replay L - 1 is still live. -/
def Sched.olderLive (d : Sched) : Bool := d.replays.any (fun x => x.m + 1 == d.latest)
/-- A patch of a slot for replay L + 1 written. -/
def Sched.patch (d : Sched) (slot : Nat) (v : Word) : Sched :=
  { d with gp := amPut 0 d.gp ((d.latest + 1) % 2 * 64 + slot) v, patched := nsAdd slot d.patched }
/-- The banks at the start of replay L + 1: every slot not patched for it is taken from the other bank (R201). -/
def Sched.turnBanks (d : Sched) : Sched :=
  let m := d.latest + 1
  let d := (List.range 64).foldl (fun (d : Sched) i =>
    if d.patched.contains i then d else { d with gp := amPut 0 d.gp (m % 2 * 64 + i) (amGet 0 d.gp ((m + 1) % 2 * 64 + i)) }) d
  { d with patched := [] }

/-- The records of an Almanac read and checked (R199): NREC and the records; BADARG, or BADREC with the first failing index. -/
def State.readAlmanac (s : State) (p : Nat) (va : Nat) : Except (Nat × Nat) (State × List Record) := do
  let (s, h) ← (s.partRead p va 128).mapError (fun _ => (2, 0))
  let n := fldAt h 4 4
  if fldAt h 0 4 ≠ 1 ∨ n = 0 ∨ 32768 < n ∨ !((h.drop 8).all (· == 0)) then throw (2, 0)
  (List.range n).foldlM (fun (acc : State × List Record) i =>
    match acc.1.partRead p (va + 128 + 128 * i) 128 with
    | .error _ => throw (4, i)
    | .ok (s, bs) =>
      let r := Record.parse bs
      if r.ok bs (some n) then pure (s, acc.2 ++ [r]) else throw (4, i)) (s, [])

/-- The start of replay L + 1 (R199, R201): the status and value to report. -/
def State.startReplay (s : State) (p : Nat) (va : Nat) : State × Nat × Nat :=
  match s.readAlmanac p va with
  | .error (st, v) => (s, st, v)
  | .ok (s, rs) =>
    let m := (s.sched p).latest + 1
    let s := s.updSched p (fun d =>
      let d := d.turnBanks
      let ser0 := d.serial
      let live := ((List.range rs.length).zip rs).map (fun q =>
        (ser0 + q.1, (⟨q.1, q.2, some m, q.2.npred, .preds, 0, none, 0, 0, false, s.now, 0, 0⟩ : RecLive)))
      let d := { d with latest := m, serial := ser0 + rs.length, recs := live.foldl (fun (a : AMap RecLive) e => amSet a e.1 e.2) d.recs
                        replays := d.replays ++ [⟨m, [], 0, false, (s.getPart p).handle⟩] }
      live.foldl (fun (d : Sched) e => if e.2.rcd.npred = 0 then d.becomeReady s.now e.1 else d) d)
    (s.settleQueues p, 0, 0)

/-- READY_LIST_ENTRY (R193). -/
def execReadyListEntry (s : State) : Host.Outcome State Fault Refusal :=
  let d := s.sched s.part
  match d.ready.find? (fun ser => (d.rcd? ser).any (fun r => decide ((d.queue r.rcd.cls).length < 256))) with
  | some ser => .next (((s.updSched s.part (fun d => d.enqueue s.now ser)).settleQueues s.part).dropStale s.part)
  | none => .fault .notEnabled

/-- HELD_REPLAY_START (R200); one refused as it starts is reported as REFUSED. -/
def execHeldReplayStart (s : State) : Host.Outcome State Fault Refusal :=
  let p := s.part
  match (s.sched p).heldReplay with
  | some (va, m) =>
    if (s.sched p).olderLive then .fault .notEnabled
    else
      let s := s.updSched p (fun d => { d with heldReplay := none })
      if m ≠ (s.sched p).latest + 1 then .next s
      else
        let (s, st, _) := s.startReplay p va
        .next ((if st = 0 then s else s.post p 6 p (BitVec.ofNat 64 va) 0).dropStale p)
  | none => .fault .notEnabled

/-! ### SQ instructions (R207-R213) -/

/-- A fault of SQ (R207). -/
def sqTrap (c : Cmd) (cause : Nat) : FaultClass → Word → Trap :=
  fun cls va => ⟨cls, 8, 0, BitVec.ofNat 64 (cause + opOf c.raw * 2 ^ 16), va, none, none⟩
/-- An SQ lane. -/
def sqLane (s : State) (act : M Unit) (pre : M Unit := pure ()) : Host.Outcome State Fault Refusal :=
  xqLane s ⟨Tok.none, [], []⟩ true pre (fun _ => act)
/-- The task of the core in hand. -/
def theTask : M Task := do
  let c ← core
  return c.task.getD ⟨0, 0, 0, 0, [], none, 0, 0, false, 0, 0, 0, 0, 0⟩
/-- A command that its unit keeps (R127). -/
def keepXq (unit : Nat) : M Unit := do
  let s ← get
  modCore (fun c => { c with xq := c.xq ++ [⟨unit, s.cmd, s.now⟩] })
/-- A unit's command of a core completed. -/
def Core.dropXq (c : Core) (unit idx : Nat) : Core := { c with xq := c.xq.filter (fun x => !(x.unit == unit && x.cmd.idx == idx)) }

/-- The status word of `sq.sub` (R208). -/
def subStatus (bad : Bool) (idx : Nat) : List Byte := leBytes 8 (if bad then 1 else idx * 2 ^ 32)

/-- `sq.sub` (R208). -/
def execSqSub (_xa : XReg) (st : Bool) (_xb : XReg) (s : State) : Host.Outcome State Fault Refusal :=
  sqLane s (do
    let xa ← captured 0 (sqTrap s.cmd 3)
    let xb ← if st then captured 1 (sqTrap s.cmd 3) else pure 0
    let mk := sqTrap s.cmd 1
    if xa.toNat % 128 ≠ 0 then raise (mk .align xa)
    let at_ ← if st then (do let o ← resultAt (sqTrap s.cmd 2) xb 8 8; return some o) else pure none
    let b ← readBy (walked .read mk) xa 128
    if b.poisoned then raise (mk .poison xa)
    let p ← partNo
    let t ← theTask
    let r := Record.parse b.bytes
    if r.ok b.bytes none then
      let s' ← get
      let d := s'.sched p
      if d.hasRoom r.cls ∧ !(d.heldSubs.any (fun h => h.rcd.cls == r.cls)) then
        let (d, idx) := d.accept s'.now r t.replay (s'.getPart p).handle
        set (((s'.updSched p (fun _ => d)).settleQueues p).dropStale p)
        match at_ with
        | some o => writeResult o (subStatus false idx)
        | none => pure ()
      else
        keepXq 8
        modify (fun s' => s'.updSched p (fun d => { d with heldSubs := d.heldSubs ++ [⟨s'.cur, s.cmd, r, t.replay, at_⟩] }))
    else
      modify (fun s' => s'.post p 6 p xa (BitVec.ofNat 64 t.id))
      match at_ with
      | some o => writeResult o (subStatus true 0)
      | none => pure ())

/-- HELD_SUBMISSION (R208). -/
def execHeldSubmission (s : State) : Host.Outcome State Fault Refusal :=
  let p := s.part
  let d := s.sched p
  match d.heldSubs.find? (fun h => d.hasRoom h.rcd.cls && !(h.stat.any (fun a => (s.core h.core).streams a 8))) with
  | some h =>
    let d := { d with heldSubs := d.heldSubs.filter (fun x => !(x.core == h.core && x.cmd.idx == h.cmd.idx)) }
    let (d, idx) := d.accept s.now h.rcd h.replay (s.getPart p).handle
    let s := (s.updSched p (fun _ => d)).updCore h.core (fun c =>
      let c := c.dropXq 8 h.cmd.idx
      match h.stat with
      | some o => c.writeSp o (subStatus false idx) []
      | none => c)
    .next ((s.settleQueues p).dropStale p)
  | none => .fault .notEnabled

/-- The gp slot of a task's bank (R201). -/
def Sched.gpRead (d : Sched) (replay : Option Nat) (i : Nat) : Nat := (amGet 0 d.gp ((replay.getD d.latest) % 2 * 64 + i)).toNat

/-- `sq.gpr` (R209). -/
def execSqGpr (cnt : BitVec 4) (slot : BitVec 6) (_xa : XReg) (s : State) : Host.Outcome State Fault Refusal :=
  sqLane s (do
    let xa ← captured 0 (sqTrap s.cmd 3)
    let n := cnt.toNat + 1
    let o ← resultAt (sqTrap s.cmd 2) xa (8 * n) 8
    let p ← partNo
    let t ← theTask
    let s' ← get
    writeResult o ((List.range n).flatMap (fun i => leBytes 8 ((s'.sched p).gpRead t.replay (slot.toNat + i)))))
    (if 63 < slot.toNat + cnt.toNat then do raise (illegalAt 8 0 s.cmd 20 4) else pure ())

/-- `sq.gpw` (R202, R210). -/
def execSqGpw (slot : BitVec 6) (_xa : XReg) (s : State) : Host.Outcome State Fault Refusal :=
  sqLane s (do
    let v ← captured 0 (sqTrap s.cmd 3)
    let p ← partNo
    let t ← theTask
    let s' ← get
    let d := s'.sched p
    match t.replay with
    | some m =>
      if m + 1 ≤ d.latest then modCore (fun c => { c with regs := { c.regs with gpStale := true, gpSlot := slot } })
      else if d.olderLive then
        keepXq 8
        modify (fun s' => s'.updSched p (fun d => { d with heldPatches := d.heldPatches ++ [⟨s'.cur, s.cmd, m + 1, slot.toNat, v⟩] }))
      else modify (fun s' => s'.updSched p (fun d => d.patch slot.toNat v))
    | none => modCore (fun c => { c with regs := { c.regs with gpStale := true, gpSlot := slot } }))

/-- HELD_PATCH (R202): written once replay L - 1 has retired; stale where L has moved on. -/
def execHeldPatch (s : State) : Host.Outcome State Fault Refusal :=
  let p := s.part
  let d := s.sched p
  match d.heldPatches with
  | h :: hs =>
    let stale := decide (h.p ≤ d.latest)
    if d.olderLive ∧ ¬ stale then .fault .notEnabled
    else
      let s := s.updSched p (fun d => { (if stale then d else d.patch h.slot h.v) with heldPatches := hs })
      .next (s.updCore h.core (fun c =>
        let c := c.dropXq 8 h.cmd.idx
        if stale then { c with regs := { c.regs with gpStale := true, gpSlot := BitVec.ofNat 6 h.slot } } else c))
  | [] => .fault .notEnabled

/-- The new value of an acceptance counter (R212). -/
def accUpdate (ac : BitVec 16) (x : Word) : BitVec 16 :=
  let prop := bits x.toNat 0 32
  let acc := bits x.toNat 32 32
  if prop = 0 then ac
  else
    let r : Int := (min 0xFFFF (min acc prop * 65536 / prop) : Nat)
    BitVec.ofInt 16 ((ac.toNat : Int) + (r - (ac.toNat : Int)) / 8)

/-- `sq.acc` (R212). -/
def execSqAcc (k : BitVec 2) (_xa : XReg) (s : State) : Host.Outcome State Fault Refusal :=
  sqLane s (do
    let x ← captured 0 (sqTrap s.cmd 3)
    let p ← partNo
    modify (fun s' => s'.updSched p (fun d => if h : k.toNat < 3 then { d with ac := d.ac.set k.toNat (accUpdate (d.ac[k.toNat]) x) h } else d)))

/-- The block of Table 6.8. Byte 0x2E of a task outside any replay, whose stages the table does not name, is 0: the model's choice (log 52). -/
def coordBlock (t : Task) (stages : NSet) : List Byte :=
  leBytes 8 t.id ++ leBytes 8 t.lin ++ (List.range 4).flatMap (fun d => leBytes 4 (t.idx.getD d 0)) ++ leBytes 8 (t.replay.getD 0) ++
    leBytes 2 t.recIdx ++ leBytes 1 t.cls ++ leBytes 1 t.ecls ++ leBytes 1 t.gpos ++ leBytes 1 t.dstage ++
    leBytes 1 ((stages.map (2 ^ ·)).sum) ++ leBytes 1 0 ++ leBytes 8 t.handle.toNat ++ leBytes 4 t.n0w ++ leBytes 4 0

/-- `sq.crd` (R213). -/
def execSqCrd (_xa : XReg) (s : State) : Host.Outcome State Fault Refusal :=
  sqLane s (do
    let xa ← captured 0 (sqTrap s.cmd 3)
    let o ← resultAt (sqTrap s.cmd 2) xa 64 64
    let p ← partNo
    let t ← theTask
    let s' ← get
    let stages := ((s'.sched p).replays.find? (fun x => t.replay == some x.m)).elim [] (·.stages)
    writeResult o (coordBlock t stages))

/-- The answer to a yield (R211): pre-emption at the yield, which the want of a save area defers (R197), or fetch resumes; with ALW the task
continues where no save area is free. -/
def yieldLane (alw : Bool) (s : State) : Host.Outcome State Fault Refusal :=
  sqLane s (do
    let p ← partNo
    let t ← theTask
    let s' ← get
    let d := s'.sched p
    let areas := decide ((s'.gangOf s'.cur).length ≤ d.freeAreas.length)
    let wanted := if alw then areas else !(s'.partCores p).any s'.coreFree && (s'.cands p).any (fun c => decide (c.e ≤ t.ecls))
    if wanted then set (s'.askPreempt s'.cur true)
    else modCore (fun c => { c with fetch := { c.fetch with yield := false } }))
/-- `sq.yield` (R211). -/
def execSqYield (s : State) : Host.Outcome State Fault Refusal := yieldLane false s
/-- `sq.yield.al` (R211). -/
def execSqYieldAl (s : State) : Host.Outcome State Fault Refusal := yieldLane true s

/-! ### The end of a task (R165, R30) -/

/-- Whether everything a task started has completed: queues, transfers, holds, unsent tokens and the units' commands. -/
def Core.allDone (c : Core) : Bool :=
  c.qs.toList.all (·.isEmpty) && c.cp.jrn.toList.all (·.isEmpty) && c.holds.isEmpty && c.unsent.isEmpty && c.xq.isEmpty &&
    c.loops.isEmpty && c.mx.nest.isNone

/-- EXIT_COMPLETION (R165): the token check (R30), the end of the task's state, and its record's completion (R193). -/
def execExitCompletion (s : State) : Host.Outcome State Fault Refusal :=
  let k := s.cur
  let c := s.core k
  match c.exiting, c.task with
  | some status, some t =>
    if c.mode = .running ∧ c.allDone ∧ c.fetch.spec.isNone then
      match (List.range 8).find? (fun f => decide (0 < c.tokCount f)) with
      | some f =>
        let dst := fifoDst f
        .next (takeFault s k ⟨.token, slotEng dst, 0, 0, 0, none, none⟩ (c.cidx[slotCtr dst]) 0)
      | none =>
        let p := s.corePart k
        let s := s.setCore k { c.fresh with staged := c.staged }
        let s := s.updSched p (fun d => { d with preempts := d.preempts.filter (fun q => q.1 != k) })
        .next (((s.taskEnded p t status.toNat false).releaseGang (k / 4)).dropStale p)
    else .fault .notEnabled
  | _, _ => .fault .notEnabled

/-- TOKEN (R30): an engine waits on an empty FIFO whose sender has reached the end of the task's stream. -/
def execToken (slot : BitVec 4) (s : State) : Host.Outcome State Fault Refusal :=
  let k := s.cur
  let c := s.core k
  let n := slot.toNat
  match c.headEntry n, amFind n c.waits with
  | some (.cmd m), some w =>
    let f := w.wsa.toNat
    let src := fifoSrc f
    if c.mode = .running ∧ w.kind = 2 ∧ fifoDst f = n ∧ c.tokCount f = 0 ∧ c.fetch.ended ∧ (c.queue src).isEmpty ∧
        c.unsent.all (fun u => u.2.1 != f) ∧ c.fetch.spec.isNone ∧ c.loops.isEmpty then
      .next (takeFault s k ⟨.token, slotEng n, 0, BitVec.ofNat 64 (opOf m.raw * 2 ^ 16), 0, none, none⟩ m.idx m.lane)
    else .fault .notEnabled
  | _, _ => .fault .notEnabled

end Sys2Proof.Machine
end

