-- ==== Sys2Proof/Machine/VxMath.lean ====
section
/-! DEFINITION. Element arithmetic of the vector engine with the status bits it sets: conversions, the reference sequences of the
transcendentals, reduction nodes, the noise function (09_vector_engine R260-R280, 03_numbers). -/

namespace Sys2Proof.Machine

/-- ISAT, OVF, NANG of VXINFO (Table 9.8). -/
structure VFlags where
  isat : Bool
  ovf : Bool
  nang : Bool
  deriving DecidableEq, Repr

/-- No status bit. -/
def VFlags.none : VFlags := ⟨false, false, false⟩
/-- Both. -/
def VFlags.or (a b : VFlags) : VFlags := ⟨a.isat || b.isat, a.ovf || b.ovf, a.nang || b.nang⟩
/-- The bits of VXINFO. -/
def VFlags.bits (f : VFlags) : List Nat := (if f.isat then [6] else []) ++ (if f.ovf then [5] else []) ++ (if f.nang then [4] else [])

/-- An element and the status bits its computation sets. -/
abbrev VEl := Nat × VFlags

/-- A floating result with its status bits: OVF for a finite exact value that left the range, NANG for a NaN none of the
operands is. -/
def fResult (w : Nat) (ops : List Nat) (exact : Exact) (r : Nat) : VEl :=
  let fin := ops.all (fun x => !fNan w x && !fInf w x)
  let big := decide (exact.d * 2 ^ 128 ≤ exact.n.natAbs)
  (r, ⟨false, fin && (fInf w r || big), fNan w r && !ops.any (fNan w)⟩)

/-- An integer result: exact and clamped, or modulo the width (R88). -/
def iResult (t : Fmt) (sat : Bool) (i : Int) : VEl :=
  if sat then (intEnc (Fmt.size t) (satInt t i), ⟨decide (satInt t i ≠ i), false, false⟩) else (intEnc (Fmt.size t) i, VFlags.none)

/-- Addition and subtraction (R260). -/
def vAdd (t : Fmt) (rm : Rm) (sat neg : Bool) (a b : Nat) : VEl :=
  if t.isFloat then
    let w := fracW t
    let vb := fVal w b
    fResult w [a, b] ((fVal w a).add (if neg then vb.neg else vb)) (fAdd w rm false a b neg)
  else iResult t sat (if neg then intVal t a - intVal t b else intVal t a + intVal t b)
/-- Multiplication (R260). -/
def vMul (t : Fmt) (rm : Rm) (sat : Bool) (a b : Nat) : VEl :=
  if t.isFloat then
    let w := fracW t
    fResult w [a, b] ((fVal w a).mul (fVal w b)) (fMul w rm false a b)
  else iResult t sat (intVal t a * intVal t b)
/-- Fused multiply-add and -subtract (R261). -/
def vFma (t : Fmt) (rm : Rm) (neg : Bool) (a b c : Nat) : VEl :=
  let w := fracW t
  let vc := fVal w c
  fResult w [a, b, c] (((fVal w a).mul (fVal w b)).add (if neg then vc.neg else vc)) (fFma w rm a b c neg)
/-- Minimum and maximum (R262). -/
def vMinMax (t : Fmt) (isMax : Bool) (a b : Nat) : VEl :=
  if t.isFloat then (fMinMax (fracW t) isMax a b, VFlags.none)
  else
    let x := intVal t a
    let y := intVal t b
    (if isMax then (if x < y then b else a) else if y < x then b else a, VFlags.none)
/-- A NaN with its quiet bit set. -/
def fQuiet (w x : Nat) : Nat := if fNan w x ∧ x / 2 ^ (w - 1) % 2 = 0 then x + 2 ^ (w - 1) else x
/-- `vabs` and `vneg` (R262). -/
def vAbsNeg (t : Fmt) (neg sat : Bool) (a : Nat) : VEl :=
  if t.isFloat then
    let w := fracW t
    let mag := a % 2 ^ (w + 8)
    (fQuiet w (if neg ∧ ¬ fNeg w a then mag + 2 ^ (w + 8) else mag), VFlags.none)
  else
    let i := intVal t a
    iResult t sat (if neg then -i else if i < 0 then -i else i)

/-- A comparison (R263). -/
def vCond (t : Fmt) (c : VCond) (a b : Nat) : Bool :=
  if t.isFloat then
    let w := fracW t
    let nan := fNan w a || fNan w b
    let lt := !nan && fLt w a b
    let gt := !nan && fLt w b a
    let eq := fEq w a b
    match c with
    | .eq => eq | .ne => !eq | .lt => lt | .le => lt || eq | .gt => gt | .ge => gt || eq
  else
    let x := intVal t a
    let y := intVal t b
    match c with
    | .eq => decide (x = y) | .ne => decide (x ≠ y) | .lt => decide (x < y) | .le => decide (x ≤ y)
    | .gt => decide (y < x) | .ge => decide (y ≤ x)
/-- The unsigned tag of a size (R263). -/
def maskTag (t : Fmt) : Fmt := if Fmt.size t = 8 then .z8 else if Fmt.size t = 16 then .z16 else if Fmt.size t = 32 then .z32 else .z64

/-- Shifts (R264): the count is the element's bits 7:0. -/
def vShift (t : Fmt) (left ari : Bool) (a b : Nat) : VEl :=
  let n := Fmt.size t
  let c := b % 256
  (if left then (if c < n then a * 2 ^ c % 2 ^ n else 0)
   else if ari then intEnc n (sext n a / (2 ^ min c n : Nat))
   else if c < n then a / 2 ^ c else 0, VFlags.none)

/-! ### Conversions (R265, Table 3.7) -/

/-- A conversion of one element between formats that are not block formats, with its status bits. -/
def vConv (s d : Fmt) (rm : Rm) (sat : Bool) (v : Nat) : VEl :=
  let r := convElem s d rm sat v
  if s = d ∨ s = .raw ∨ d = .raw then (v, VFlags.none)
  else if s.isFloat then
    let ws := fracW s
    if fNan ws v then (r, VFlags.none)
    else if d.isFloat then
      let wd := fracW d
      if fInf ws v then (r, ⟨sat, sat, false⟩)
      else
        let x := fVal ws v
        let ovf := fInf wd (roundFp0 wd rm false x) || decide (x.d * 2 ^ 128 ≤ x.n.natAbs)
        (r, ⟨ovf && sat, ovf, false⟩)
    else if fInf ws v then (r, ⟨true, false, false⟩)
    else
      let i := roundInt rm (fVal ws v)
      (r, ⟨decide (satInt d i ≠ i), false, false⟩)
  else if d.isFloat then (r, VFlags.none)
  else (r, ⟨decide (satInt d (intVal s v) ≠ intVal s v), false, false⟩)

/-- A block element under its scale converted (Table 3.7). -/
def vFromBlock (s d : Fmt) (rm : Rm) (sat : Bool) (scale v : Nat) : VEl :=
  let x := blockElem s (scale % 2 ^ 24) (intVal s v)
  let r := if d = .f32 then (if sat ∧ fInf 23 x then (fMax 23 (fNeg 23 x), ⟨true, true, false⟩) else (x, VFlags.none)) else vConv .f32 d rm sat x
  (r.1, r.2.or ⟨false, false, fNan 23 x⟩)

/-- Whether saturation changes a code of a quantised block (R96). -/
def quantSat (s d : Fmt) (vs : List Nat) (sc : Nat) : Bool :=
  if s24Zero sc || s24Nan sc then false
  else
    let sv := s24Val sc
    vs.any (fun v => match quantVal s v with
      | some x =>
        let r := roundInt .rne ⟨x.n * (2 ^ (codeW d - 1) : Nat) * sv.d, x.d * sv.n.natAbs⟩
        decide (satInt d r ≠ r)
      | none => false)

/-! ### Transcendentals (R267-R272) -/

/-- A constant of Table 9.5, in units of 10^-10. -/
def fConst (n : Int) : Nat := roundFp 23 .rne false ⟨n, 10 ^ 10⟩
/-- fma of R267. -/
def fma32 (a b c : Nat) : Nat := fFma 23 .rne a b c false
/-- mul of R267. -/
def mul32 (a b : Nat) : Nat := fMul 23 .rne false a b
/-- add of R267. -/
def add32 (a b : Nat) : Nat := fAdd 23 .rne false a b false
/-- div of R267 for a finite dividend and a finite divisor that is not zero. -/
def div32 (a b : Nat) : Nat :=
  let x := fVal 23 a
  let y := fVal 23 b
  if x.isZero then fPack 23 (fNeg 23 a != fNeg 23 b) 0
  else roundFp 23 .rne false ⟨if y.n < 0 then -(x.n * y.d) else x.n * y.d, x.d * y.n.natAbs⟩
/-- 1.0 -/
def f1 : Nat := 0x3F800000
/-- p := c0; p := fma(p, z, c1); ... -/
def horner (z : Nat) : List Nat → Nat → Nat
  | [], p => p
  | c :: cs, p => horner z cs (fma32 p z c)
/-- An exact value times a power of two, rounded. -/
def scale32 (neg : Bool) (x : Exact) (e : Int) : Nat :=
  if x.isZero then fPack 23 neg 0
  else
    let m : Exact := ⟨x.n.natAbs, x.d⟩
    let y : Exact := if 0 ≤ e then ⟨m.n * (2 ^ e.toNat : Nat), m.d⟩ else ⟨m.n, m.d * 2 ^ (-e).toNat⟩
    roundFp 23 .rne false ⟨if neg then -y.n else y.n, y.d⟩
/-- The decomposition |x| = m * 2^e of a finite non-zero x, m as an encoding in [1, 2). -/
def decomp (x : Nat) : Int × Nat :=
  let e := fExp 23 x
  let f := fFrac 23 x
  if e ≠ 0 then ((e : Int) - 127, 127 * 2 ^ 23 + f)
  else
    let p := Nat.log2 f
    ((p : Int) - 149, 126 * 2 ^ 23 + f * 2 ^ (23 - p))

/-- `vexp2` (R268). -/
def exp2_32 (x : Nat) : Nat :=
  if fNan 23 x then fQuiet 23 x
  else if fInf 23 x then (if fNeg 23 x then 0 else fMkInf 23 false)
  else
    let v := fVal 23 x
    if (v.d * 128 : Nat) ≤ v.n then fMkInf 23 false
    else if v.n < -((v.d * 151 : Nat) : Int) then 0
    else
      let n := roundInt .rne v
      let f := roundFp0 23 .rne false (v.add ⟨-n, 1⟩)
      let p := horner f [fConst 1540353, fConst 13333558, fConst 96181291, fConst 555041087, fConst 2402265070, fConst 6931471806, f1] (fConst 152527)
      scale32 false (fVal 23 p) n

/-- `vlog2` (R269). -/
def log2_32 (x : Nat) : Nat :=
  if fNan 23 x then fQuiet 23 x
  else if fZero 23 x then fMkInf 23 true
  else if fNeg 23 x then fMkNan 23 5
  else if fInf 23 x then x
  else
    let (e, m) := decomp x
    let (e, m) := if 0x3FB504F3 < m then (e + 1, m - 2 ^ 23) else (e, m)
    let f := roundFp0 23 .rne false ((fVal 23 m).add ⟨-1, 1⟩)
    let s := div32 f (add32 0x40000000 f)
    let z := mul32 s s
    let p := horner z [fConst 3205988980, fConst 4121985831, fConst 5770780164, fConst 9617966939, fConst 28853900818] (fConst 2623081893)
    add32 (roundFp0 23 .rne false ⟨e, 1⟩) (mul32 p s)

/-- One step of the reciprocal's refinement. -/
def rcpStep (m y : Nat) : Nat := fma32 y (fma32 (m + 2 ^ 31) y f1) y
/-- `vrcp` (R270). -/
def rcp_32 (x : Nat) : Nat :=
  if fNan 23 x then fQuiet 23 x
  else if fZero 23 x then fMkInf 23 (fNeg 23 x)
  else if fInf 23 x then fPack 23 (fNeg 23 x) 0
  else
    let (e, m) := decomp x
    let y := fma32 (fConst (-18823529412)) m (fConst 28235294118)
    scale32 (fNeg 23 x) (fVal 23 (rcpStep m (rcpStep m (rcpStep m y)))) (-e)

/-- One step of the reciprocal square root's refinement. -/
def rsqStep (m y : Nat) : Nat := fma32 (mul32 0x3F000000 y) (fma32 (m + 2 ^ 31) (mul32 y y) f1) y
/-- `vrsq` (R271). -/
def rsq_32 (x : Nat) : Nat :=
  if fNan 23 x then fQuiet 23 x
  else if fZero 23 x then fMkInf 23 (fNeg 23 x)
  else if fNeg 23 x then fMkNan 23 5
  else if fInf 23 x then 0
  else
    let (e, m) := decomp x
    let (e, m) := if e % 2 = 1 then (e - 1, m + 2 ^ 23) else (e, m)
    let y := fma32 (fConst (-1666666700)) m (fConst 11033000000)
    scale32 false (fVal 23 (rsqStep m (rsqStep m (rsqStep m (rsqStep m y))))) (-(e / 2))

/-- `vtanh` (R272). -/
def tanh_32 (x : Nat) : Nat :=
  let a := x % 2 ^ 31
  let sign (q : Nat) : Nat := q % 2 ^ 31 + x / 2 ^ 31 % 2 * 2 ^ 31
  if fNan 23 x then fQuiet 23 x
  else if 0x41180000 ≤ a then sign f1
  else if a < 0x39800000 then x
  else if a < 0x3F000000 then
    let z := mul32 x x
    let p := horner z [fConst 35921280, fConst (-88632355), fConst 218694885, fConst (-539682540), fConst 1333333333, fConst (-3333333333)]
      (fConst (-14558344))
    fma32 (mul32 p z) x x
  else
    let u := exp2_32 (mul32 a (fConst (-28853900818)))
    sign (div32 (add32 f1 (if u < 2 ^ 31 then u + 2 ^ 31 else u - 2 ^ 31)) (add32 f1 u))

/-- A transcendental on an element of `.f32` or `.bf16`: a BF16 one widened, its result rounded (R267). -/
def vTrans (f : Nat → Nat) (t : Fmt) (a : Nat) : VEl :=
  let x := if t = .bf16 then convElem .bf16 .f32 .rne false a else a
  let r := f x
  let fin := !fNan 23 x && !fInf 23 x && !fZero 23 x
  let y := if t = .bf16 then convElem .f32 .bf16 .rne false r else r
  (y, ⟨false, fin && fInf (fracW t) y, fNan 23 r && !fNan 23 x⟩)

/-! ### Reductions and scans (R273, R274) -/

/-- A node on FP32 encodings. -/
def fNode (f : VRed) (a b : Nat) : VEl :=
  match f with
  | .add => vAdd .f32 .rne false false a b
  | .max | .amax => vMinMax .f32 true a b
  | .min => vMinMax .f32 false a b
/-- A node on integer elements of a tag. -/
def iNode (f : VRed) (t : Fmt) (sat : Bool) (a b : Nat) : VEl :=
  match f with
  | .add => vAdd t .rne sat false a b
  | .max | .amax => vMinMax t true a b
  | .min => vMinMax t false a b

/-- One level of the pairwise tree. -/
def pairUp (node : Nat → Nat → VEl) : List VEl → List VEl
  | a :: b :: l =>
    let r := node a.1 b.1
    (r.1, (a.2.or b.2).or r.2) :: pairUp node l
  | l => l
/-- The fixed pairwise tree over a power of two of leaves. -/
def treeRed (node : Nat → Nat → VEl) : Nat → List VEl → VEl
  | 0, l => l.headD (0, VFlags.none)
  | n + 1, l => if l.length ≤ 1 then l.headD (0, VFlags.none) else treeRed node n (pairUp node l)

/-- A leaf: widened from BF16, and its magnitude for `.amax`, but of a NaN, whose sign stays (R98). -/
def redLeaf (f : VRed) (t : Fmt) (sat : Bool) (v : Nat) : VEl :=
  if t.isFloat then
    let x := if t = .bf16 then convElem .bf16 .f32 .rne false v else v
    (if f = .amax ∧ fNan 23 x = false then x % 2 ^ 31 else x, VFlags.none)
  else if f = .amax then vAbsNeg t false sat v else (v, VFlags.none)

/-- One reduction (R273). -/
def vReduce (f : VRed) (t : Fmt) (sat : Bool) (vs : List Nat) : VEl :=
  treeRed (if t.isFloat then fNode f else iNode f t sat) 8 (vs.map (redLeaf f t sat))

/-- The identity of an exclusive scan. -/
def scanIdent (f : VScan) (t : Fmt) : Nat :=
  match f with
  | .add => 0
  | .max => if t.isFloat then fMkInf (fracW t) true else intEnc (Fmt.size t) (intMin t)
  | .min => if t.isFloat then fMkInf (fracW t) false else intEnc (Fmt.size t) (intMax t)
/-- A scan's operation as a reduction's. -/
def scanRed : VScan → VRed
  | .add => .add | .max => .max | .min => .min
/-- A segmented scan of elements with their head flags (R274): `acc` is the accumulator, an FP32 encoding for a floating tag. -/
def scanGo (f : VScan) (t : Fmt) (sat exc : Bool) : Nat → List (Nat × Bool) → List VEl
  | _, [] => []
  | acc, (a, head) :: l =>
    let wide := if t = .bf16 then convElem .bf16 .f32 .rne false a else if t = .f32 ∧ fNan 23 a = true then fQuiet 23 a else a
    let out (v : Nat) : VEl := if t = .bf16 then vConv .f32 .bf16 .rne false v else (v, VFlags.none)
    if head then (if exc then (scanIdent f t, VFlags.none) else out wide) :: scanGo f t sat exc wide l
    else
      let r := if t.isFloat then fNode (scanRed f) acc wide else iNode (scanRed f) t sat acc wide
      let o := if exc then out acc else out r.1
      (o.1, o.2.or r.2) :: scanGo f t sat exc r.1 l

/-! ### Noise (R280) -/

/-- One round of the mixing function. -/
def mixRound (xy : Nat × Nat) (w : Nat) : Nat × Nat :=
  let m := 2 ^ 32
  let (x, y) := xy
  let x := (x + (y * 32 % m + y / 2 ^ 27) + w) % m
  let x := x ^^^ (x / 2 ^ 15)
  let x := x * 0x2C1B3C6D % m
  let y := y ^^^ x ^^^ (x / 2 ^ 12)
  (x, y * 0x297A2D39 % m)
/-- mix(s, c). -/
def rngMix (s c : Nat) : Nat :=
  let m := 2 ^ 32
  let (x, y) := ([0x51ED2701, 0x8B3A94C5, 0x2F60D18B, 0xC47E0A53] : List Nat).foldl mixRound
    ((c % m) ^^^ (s % m), (c / m % m) ^^^ (s / m % m))
  x ^^^ (y / 2 ^ 16)
/-- An output of `vrng`. -/
def rngOut (f : VRng) (m : Nat) : Nat :=
  match f with
  | .bits => m
  | .unif => roundFp0 23 .rne false ⟨(m / 2 ^ 8 : Nat), 2 ^ 24⟩
  | .open => roundFp0 23 .rne false ⟨(m / 2 ^ 9 * 2 + 1 : Nat), 2 ^ 24⟩

end Sys2Proof.Machine
end

