-- ==== Sys2Proof/Machine/Attn.lean ====
section
/-! DEFINITION. Attention (14_attention R403-R432): KV blocks, sequences, prefixes and trees, the attention arithmetic, and the AT
commands of the XQ port. -/

namespace Sys2Proof.Machine

/-! ### Arithmetic (R414-R418) -/

/-- div of R267 with its special values (R97, R98). -/
def fDiv (a b : Nat) : Nat :=
  match pickNan 23 [a, b] with
  | some n => n
  | none =>
    let neg := fNeg 23 a != fNeg 23 b
    if fInf 23 a then (if fInf 23 b then fMkNan 23 4 else fMkInf 23 neg)
    else if fInf 23 b then fPack 23 neg 0
    else if fZero 23 b then (if fZero 23 a then fMkNan 23 4 else fMkInf 23 neg)
    else div32 a b

/-- A contribution rounded once to FP32. -/
def Contrib.round : Contrib → Nat
  | .enc x => x
  | .val v => roundFp0 23 .rne false v

/-- The exact sum of products of FP32 and BF16 elements, rounded once; special values by R97 and R98 in the order of R102. -/
def weigh (ps vs : List Nat) : Nat :=
  let ws := vs.map (convElem .bf16 .f32 .rne false)
  let qs := List.zip ps ws
  match pickNan 23 (qs.flatMap (fun q => [q.1, q.2])) with
  | some n => n
  | none =>
    if qs.any (fun q => (fZero 23 q.1 && fInf 23 q.2) || (fInf 23 q.1 && fZero 23 q.2)) then fMkNan 23 4
    else
      let infs := qs.filter (fun q => fInf 23 q.1 || fInf 23 q.2)
      let pos := infs.any (fun q => fNeg 23 q.1 == fNeg 23 q.2)
      let neg := infs.any (fun q => fNeg 23 q.1 != fNeg 23 q.2)
      if pos && neg then fMkNan 23 3 else if pos then fMkInf 23 false else if neg then fMkInf 23 true
      else roundFp0 23 .rne false (qs.foldl (fun (a : Exact) q => a.add ((fVal 23 q.1).mul (fVal 23 q.2))) ⟨0, 1⟩)

/-- The elements of a key or value. -/
def kvEls (x : BitVec 2048) : List Nat := unpackEls 16 128 x.toNat

/-- The triple of a group of attended tokens with their slots; none when it is empty (R415). -/
def triple (q : List Nat) (ents : List (Nat × KvTok)) : Option Tri :=
  if ents = [] then none
  else
    let s := ents.map (fun e => (bfContrib q (kvEls e.2.k)).round)
    let m := (s.drop 1).foldl (fMinMax 23 true) (s.headD 0)
    let p := s.map (fun x => exp2_32 (fAdd 23 .rne false x m true))
    let slots := (List.range 64).map (fun i => (((ents.map (·.1)).zip p).find? (fun e => e.1 == i)).elim 0 (·.2))
    let l := (treeRed (fNode .add) 6 (slots.map (fun x => (x, VFlags.none)))).1
    let cols := ents.map (fun e => kvEls e.2.v)
    some ⟨m, l, (List.range 128).map (fun d => weigh p (cols.map (fun c => c.getD d 0)))⟩

/-- The merge of two triples (R416). -/
def mergeTri (a b : Option Tri) : Option Tri :=
  match a, b with
  | none, b => b
  | a, none => a
  | some a, some b =>
    let m := fMinMax 23 true a.m b.m
    let x := exp2_32 (fAdd 23 .rne false a.m m true)
    let y := exp2_32 (fAdd 23 .rne false b.m m true)
    some ⟨m, add32 (mul32 a.l x) (mul32 b.l y), List.zipWith (fun u v => add32 (mul32 u x) (mul32 v y)) a.o b.o⟩

/-- The root triple over the chiplets (R417). -/
def rootTri (ts : List (Option Tri)) : Option Tri :=
  let t (j : Nat) : Option Tri := ts.getD j none
  if ts.length = 4 then mergeTri (mergeTri (t 0) (t 1)) (mergeTri (t 2) (t 3))
  else if ts.length = 2 then mergeTri (t 0) (t 1) else t 0

/-- The output elements of a query (R418). -/
def outEls (t : Option Tri) : List Nat :=
  match t with
  | none => List.replicate 128 0
  | some t => t.o.map (fun x => convElem .f32 .bf16 .rne false (fDiv x t.l))

/-! ### Geometry, blocks and the inverted table (R403-R405) -/

/-- NLAYER, NHG and NSEQ of a partition (Table 14.7). -/
def State.geo (s : State) (p : Nat) : Nat × Nat × Nat :=
  let g := (s.getPart p).regs.atgeo.toNat
  (bits g 0 8 + 1, bits g 8 4 + 1, bits g 32 16 + 1)
/-- Chiplets of a partition, C. -/
def State.kvC (s : State) (p : Nat) : Nat := max 1 (s.getPart p).dies.length
/-- The chiplet of an index. -/
def State.kvChip (s : State) (p j : Nat) : Nat := (s.getPart p).dies.getD j 0
/-- The KV state of a partition. -/
def State.kv (s : State) (p : Nat) : Kv := (s.getPart p).kv
/-- The KV state changed. -/
def State.updKv (s : State) (p : Nat) (f : Kv → Kv) : State := s.updPart p (fun x => { x with kv := f x.kv })
/-- A sequence never opened. -/
def Seq.free : Seq := ⟨.free, 0, 0, 0, 0, [], [], []⟩
/-- A sequence. -/
def State.seq (s : State) (p sid : Nat) : Seq := amGet Seq.free (s.kv p).seqs sid
/-- A sequence replaced. -/
def State.setSeq (s : State) (p sid : Nat) (x : Seq) : State := s.updKv p (fun k => { k with seqs := amPut Seq.free k.seqs sid x })
/-- A prefix never published. -/
def Prefix.free : Prefix := ⟨.free, 0, 0, 0⟩
/-- A prefix. -/
def State.prefix_ (s : State) (p pid : Nat) : Prefix := amGet Prefix.free (s.kv p).prefixes pid
/-- A prefix replaced. -/
def State.setPrefix (s : State) (p pid : Nat) (x : Prefix) : State :=
  s.updKv p (fun k => { k with prefixes := amPut Prefix.free k.prefixes pid x })

/-- Blocks a chiplet's pool holds. -/
def State.pool (s : State) (p j : Nat) : Nat :=
  let c := s.chips.getD (s.kvChip p j) Chiplet.reset
  c.kvLen / (32768 * (s.geo p).2.1)
/-- Entries of a chiplet's inverted table in use. -/
def State.kvBlocks (s : State) (p j : Nat) : List KvBlock := amGet [] (s.kv p).blocks j
/-- Physical blocks of a chiplet in use: present, freed but still read, and tree blocks. -/
def State.poolUsed (s : State) (p j : Nat) : Nat :=
  ((s.kvBlocks p j).filter (fun b => !b.absent)).length + (amGet [] (s.kv p).dying j).length +
    (((s.kv p).seqs.filter (fun e => e.1 % s.kvC p == j)).map (fun e => e.2.tree.length)).sum
/-- The entry of a key. -/
def State.kvFind (s : State) (p owner layer b : Nat) : Option KvBlock :=
  (s.kvBlocks p (b % s.kvC p)).find? (fun x => x.owner == owner && x.layer == layer && x.b == b)
/-- The hash of a key (R405). -/
def kvHash (owner layer b : Nat) : Nat := ((owner * 0x7A3D59C1) ^^^ (layer * 0x3B9527E5) ^^^ (b * 0x51F0A66D)) % 2 ^ 32
/-- The least w with 2^w not below a pool's blocks. -/
def tableBits (pool : Nat) : Nat := if pool ≤ 1 then 0 else Nat.log2 (pool - 1) + 1
/-- The place of a new key: a probed bucket, the overflow list, or none. -/
def State.kvPlace (s : State) (p j owner layer b : Nat) : Option (Option Nat) :=
  let w := tableBits (s.pool p j)
  let bs := s.kvBlocks p j
  match ((List.range 8).map (fun i => (kvHash owner layer b / 2 ^ (32 - w) + i) % 2 ^ w)).find? (fun x => bs.all (fun y => y.bucket != some x)) with
  | some x => some (some x)
  | none => if (bs.filter (fun y => y.bucket.isNone)).length < 65536 then some none else none
/-- An entry put into the table; none where pool or table is full. -/
def State.kvInsert (s : State) (p : Nat) (x : KvBlock) : Option State :=
  let j := x.b % s.kvC p
  if s.pool p j ≤ s.poolUsed p j then none
  else (s.kvPlace p j x.owner x.layer x.b).map (fun pl =>
    s.updKv p (fun k => { k with blocks := amSet k.blocks j (amGet [] k.blocks j ++ [{ x with bucket := pl }]) }))
/-- A key's block, allocated where it has none; none where it cannot be. -/
def State.kvAlloc (s : State) (p owner layer b : Nat) : Option State :=
  if (s.kvFind p owner layer b).isSome then some s else s.kvInsert p ⟨owner, layer, b, none, false, []⟩
/-- An entry changed. -/
def State.kvUpd (s : State) (p owner layer b : Nat) (f : KvBlock → KvBlock) : State :=
  let j := b % s.kvC p
  s.updKv p (fun k => { k with blocks := amSet k.blocks j ((amGet [] k.blocks j).map (fun x =>
    if x.owner = owner ∧ x.layer = layer ∧ x.b = b then f x else x)) })

/-- A key or value never written: +0. -/
def KvTok.zero : KvTok := ⟨0, 0, false⟩
/-- The number that stands for a sequence's tree block of a layer among the blocks a snapshot reads. -/
def treeB : Nat := 2 ^ 20

/-- Merge points of an `aq.send`. -/
def AtOp.points (o : AtOp) : List Nat :=
  if o.status ≠ 0 then [] else if o.trip.length = 4 then [0, 1, 2] else if o.trip.length = 2 then [2]
  else if o.trip.any Option.isNone then [2] else []
/-- The chiplets whose contributions a merge point takes. -/
def AtOp.inputs (o : AtOp) (pt : Nat) : List Nat :=
  if o.trip.length = 4 then (if pt = 0 then [0, 1] else if pt = 1 then [2, 3] else []) else List.range o.trip.length
/-- Whether every contribution has been delivered and the result has come to the port. -/
def AtOp.ready (o : AtOp) : Bool := o.points.all (fun pt => o.done.contains pt)
/-- The outstanding `aq.send`s of a partition that read a block, and have not been delivered. -/
def State.readers (s : State) (p : Nat) (key : Nat × Nat × Nat) : List (Nat × Nat) :=
  s.cores.flatMap (fun e => if s.corePart e.1 = p then
    (e.2.atq.filter (fun o => !o.ready && o.reads.contains key)).map (fun o => (e.1, o.idx)) else [])
/-- A physical block freed: back in the pool, unless a snapshot still reads it (R408). -/
def State.kvRelease (s : State) (p j : Nat) (key : Nat × Nat × Nat) : State :=
  match s.readers p key with
  | [] => s
  | us => s.updKv p (fun k => { k with dying := amSet k.dying j (amGet [] k.dying j ++ [⟨key.1, us⟩]) })
/-- The blocks of an owner that `f` names freed. -/
def State.kvDrop (s : State) (p owner : Nat) (f : KvBlock → Bool) : State :=
  (List.range (s.kvC p)).foldl (fun (s : State) j =>
    let gone := (s.kvBlocks p j).filter (fun x => x.owner == owner && f x)
    let s := s.updKv p (fun k => { k with blocks := amSet k.blocks j ((amGet [] k.blocks j).filter (fun x => !(x.owner == owner && f x))) })
    gone.foldl (fun (s : State) x => if x.absent then s else s.kvRelease p j (owner, x.layer, x.b)) s) s
/-- A sequence's tree blocks freed. -/
def State.treeDrop (s : State) (p sid : Nat) : State :=
  let x := s.seq p sid
  let s := s.setSeq p sid { x with tree := [] }
  x.tree.foldl (fun (s : State) e => s.kvRelease p (sid % s.kvC p) (sid, e.1, treeB)) s

/-! ### Sequences (R406, R411-R413) -/

/-- The first prefix owner (R405). -/
def pfxOwner (pid : Nat) : Nat := 0x1000000 + pid
/-- The owner of a committed position's block, or none where its token is still a tree node; the node then. -/
def Seq.place (x : Seq) (sid pos : Nat) : Nat × Option Nat :=
  let base := x.len - x.pend.length
  if pos < x.plen then (pfxOwner (x.pfx % 4096), none)
  else if base + x.ncomp ≤ pos then (sid, x.pend[pos - base]?)
  else (sid, none)
/-- A node's token. -/
def Seq.nodeTok (x : Seq) (layer hg node : Nat) : KvTok := amGet KvTok.zero (amGet [] x.tree layer) (64 * hg + node)
/-- The token of a committed position; none where its block is ABSENT. -/
def State.tokAt (s : State) (p sid layer hg pos : Nat) : Option KvTok :=
  let x := s.seq p sid
  match x.place sid pos with
  | (_, some n) => some (x.nodeTok layer hg n)
  | (o, none) =>
    match s.kvFind p o layer (pos / 64) with
    | none => some KvTok.zero
    | some b => if b.absent then none else some (amGet KvTok.zero b.toks (64 * hg + pos % 64))
/-- A node and its ancestors. -/
def Seq.ancestors (x : Seq) : Nat → Nat → List Nat
  | 0, _ => []
  | n + 1, k => match amFind k x.nodes with
    | some par => k :: x.ancestors n par
    | none => []
/-- The tree nodes that a query attends (R414). -/
def Seq.attended (x : Seq) (node : Nat) : List Nat := (x.ancestors 64 node).filter (fun n => !x.pend.contains n)

/-- The AT word (Table 14.3). -/
structure AtWord where
  pos : Nat
  rsv : Nat
  tree : Bool
  n : Nat
  hg : Nat
  layer : Nat
  sid : Nat
/-- An AT word read. -/
def AtWord.of (w : Word) : AtWord :=
  let v := w.toNat
  ⟨bits v 44 20, bits v 42 2, bits v 41 1 == 1, bits v 36 5, bits v 32 4, bits v 24 8, bits v 0 24⟩
/-- Whether an AT word keeps the limits (R420): the fields used are POS, TREE, N, HG with LAYER, SID. -/
def State.wordFits (s : State) (p : Nat) (w : AtWord) (pos tree n place sid : Bool) : Bool :=
  let g := s.geo p
  w.rsv == 0 && (pos || w.pos == 0) && (tree || !w.tree) && (n || w.n == 0) &&
    (if place then decide (w.hg < g.2.1) && decide (w.layer < g.1) else w.hg == 0 && w.layer == 0) &&
    (!sid || decide (w.sid < g.2.2))

/-- The result of an AT command: the state, its status (Table 14.5) and VALUE. -/
abbrev AtRes := State × Nat × Nat

/-- The status of a command on a sequence that may not go on: FREE, or STOPPED where that forbids it. -/
def Seq.refuses (x : Seq) (stopped : Bool) : Option Nat :=
  if x.st = .free then some 1 else if x.st = .stopped ∧ ¬ stopped then some 2 else none

/-- `aq.kvapp` (R424). -/
def State.kvapp (s : State) (p : Nat) (w : AtWord) (toks : List KvTok) : AtRes :=
  let x := s.seq p w.sid
  if !s.wordFits p w true true true true true then (s, 6, 0)
  else match x.refuses false with
  | some e => (s, e, 0)
  | none =>
    let n := w.n + 1
    if w.tree then
      if (List.range n).any (fun i => (amFind (w.pos + i) x.nodes).isNone || x.pend.contains (w.pos + i)) then (s, 9, 0)
      else
        let j := w.sid % s.kvC p
        if (amFind w.layer x.tree).isNone ∧ s.pool p j ≤ s.poolUsed p j then (s, 7, 0)
        else
          let t := (List.range n).foldl (fun (t : AMap KvTok) i => amSet t (64 * w.hg + w.pos + i) (toks.getD i KvTok.zero)) (amGet [] x.tree w.layer)
          (s.setSeq p w.sid { x with tree := amSet x.tree w.layer t }, 0, 0)
    else if w.pos < x.plen ∨ 2 ^ 20 ≤ w.pos + w.n then (s, 6, 0)
    else if x.pend ≠ [] ∧ w.pos < x.len ∧ x.len - x.pend.length ≤ w.pos + w.n then (s, 2, 0)
    else
      let bs := nsRange (w.pos / 64) ((w.pos + w.n) / 64 + 1 - w.pos / 64)
      if bs.any (fun b => (s.kvFind p w.sid w.layer b).any (fun k => k.absent)) then (s, 8, 0)
      else match bs.foldlM (fun (s : State) b => s.kvAlloc p w.sid w.layer b) s with
        | none => (s, 7, 0)
        | some s => ((List.range n).foldl (fun (s : State) i =>
            s.kvUpd p w.sid w.layer ((w.pos + i) / 64) (fun k => { k with toks := amSet k.toks (64 * w.hg + (w.pos + i) % 64) (toks.getD i KvTok.zero) })) s, 0, 0)

/-- `aq.tins` (R425). -/
def State.tins (s : State) (p : Nat) (w : AtWord) (pars : List Nat) : AtRes :=
  let x := s.seq p w.sid
  if !s.wordFits p w true true true false true ∨ 63 < w.pos + w.n then (s, 6, 0)
  else match x.refuses false with
  | some e => (s, e, 0)
  | none =>
    match (List.range (w.n + 1)).foldlM (fun (m : AMap Nat) i =>
        let k := w.pos + i
        let par := pars.getD i 0
        if (amFind k m).isSome ∨ ¬ (par = 0xFF ∨ (par < k ∧ (amFind par m).isSome)) then none else some (amSet m k par)) x.nodes with
    | none => (s, 9, 0)
    | some m => (s.setSeq p w.sid { x with nodes := m }, 0, 0)

/-- Tree data of the nodes kept. -/
def Seq.keepNodes (x : Seq) (f : Nat → Bool) : Seq :=
  { x with nodes := x.nodes.filter (fun e => f e.1), tree := x.tree.map (fun (e : Nat × AMap KvTok) => (e.1, e.2.filter (fun t => f (t.1 % 64)))) }

/-- `aq.tacc` (R411, R426). -/
def State.tacc (s : State) (p : Nat) (w : AtWord) (path : List Nat) : AtRes :=
  let x := s.seq p w.sid
  if !s.wordFits p w false true true false true then (s, 6, 0)
  else match x.refuses false with
  | some e => (s, e, 0)
  | none =>
    let par (k : Nat) : Option Nat := amFind k x.nodes
    let bad := (List.range path.length).any (fun i =>
      par (path.getD i 0) != some (if i = 0 then 0xFF else path.getD (i - 1) 0))
    if bad then (s, 9, 0)
    else if x.pend ≠ [] then (s, 2, 0)
    else if 2 ^ 20 < x.len + w.n + 1 then (s, 6, 0)
    else
      let y := x.keepNodes path.contains
      (s.setSeq p w.sid { y with len := x.len + w.n + 1, pend := path, ncomp := 0 }, 0, x.len + w.n + 1)

/-- One pending node moved (R412); none where it stops, with the status. -/
def State.moveNode (s : State) (p sid : Nat) : Except Nat State :=
  let x := s.seq p sid
  let pos := x.len - x.pend.length + x.ncomp
  let node := x.pend.getD x.ncomp 0
  let (nl, nhg, _) := s.geo p
  if (List.range nl).any (fun l => (s.kvFind p sid l (pos / 64)).any (fun k => k.absent)) then .error 8
  else match (List.range nl).foldlM (fun (s : State) l => s.kvAlloc p sid l (pos / 64)) s with
    | none => .error 7
    | some s =>
      let s := (List.range nl).foldl (fun (s : State) l => (List.range nhg).foldl (fun (s : State) hg =>
        s.kvUpd p sid l (pos / 64) (fun k => { k with toks := amPut KvTok.zero k.toks (64 * hg + pos % 64) (x.nodeTok l hg node) })) s) s
      .ok (s.setSeq p sid { x with ncomp := x.ncomp + 1 })

/-- The pending nodes moved, at most `n`. -/
def State.moveNodes (s : State) (p sid : Nat) : Nat → State × Nat
  | 0 => (s, 0)
  | n + 1 => match s.moveNode p sid with
    | .ok s => s.moveNodes p sid n
    | .error e => (s, e)

/-- `aq.comp` (R412, R413, R429): the tree blocks are freed when no other node is left (log 19). -/
def State.comp (s : State) (p : Nat) (w : AtWord) : AtRes :=
  let x := s.seq p w.sid
  if !s.wordFits p w false false false false true then (s, 6, 0)
  else match x.refuses true with
  | some e => (s, e, 0)
  | none =>
    if x.pend = [] then (s, 0, 0)
    else
      let (s, e) := s.moveNodes p w.sid (x.pend.length - x.ncomp)
      let y := s.seq p w.sid
      if e ≠ 0 then (s.setSeq p w.sid { y with st := .stopped }, e, y.ncomp)
      else
        let z := { (y.keepNodes (fun n => !y.pend.contains n)) with pend := [], ncomp := 0, st := .live }
        let s := s.setSeq p w.sid z
        ((if z.nodes = [] then s.treeDrop p w.sid else s), 0, x.pend.length - x.ncomp)

/-- `aq.att` (R410, R427): the handle's reserved bits are discarded (R7). -/
def State.att (s : State) (p : Nat) (w : AtWord) (h : Nat) : AtRes :=
  let h := h % 2 ^ 24
  let x := s.seq p w.sid
  if !s.wordFits p w false false false false true then (s, 6, 0)
  else match x.refuses false with
  | some e => (s, e, 0)
  | none =>
    if x.len ≠ 0 ∨ x.pfx ≠ 0 ∨ x.pend ≠ [] then (s, 4, 0)
    else
      let f := s.prefix_ p (h % 4096)
      if f.st = .live ∧ h / 4096 = f.gen.toNat then
        ((s.setPrefix p (h % 4096) { f with ref := f.ref + 1 }).setSeq p w.sid { x with pfx := h, plen := f.plen, len := f.plen }, 0, f.plen)
      else (s, 3, 0)

/-- A sequence emptied (R427): its prefix reference dropped, every block freed. -/
def State.empty (s : State) (p sid : Nat) : State :=
  let x := s.seq p sid
  let s := if x.pfx = 0 then s else
    let f := s.prefix_ p (x.pfx % 4096)
    s.setPrefix p (x.pfx % 4096) { f with ref := f.ref - 1 }
  ((s.kvDrop p sid (fun _ => true)).treeDrop p sid).setSeq p sid { Seq.free with st := .live }

/-- `aq.det` (R427). -/
def State.det (s : State) (p : Nat) (w : AtWord) : AtRes :=
  if !s.wordFits p w false false false false true then (s, 6, 0)
  else match (s.seq p w.sid).refuses true with
  | some e => (s, e, 0)
  | none => (s.empty p w.sid, 0, 0)

/-- `aq.seq.open` (R428). -/
def State.seqOpen (s : State) (p : Nat) (w : AtWord) : AtRes :=
  if !s.wordFits p w false false false false true then (s, 6, 0)
  else if (s.seq p w.sid).st ≠ .free then (s, 5, 0)
  else (s.setSeq p w.sid { Seq.free with st := .live }, 0, 0)
/-- `aq.seq.close` (R428). -/
def State.seqClose (s : State) (p : Nat) (w : AtWord) : AtRes :=
  if !s.wordFits p w false false false false true then (s, 6, 0)
  else match (s.seq p w.sid).refuses true with
  | some e => (s, e, 0)
  | none => ((s.empty p w.sid).setSeq p w.sid Seq.free, 0, 0)
/-- `aq.seq.grow` (R428). -/
def State.seqGrow (s : State) (p : Nat) (w : AtWord) : AtRes :=
  let x := s.seq p w.sid
  if !s.wordFits p w true false false false true then (s, 6, 0)
  else match x.refuses false with
  | some e => (s, e, 0)
  | none => if 2 ^ 20 < x.len + w.pos then (s, 6, 0) else (s.setSeq p w.sid { x with len := x.len + w.pos }, 0, x.len + w.pos)
/-- `aq.seq.trunc` (R428). -/
def State.seqTrunc (s : State) (p : Nat) (w : AtWord) : AtRes :=
  let x := s.seq p w.sid
  if !s.wordFits p w true false false false true then (s, 6, 0)
  else match x.refuses false with
  | some e => (s, e, 0)
  | none =>
    let part (k : KvBlock) : Bool := k.owner == w.sid && k.b == w.pos / 64 && w.pos % 64 != 0
    if w.pos < x.plen ∨ x.len < w.pos then (s, 6, 0)
    else if x.pend ≠ [] then (s, 2, 0)
    else if (List.range (s.kvC p)).any (fun j => (s.kvBlocks p j).any (fun k => part k && k.absent)) then (s, 8, 0)
    else
      let s := s.kvDrop p w.sid (fun k => decide (w.pos ≤ 64 * k.b))
      let s := s.updKv p (fun v => { v with blocks := v.blocks.map (fun (e : Nat × List KvBlock) => (e.1, e.2.map (fun k =>
        if part k then { k with toks := k.toks.filter (fun t => decide (t.1 % 64 < w.pos % 64)) } else k))) })
      (s.setSeq p w.sid { x with len := w.pos }, 0, w.pos)
/-- An entry re-keyed: its old place freed, a place for the new key taken; none where there is none. The snapshots that read its block read it
under its new key (R408). -/
def State.rekey (s : State) (p : Nat) (k : KvBlock) (owner : Nat) : Option State :=
  let j := k.b % s.kvC p
  let s := s.updKv p (fun v => { v with blocks := amSet v.blocks j ((amGet [] v.blocks j).filter (fun x => !(x.owner == k.owner && x.layer == k.layer && x.b == k.b))) })
  let key (x : Nat × Nat × Nat) : Nat × Nat × Nat := if x = (k.owner, k.layer, k.b) then (owner, k.layer, k.b) else x
  let s := { s with cores := s.cores.map (fun (e : Nat × Core) =>
    if s.corePart e.1 = p then (e.1, { e.2 with atq := e.2.atq.map (fun (o : AtOp) => { o with reads := o.reads.map key }) }) else e) }
  (s.kvPlace p j owner k.layer k.b).map (fun pl =>
    s.updKv p (fun v => { v with blocks := amSet v.blocks j (amGet [] v.blocks j ++ [{ k with owner := owner, bucket := pl }]) }))
/-- `aq.seq.pub` (R409, R428); a re-key that finds no place gives FULL (log 19). -/
def State.seqPub (s : State) (p : Nat) (w : AtWord) : AtRes :=
  let x := s.seq p w.sid
  if !s.wordFits p w true false false false true then (s, 6, 0)
  else match x.refuses false with
  | some e => (s, e, 0)
  | none =>
    if w.pos % 64 ≠ 0 ∨ w.pos < 64 ∨ x.len < w.pos then (s, 6, 0)
    else if x.pfx ≠ 0 ∨ x.pend ≠ [] then (s, 4, 0)
    else match (List.range 4096).find? (fun i => (s.prefix_ p i).st == PfxSt.free) with
      | none => (s, 7, 0)
      | some pid =>
        let g := (s.prefix_ p pid).gen + 1
        let g := if g = 0 then 1 else g
        let ks := (List.range (s.kvC p)).flatMap (fun j => (s.kvBlocks p j).filter (fun k => k.owner == w.sid && decide (64 * k.b < w.pos)))
        match ks.foldlM (fun (s : State) k => s.rekey p k (pfxOwner pid)) s with
        | none => (s, 7, 0)
        | some s =>
          let h := g.toNat * 4096 + pid
          ((s.setPrefix p pid ⟨.live, g, w.pos, 1⟩).setSeq p w.sid { x with pfx := h, plen := w.pos }, 0, h)
/-- A prefix whose last block has gone becomes FREE (R410). -/
def State.pfxDone (s : State) (p pid : Nat) : State :=
  let f := s.prefix_ p pid
  if f.st = .evicting ∧ (s.kv p).dying.all (fun e => e.2.all (fun d => d.owner != pfxOwner pid)) then
    s.setPrefix p pid { f with st := .free, plen := 0 } else s
/-- `aq.seq.evict` (R410, R428). -/
def State.seqEvict (s : State) (p : Nat) (w : AtWord) : AtRes :=
  let pid := w.sid % 4096
  let f := s.prefix_ p pid
  if !s.wordFits p w false false false false false then (s, 6, 0)
  else if f.st ≠ .live ∨ w.sid / 4096 ≠ f.gen.toNat then (s, 3, 0)
  else if f.ref ≠ 0 then (s, 4, 0)
  else (((s.setPrefix p pid { f with st := .evicting }).kvDrop p (pfxOwner pid) (fun _ => true)).pfxDone p pid, 0, 0)
/-- `aq.seq.tclr` (R428). -/
def State.seqTclr (s : State) (p : Nat) (w : AtWord) : AtRes :=
  let x := s.seq p w.sid
  if !s.wordFits p w false false false false true then (s, 6, 0)
  else match x.refuses false with
  | some e => (s, e, 0)
  | none => (s.setSeq p w.sid (x.keepNodes x.pend.contains), 0, 0)

/-! ### The AT commands at the XQ port (R419-R421, R430, R432) -/

/-- A fault of AT (Table 14.9). -/
def atTrap (c : Cmd) (cause : Nat) : FaultClass → Word → Trap :=
  fun cls va => ⟨cls, 11, 0, BitVec.ofNat 64 (cause + opOf c.raw * 2 ^ 16), va, none, none⟩
/-- The checks that come before any effect: scalars, the status address, the number outstanding. -/
def atPre (st : StatReg) : M (Option Nat) := do
  let s ← get
  let n := (scalarsOf s.cmd.instr).length
  for i in List.range n do
    let _ ← captured i (atTrap s.cmd 5)
  let at_ ← match st with
    | .none => pure none
    | .at _ => do
      let x ← captured (n - 1) (atTrap s.cmd 5)
      let o ← resultAt (atTrap s.cmd 1) x 8 8
      pure (some o)
  let c ← core
  if 16 ≤ c.atq.length then waitFor 9
  return at_
/-- The status word (Table 14.4) written. -/
def atStatus (at_ : Option Nat) (status value cmask : Nat) : M Unit :=
  match at_ with
  | some o => writeResult o (leBytes 8 (status + cmask * 2 ^ 16 + value % 2 ^ 32 * 2 ^ 32))
  | none => pure ()
/-- The tag an AT source tile must carry (R421). -/
def atTag (i : Nat) (flo : Nat) (want : Fmt) (tiles : List Tile) : M Unit := do
  let s ← get
  let t := tiles.getD i Tile.empty
  if t.tag ≠ want then raise (illegalTag 11 0 s.cmd flo 8 t.tag)
/-- Poison of the first `n` elements of row 0, or of `n` whole rows, of an AT source tile (R421). -/
def atPoison (t : Tile) (rows els : Nat) : M Unit := do
  let s ← get
  if (List.range rows).any (fun i => t.bitsPoisoned i 0 1024) || t.bitsPoisoned 0 0 (8 * els) then raise (atTrap s.cmd 2 .poison 0)

/-- An AT command that completes at its place in sequence order: its effect and its status word (R407, R421). A VALUE that no rule
states is free (log 2): `fixed` names the statuses other than OK that have one. -/
def atLane (s : State) (st : StatReg) (srcs : List (TileRef × Nat)) (chk : List Tile → M Unit) (effect : State → Nat → AtWord → List Tile → AtRes)
    (fixed : Nat → Bool := fun _ => false) : Host.Outcome State Fault Refusal :=
  xqLane s ⟨Tok.none, srcs, []⟩ true (do let _ ← atPre st) (fun tiles => do
    let at_ ← atPre st
    let xa ← captured 0 (atTrap s.cmd 5)
    let p ← partNo
    let s' ← get
    let (t, status, value) := effect s' p (AtWord.of xa) tiles
    set t
    let v ← if status = 0 ∨ fixed status then pure value else pick
    atStatus at_ status v 0) chk
/-- The N field of the AT word of the command in hand. -/
def atN (s : State) : Nat := (AtWord.of (s.cmd.vals.getD 0 Scalar.zero).v).n
/-- Elements 0 to N of row 0 of a tile of bytes. -/
def nodeList (t : Tile) (n : Nat) : List Nat := (unpackEls 8 128 (t.row 0).toNat).take (n + 1)

/-- `aq.kvapp` (R421, R424). -/
def execAqKvapp (tk tv : TileRef) (_xa : XReg) (st : StatReg) (s : State) : Host.Outcome State Fault Refusal :=
  atLane s st [(tk, 12), (tv, 56)] (fun ts => do atTag 0 12 .bf16 ts; atTag 1 56 .bf16 ts) (fun s p w ts =>
    let k := ts.getD 0 Tile.empty
    let v := ts.getD 1 Tile.empty
    let two (t : Tile) (i : Nat) : BitVec 2048 := t.row (2 * i + 1) ++ t.row (2 * i)
    let bad (t : Tile) (i : Nat) : Bool := t.bitsPoisoned (2 * i) 0 1024 || t.bitsPoisoned (2 * i + 1) 0 1024
    s.kvapp p w ((List.range (w.n + 1)).map (fun i => ⟨two k i, two v i, bad k i || bad v i⟩))) (fun _ => true)
/-- `aq.tins` (R421, R425). -/
def execAqTins (tp : TileRef) (_xa : XReg) (st : StatReg) (s : State) : Host.Outcome State Fault Refusal :=
  atLane s st [(tp, 12)] (fun ts => do atTag 0 12 .z8 ts; atPoison (ts.getD 0 Tile.empty) 0 (atN s + 1))
    (fun s p w ts => s.tins p w (nodeList (ts.getD 0 Tile.empty) w.n))
/-- `aq.tacc` (R421, R426). -/
def execAqTacc (tl : TileRef) (_xa : XReg) (st : StatReg) (s : State) : Host.Outcome State Fault Refusal :=
  atLane s st [(tl, 12)] (fun ts => do atTag 0 12 .z8 ts; atPoison (ts.getD 0 Tile.empty) 0 (atN s + 1))
    (fun s p w ts => s.tacc p w (nodeList (ts.getD 0 Tile.empty) w.n))
/-- An AT command without tiles. -/
def atPlain (s : State) (st : StatReg) (effect : State → Nat → AtWord → AtRes) (fixed : Nat → Bool := fun _ => false) :
    Host.Outcome State Fault Refusal :=
  atLane s st [] (fun _ => pure ()) (fun s p w _ => effect s p w) fixed
/-- `aq.comp` (R429). -/
def execAqComp (_xa : XReg) (st : StatReg) (s : State) : Host.Outcome State Fault Refusal := atPlain s st State.comp (fun e => e == 7 || e == 8)
/-- `aq.att` (R427). -/
def execAqAtt (_xa _xp : XReg) (st : StatReg) (s : State) : Host.Outcome State Fault Refusal :=
  atPlain s st (fun t p w => t.att p w (s.cmd.vals.getD 1 Scalar.zero).v.toNat)
/-- `aq.det` (R427). -/
def execAqDet (_xa : XReg) (st : StatReg) (s : State) : Host.Outcome State Fault Refusal := atPlain s st State.det
/-- `aq.seq.open` (R428). -/
def execAqSeqOpen (_xa : XReg) (st : StatReg) (s : State) : Host.Outcome State Fault Refusal := atPlain s st State.seqOpen
/-- `aq.seq.close` (R428). -/
def execAqSeqClose (_xa : XReg) (st : StatReg) (s : State) : Host.Outcome State Fault Refusal := atPlain s st State.seqClose
/-- `aq.seq.grow` (R428). -/
def execAqSeqGrow (_xa : XReg) (st : StatReg) (s : State) : Host.Outcome State Fault Refusal := atPlain s st State.seqGrow
/-- `aq.seq.trunc` (R428). -/
def execAqSeqTrunc (_xa : XReg) (st : StatReg) (s : State) : Host.Outcome State Fault Refusal := atPlain s st State.seqTrunc
/-- `aq.seq.pub` (R428). -/
def execAqSeqPub (_xa : XReg) (st : StatReg) (s : State) : Host.Outcome State Fault Refusal := atPlain s st State.seqPub
/-- `aq.seq.evict` (R428). -/
def execAqSeqEvict (_xa : XReg) (st : StatReg) (s : State) : Host.Outcome State Fault Refusal := atPlain s st State.seqEvict
/-- `aq.seq.tclr` (R428). -/
def execAqSeqTclr (_xa : XReg) (st : StatReg) (s : State) : Host.Outcome State Fault Refusal := atPlain s st State.seqTclr

/-! ### Queries (R408, R414-R418, R423) -/

/-- The elements of query `r` in a tile. -/
def queryEls (t : Tile) (r : Nat) : List Nat := unpackEls 16 64 (t.row (2 * r)).toNat ++ unpackEls 16 64 (t.row (2 * r + 1)).toNat

/-- The snapshot of an `aq.send`: its status, VALUE, the chiplets' triples, and the blocks it reads. -/
def State.snapshot (s : State) (p k : Nat) (w : AtWord) (q : Tile) : Nat × Nat × List (Option (List (Option Tri))) × List (Nat × Nat × Nat) :=
  let x := s.seq p w.sid
  let no (e : Nat) : Nat × Nat × List (Option (List (Option Tri))) × List (Nat × Nat × Nat) := (e, 0, [], [])
  if !s.wordFits p w w.tree true true true true then no 6
  else match x.refuses false with
  | some e => no e
  | none =>
    let nq := w.n + 1
    if w.tree ∧ (List.range nq).any (fun r => (amFind (w.pos + r) x.nodes).isNone) then no 9
    else
      let toks := (List.range x.len).map (fun pos => (pos, s.tokAt p w.sid w.layer w.hg pos))
      let nodes (r : Nat) : List (Nat × KvTok) := if w.tree then
        let a := x.attended (w.pos + r)
        ((List.range 64).filter a.contains).map (fun n => (n, x.nodeTok w.layer w.hg n)) else []
      if toks.any (fun t => t.2.isNone) then no 8
      else if toks.any (fun t => t.2.any (fun u => u.pois)) ∨ (List.range nq).any (fun r => (nodes r).any (fun t => t.2.pois)) then no 10
      else
        let c := s.kvC p
        let chip (j : Nat) : Option (List (Option Tri)) :=
          if !s.chipOk (coreDie k) (s.kvChip p j) then none
          else some ((List.range nq).map (fun r =>
            let qs := queryEls q r
            let own := ((List.range ((x.len + 63) / 64)).filter (fun b => b % c == j)).foldl (fun (t : Option Tri) b =>
              mergeTri t (triple qs (((List.range 64).filter (fun i => decide (64 * b + i < x.len))).map (fun i =>
                (i, ((toks.getD (64 * b + i) (0, none)).2).getD KvTok.zero))))) none
            if j = w.sid % c then mergeTri own (triple qs (nodes r)) else own))
        let reads := ((List.range x.len).map (fun pos => match x.place w.sid pos with
          | (_, some _) => (w.sid, w.layer, treeB)
          | (o, none) => (o, w.layer, pos / 64))) ++ (if w.tree then [(w.sid, w.layer, treeB)] else [])
        (0, x.len + (nodes 0).length, (List.range c).map chip, reads.eraseDups)

/-- `aq.send` (R423): the snapshot taken at its place in sequence order; the result comes later. -/
def execAqSend (td tq : TileRef) (_xa : XReg) (st : StatReg) (s : State) : Host.Outcome State Fault Refusal :=
  if td.mode ≠ .produce then settle s (.error (.trap (illegalAt 11 0 s.cmd 12 8)))
  else
    xqLane s ⟨Tok.none, [(tq, 56)], []⟩ true (do let _ ← atPre st) (fun tiles => do
      let at_ ← atPre st
      let xa ← captured 0 (atTrap s.cmd 5)
      let p ← partNo
      let s' ← get
      let (status, value, trip, reads) := s'.snapshot p s'.cur (AtWord.of xa) (tiles.getD 0 Tile.empty)
      let value ← if status = 0 then pure value else (do let v ← pick; pure (v % 2 ^ 32))
      let op : AtOp := ⟨s.cmd.idx, td.n.toNat, at_, (s'.core s'.cur).regs.qtag.toNat, status, value, trip, [], reads, s'.now⟩
      keepXq 11
      modCore (fun c => { c with regs := { c.regs with qtag := c.regs.qtag + 1 }, atq := c.atq ++ [op] }))
      (fun ts => do atTag 0 56 .bf16 ts; atPoison (ts.getD 0 Tile.empty) (2 * (atN s + 1)) 0)

/-- An outstanding `aq.send` changed. -/
def Core.updAt (c : Core) (o : AtOp) : Core := { c with atq := c.atq.map (fun x => if x.idx = o.idx then o else x) }

/-- The next merge point of an `aq.send`: not yet emitted, the first ones before the root. -/
def AtOp.next (o : AtOp) (lost : Bool) : Option Nat :=
  o.points.find? (fun pt => !o.done.contains pt && (pt != 2 || (o.points.all (fun q => q == 2 || o.done.contains q))) &&
    ((o.inputs pt).any (fun j => (o.trip.getD j none).isNone) == lost))

/-- MERGE (R416, R417): the next merge point of the core's k-th query whose inputs are both present emits. -/
def execMerge (k : BitVec 4) (s : State) : Host.Outcome State Fault Refusal :=
  match (s.core s.cur).atq[k.toNat]? with
  | none => .fault .notEnabled
  | some o => match o.next false with
    | none => .fault .notEnabled
    | some pt => .next (s.updCore s.cur (fun c => c.updAt { o with done := nsAdd pt o.done }))

/-- FXTMO in cycles: microseconds, 0 reading as 1 (Table 15.5). -/
def State.fxtmo (s : State) (p : Nat) : Nat := 2000 * max 1 (bits (s.getPart p).regs.fxtmo.toNat 0 16)

/-- MERGE_TIMEOUT (R439): a merge point that has waited FXTMO for a lost contribution emits without it, and the core raises LINK. -/
def execMergeTimeout (k : BitVec 4) (s : State) : Host.Outcome State Fault Refusal :=
  let c := s.core s.cur
  match c.atq[k.toNat]? with
  | none => .fault .notEnabled
  | some o => match o.next true with
    | none => .fault .notEnabled
    | some pt =>
      if s.now < o.since + s.fxtmo (s.corePart s.cur) then .fault .notEnabled
      else
        let ans := ((List.range o.trip.length).map (fun j => if (o.trip.getD j none).isSome then 2 ^ j else 0)).sum
        let cmd := ((c.xq.find? (fun x => x.unit == 11 && x.cmd.idx == o.idx)).map (·.cmd)).getD Cmd.nil
        let s := s.updCore s.cur (fun c => c.updAt { o with done := nsAdd pt o.done })
        .next (takeFault s s.cur ⟨.link, 11, 0, BitVec.ofNat 64 (4 + opOf cmd.raw * 2 ^ 16 + ans * 2 ^ 32), 0, none, none⟩ o.idx cmd.lane)

/-- The tile that an `aq.send` gives: the queries' outputs, zeros from row 2NQ (R418, R423). -/
def AtOp.tile (o : AtOp) : Tile :=
  let nq := match o.trip.findSome? id with | some l => l.length | none => 0
  let rows := if o.status ≠ 0 then [] else (List.range nq).flatMap (fun r =>
    let e := outEls (rootTri (o.trip.map (fun t => (t.getD []).getD r none)))
    [e.take 64, e.drop 64])
  ⟨true, .bf16, Tile.ofRows .bf16 rows, []⟩

/-- A result that waits in the port for its tile (R423, R445): the wait is shown where XQ shows no other. -/
def portWait (s : State) (op : Nat) : Host.Outcome State Fault Refusal :=
  .next { (s.updCore s.cur (fun c => match amFind 5 c.waits with
    | some w => if w.kind = 10 then c else c
    | none => c.setWait 5 s.now ⟨10, 0, 0, BitVec.ofNat 64 op, 0⟩)) with stalled := true }

/-- AQ_SEND_RESULT_ARRIVAL (R423): the result fills its tile once that is empty, and the status word is written. -/
def execAqSendResultArrival (k : BitVec 4) (s : State) : Host.Outcome State Fault Refusal :=
  let c := s.core s.cur
  match c.atq[k.toNat]? with
  | none => .fault .notEnabled
  | some o =>
    if !o.ready then .fault .notEnabled
    else if c.tileFull false o.td || c.tilePending false o.td then portWait s 0xE2
    else if o.stat.any (fun a => c.streams a 8) then .next { s with stalled := true }
    else
      let mask := if o.status ≠ 0 then 0 else ((List.range o.trip.length).map (fun j => if (o.trip.getD j none).isSome then 2 ^ j else 0)).sum
      .next { (s.updCore s.cur (fun c =>
        let c := (c.setTile o.td o.tile).dropXq 11 o.idx
        let c := { c with atq := c.atq.filter (fun x => x.idx != o.idx) }
        let c := if (amFind 5 c.waits).any (fun w => w.kind == 10 && w.wsa == 0xE2) then c.clearWait 5 else c
        match o.stat with
        | some a => c.writeSp a (leBytes 8 (o.status + mask * 2 ^ 16 + o.value % 2 ^ 32 * 2 ^ 32)) []
        | none => c)) with stalled := false }

/-- DEFERRED_BLOCK_FREE (R408): a freed block returns to the pool once every snapshot that reads it has delivered. -/
def execDeferredBlockFree (s : State) : Host.Outcome State Fault Refusal :=
  let p := s.part
  let live (u : Nat × Nat) : Bool := (s.core u.1).atq.any (fun o => o.idx == u.2 && !o.ready)
  match (s.kv p).dying.findSome? (fun e => (e.2.find? (fun d => !d.users.any live)).map (fun d => (e.1, d))) with
  | none => .fault .notEnabled
  | some (j, d) =>
    let s := s.updKv p (fun k => { k with dying := amSet k.dying j ((amGet [] k.dying j).erase d) })
    .next (if 0x1000000 ≤ d.owner then s.pfxDone p (d.owner - 0x1000000) else s)

end Sys2Proof.Machine
end

