-- ==== Sys2Proof/Machine/Cc.lean ====
section
/-! DEFINITION. The scalar lanes of the control core (05_control_core R142-R153, R161-R166; 02_encoding R74, R75). -/

namespace Sys2Proof.Machine

/-- An ALU lane of Table 5.11 on two registers. -/
def aluLane (f : Nat → Int → Int → Int) (d a b : XReg) (w u : Bool) (s : State) : Host.Outcome State Fault Refusal :=
  ccLane s (do
    let x ← readX a
    let y ← readX b
    writeX d (alu f w u x y))

/-- An ALU lane with an immediate as its second operand (R143). -/
def aluImm (f : Nat → Int → Int → Int) (d a : XReg) (w : Bool) (imm : Word) (s : State) : Host.Outcome State Fault Refusal :=
  ccLane s (do
    let x ← readX a
    writeX d (alu f w false x imm))

/-- `add` (Table 5.11). -/
def execAdd (d a b : XReg) (w : Bool) (s : State) : Host.Outcome State Fault Refusal := aluLane fAddI d a b w false s
/-- `sub` (Table 5.11). -/
def execSub (d a b : XReg) (w : Bool) (s : State) : Host.Outcome State Fault Refusal := aluLane fSubI d a b w false s
/-- `and` (Table 5.11). -/
def execAnd (d a b : XReg) (w : Bool) (s : State) : Host.Outcome State Fault Refusal := aluLane fAndI d a b w false s
/-- `or` (Table 5.11). -/
def execOr (d a b : XReg) (w : Bool) (s : State) : Host.Outcome State Fault Refusal := aluLane fOrI d a b w false s
/-- `xor` (Table 5.11). -/
def execXor (d a b : XReg) (w : Bool) (s : State) : Host.Outcome State Fault Refusal := aluLane fXorI d a b w false s
/-- `shl` (Table 5.11). -/
def execShl (d a b : XReg) (w : Bool) (s : State) : Host.Outcome State Fault Refusal := aluLane fShlI d a b w false s
/-- `shr` (Table 5.11). -/
def execShr (d a b : XReg) (w : Bool) (s : State) : Host.Outcome State Fault Refusal := aluLane fShrI d a b w false s
/-- `sra` (Table 5.11). -/
def execSra (d a b : XReg) (w : Bool) (s : State) : Host.Outcome State Fault Refusal := aluLane fSraI d a b w false s
/-- `mul` (Table 5.11). -/
def execMul (d a b : XReg) (w : Bool) (s : State) : Host.Outcome State Fault Refusal := aluLane fMulI d a b w false s
/-- `mulh` (Table 5.11). -/
def execMulh (d a b : XReg) (w u : Bool) (s : State) : Host.Outcome State Fault Refusal := aluLane fMulhI d a b w u s
/-- `div` (Table 5.11). -/
def execDiv (d a b : XReg) (w u : Bool) (s : State) : Host.Outcome State Fault Refusal := aluLane fDivI d a b w u s
/-- `rem` (Table 5.11). -/
def execRem (d a b : XReg) (w u : Bool) (s : State) : Host.Outcome State Fault Refusal := aluLane fRemI d a b w u s
/-- `min` (Table 5.11). -/
def execMin (d a b : XReg) (w u : Bool) (s : State) : Host.Outcome State Fault Refusal := aluLane fMinI d a b w u s
/-- `max` (Table 5.11). -/
def execMax (d a b : XReg) (w u : Bool) (s : State) : Host.Outcome State Fault Refusal := aluLane fMaxI d a b w u s
/-- `addi` (R143). -/
def execAddi (d a : XReg) (imm : BitVec 14) (s : State) : Host.Outcome State Fault Refusal :=
  aluImm fAddI d a false (imm.signExtend 64) s
/-- `andi` (R143). -/
def execAndi (d a : XReg) (imm : BitVec 14) (s : State) : Host.Outcome State Fault Refusal :=
  aluImm fAndI d a false (imm.signExtend 64) s
/-- `ori` (R143). -/
def execOri (d a : XReg) (imm : BitVec 14) (s : State) : Host.Outcome State Fault Refusal :=
  aluImm fOrI d a false (imm.setWidth 64) s
/-- `xori` (R143). -/
def execXori (d a : XReg) (imm : BitVec 14) (s : State) : Host.Outcome State Fault Refusal :=
  aluImm fXorI d a false (imm.setWidth 64) s
/-- `shli` (R143). -/
def execShli (d a : XReg) (w : Bool) (sh : BitVec 6) (s : State) : Host.Outcome State Fault Refusal :=
  aluImm fShlI d a w (sh.setWidth 64) s
/-- `shri` (R143). -/
def execShri (d a : XReg) (w : Bool) (sh : BitVec 6) (s : State) : Host.Outcome State Fault Refusal :=
  aluImm fShrI d a w (sh.setWidth 64) s
/-- `srai` (R143). -/
def execSrai (d a : XReg) (w : Bool) (sh : BitVec 6) (s : State) : Host.Outcome State Fault Refusal :=
  aluImm fSraI d a w (sh.setWidth 64) s
/-- `bitc.pop` (R144). -/
def execBitcPop (d a : XReg) (w : Bool) (s : State) : Host.Outcome State Fault Refusal :=
  ccLane s (do
    let x ← readX a
    writeX d (BitVec.ofNat 64 (popCount (aluW w) x.toNat)))
/-- `bitc.clz` (R144). -/
def execBitcClz (d a : XReg) (w : Bool) (s : State) : Host.Outcome State Fault Refusal :=
  ccLane s (do
    let x ← readX a
    writeX d (BitVec.ofNat 64 (leadZeros (aluW w) x.toNat)))
/-- `bitc.ctz` (R144). -/
def execBitcCtz (d a : XReg) (w : Bool) (s : State) : Host.Outcome State Fault Refusal :=
  ccLane s (do
    let x ← readX a
    writeX d (BitVec.ofNat 64 (trailZeros (aluW w) x.toNat)))

/-- `ext` (R144). -/
def execExt (d a b : XReg) (sg : Bool) (s : State) : Host.Outcome State Fault Refusal :=
  ccLane s (do
    let x ← readX a
    let y ← readX b
    writeX d (extField sg x y))

/-- `ins` (R144). -/
def execIns (d a b : XReg) (s : State) : Host.Outcome State Fault Refusal :=
  ccLane s (do
    let o ← readX d
    let x ← readX a
    let y ← readX b
    writeX d (insField o x y))

/-! ### Constants, compares and predicates (R145-R148) -/

/-- `movi` (R145). -/
def execMovi (d : XReg) (imm : BitVec 40) (s : State) : Host.Outcome State Fault Refusal :=
  ccLane s (writeX d (imm.signExtend 64))

/-- `movhi` (R145): bits 63:40 from the constant, the others kept. -/
def execMovhi (d : XReg) (imm : BitVec 24) (s : State) : Host.Outcome State Fault Refusal :=
  ccLane s (do
    let o ← readX d
    writeX d (imm ++ o.setWidth 40))

/-- `lea` (R146). -/
def execLea (d a : XReg) (pcrel : Bool) (sc : BitVec 2) (imm : BitVec 40) (s : State) : Host.Outcome State Fault Refusal :=
  ccLane s (do
    let base ← if pcrel then pure s.cmd.lane else readX a
    writeX d (base + (imm.signExtend 64 <<< sc.toNat)))

/-- `cmp` (R147). -/
def execCmp (pd : PReg) (a b : XReg) (m : Comb) (w : Bool) (cnd : Cond) (s : State) : Host.Outcome State Fault Refusal :=
  ccLane s (do
    let x ← readX a
    let y ← readX b
    modCore (fun c => c.wrP pd (combine m (c.rdP pd) (condHolds cnd (aluW w) x.toNat y.toNat))))

/-- The immediate of `cmpi`: sign-extended for COND 0-3, zero-extended for 4 and 5 (R147). -/
def cmpiImm (cnd : Cond) (imm : BitVec 11) : Word :=
  match cnd with
  | .ltu | .geu => imm.setWidth 64
  | _ => imm.signExtend 64

/-- `cmpi` (R147). -/
def execCmpi (pd : PReg) (a : XReg) (cnd : Cond) (imm : BitVec 11) (s : State) : Host.Outcome State Fault Refusal :=
  ccLane s (do
    let x ← readX a
    modCore (fun c => c.wrP pd (condHolds cnd 64 x.toNat (cmpiImm cnd imm).toNat)))

/-- `pcomb` (R148). -/
def execPcomb (pd pa pb : PReg) (lut : BitVec 4) (s : State) : Host.Outcome State Fault Refusal :=
  ccLane s (modCore (fun c => c.wrP pd (lut.getLsbD (2 * (c.rdP pa).toNat + (c.rdP pb).toNat))))

/-- `sel` (R138, R148): the selected operand carries its poison; the predicate read is the control core's. -/
def execSel (d a b : XReg) (neg : Bool) (p : PReg) (s : State) : Host.Outcome State Fault Refusal :=
  ccLane s (modCore (fun c => c.wrX d (if c.rdP p ^^ neg then c.rdX a else c.rdX b)))

/-- `pget` (R148). -/
def execPget (d : XReg) (s : State) : Host.Outcome State Fault Refusal :=
  ccLane s (do
    let c ← core
    writeX d (BitVec.ofNat 64 (((List.range 8).map (fun k => (c.rdP (BitVec.ofNat 3 k)).toNat * 2 ^ k)).sum)))

/-- `pset` (R148). -/
def execPset (a : XReg) (mask : BitVec 7) (s : State) : Host.Outcome State Fault Refusal :=
  ccLane s (do
    let x ← readX a
    modCore (fun c => (List.range 7).foldl (fun c k =>
      if mask.getLsbD k then c.wrP (BitVec.ofNat 3 (k + 1)) (x.getLsbD (k + 1)) else c) c))

/-! ### Scalar memory access (R149-R151) -/

/-- The address of a scalar access (R149). -/
def ccAddr (a : XReg) (z : MemSz) (off : BitVec 11) : M Word := do
  let x ← readX a
  return x + (off.signExtend 64 * BitVec.ofNat 64 (memSize z))

/-- Writes of a control-core lane (R130, R151). -/
def ccWrite (effs : List Effect) : M Unit := do
  let s ← get
  commitWrite (ccTrap s.cmd .bound 0) 1 effs (ccTrap s.cmd .link 0)

/-- `cld` (R149). -/
def execCld (d a : XReg) (z : MemSz) (off : BitVec 11) (s : State) : Host.Outcome State Fault Refusal :=
  ccLane s (do
    let va ← ccAddr a z off
    if va.toNat % memSize z ≠ 0 then ccRaise .align va
    let b ← readVaSeen (ccMk s.cmd) va (memSize z)
    modCore (·.wrX d ⟨memExtend z (leNat b.bytes), b.poisoned⟩))

/-- `cst` (R149): a store, or in the copy aperture the start of a copy (R321, R322). -/
def execCst (d a : XReg) (z : MemSz) (off : BitVec 11) (s : State) : Host.Outcome State Fault Refusal :=
  ccLane s (do
    let va ← ccAddr a z off
    if va.toNat % memSize z ≠ 0 then ccRaise .align va
    let p ← translate .write (ccMk s.cmd) va
    let c ← core
    let v := c.rdX d
    match p.reg with
    | .aperture =>
      let o := p.pa % 4096
      if 0x40 ≤ o ∨ z ≠ .s64 then ccRaise .perm va
      if v.poison then ccRaise .poison va
      if (c.holdsFor s.cmd).isNone ∧ 32 ≤ (c.journal (o / 8)).length then waitFor 9 3
      ccWrite [.copy (o / 8) v.v s.cmd.idx s.cmd.lane]
    | _ =>
      let effs ← storeVa (ccMk s.cmd) va (leBytes (memSize z) v.v.toNat) (if v.poison then nsRange 0 (memSize z) else [])
      ccWrite effs)

/-- `sld` (R149). -/
def execSld (d a : XReg) (z : MemSz) (off : BitVec 11) (s : State) : Host.Outcome State Fault Refusal :=
  ccLane s (do
    let xa ← ccAddr a z off
    if xa.toNat % memSize z ≠ 0 then ccRaise .align xa
    let (k, o) ← spTarget (ccMk s.cmd) xa
    let b ← readSp k o (memSize z)
    modCore (·.wrX d ⟨memExtend z (leNat b.bytes), b.poisoned⟩))

/-- `sst` (R44, R149). -/
def execSst (d a : XReg) (z : MemSz) (off : BitVec 11) (s : State) : Host.Outcome State Fault Refusal :=
  ccLane s (do
    let xa ← ccAddr a z off
    if xa.toNat % memSize z ≠ 0 then ccRaise .align xa
    let (k, o) ← spTarget (ccMk s.cmd) xa
    let t ← get
    let b := (t.core k).bank (bankOf o)
    if b.act ≠ 0 ∧ Fmt.isBlock b.fmt then ccRaise .perm xa
    if b.act ≠ 0 ∧ Fmt.size b.fmt ≠ 8 * memSize z then ccRaise .align xa
    let v := (t.core t.cur).rdX d
    let n := memSize z
    let fmt : Fmt := if b.act ≠ 0 then b.fmt else if n = 1 then .z8 else if n = 2 then .z16 else if n = 4 then .z32 else .z64
    ccWrite [.bank k o fmt [v.v.toNat % 2 ^ (8 * n)] (if v.poison then [0] else []) 0 0])

/-- `camo` (R118-R120, R150). -/
def execCamo (d a b : XReg) (scope : Scope) (ord : AmoOrd) (sz64 : Bool) (op : AmoOp) (s : State) :
    Host.Outcome State Fault Refusal :=
  ccLane s (do
    let va ← readX a
    let n := if sz64 then 64 else 32
    if va.toNat % (n / 8) ≠ 0 then ccRaise .align va
    let x ← readX b
    let cmp ← if op = .cas then readX d else pure 0
    let p ← translateData .write (ccMk s.cmd) va
    if p.reg = .host ∧ ¬ p.ent.sysat then ccRaise .atomscope va
    let t ← get
    if p.ent.pub ∧ ((t.getPart (t.corePart t.cur)).pubWindow va.toNat).isNone then ccRaise .perm va
    if (t.see t.cur).paPoisoned p.pa (n / 8) then ccRaise .poison va
    let eff : Effect := .amo va p.pa op sz64 x cmp d p.ent.pub p.ent.nc
    if scope = .rc ∧ (ord = .rel ∨ ord = .ar) ∧ ((t.core t.cur).holdsFor s.cmd).isNone then sealOwn [eff] (ccTrap s.cmd .link 0)
    else if scope = .rc ∧ (ord = .rel ∨ ord = .ar) then commit (ccTrap s.cmd .bound 0) 1 [eff] .want
    else ccWrite [eff])

/-- `cfence` (R117, R151): one core that performs its accesses in order is ordered already, but for the writes that a loop holds and the releases
that await a seal, for which a full fence holds the next lane. A release fence at recovery scope marks the next write (R130); a full one at that
scope is durable itself, by a seal of its own (R115, R460). -/
def execCfence (kind : FenceKind) (scope : Scope) (s : State) : Host.Outcome State Fault Refusal :=
  ccLane s (do
    if kind = .full ∧ scope = .rc then sealOwn [] (ccTrap s.cmd .link 0)
    if scope = .rc ∧ kind ≠ .acq then modCore (fun c => { c with rcNext := true })
    if kind = .full then modCore (fun c => { c with fence := true }))

/-! ### Control transfer (R152, R153) -/

/-- The path after a control-core lane that may transfer: loops it leads out of are abandoned (R160), and fetch, where it
awaits this lane, goes on. -/
def steer (taken : Option Word) : M Unit := do
  let s ← get
  let c ← core
  if c.fetch.stall = some s.cmd.idx then
    match taken with
    | none => modCore (fun c => ({ c with fetch := { c.fetch with stall := none } }).pathAfter s.cmd.lane false)
    | some t =>
      abandonLoops (fun l => !l.done && !l.contains t)
      modCore (·.goTo t)

/-- A branch noted in the branch history (R55). -/
def noteBranch : M Unit := do
  let s ← get
  modCore (fun c => { c with fetch := { c.fetch with hist := (s.cmd.lane :: c.fetch.hist.filter (· != s.cmd.lane)).take 64 } })

/-- The rules of R66 on a taken target. -/
def checkTarget (t : Word) : M Unit := do
  if ¬ laneOk t then ccRaise .align t
  if 2 ^ 52 ≤ t.toNat then ccRaise .page t

/-- `b` (R60, R152). -/
def execB (p : PReg) (neg _hint : Bool) (off : BitVec 19) (s : State) : Host.Outcome State Fault Refusal :=
  ccLane s (do
    let c ← core
    let t := branchTarget s.cmd.lane off
    noteBranch
    if c.rdP p ^^ neg then
      if ¬ laneOk t then ccRaise .align t
      steer (some t)
    else steer none)

/-- `call` (R60, R152): a transfer writes the return address to x31. -/
def execCall (p : PReg) (neg _hint : Bool) (off : BitVec 19) (s : State) : Host.Outcome State Fault Refusal :=
  ccLane s (do
    let c ← core
    let t := branchTarget s.cmd.lane off
    noteBranch
    if c.rdP p ^^ neg then
      if ¬ laneOk t then ccRaise .align t
      writeX 31 (nextLane s.cmd.lane false)
      steer (some t)
    else steer none)

/-- `jr` (R153). -/
def execJr (a : XReg) (s : State) : Host.Outcome State Fault Refusal :=
  ccLane s (do
    let t ← readX a
    checkTarget t
    steer (some t))

/-- `callr` (R153): the target is read before the link is written. -/
def execCallr (d a : XReg) (s : State) : Host.Outcome State Fault Refusal :=
  ccLane s (do
    let t ← readX a
    checkTarget t
    writeX d (nextLane s.cmd.lane false)
    steer (some t))

/-! ### Joins, exit, break (R74, R75, R162, R165, R166) -/

/-- `qjoin` (R162): its markers took their places when it was routed. -/
def execQjoin (_mask : BitVec 14) (s : State) : Host.Outcome State Fault Refusal := ccLane s (pure ())

/-- `exit` (R165): the path has ended; the loops it stands in are abandoned (R160); EXIT_COMPLETION ends the task. -/
def execExit (status : BitVec 8) (s : State) : Host.Outcome State Fault Refusal :=
  ccLane s (do
    abandonLoops (fun l => !l.done)
    modCore (fun c => { c with exiting := some status, fetch := { c.fetch with ended := true } }))

/-- `brk` (R166). -/
def execBrk (code : BitVec 14) (s : State) : Host.Outcome State Fault Refusal :=
  ccLane s (modCore (fun c =>
    if c.dbg.brken then { c with dbg := { c.dbg with halted := true, why := 1, bcode := code } } else c))

/-- `nop` (R75). -/
def execNop (s : State) : Host.Outcome State Fault Refusal := ccLane s (pure ())

/-- `trap.z` (R74): ILLEGAL_ZERO with CHK 10. -/
def execTrapZ (_bits : BitVec 24) (s : State) : Host.Outcome State Fault Refusal :=
  ccLane s (raise ⟨.illegalZero, 1, 0, fetchStat (s.cmd.lane.toNat / 4 % 8) 10 0, s.cmd.lane, none, none⟩)

end Sys2Proof.Machine
end

