-- ==== Sys2Proof/Machine/Vx.lean ====
section
/-! DEFINITION. The vector engine's instructions (09_vector_engine R253-R285). A command's faults are found before any source
is consumed (R254): each meaning computes its results from its source tiles first, and then writes them. -/

namespace Sys2Proof.Machine

/-- A fault of a VX command: Table 9.7. -/
def vxTrap (c : Cmd) (cause k : Nat) : FaultClass → Word → Trap :=
  fun cls va => ⟨cls, 4, 0, BitVec.ofNat 64 (cause + opOf c.raw * 2 ^ 16 + k % 2 ^ 14 * 2 ^ 32), va, none, none⟩

/-- Results of a VX command: tiles with what is written to them, VXINFO bits, banks whose VIOL it sets, and bank writes. -/
structure VOut where
  tiles : List (BitVec 6 × Tile)
  bits : List Nat
  viols : List Nat
  effs : List Effect

/-- A result of one tile. -/
def vOne (td : TileRef) (t : Fmt) (rows : AMap Row) (pois : NSet) (fl : VFlags) : VOut := ⟨[(td.n, ⟨false, t, rows, pois⟩)], fl.bits, [], []⟩

/-- Results written: tiles, status bits (held with a speculative result), and bank writes (R254, R256, R281). -/
def vWrite (r : VOut) : M Unit := do
  let s ← get
  if r.effs ≠ [] then commitWrite (vxTrap s.cmd 5 0 .bound 0) 1 r.effs (vxTrap s.cmd 0 0 .link 0)
  modCore (fun c =>
    let c := r.tiles.foldl (fun (c : Core) (p : BitVec 6 × Tile) => c.putTile s.cmd p.1.toNat p.2) c
    let c := c.noteVx s.cmd r.bits
    r.viols.foldl (fun (c : Core) b => c.noteViol s.cmd b) c)

/-- A VX lane: its operands, and the computation of its results from the source tiles. -/
def vxLane (s : State) (tok : Tok) (srcs dsts : List (TileRef × Nat)) (comp : List Tile → M VOut) (pre : M Unit := pure ()) :
    Host.Outcome State Fault Refusal :=
  engineCalc s ⟨tok, srcs, dsts⟩ pre comp vWrite

/-- The tile of an SX position, where it holds one. -/
def vsrcTile (b : VSrc) (flo : Nat) : List (TileRef × Nat) :=
  match b with
  | .tile t => [(t, flo)]
  | .scalar _ => []

/-- An operand: a tile, or a scalar repeated (R259). -/
inductive VOp
  | tile (t : Tile)
  | const (v : Nat)

/-- The elements of a row of an operand. -/
def VOp.rowEls (o : VOp) (f : Fmt) (i : Nat) : List Nat :=
  match o with
  | .tile t => t.rowEls f i
  | .const v => List.replicate (perRow f) v
/-- Whether a row of an operand is listed. -/
def VOp.listed (o : VOp) (i : Nat) : Bool :=
  match o with
  | .tile t => (amFind i t.rows).isSome
  | .const _ => false
/-- The tile of an operand. -/
def VOp.tile? : VOp → Option Tile
  | .tile t => some t
  | .const _ => none

/-- The operand of an SX position: the next source tile, or scal(xa, T), whose poison is consumed (R259). -/
def vOperand (b : VSrc) (t : Fmt) (tile : Option Tile) : M VOp := do
  match b with
  | .tile _ => return .tile (tile.getD Tile.empty)
  | .scalar _ =>
    let s ← get
    let v ← captured 0 (vxTrap s.cmd 2 0)
    return .const (v.toNat % 2 ^ Fmt.size t)

/-- Three lists of elements combined. -/
def zip3 (g : Nat → Nat → Nat → VEl) : List Nat → List Nat → List Nat → List VEl
  | a :: as, b :: bs, c :: cs => g a b c :: zip3 g as bs cs
  | _, _, _ => []

/-- Status bits of a list of results. -/
def flagsOf (l : List VEl) : VFlags := l.foldl (fun f e => f.or e.2) VFlags.none

/-- An elementwise computation over whole tiles: rows that no operand lists give one result (R259). -/
def vMap (t d : Fmt) (a b c : VOp) (g : Nat → Nat → Nat → VEl) : AMap Row × VFlags :=
  let row (i : Nat) : List VEl := zip3 g (a.rowEls t i) (b.rowEls t i) (c.rowEls t i)
  let listed (i : Nat) : Bool := a.listed i || b.listed i || c.listed i
  let free := (List.range 64).find? (fun i => !listed i)
  let blank : List VEl := match free with | some i => row i | none => []
  let rs := (List.range 64).map (fun i => if listed i then row i else blank)
  (Tile.ofRows d (rs.map (fun l => l.map (·.1))), (rs.map flagsOf).foldl VFlags.or VFlags.none)

/-- Poison of the elements used as operands is consumed: CAUSE 3, the lowest k (R283). -/
def vConsume (t : Fmt) (l : List Tile) : M Unit := do
  if l.all (fun x => x.pois == []) then pure ()
  else match (List.range (perTile t)).find? (fun k => l.any (fun x => x.elPoisoned t k)) with
    | some k => do
      let s ← get
      raise (vxTrap s.cmd 3 k .poison 0)
    | none => pure ()

/-- Integer tags (Table 1.13). -/
def vInt (t : Fmt) : Bool := !t.isFloat && !t.isBlock && t != .raw
/-- A tag that Table 9.3 does not accept is refused, by the TA field. -/
def vAccept (ok : Fmt → Bool) (t : Fmt) : M Unit := if ok t then pure () else laneTag 56 8 t
/-- A tile source carries the tag of TA (R259). -/
def vSame (t : Fmt) (flo : Nat) (o : Option Tile) : M Unit :=
  match o with
  | some x => if x.tag = t then pure () else laneTag flo 8 x.tag
  | none => pure ()

/-- An elementwise instruction: accepted tags, its tag-dependent field checks, operands A, B and C, and the element function. -/
def vElem (s : State) (tok : Tok) (td ta : TileRef) (b : VSrc) (tc : Option TileRef) (ok : Fmt → Bool) (chk : Fmt → M Unit)
    (res : Fmt → Fmt) (g : Fmt → Nat → Nat → Nat → VEl) : Host.Outcome State Fault Refusal :=
  vxLane s tok ((ta, 56) :: vsrcTile b 48 ++ tc.toList.map (fun t => (t, 40))) [(td, 12)] (fun tiles => do
    let a := tiles.headD Tile.empty
    let isT := match b with | .tile _ => true | .scalar _ => false
    let bt := if isT then tiles[1]? else none
    let ct := if tc.isSome then tiles[if isT then 2 else 1]? else none
    let t := a.tag
    vAccept ok t
    vSame t 48 bt
    vSame t 40 ct
    chk t
    let ob ← vOperand b t bt
    vConsume t (a :: bt.toList ++ ct.toList)
    let oc := match ct with | some c => VOp.tile c | none => .const 0
    let (rows, fl) := vMap t (res t) (.tile a) ob oc (g t)
    return vOne td (res t) rows [] fl)

/-- The same with one tile source. -/
def vUnary (s : State) (tok : Tok) (td ta : TileRef) (ok : Fmt → Bool) (chk : Fmt → M Unit) (g : Fmt → Nat → VEl) :
    Host.Outcome State Fault Refusal :=
  vxLane s tok [(ta, 56)] [(td, 12)] (fun tiles => do
    let a := tiles.headD Tile.empty
    let t := a.tag
    vAccept ok t
    chk t
    vConsume t [a]
    let (rows, fl) := vMap t t (.tile a) (.const 0) (.const 0) (fun x _ _ => g t x)
    return vOne td t rows [] fl)

/-- SAT with a floating tag, and RM with an integer tag, are refused (R260, R262, R273, R274). -/
def vSatRm (sat : Bool) (rm : Rm) (t : Fmt) : M Unit := do
  if sat ∧ t.isFloat then laneIllegal 4 1
  if rm ≠ .rne ∧ ¬ t.isFloat then laneIllegal 5 2
/-- Tags of the arithmetic instructions (Table 9.3). -/
def vNumber (t : Fmt) : Bool := t.isFloat || vInt t
/-- Tags of the instructions that move or mask (Table 9.3). -/
def vPlain (t : Fmt) : Bool := !t.isBlock

/-- `vadd` (R260). -/
def execVadd (tok : Tok) (td ta : TileRef) (b : VSrc) (rm : Rm) (sat : Bool) (s : State) : Host.Outcome State Fault Refusal :=
  vElem s tok td ta b none vNumber (vSatRm sat rm) id (fun t x y _ => vAdd t rm sat false x y)
/-- `vsub` (R260). -/
def execVsub (tok : Tok) (td ta : TileRef) (b : VSrc) (rm : Rm) (sat : Bool) (s : State) : Host.Outcome State Fault Refusal :=
  vElem s tok td ta b none vNumber (vSatRm sat rm) id (fun t x y _ => vAdd t rm sat true x y)
/-- `vmul` (R260). -/
def execVmul (tok : Tok) (td ta : TileRef) (b : VSrc) (rm : Rm) (sat : Bool) (s : State) : Host.Outcome State Fault Refusal :=
  vElem s tok td ta b none vNumber (vSatRm sat rm) id (fun t x y _ => vMul t rm sat x y)
/-- `vfma` (R261). -/
def execVfma (tok : Tok) (td ta : TileRef) (b : VSrc) (tc : TileRef) (rm : Rm) (s : State) : Host.Outcome State Fault Refusal :=
  vElem s tok td ta b (some tc) Fmt.isFloat (fun _ => pure ()) id (fun t x y z => vFma t rm false x y z)
/-- `vfms` (R261). -/
def execVfms (tok : Tok) (td ta : TileRef) (b : VSrc) (tc : TileRef) (rm : Rm) (s : State) : Host.Outcome State Fault Refusal :=
  vElem s tok td ta b (some tc) Fmt.isFloat (fun _ => pure ()) id (fun t x y z => vFma t rm true x y z)
/-- `vmin` (R262). -/
def execVmin (tok : Tok) (td ta : TileRef) (b : VSrc) (s : State) : Host.Outcome State Fault Refusal :=
  vElem s tok td ta b none vNumber (fun _ => pure ()) id (fun t x y _ => vMinMax t false x y)
/-- `vmax` (R262). -/
def execVmax (tok : Tok) (td ta : TileRef) (b : VSrc) (s : State) : Host.Outcome State Fault Refusal :=
  vElem s tok td ta b none vNumber (fun _ => pure ()) id (fun t x y _ => vMinMax t true x y)
/-- Tags of `vabs` and `vneg` (Table 9.3). -/
def vSigned (t : Fmt) : Bool := t.isFloat || (vInt t && Fmt.signed t)
/-- `vabs` (R262). -/
def execVabs (tok : Tok) (td ta : TileRef) (sat : Bool) (s : State) : Host.Outcome State Fault Refusal :=
  vUnary s tok td ta vSigned (vSatRm sat .rne) (fun t x => vAbsNeg t false sat x)
/-- `vneg` (R262). -/
def execVneg (tok : Tok) (td ta : TileRef) (sat : Bool) (s : State) : Host.Outcome State Fault Refusal :=
  vUnary s tok td ta vSigned (vSatRm sat .rne) (fun t x => vAbsNeg t true sat x)
/-- `vcmp` (R263): all ones or zero, under the unsigned tag of the size. -/
def execVcmp (tok : Tok) (td ta : TileRef) (b : VSrc) (c : VCond) (s : State) : Host.Outcome State Fault Refusal :=
  vElem s tok td ta b none vNumber (fun _ => pure ()) maskTag
    (fun t x y _ => (if vCond t c x y then 2 ^ Fmt.size t - 1 else 0, VFlags.none))
/-- `vand` (R264). -/
def execVand (tok : Tok) (td ta : TileRef) (b : VSrc) (s : State) : Host.Outcome State Fault Refusal :=
  vElem s tok td ta b none vPlain (fun _ => pure ()) id (fun _ x y _ => (x &&& y, VFlags.none))
/-- `vor` (R264). -/
def execVor (tok : Tok) (td ta : TileRef) (b : VSrc) (s : State) : Host.Outcome State Fault Refusal :=
  vElem s tok td ta b none vPlain (fun _ => pure ()) id (fun _ x y _ => (x ||| y, VFlags.none))
/-- `vxor` (R264). -/
def execVxor (tok : Tok) (td ta : TileRef) (b : VSrc) (s : State) : Host.Outcome State Fault Refusal :=
  vElem s tok td ta b none vPlain (fun _ => pure ()) id (fun _ x y _ => (x ^^^ y, VFlags.none))
/-- `vshl` (R264). -/
def execVshl (tok : Tok) (td ta : TileRef) (b : VSrc) (s : State) : Host.Outcome State Fault Refusal :=
  vElem s tok td ta b none vInt (fun _ => pure ()) id (fun t x y _ => vShift t true false x y)
/-- `vshr` (R264). -/
def execVshr (tok : Tok) (td ta : TileRef) (b : VSrc) (ari : Bool) (s : State) : Host.Outcome State Fault Refusal :=
  vElem s tok td ta b none vInt (fun _ => pure ()) id (fun t x y _ => vShift t false ari x y)

/-- `vexp2` (R268). -/
def execVexp2 (tok : Tok) (td ta : TileRef) (s : State) : Host.Outcome State Fault Refusal :=
  vUnary s tok td ta Fmt.isFloat (fun _ => pure ()) (vTrans exp2_32)
/-- `vlog2` (R269). -/
def execVlog2 (tok : Tok) (td ta : TileRef) (s : State) : Host.Outcome State Fault Refusal :=
  vUnary s tok td ta Fmt.isFloat (fun _ => pure ()) (vTrans log2_32)
/-- `vrcp` (R270). -/
def execVrcp (tok : Tok) (td ta : TileRef) (s : State) : Host.Outcome State Fault Refusal :=
  vUnary s tok td ta Fmt.isFloat (fun _ => pure ()) (vTrans rcp_32)
/-- `vrsq` (R271). -/
def execVrsq (tok : Tok) (td ta : TileRef) (s : State) : Host.Outcome State Fault Refusal :=
  vUnary s tok td ta Fmt.isFloat (fun _ => pure ()) (vTrans rsq_32)
/-- `vtanh` (R272). -/
def execVtanh (tok : Tok) (td ta : TileRef) (s : State) : Host.Outcome State Fault Refusal :=
  vUnary s tok td ta Fmt.isFloat (fun _ => pure ()) (vTrans tanh_32)

/-! ### Carried poison (R49, R283) -/

/-- Poisoned granules of a tile from the poison of each element, by row. -/
def poisOf (f : Fmt) (rows : List (List Bool)) : NSet :=
  ((List.range rows.length).zip rows).flatMap (fun p =>
    if p.2.any id then
      (nsRange 0 16).filterMap (fun g =>
        if (granulesOf (Fmt.size f) (64 * g) (min 64 (perRow f * Fmt.size f - 64 * g))).any (fun e => p.2.getD e false) then some (16 * p.1 + g) else none)
    else [])
/-- A tile of elements, each with its poison. -/
def tileOf (f : Fmt) (rows : List (List (Nat × Bool))) : Tile :=
  ⟨false, f, Tile.ofRows f (rows.map (fun l => l.map (·.1))), poisOf f (rows.map (fun l => l.map (·.2)))⟩
/-- Elements of a row with their poison. -/
def Tile.rowElsP (t : Tile) (f : Fmt) (i : Nat) : List (Nat × Bool) :=
  let els := t.rowEls f i
  if t.pois = [] then els.map (fun e => (e, false)) else els.zip ((List.range els.length).map (fun k => t.elPoisoned f (i * perRow f + k)))

/-- Whether a tag may be a mask or flag tile's for elements of a tag: an integer tag, or RAW, of its size (R263, R274). -/
def vMaskTag (t m : Fmt) : Bool := (vInt m || m == .raw) && Fmt.size m == Fmt.size t

/-- `vsel` (R263): data elements move with their poison; the mask's is consumed. -/
def execVsel (tok : Tok) (td tm ta : TileRef) (b : VSrc) (s : State) : Host.Outcome State Fault Refusal :=
  vxLane s tok ((tm, 56) :: (ta, 48) :: vsrcTile b 40) [(td, 12)] (fun tiles => do
    let m := tiles.headD Tile.empty
    let a := tiles.getD 1 Tile.empty
    let bt := tiles[2]?
    let t := a.tag
    if ¬ vPlain t then laneTag 48 8 t
    vSame t 40 bt
    if ¬ vMaskTag t m.tag then laneTag 56 8 m.tag
    let ob ← vOperand b t bt
    vConsume t [m]
    let rows := (List.range 64).map (fun i =>
      let eb := match ob with
        | .tile x => x.rowElsP t i
        | .const v => List.replicate (perRow t) (v, false)
      ((m.rowEls t i).zip ((a.rowElsP t i).zip eb)).map (fun (p : Nat × (Nat × Bool) × (Nat × Bool)) => if p.1 ≠ 0 then p.2.1 else p.2.2))
    let out := tileOf t rows
    return vOne td t out.rows out.pois VFlags.none)

/-! ### Conversion (R265, R266) -/

/-- A flat range of elements written into a tile; whole granules lose their poison (R265). -/
def Tile.putFlat (t : Tile) (f : Fmt) (d0 : Nat) (els : List Nat) : Tile :=
  let e := perRow f
  let sz := Fmt.size f
  (List.range 64).foldl (fun (t : Tile) i =>
    let lo := max d0 (i * e)
    let hi := min (d0 + els.length) ((i + 1) * e)
    if lo < hi then
      let b0 := (lo - i * e) * sz
      let n := (hi - lo) * sz
      let t := t.setRow i (setBits (t.row i) b0 n (packEls sz ((els.drop (lo - d0)).take (hi - lo))))
      { t with pois := patchPois 64 t.pois (1024 * i + b0) n [] }
    else t) t

/-- Elements `lo .. lo + n - 1` of a tile as a list. -/
def Tile.flat (t : Tile) (f : Fmt) (lo n : Nat) : List Nat :=
  let e := perRow f
  (((nsRange (lo / e) ((lo + n + e - 1) / e - lo / e)).flatMap (fun i => t.rowEls f i)).drop (lo % e)).take n

/-- A list cut into groups of 64; `k` bounds their number. -/
def groups64 {α : Type} : Nat → List α → List (List α)
  | 0, _ => []
  | k + 1, l => match l with
    | [] => []
    | l => l.take 64 :: groups64 k (l.drop 64)

/-- The field values that `vcvt` refuses (Table 9.4). -/
def cvtIllegal (sf d : Fmt) (ss ds : Bool) (rm : Rm) (sat : Bool) (part : BitVec 3) : M Unit := do
  let cs := perTile sf
  let cd := perTile d
  let isRaw := sf == .raw || d == .raw
  let n := min cs cd
  if d = .raw then laneIllegal 0 4
  if part ≠ 0 ∧ (isRaw ∨ cs = cd ∨ max cs cd < (part.toNat + 1) * n) then laneIllegal 32 3
  if sat ∧ ¬ d.isFloat then laneIllegal 4 1
  if rm ≠ .rne ∧ d.isBlock then laneIllegal 5 2
  if ss ≠ sf.isBlock then laneIllegal 39 1
  if ds ≠ d.isBlock then laneIllegal 38 1

/-- `vcvt` (R265, R266): a converted element's poison is consumed; bytes of a RAW side move with theirs. -/
def execVcvt (tok : Tok) (td ta tb tc : TileRef) (ss ds : Bool) (ty : Fmt) (rm : Rm) (sat : Bool) (part : BitVec 3)
    (s : State) : Host.Outcome State Fault Refusal :=
  vxLane s tok ((ta, 56) :: (if ss then [(tb, 48)] else [])) ((td, 12) :: (if ds then [(tc, 40)] else [])) (fun tiles => do
    let a := tiles.headD Tile.empty
    let sc := tiles.getD 1 Tile.empty
    let c ← core
    let sf := a.tag
    cvtIllegal sf ty ss ds rm sat part
    if ss ∧ sc.tag ≠ .z32 ∧ sc.tag ≠ .raw then laneTag 48 8 sc.tag
    let seen (t : TileRef) : Tile := (c.seenTile (isSpec s.cmd) t.n.toNat).packed
    if sf = .raw then
      let out := vOne td ty a.rows a.pois VFlags.none
      return if ds then { out with tiles := out.tiles ++ [(tc.n, { seen tc with tag := .z32 })] } else out
    let cs := perTile sf
    let cd := perTile ty
    let n := min cs cd
    let so := if cd < cs then part.toNat * n else 0
    let dof := if cs < cd then part.toNat * n else 0
    if a.pois ≠ [] ∨ (ss ∧ sc.pois ≠ []) then
      match (List.range n).find? (fun k => a.elPoisoned sf (so + k) || (ss && sc.elPoisoned .z32 ((so + k) / 64))) with
      | some k => raise (vxTrap s.cmd 3 (so + k) .poison 0)
      | none => pure ()
    let src := a.flat sf so n
    let val (k v : Nat) : VEl := if ss then vFromBlock sf .f32 .rne false (sc.el .z32 ((so + k) / 64)) v else (v, VFlags.none)
    if ty.isBlock then
      let wide := ((List.range n).zip src).map (fun p => val p.1 p.2)
      let from_ := if ss then Fmt.f32 else sf
      let gs := groups64 256 (wide.map (·.1))
      let qs := gs.map (fun g => let q := quantBlock from_ ty g; (q.1, q.2, quantSat from_ ty g q.1))
      let fl := (flagsOf wide).or ⟨qs.any (fun q => q.2.2), false, false⟩
      let t1 := { (seen td).putFlat ty dof (qs.flatMap (fun q => q.2.1)) with tag := ty }
      let t2 := { (if tc.n = td.n then t1 else seen tc).putFlat .z32 (dof / 64) (qs.map (fun q => q.1)) with tag := .z32 }
      return ⟨[(td.n, t1), (tc.n, t2)], fl.bits, [], []⟩
    else
      let r := ((List.range n).zip src).map (fun p =>
        if ss then vFromBlock sf ty rm sat (sc.el .z32 ((so + p.1) / 64)) p.2 else vConv sf ty rm sat p.2)
      let t1 := { (seen td).putFlat ty dof (r.map (·.1)) with tag := ty }
      return ⟨[(td.n, t1)], (flagsOf r).bits, [], []⟩)

/-! ### Reductions and scans (R273, R274) -/

/-- The tag of a reduction's result. -/
def redTag (t : Fmt) : Fmt := if t = .bf16 then .f32 else t

/-- `vredr` (R273): row i's result in element 0 of row i. -/
def execVredr (tok : Tok) (td ta : TileRef) (f : VRed) (sat : Bool) (s : State) : Host.Outcome State Fault Refusal :=
  vxLane s tok [(ta, 56)] [(td, 12)] (fun tiles => do
    let a := tiles.headD Tile.empty
    let t := a.tag
    vAccept vNumber t
    vSatRm sat .rne t
    vConsume t [a]
    let rs := (List.range 64).map (fun i => vReduce f t sat (a.rowEls t i))
    return vOne td (redTag t) (Tile.ofRows (redTag t) (rs.map (fun r => [r.1]))) [] (flagsOf rs))

/-- `vredc` (R273): column j's result in flat element j of the result. -/
def execVredc (tok : Tok) (td ta : TileRef) (f : VRed) (sat : Bool) (s : State) : Host.Outcome State Fault Refusal :=
  vxLane s tok [(ta, 56)] [(td, 12)] (fun tiles => do
    let a := tiles.headD Tile.empty
    let t := a.tag
    vAccept vNumber t
    vSatRm sat .rne t
    vConsume t [a]
    let rows := (List.range 64).map (fun i => a.rowEls t i)
    let rs := (List.range (perRow t)).map (fun j => vReduce f t sat (rows.map (fun r => r.getD j 0)))
    let out := Tile.empty.putFlat (redTag t) 0 (rs.map (·.1))
    return vOne td (redTag t) out.rows [] (flagsOf rs))

/-- Rows of a flat list of elements; `k` bounds their number. -/
def rowsFrom {α : Type} (e : Nat) : Nat → List α → List (List α)
  | 0, _ => []
  | k + 1, l => l.take e :: rowsFrom e k (l.drop e)

/-- `vscan` (R274). -/
def execVscan (tok : Tok) (td ta tf : TileRef) (f : VScan) (sat exc row : Bool) (s : State) : Host.Outcome State Fault Refusal :=
  vxLane s tok [(ta, 56), (tf, 48)] [(td, 12)] (fun tiles => do
    let a := tiles.headD Tile.empty
    let fl := tiles.getD 1 Tile.empty
    let t := a.tag
    vAccept vNumber t
    if ¬ vMaskTag t fl.tag then laneTag 48 8 fl.tag
    vSatRm sat .rne t
    vConsume t [a, fl]
    let e := perRow t
    let n := perTile t
    let heads := ((List.range n).zip (fl.flat t 0 n)).map (fun p => p.1 == 0 || p.2 != 0 || (row && p.1 % e == 0))
    let rs := scanGo f t sat exc 0 ((a.flat t 0 n).zip heads)
    return vOne td t (Tile.ofRows t (rowsFrom e 64 (rs.map (·.1)))) [] (flagsOf rs))

/-! ### Moves (R275-R280) -/

/-- `vtr` (R275). -/
def execVtr (tok : Tok) (td ta : TileRef) (s : State) : Host.Outcome State Fault Refusal :=
  vxLane s tok [(ta, 56)] [(td, 12)] (fun tiles => do
    let a := tiles.headD Tile.empty
    let t := a.tag
    vAccept vPlain t
    let e := perRow t
    let n := min 64 e
    let rows := (List.range 64).map (fun i => a.rowElsP t i)
    let out := tileOf t ((List.range 64).map (fun i => (List.range e).map (fun j =>
      (rows.getD (i - i % n + j % n) []).getD (j - j % n + i % n) (0, false))))
    return vOne td t out.rows out.pois VFlags.none)

/-- `vbcr` (R276): row xb mod 64 into every row. -/
def execVbcr (tok : Tok) (td ta : TileRef) (_xb : XReg) (s : State) : Host.Outcome State Fault Refusal :=
  vxLane s tok [(ta, 56)] [(td, 12)] (fun tiles => do
    let a := tiles.headD Tile.empty
    let x ← captured 0 (vxTrap s.cmd 2 0)
    let r := x.toNat % 64
    let v := a.row r
    let g := (nsRange 0 16).filter (fun g => a.pois.contains (16 * r + g))
    return vOne td a.tag (if v = 0 then [] else (List.range 64).map (fun i => (i, v)))
      ((List.range 64).flatMap (fun i => g.map (· + 16 * i))) VFlags.none)

/-- `vbcc` (R276): element xb mod E of each row into all of the row. -/
def execVbcc (tok : Tok) (td ta : TileRef) (_xb : XReg) (s : State) : Host.Outcome State Fault Refusal :=
  vxLane s tok [(ta, 56)] [(td, 12)] (fun tiles => do
    let a := tiles.headD Tile.empty
    let t := a.tag
    vAccept vPlain t
    let x ← captured 0 (vxTrap s.cmd 2 0)
    let e := perRow t
    let out := tileOf t ((List.range 64).map (fun i => List.replicate e ((a.rowElsP t i).getD (x.toNat % e) (0, false))))
    return vOne td t out.rows out.pois VFlags.none)

/-- Nibble `n` of a row of bytes, with its poison. -/
def nibOf (row : List (Nat × Bool)) (n : Nat) : Nat × Bool :=
  let b := row.getD (n / 2) (0, false)
  (b.1 / 16 ^ (n % 2) % 16, b.2)

/-- `vperm.b` (R277): index bytes are consumed, data bytes move with their poison. -/
def execVpermB (tok : Tok) (td ta tb tc : TileRef) (nib : Bool) (s : State) : Host.Outcome State Fault Refusal :=
  vxLane s tok [(ta, 56), (tb, 48), (tc, 40)] [(td, 12)] (fun tiles => do
    let a := tiles.headD Tile.empty
    let b := tiles.getD 1 Tile.empty
    let c := tiles.getD 2 Tile.empty
    vConsume .raw (if nib then [b, c] else [c])
    let out := tileOf .raw ((List.range 64).map (fun i =>
      let ra := a.rowElsP .raw i
      let rb := b.rowElsP .raw i
      let rc := c.rowEls .raw i
      if nib then (rc.zip (rb.map (·.1))).map (fun (p : Nat × Nat) =>
        let lo := nibOf ra p.1
        let hi := nibOf ra p.2
        (lo.1 + 16 * hi.1, lo.2 || hi.2))
      else
        let tbl := ra ++ rb
        rc.map (fun j => tbl.getD j (0, false))))
    return vOne td a.tag out.rows out.pois VFlags.none)

/-- `vrng` (R280). -/
def execVrng (tok : Tok) (td : TileRef) (_xa _xb : XReg) (f : VRng) (s : State) : Host.Outcome State Fault Refusal :=
  vxLane s tok [] [(td, 12)] (fun _ => do
    let sd ← captured 0 (vxTrap s.cmd 2 0)
    let x ← captured 1 (vxTrap s.cmd 2 0)
    let els := (List.range 2048).map (fun k => rngOut f (rngMix sd.toNat ((x.toNat + k) % 2 ^ 64)))
    let t : Fmt := match f with | .bits => .z32 | _ => .f32
    return vOne td t (Tile.ofRows t (rowsFrom 32 64 els)) [] VFlags.none)

/-- `vbnd` (R282). -/
def execVbnd (tok : Tok) (td ta : TileRef) (bank : BitVec 4) (s : State) : Host.Outcome State Fault Refusal :=
  vxLane s tok [(ta, 56)] [(td, 12)] (fun tiles => do
    let a := tiles.headD Tile.empty
    let t := a.tag
    vAccept vNumber t
    let st ← get
    let c ← core
    let b := c.bank bank.toNat
    if t ≠ b.fmt then laneTag 56 8 t
    if b.act = 0 then return vOne td t a.rows a.pois VFlags.none
    vConsume t [a]
    let els := a.flat t 0 (perTile t)
    match els.findIdx? (violates b.fmt b.lo.toNat b.hi.toNat) with
    | none => return vOne td t a.rows [] VFlags.none
    | some k =>
      if b.act = 3 then
        raise { vxTrap s.cmd 5 k .bound (BitVec.ofNat 64 (bank.toNat * 0x40000)) with viol := some (st.cur, bank.toNat) }
      let out := (boundEls b els).1
      return ⟨[(td.n, ⟨false, t, Tile.ofRows t (rowsFrom (perRow t) 64 out), []⟩)], [7], [bank.toNat], []⟩)

/-- `vmov td, ta` (R278): all bits and the tag, with the poison. -/
def execVmov (tok : Tok) (td ta : TileRef) (s : State) : Host.Outcome State Fault Refusal :=
  vxLane s tok [(ta, 56)] [(td, 12)] (fun tiles => do
    let a := tiles.headD Tile.empty
    return vOne td a.tag a.rows a.pois VFlags.none)

/-- The extent of a bank form: inside one bank, at a multiple of 128 (R281). -/
def vExtent (xa : Word) (t : Fmt) : M Nat := do
  let s ← get
  let off := bits xa.toNat 0 22
  let n := perTile t * Fmt.size t / 8
  if off % 128 ≠ 0 ∨ bankOf off ≠ bankOf (off + n - 1) then raise (vxTrap s.cmd 1 0 .align xa)
  return off

/-- Elements of `sz` bits from bit `sh` of packed bytes, each with its poison. -/
def PBytes.elsAt (b : PBytes) (sh sz cnt : Nat) : List (Nat × Bool) :=
  let v := leNat b.bytes / 2 ^ sh
  let pois := b.poisoned
  (List.range cnt).map (fun k =>
    (v / 2 ^ (sz * k) % 2 ^ sz, pois && (granulesOf 8 (sh + sz * k) sz).any (fun j => (b.getD j (0, false)).2)))

/-- `vmov td, [xa]` (R278, R281): a tile's bytes from a bank, under its FMT. -/
def execVmovLoad (tok : Tok) (td : TileRef) (_xa : XReg) (s : State) : Host.Outcome State Fault Refusal :=
  vxLane s tok [] [(td, 12)] (fun _ => do
    let xa ← captured 0 (vxTrap s.cmd 2 0)
    let (k, off) ← spTarget (vxTrap s.cmd 1 0) xa
    let st ← get
    let t := ((st.core k).bank (bankOf off)).fmt
    let off ← vExtent xa t
    let rowBits := perRow t * Fmt.size t
    let bs ← readSp k off (perTile t * Fmt.size t / 8)
    let out := tileOf t ((List.range 64).map (fun i =>
      PBytes.elsAt ((bs.drop (i * rowBits / 8)).take 128) (i * rowBits % 8) (Fmt.size t) (perRow t)))
    return vOne td t out.rows out.pois VFlags.none)

/-- Bank writes of elements from an offset, one effect per bank they reach; each holds whole bytes. `k0` is the first element's
index, `acc` the accumulator they come from. -/
def bankEffs (k off : Nat) (d : Fmt) (els : List (Nat × Bool)) (k0 : Nat := 0) (acc : Nat := 0) : List Effect :=
  let sz := Fmt.size d
  (piecesOf 0x40000 off ((els.length * sz + 7) / 8)).map (fun q =>
    let e0 := (q.1 - off) * 8 / sz
    let l := (els.drop e0).take (q.2 * 8 / sz)
    .bank k q.1 d (l.map (·.1)) (poisIdx l) (k0 + e0) acc)

/-- `vmov [xa], ts` (R278, R281): each element converted to the bank's FMT by Table 8.3 and written, a block format
going only to a bank of the same; poison is carried. Elements that widening places beyond the bank are written where R281 puts them, in the next
(log 16). -/
def execVmovStore (tok : Tok) (ts : TileRef) (_xa : XReg) (s : State) : Host.Outcome State Fault Refusal :=
  vxLane s tok [(ts, 12)] [] (fun tiles => do
    let a := tiles.headD Tile.empty
    let t := a.tag
    let xa ← captured 0 (vxTrap s.cmd 2 0)
    let (k, off) ← spTarget (vxTrap s.cmd 1 0) xa
    let st ← get
    let b := ((st.core k).bank (bankOf off)).fmt
    let off ← vExtent xa t
    if t ≠ b ∧ (t.isBlock = true ∨ b.isBlock = true) then laneTag 12 8 t
    let d ← stSpFmt .raw t b
    let els := (List.range 64).flatMap (fun i => a.rowElsP t i)
    let (effs, fl) :=
      if t = d ∨ b = .raw then (bankEffs k off d els, VFlags.none)
      else if t = .raw then
        let v := packEls 8 (els.map (·.1))
        let sz := Fmt.size d
        (bankEffs k off d ((List.range (8192 * 8 / sz)).map (fun e =>
          (v / 2 ^ (sz * e) % 2 ^ sz, (granulesOf 8 (sz * e) sz).any (fun j => (els.getD j (0, false)).2)))), VFlags.none)
      else
        let r := els.map (fun e => (vConv t d .rne true e.1, e.2))
        (bankEffs k off d (r.map (fun e => (e.1.1, e.2))), flagsOf (r.map (·.1)))
    if 0x400000 < off + els.length * Fmt.size d / 8 ∧ t ≠ .raw then raise (vxTrap s.cmd 1 0 .page xa)
    checkBounds (vxTrap s.cmd 5 0 .bound 0) 1 effs
    return ⟨[], fl.bits, [], effs⟩)
    (if isSpec s.cmd then throw (.wait specWait) else pure ())

/-- `vfill` (R279). -/
def execVfill (tok : Tok) (td : TileRef) (ty : Fmt) (_xa : XReg) (iota : Bool) (_xb : XReg) (s : State) :
    Host.Outcome State Fault Refusal :=
  vxLane s tok [] [(td, 12)] (fun _ => do
    if ty.isBlock ∨ (iota ∧ ¬ vInt ty) then laneIllegal 0 4
    let x ← captured 0 (vxTrap s.cmd 2 0)
    let y ← if iota then captured 1 (vxTrap s.cmd 2 0) else pure 0
    let m := 2 ^ Fmt.size ty
    let els := (List.range (perTile ty)).map (fun k => (x.toNat + k * y.toNat) % m)
    return vOne td ty (Tile.ofRows ty (rowsFrom (perRow ty) 64 els)) [] VFlags.none)

end Sys2Proof.Machine
end

