-- ==== Sys2Proof/Machine/Mx.lean ====
section
/-! DEFINITION. The matrix engine (10_matrix_engine R288-R317): the loop-nest table and its checks, the nest, one run at a time,
accumulators and their drains. -/

namespace Sys2Proof.Machine

/-- A fault of an MX command: Table 10.10. -/
def mxTrap (c : Cmd) (cause opnd acc run : Nat) : FaultClass → Word → Trap :=
  fun cls va => ⟨cls, 5, 0, BitVec.ofNat 64 (cause + acc % 8 * 2 ^ 4 + opnd * 2 ^ 8 + opOf c.raw * 2 ^ 16 + run % 2 ^ 32 * 2 ^ 32), va, none, none⟩

/-- An ILLEGAL by a field of a table register (R298). -/
def mxIllegal {α : Type} (reg flo flen value : Nat) (tag : Bool := false) : M α := do
  let s ← get
  raise ⟨.illegal, 5, 0, illegalStat (opOf s.cmd.raw) flo flen value true tag, s.cmd.lane, none, some reg⟩

/-! ### The loop-nest table (R290-R293, R300) -/

/-- A register of a table. -/
def tReg (t : List Word) (n : Nat) : Nat := (t.getD n 0).toNat
/-- A field of a table register. -/
def tFld (t : List Word) (n lo w : Nat) : Nat := bits (tReg t n) lo w

/-- A level of a nest (Table 10.4). -/
structure Lev where
  count : Nat
  red : Bool
  sc : Int
  sa : Int
  sb : Int

/-- Level `k` of a table. -/
def levAt (t : List Word) (k : Nat) : Lev :=
  ⟨tFld t (16 + 2 * k) 0 16, tFld t (16 + 2 * k) 16 1 == 1, sext 32 (tFld t (16 + 2 * k) 32 32), sext 32 (tFld t (17 + 2 * k) 0 32),
    sext 32 (tFld t (17 + 2 * k) 32 32)⟩
/-- Used levels: NLEV + 1, at most 6. -/
def tLevels (t : List Word) : List Lev := (List.range (min 6 (tFld t 0 0 3 + 1))).map (levAt t)
/-- Outer levels and the levels of the reduction loop (R292). -/
def splitRed (ls : List Lev) : List Lev × List Lev := (ls.takeWhile (fun l => !l.red), ls.dropWhile (fun l => !l.red))
/-- Steps of a run. -/
def runSteps (t : List Word) : Nat := ((splitRed (tLevels t)).2.map (·.count)).prod
/-- Runs of a nest. -/
def nestRuns (t : List Word) : Nat := ((splitRed (tLevels t)).1.map (·.count)).prod

/-- M and N of a shape mode (Table 10.1). -/
def modeMN (m : Nat) : Nat × Nat := if m = 0 then (64, 64) else if m = 1 then (16, 256) else (4, 1024)

/-- An operand of a nest (Table 10.5): its base word, pitches, blocks per row, rows, whether it lies in W-space, and its table
registers for base, pitch, scale base and scale pitch. -/
structure MxOp where
  wsp : Bool
  base : Word
  pitch : Nat
  bpr : Nat
  sbase : Word
  spitch : Nat
  rows : Nat
  rowmin : Int
  rowmax : Int

/-- The least and greatest sums of index times stride over the levels. -/
def strideRange (ls : List Lev) (f : Lev → Int) : Int × Int :=
  ls.foldl (fun (p : Int × Int) l =>
    let x := ((l.count : Int) - 1) * f l
    (p.1 + min 0 x, p.2 + max 0 x)) (0, 0)

/-- The rows of blocks an operand's nest reads. -/
def MxOp.of (t : List Word) (b : Bool) : MxOp :=
  let mn := modeMN (tFld t 0 3 2)
  let r := strideRange (tLevels t) (fun l => if b then l.sb else l.sa)
  let rows := if b then mn.2 else mn.1
  let bpr := tFld t (if b then 8 else 7) 0 20
  ⟨b && tFld t 0 5 1 == 1, t.getD (if b then 2 else 1) 0, tReg t (if b then 5 else 4), bpr, t.getD (if b then 10 else 9) 0,
    tReg t (if b then 12 else 11), rows, r.1 / (bpr : Int), (r.2 + ((rows : Int) - 1) * bpr) / (bpr : Int)⟩

/-- Bytes of a block (R293). -/
def blockBytes (f : Fmt) : Nat := if f = .mx4 then 32 else if f = .mx6 then 48 else if f = .mx8 then 64 else 128

/-- The offset, or W-space address, of a base word. -/
def MxOp.off (o : MxOp) (w : Word) : Nat := if o.wsp then w.toNat else bits w.toNat 0 22
/-- First and last byte of the code extent. -/
def MxOp.codes (o : MxOp) (f : Fmt) : Int × Int :=
  ((o.off o.base : Int) + o.rowmin * o.pitch, (o.off o.base : Int) + o.rowmax * o.pitch + o.bpr * blockBytes f - 1)
/-- First and last byte of the scale extent. -/
def MxOp.scales (o : MxOp) : Int × Int :=
  ((o.off o.sbase : Int) + o.rowmin * o.spitch, (o.off o.sbase : Int) + o.rowmax * o.spitch + 4 * o.bpr - 1)

/-- The FMT of the bank of an offset, taken modulo the scratchpad. -/
def Core.fmtAt (c : Core) (off : Int) : Fmt := (c.bank (bankOf (off % 0x400000).toNat)).fmt
/-- The first FMT other than `f` among the banks of a range. -/
def Core.otherFmt (c : Core) (lo hi : Int) (f : Fmt) : Option Fmt :=
  let a := bankOf (lo % 0x400000).toNat
  let b := bankOf (hi % 0x400000).toNat
  ((nsRange a (b + 1 - a)).map (fun n => (c.bank n).fmt)).find? (fun g => g != f)

/-- The format of an operand (R300); `lo` is its field's lowest bit in NCTL. -/
def resolveFmt (c : Core) (t : List Word) (o : MxOp) (lo : Nat) : M Fmt := do
  let code := tFld t 0 lo 4
  let fld := fmtOf code
  if o.wsp then
    if code = 0 then mxIllegal 0 lo 4 0
    return fld
  let first := c.fmtAt (o.codes .raw).1
  let f ← if code = 0 then (if first = .raw then mxIllegal 0 lo 4 0 true else pure first)
    else if first = .raw ∨ first = fld then pure fld else mxIllegal 0 lo 4 first.code true
  let (a, b) := o.codes f
  match c.otherFmt a b first with
  | some g => mxIllegal 0 lo 4 g.code true
  | none => return f

/-- The drain of a nest: FMT, element bytes, first and last byte (R298). -/
def drainExtent (c : Core) (t : List Word) : Fmt × Nat × Int × Int :=
  let mn := modeMN (tFld t 0 3 2)
  let r := strideRange (tLevels t) (·.sc)
  let lo : Int := (bits (tReg t 3) 0 22 : Int) + r.1
  let f := c.fmtAt lo
  let sz := if f = .raw then 4 else Fmt.size f / 8
  (f, sz, lo, (bits (tReg t 3) 0 22 : Int) + r.2 + ((mn.1 : Int) - 1) * tReg t 6 + mn.2 * sz - 1)

/-- Reserved bits of a table, with the register and the field (check 1 of Table 10.6). -/
def reservedBits (t : List Word) : List (Nat × Nat × Nat) :=
  [(0, 29, 35), (1, 25, 39), (2, 38, 26), (3, 25, 39), (4, 22, 42), (5, 38, 26), (6, 22, 42), (7, 20, 44), (8, 20, 44), (9, 25, 39), (10, 38, 26),
    (11, 22, 42), (12, 38, 26)] ++ (List.range (tLevels t).length).map (fun k => (16 + 2 * k, 17, 15)) ++
    (([13, 14, 15, 28, 29, 30, 31] : List Nat).map (fun n => (n, 0, 63)))

/-- Checks 1 and 2 of Table 10.6. -/
def mxCheckFields (t : List Word) : M Unit := do
  match (reservedBits t).find? (fun (p : Nat × Nat × Nat) => if p.1 < 13 ∨ p.2.1 = 17 then tFld t p.1 p.2.1 p.2.2 != 0 else tReg t p.1 != 0) with
  | some p => mxIllegal p.1 p.2.1 p.2.2 (tFld t p.1 p.2.1 p.2.2)
  | none => pure ()
  let ls := tLevels t
  if 6 ≤ tFld t 0 0 3 then mxIllegal 0 0 3 (tFld t 0 0 3)
  if tFld t 0 3 2 = 3 then mxIllegal 0 3 2 3
  match ls.findIdx? (fun l => l.count == 0) with
  | some k => mxIllegal (16 + 2 * k) 0 16 0
  | none => pure ()
  if tFld t 7 0 20 = 0 then mxIllegal 7 0 20 0
  if tFld t 8 0 20 = 0 then mxIllegal 8 0 20 0
  if 8 < tFld t 0 14 3 + tFld t 0 17 3 + 1 then mxIllegal 0 17 3 (tFld t 0 17 3)
  if 14 ≤ tFld t 0 6 4 then mxIllegal 0 6 4 (tFld t 0 6 4)
  if 14 ≤ tFld t 0 10 4 then mxIllegal 0 10 4 (tFld t 0 10 4)
  let reds := (List.range ls.length).filter (fun k => (levAt t k).red)
  match reds.drop 1 with
  | k :: _ => mxIllegal (16 + 2 * k) 16 1 1
  | [] => pure ()
  match (List.range ls.length).find? (fun k => (reds.any (fun r => decide (r ≤ k))) && (levAt t k).sc != 0) with
  | some k => mxIllegal (16 + 2 * k) 32 32 (tFld t (16 + 2 * k) 32 32)
  | none => pure ()

/-- Check 3 of Table 10.6: the formats of A and B. -/
def mxFormats (t : List Word) : M (Fmt × Fmt) := do
  let c ← core
  let fa ← resolveFmt c t (MxOp.of t false) 6
  let fb ← resolveFmt c t (MxOp.of t true) 10
  if ¬ (fa.isBlock ∨ fa = .bf16) then mxIllegal 0 6 4 fa.code true
  if ¬ ((fa.isBlock ∧ fb.isBlock) ∨ (fa = .bf16 ∧ fb = .bf16)) then mxIllegal 0 10 4 fb.code true
  return (fa, fb)

/-- The format of an operand of a nest whose checks have passed (R298: they are not repeated). -/
def fmtNow (c : Core) (t : List Word) (o : MxOp) (lo : Nat) : Fmt :=
  if tFld t 0 lo 4 = 0 ∧ ¬ o.wsp then c.fmtAt (o.codes .raw).1 else fmtOf (tFld t 0 lo 4)
/-- The formats of A and B of such a nest. -/
def nestFmts (c : Core) (t : List Word) : Fmt × Fmt := (fmtNow c t (MxOp.of t false) 6, fmtNow c t (MxOp.of t true) 10)

/-- A scratchpad extent of a nest: its base word, first and last byte, and whether a row lies below row 0. -/
structure MxExt where
  word : Word
  lo : Int
  hi : Int
  below : Bool

/-- The extents of an operand in a scratchpad. -/
def MxOp.exts (o : MxOp) (f : Fmt) : List MxExt :=
  if o.wsp then []
  else ⟨o.base, (o.codes f).1, (o.codes f).2, decide (o.rowmin < 0)⟩ ::
    (if f.isBlock then [⟨o.sbase, o.scales.1, o.scales.2, decide (o.rowmin < 0)⟩] else [])

/-- The bank groups of extents (R42). -/
def extGroups (l : List MxExt) : List Nat := l.flatMap (fun e => [e.lo.toNat / 2 ^ 20, e.hi.toNat / 2 ^ 20])
/-- The bank groups that a nest streams from (R302). -/
def nestGroups (t : List Word) (fa fb : Fmt) : NSet :=
  (extGroups ((MxOp.of t false).exts fa ++ (MxOp.of t true).exts fb)).foldl (fun g n => nsAdd n g) []

/-- Checks 4 to 9 of Table 10.6. -/
def mxCheckPlaces (t : List Word) (fa fb : Fmt) : M Unit := do
  let s ← get
  let c ← core
  let a := MxOp.of t false
  let b := MxOp.of t true
  let auto := tFld t 0 21 1 == 1
  let (df, dsz, dlo, dhi) := drainExtent c t
  if auto then
    if df.isBlock then mxIllegal 3 0 25 df.code true
    match c.otherFmt dlo dhi df with
    | some g => mxIllegal 3 0 25 g.code true
    | none => pure ()
  let mk := mxTrap s.cmd 1 0 0 0
  let exts := a.exts fa ++ b.exts fb ++ (if auto then [⟨t.getD 3 0, dlo, dhi, false⟩] else [])
  for e in exts do
    let _ ← spTarget mk e.word
    if e.below ∨ e.lo < 0 ∨ 0x3FFFFF < e.hi then
      let base : Int := (e.word.toNat / 0x400000 * 0x400000 : Nat)
      raise (mk .page (BitVec.ofInt 64 (base + (if e.below ∨ e.lo < 0 then e.lo else max e.lo 0x400000))))
  for e in exts do
    let (k, _) ← spTarget mk e.word
    if k ≠ s.cur then raise (mk .perm e.word)
  if b.wsp then
    let pn ← partNo
    let ws := (b.codes fb) :: (if fb.isBlock then [b.scales] else [])
    for w in ws do
      if w.1 < 0 then raise (mk .wspace (BitVec.ofInt 64 w.1))
      let lo := w.1.toNat
      let hi := w.2.toNat
      if 2 ^ 38 ≤ lo then raise (mk .wspace (BitVec.ofNat 64 lo))
      match (nsRange (lo / 2 ^ 29) (hi / 2 ^ 29 + 1 - lo / 2 ^ 29)).find? (fun sl =>
          !s.wOk pn (max lo (sl * 2 ^ 29)) || s.disabled.contains (wCore (sl * 2 ^ 29))) with
      | some sl => raise (mk .wspace (BitVec.ofNat 64 (max lo (sl * 2 ^ 29))))
      | none => pure ()
      if !((nsRange (lo / 2 ^ 36) (hi / 2 ^ 36 + 1 - lo / 2 ^ 36)).all (fun d => s.ringOk (coreDie s.cur) d)) then
        raise (mk .link (BitVec.ofNat 64 lo))
  for p in ([(a, fa), (b, fb)] : List (MxOp × Fmt)) do
    let o := p.1
    if p.2.isBlock then
      if o.sbase.toNat % 4 ≠ 0 then raise (mk .align o.sbase)
      if o.spitch % 4 ≠ 0 then raise (mk .align (BitVec.ofNat 64 o.spitch))
    else
      if o.base.toNat % 2 ≠ 0 then raise (mk .align o.base)
      if o.pitch % 2 ≠ 0 then raise (mk .align (BitVec.ofNat 64 o.pitch))
  if auto then
    if tReg t 3 % dsz ≠ 0 then raise (mk .align (t.getD 3 0))
    if tReg t 6 % dsz ≠ 0 then raise (mk .align (t.getD 6 0))
    for l in tLevels t do
      if l.sc % (dsz : Int) ≠ 0 then raise (mk .align (BitVec.ofInt 64 l.sc))
  let ga := extGroups (a.exts fa)
  let gb := extGroups (b.exts fb)
  if ga.any (fun g => g != ga.headD 0) then raise (mk .bankconf 0)
  if gb.any (fun g => g != gb.headD 0) ∨ gb.any (fun g => g == ga.headD 0) then raise (mk .bankconf 0)
  let pn ← partNo
  if max 1 (s.getPart pn).regs.mxkmax.toNat < runSteps t then raise (mk .mxkmax 0)

/-- The checks of Table 10.6, in order; the formats. -/
def mxChecks (t : List Word) : M (Fmt × Fmt) := do
  mxCheckFields t
  let (fa, fb) ← mxFormats t
  mxCheckPlaces t fa fb
  return (fa, fb)

/-! ### Steps and runs (R299-R303) -/

/-- A scale word through the scale cache (R303): its value and poison, and the cache. -/
def scaleWord (s : State) (c : Core) (wsp : Bool) (addr : Nat) (cache : List ScaleWord) : (Nat × Bool) × List ScaleWord :=
  match cache.find? (fun x => x.wsp == wsp && x.addr == addr) with
  | some x => ((x.v.toNat, x.pois), cache)
  | none =>
    let b : PBytes := if wsp then s.readW addr 4 else (peekBytes c.sp addr 4).zip (List.replicate 4 (c.spPoisoned addr 4))
    let v := leNat b.bytes
    ((v, b.poisoned), (if cache.length < 4096 then cache else cache.drop 1) ++ [⟨wsp, addr, BitVec.ofNat 32 v, b.poisoned⟩])

/-- A block read (R293): its S24 scale and its codes, or the operand number and address of its poison (Table 10.10). -/
def readBlock (s : State) (c : Core) (o : MxOp) (f : Fmt) (opnd : Nat) (j : Int) (cache : List ScaleWord) :
    Except (Nat × Word) ((Nat × List Nat) × List ScaleWord) :=
  let row := j / (o.bpr : Int)
  let col := (j % (o.bpr : Int)).toNat
  let addr := ((o.off o.base : Int) + row * o.pitch + (col * blockBytes f : Nat)).toNat
  let n := blockBytes f
  let hi (w : Word) (a : Nat) : Word := if o.wsp then BitVec.ofNat 64 a else BitVec.ofNat 64 (w.toNat / 0x400000 * 0x400000 + a)
  let b : PBytes := if o.wsp then s.readW addr n else (peekBytes c.sp addr n).zip (List.replicate n (c.spPoisoned addr n))
  if b.poisoned then .error (opnd, hi o.base addr)
  else
    let codes := unpackEls (Fmt.size f) 64 (leNat b.bytes)
    if f.isBlock then
      let sa := ((o.off o.sbase : Int) + row * o.spitch + (4 * col : Nat)).toNat
      let ((v, p), cache) := scaleWord s c o.wsp sa cache
      if p then .error (opnd + 1, hi o.sbase sa) else .ok ((v % 2 ^ 24, codes), cache)
    else .ok ((0, codes), cache)

/-- The blocks of one operand at a step. -/
def readBlocks (s : State) (c : Core) (o : MxOp) (f : Fmt) (opnd : Nat) (j : Int) (cache : List ScaleWord) :
    Except (Nat × Word) (List (Nat × List Nat) × List ScaleWord) :=
  (List.range o.rows).foldlM (fun (p : List (Nat × List Nat) × List ScaleWord) (m : Nat) => do
    let r ← readBlock s c o f opnd (j + m * o.bpr) p.2
    return (p.1 ++ [r.1], r.2)) ([], cache)

/-- The contribution of a pair of blocks, elements 0 to kv - 1 (R101, R102, R301). -/
def pairContrib (fa fb : Fmt) (kv : Nat) (a b : Nat × List Nat) : Contrib :=
  if fa.isBlock then blockContrib fa fb a.1 b.1 ((a.2.take kv).map (intVal fa)) ((b.2.take kv).map (intVal fb))
  else bfContrib (a.2.take kv) (b.2.take kv)

/-- A run register, whether an addition overflowed, and the scale cache. -/
structure RunReg where
  el : List Nat
  ovf : Bool
  cache : List ScaleWord

/-- One step of a run (R299). -/
def runStep (s : State) (c : Core) (oa ob : MxOp) (fa fb : Fmt) (kv : Nat) (j : Int × Int) (r : RunReg) : Except (Nat × Word) RunReg := do
  let (as, cache) ← readBlocks s c oa fa 1 j.1 r.cache
  let (bs, cache) ← readBlocks s c ob fb 3 j.2 cache
  let cs := as.flatMap (fun a => bs.map (fun b => pairContrib fa fb kv a b))
  return ⟨List.zipWith accAdd r.el cs, r.ovf || (List.zipWith accOverflows r.el cs).any id, cache⟩

/-- Block-index offsets of the steps of the levels, the last level fastest. -/
def stepOffsets (ls : List Lev) : List (Int × Int) :=
  ls.foldl (fun (acc : List (Int × Int)) l =>
    acc.flatMap (fun p => (List.range l.count).map (fun (i : Nat) => (p.1 + (i : Int) * l.sa, p.2 + (i : Int) * l.sb)))) [(0, 0)]
/-- Block-index offsets and the drain offset of run `r` from the outer levels. -/
def runOffsets (ls : List Lev) (r : Nat) : (Int × Int) × Int :=
  (ls.foldr (fun l (p : Nat × (Int × Int) × Int) =>
    let i : Int := (p.1 % l.count : Nat)
    (p.1 / l.count, (p.2.1.1 + i * l.sa, p.2.1.2 + i * l.sb), p.2.2 + i * l.sc)) (r, (0, 0), 0)).2

/-- All steps of run `r` from a starting register; the last counts KLAST + 1 elements. -/
def runAll (s : State) (c : Core) (t : List Word) (fa fb : Fmt) (r : Nat) (start : RunReg) : Except (Nat × Word) RunReg :=
  let (outer, inner) := splitRed (tLevels t)
  let o := (runOffsets outer r).1
  let steps := stepOffsets inner
  let oa := MxOp.of t false
  let ob := MxOp.of t true
  ((List.range steps.length).zip steps).foldlM (fun (x : RunReg) p =>
    runStep s c oa ob fa fb (if p.1 + 1 = steps.length then tFld t 0 23 6 + 1 else 64) (o.1 + p.2.1, o.2 + p.2.2) x) start

/-! ### Accumulators and drains (R289, R305-R309) -/

/-- The accumulator a command reads: the shadow where a speculative command finds one written (R313). -/
def Core.seenAcc (c : Core) (spec : Bool) (k : Nat) : Acc :=
  let a := c.accs.getD k Acc.zero
  if spec then (match amFind k c.sh.accs with | some x => x | none => a) else a
/-- An accumulator written by a command: speculative commands write the shadow (R289). -/
def Core.putAcc (c : Core) (spec : Bool) (k : Nat) (a : Acc) : Core :=
  if spec then { c with sh := { c.sh with accs := amSet c.sh.accs k a } }
  else if h : k < 8 then { c with accs := c.accs.set k a h } else c
/-- Bits of MXSTAT set by a command (R309). -/
def Core.noteMx (c : Core) (spec : Bool) (bs : List Nat) : Core :=
  if spec then { c with sh := { c.sh with mxbits := bs.foldl (fun s b => nsAdd b s) c.sh.mxbits } }
  else { c with mx := { c.mx with stat := bs.foldl (fun (w : BitVec 32) b => w ||| (1 <<< b : BitVec 32)) c.mx.stat } }
/-- An element of an accumulator. -/
def Acc.get (a : Acc) (e : Nat) : Nat := (amGet 0 a.el e).toNat
/-- Elements `lo .. lo + els.length - 1` replaced; a granule of 64 wholly written takes the poison of its elements. -/
def Acc.put (a : Acc) (lo : Nat) (els : List (Nat × Bool)) : Acc :=
  let n := els.length
  let cells := ((List.range n).zip els).filterMap (fun p => if p.2.1 = 0 then none else some (lo + p.1, BitVec.ofNat 32 p.2.1))
  ⟨a.el.filter (fun e => decide (e.1 < lo)) ++ cells ++ a.el.filter (fun e => decide (lo + n ≤ e.1)),
    patchPois 64 a.pois lo n (poisIdx els)⟩
/-- Elements of an accumulator with the poison of their granules. -/
def Acc.range (a : Acc) (lo n : Nat) : List (Nat × Bool) :=
  (List.range n).map (fun i => (a.get (lo + i), a.pois.contains ((lo + i) / 64)))
/-- NAN and INF bits of a drain of accumulator `k` (R309). -/
def drainBits (k : Nat) (els : List (Nat × Bool)) : List Nat :=
  (if els.any (fun e => fNan 23 e.1) then [4 * k] else []) ++ (if els.any (fun e => fInf 23 e.1) then [4 * k + 1] else [])

/-- The bank writes of a drain of `nrow` rows of `n` elements of accumulator `k` (R308); `chk` makes the address checks. -/
def drainRows (mk : FaultClass → Word → Trap) (k : Nat) (a : Acc) (xa : Word) (xb : Int) (n nrow : Nat) : M (List Effect) := do
  let s ← get
  let c ← core
  let (tgt, off) ← spTarget mk xa
  if tgt ≠ s.cur then raise (mk .perm xa)
  let f := (c.bank (bankOf off)).fmt
  if f.isBlock then raise (illegalBank 5 0 s.now s.cmd f)
  let d : Fmt := if f = .raw then .f32 else f
  let bytes := n * (Fmt.size d / 8)
  let rows ← (List.range nrow).mapM (fun (i : Nat) => do
    let x : Int := (i : Int) * xb
    let o ← spRow mk xa x bytes
    if o % (Fmt.size d / 8) ≠ 0 then raise (mk .align (xa + BitVec.ofInt 64 x))
    match c.otherFmt o (o + bytes - 1) f with
    | some g => raise (illegalBank 5 0 s.now s.cmd g)
    | none => pure ()
    let els := (a.range (n * i) n).map (fun e => (implicitConv .f32 d e.1, e.2))
    return bankEffs s.cur o d els (i * n) k)
  return rows.flatten

/-- A drain of elements of accumulator `k` written (R308, R309): what it has read is noted in MXSTAT though its bounds check traps. -/
def drainWrite (k : Nat) (els : List (Nat × Bool)) (base : Trap) (effs : List Effect) : M Unit := do
  let s ← get
  modCore (·.noteMx false (drainBits k els))
  let s1 ← get
  match (commitWrite base 1 effs (mxTrap s.cmd 0 5 k 0 .link 0)).run s1 with
  | .ok (_, s2) => set s2
  | .error (.trap t) => throw (.part s1 t)
  | .error e => throw e

/-- `mxdrb` (R308). -/
def execMxdrb (tok : Tok) (k : BitVec 3) (shape : Shape) (_xa _xb : XReg) (nrow : BitVec 6) (clr : Bool) (s : State) :
    Host.Outcome State Fault Refusal :=
  engineLane s ⟨tok, [], []⟩
    (do
      if isSpec s.cmd then throw (.wait specWait)
      let (m, _) := modeMN (match shape with | .w64 => 0 | .w256 => 1 | .w1024 => 2)
      if m < nrow.toNat + 1 then laneIllegal 50 6)
    (fun _ => do
      let xa ← captured 0 (mxTrap s.cmd 2 0 k.toNat 0)
      let xb ← captured 1 (mxTrap s.cmd 2 0 k.toNat 0)
      let (_, n) := modeMN (match shape with | .w64 => 0 | .w256 => 1 | .w1024 => 2)
      let rows := nrow.toNat + 1
      let c ← core
      let a := c.seenAcc false k.toNat
      let effs ← drainRows (mxTrap s.cmd 1 5 k.toNat 0) k.toNat a xa xb.toInt n rows
      drainWrite k.toNat (a.range 0 (n * rows)) (mxTrap s.cmd 5 5 k.toNat 0 .bound 0) effs
      modCore (fun c => if clr then c.putAcc false k.toNat (a.put 0 (List.replicate (n * rows) (0, false))) else c))

/-- The place of a part (R306, R307): elements converted, offset in the tile, offset in the accumulator; `cap` is the tile's
capacity. -/
def partPlace (cap part : Nat) : M (Nat × Nat × Nat) := do
  let n := min 4096 cap
  if part ≠ 0 ∧ (cap = 4096 ∨ max 4096 cap < (part + 1) * n) then laneIllegal 32 2
  return (n, if 4096 < cap then part * n else 0, if cap < 4096 then part * n else 0)

/-- A tile with the poison of elements from `d0` on added. -/
def Tile.addPois (t : Tile) (f : Fmt) (d0 : Nat) (els : List (Nat × Bool)) : Tile :=
  { t with pois := (poisIdx els).foldl (fun s e =>
      let k := d0 + e
      (granulesOf 64 (k % perRow f * Fmt.size f) (Fmt.size f)).foldl (fun s g => nsAdd (16 * (k / perRow f) + g) s) s) t.pois }

/-- `mxdr` (R307). -/
def execMxdr (tok : Tok) (td : TileRef) (k : BitVec 3) (ty : Fmt) (clr : Bool) (part : BitVec 2) (s : State) :
    Host.Outcome State Fault Refusal :=
  engineLane s ⟨tok, [], [(td, 12)]⟩
    (do
      if ty.isBlock then laneIllegal 3 4
      if isSpec s.cmd then throw (.wait specWait)
      let d : Fmt := if ty = .raw then .f32 else ty
      let _ ← partPlace (perTile d) part.toNat)
    (fun _ => do
      let d : Fmt := if ty = .raw then .f32 else ty
      let (n, into, from_) ← partPlace (perTile d) part.toNat
      modCore (fun c =>
        let a := c.seenAcc false k.toNat
        let els := a.range from_ n
        let t := (c.tile td.n.toNat).packed.putFlat d into (els.map (fun e => implicitConv .f32 d e.1))
        let c := c.putTile s.cmd td.n.toNat { (t.addPois d into els) with tag := d }
        let c := c.noteMx false (drainBits k.toNat els)
        if clr then c.putAcc false k.toNat (a.put from_ (List.replicate n (0, false))) else c))

/-- `mxclr` (R305). -/
def execMxclr (tok : Tok) (mask : BitVec 8) (s : State) : Host.Outcome State Fault Refusal :=
  engineLane s ⟨tok, [], []⟩ (if mask = 0 then laneIllegal 12 8 else pure ()) (fun _ => do
    modCore (fun c => (List.range 8).foldl (fun (c : Core) k => if mask.getLsbD k then c.putAcc (isSpec s.cmd) k Acc.zero else c) c))

/-- `mxld` (R306). -/
def execMxld (tok : Tok) (ta : TileRef) (k : BitVec 3) (part : BitVec 2) (s : State) : Host.Outcome State Fault Refusal :=
  let src (t : Tile) : Fmt := if t.tag = .raw then .f32 else t.tag
  engineLane s ⟨tok, [(ta, 12)], []⟩ (pure ())
    (fun tiles => do
      let t := tiles.headD Tile.empty
      let f := src t
      let (n, from_, into) ← partPlace (perTile f) part.toNat
      let els := ((List.range n).zip (t.flat f from_ n)).map (fun p =>
        (convElem f .f32 .rne false p.2, t.pois != [] && t.elPoisoned f (from_ + p.1)))
      modCore (fun c => c.putAcc (isSpec s.cmd) k.toNat ((c.seenAcc (isSpec s.cmd) k.toNat).put into els)))
    (fun tiles => do
      let t := tiles.headD Tile.empty
      if t.tag.isBlock then laneTag 12 8 t.tag
      let _ ← partPlace (perTile (src t)) part.toNat)

/-- Scale-cache entries removed (R304). -/
def mxscLane (tok : Tok) (keep : ScaleWord → Bool) (s : State) : Host.Outcome State Fault Refusal :=
  engineLane s ⟨tok, [], []⟩ (if isSpec s.cmd then throw (.wait specWait) else pure ()) (fun _ =>
    modCore (fun c => { c with mx := { c.mx with cache := c.mx.cache.filter keep } }))
/-- `mxsc` (R304). -/
def execMxsc (tok : Tok) (s : State) : Host.Outcome State Fault Refusal := mxscLane tok (fun _ => false) s
/-- `mxsc.sp` (R304). -/
def execMxscSp (tok : Tok) (s : State) : Host.Outcome State Fault Refusal := mxscLane tok (fun x => x.wsp) s
/-- `mxsc.w` (R304). -/
def execMxscW (tok : Tok) (s : State) : Host.Outcome State Fault Refusal := mxscLane tok (fun x => !x.wsp) s

/-! ### The nest (R296-R302, R313-R315) -/

/-- `mxgo` (R297-R299): the checks of its captured table, its tokens, and the start of its nest, whose runs are retired by
RUN_RETIREMENT; it stays at the queue head until the last. -/
def execMxgo (tok : Tok) (s : State) : Host.Outcome State Fault Refusal :=
  let t := s.cmd.table
  if s.cmd.started then .next { s with stalled := true }
  else runM s (do
    let (fa, fb) ← mxChecks t
    if isSpec s.cmd ∧ tFld t 0 21 1 = 1 then throw (.wait specWait)
    startLane ⟨tok, [], []⟩ (fun _ => pure ())
    let s' ← get
    modCore (fun c => { c with mx := { c.mx with
      active := Vector.ofFn (fun (i : Fin 32) => t.getD i.val 0)
      nest := some ⟨s'.cmd, 0, nestRuns t, false, nestGroups t fa fb, false⟩
      runs := 0
      cache := if tFld t 0 22 1 = 1 then [] else c.mx.cache } }))

/-- The auto-drain of run `r` (R308), from its accumulator. -/
def autoDrain (t : List Word) (r acc : Nat) : M Unit := do
  let s ← get
  let c ← core
  let (m, n) := modeMN (tFld t 0 3 2)
  let a := c.seenAcc false acc
  let xa := t.getD 3 0 + BitVec.ofInt 64 (runOffsets (splitRed (tLevels t)).1 r).2
  let effs ← drainRows (mxTrap s.cmd 1 5 acc r) acc a xa (tReg t 6) n m
  drainWrite acc (a.range 0 4096) (mxTrap s.cmd 5 5 acc r .bound 0) effs

/-- Whether a core comes to rest: for a pre-emption, at a halt, or after a fault (R168, R172, R180). -/
def Core.comesToRest (c : Core) : Bool := c.mode != CoreMode.running || c.dbg.halted

/-- What follows the retirement of run `r`: the next, or the completion of the `mxgo` (R302). A nest whose core comes to rest rests at the next
run (R315). -/
def nextRun (tok : Tok) (n : Nest) : M Unit := do
  if n.run + 1 < n.runs then modCore (fun c => { c with mx := { c.mx with nest := some { n with run := n.run + 1, drain := false, rested := c.comesToRest } } })
  else do
    modCore (fun c => { c with mx := { c.mx with nest := none } })
    finishLane ⟨tok, [], []⟩

/-- The accumulator of a nest's current run. -/
def nestAcc (n : Nest) : Nat := tFld n.cmd.table 0 14 3 + n.run % (tFld n.cmd.table 0 17 3 + 1)

/-- RUN_RETIREMENT (R299, R302, R314): one run, or the drain that a trap has left pending. -/
def execRunRetirement (s : State) : Host.Outcome State Fault Refusal :=
  let c := s.core s.cur
  match c.mx.nest with
  | none => .fault .notEnabled
  | some nest =>
    match nest.cmd.instr with
    | .mxgo tok =>
      let cmd := nest.cmd
      let t := cmd.table
      let spec := isSpec cmd
      let r := nest.run
      let acc := nestAcc nest
      let auto := tFld t 0 21 1 == 1
      runM { s with slot := 4, cmd := cmd } (do
        if ¬ nest.drain then
          let (fa, fb) := nestFmts c t
          let seen := (s.see s.cur).core s.cur
          let old := c.seenAcc spec acc
          let zinit := tFld t 0 20 1 == 1
          if ¬ zinit ∧ old.pois ≠ [] then raise (mxTrap cmd 3 6 acc r .poison 0)
          let start : List Nat := if zinit then List.replicate 4096 0 else (old.range 0 4096).map (·.1)
          match runAll s seen t fa fb r ⟨start, false, c.mx.cache⟩ with
          | .error (opnd, va) => raise (mxTrap cmd 2 opnd acc r .poison va)
          | .ok reg =>
            modCore (fun c =>
              let c := c.putAcc spec acc (Acc.zero.put 0 (reg.el.map (fun e => (e, false))))
              let c := c.noteMx spec (if reg.ovf then [4 * acc + 2] else [])
              { c with mx := { c.mx with cache := reg.cache, runs := c.mx.runs + 1, nest := some { nest with drain := auto } } })
        if auto then
          let s1 ← get
          match (autoDrain t r acc).run s1 with
          | .ok (_, s2) => set s2
          | .error (.trap tr) => throw (.part s1 tr)
          | .error (.wait w) => if nest.drain then throw (.wait w) else throw (.started s1 w)
          | .error e => throw e
        nextRun tok nest)
    | _ => .fault .notEnabled

/-! ### Control-core lanes (R295, R311) -/

/-- `mxcfg` (R295). -/
def execMxcfg (n : BitVec 5) (a : XReg) (imm : BitVec 40) (s : State) : Host.Outcome State Fault Refusal :=
  ccLane s (do
    let x ← readX a
    modCore (fun c => { c with mx := { c.mx with shadow := c.mx.shadow.set n.toNat (x + imm.signExtend 64) n.isLt } }))

/-- `mxcfg.t` (R295). -/
def execMxcfgT (a : XReg) (imm : BitVec 40) (s : State) : Host.Outcome State Fault Refusal :=
  ccLane s (do
    let x ← readX a
    let va := x + imm.signExtend 64
    if va.toNat % 256 ≠ 0 then ccRaise .align va
    let b ← readVaSeen (ccMk s.cmd) va 256
    if b.poisoned then ccRaise .poison va
    modCore (fun c => { c with mx := { c.mx with
      shadow := Vector.ofFn (fun (i : Fin 32) => BitVec.ofNat 64 (leNat ((b.bytes.drop (8 * i.val)).take 8))) } }))

/-- Whether an MX command can set an MXSTAT bit of accumulator `k`, of any where `k` is none (R311). -/
def setsStat (k : Option Nat) (m : Cmd) : Bool :=
  match m.instr with
  | .mxgo _ => match k with
    | none => true
    | some k => decide (tFld m.table 0 14 3 ≤ k) && decide (k ≤ tFld m.table 0 14 3 + tFld m.table 0 17 3)
  | .mxdr _ _ j _ _ _ => k.all (fun k => j.toNat == k)
  | .mxdrb _ j _ _ _ _ _ => k.all (fun k => j.toNat == k)
  | _ => false

/-- `mxst` (R311): waits for the MX commands before it that can set its bits, and while one is speculative. -/
def mxstLane (d : XReg) (clr : Bool) (k : Option Nat) (s : State) : Host.Outcome State Fault Refusal :=
  ccLane s (do
    let c ← core
    let before := (cmdsOf (c.queue 4)).filter (fun (m : Cmd) => decide (m.pos ≤ s.cmd.idx))
    if before.any (fun (m : Cmd) => m.spec != SpecMark.none) then throw (.wait specWait)
    if before.any (setsStat k) then waitFor 0
    let st := c.mx.stat
    match k with
    | some k =>
      writeX d (BitVec.ofNat 64 (bits st.toNat (4 * k) 4))
      if clr then modCore (fun c => { c with mx := { c.mx with stat := st &&& ~~~(0xF <<< (4 * k) : BitVec 32) } })
    | none =>
      writeX d (st.setWidth 64)
      if clr then modCore (fun c => { c with mx := { c.mx with stat := 0 } }))
/-- `mxst xd, mk` (R311). -/
def execMxst (d : XReg) (clr : Bool) (k : BitVec 3) (s : State) : Host.Outcome State Fault Refusal := mxstLane d clr (some k.toNat) s
/-- `mxst xd` (R311). -/
def execMxstAll (d : XReg) (clr : Bool) (s : State) : Host.Outcome State Fault Refusal := mxstLane d clr none s

end Sys2Proof.Machine
end

