-- ==== Sys2Proof/Machine/Fabric.lean ====
section
/-! DEFINITION. The fabric (15_fabric R435-R453): link events, collective rounds, and the FX commands of the XQ port. -/

namespace Sys2Proof.Machine

/-! ### Link events (R436, R450) -/

/-- The code of a link's state (R450). -/
def LinkSt.code : LinkSt → Nat
  | .up => 0 | .degraded => 1 | .retrain => 2 | .down => 3 | .absent => 4
/-- Modules or lanes of a link by Table 15.1. -/
def fullWidth (d l : Nat) : Nat := (Link.fresh d l).mods
/-- Attention contributions under way when a link goes DOWN: of those that no merge point has taken and that no path is left to, each may be
lost; which are is free (R439, log 2). -/
def State.loseContribs (s : State) : State :=
  s.cores.foldl (fun (s : State) e => e.2.atq.foldl (fun (s : State) (o : AtOp) =>
    let taken (j : Nat) : Bool := o.done.any (fun pt => (o.inputs pt).contains j)
    let gone (j : Nat) : Bool := !taken j && !s.chipOk (coreDie e.1) (s.kvChip (s.corePart e.1) j) && Config.oracle (s.picks + j) % 2 == 1
    let trip := (List.range o.trip.length).map (fun j => if gone j then none else o.trip.getD j none)
    { (s.updCore e.1 (fun c => c.updAt { o with trip := trip })) with picks := s.picks + o.trip.length }) s) s
/-- A change of a link's state, and its LINK event. -/
def State.turnLink (s : State) (d l : Nat) (f : Link → Link) : State :=
  let p := s.dieOwner d
  let s := s.setLink d l (fun x => { f x with at_ := s.cycle p })
  let s := if s.linkOk d l then s else s.loseContribs
  s.post p 9 p (BitVec.ofNat 64 (d * 256 + l)) (BitVec.ofNat 64 (s.link d l).st.code)

/-- FLIT_REPLAY (R436): a flit replayed; after eight replays of one flit the link retrains. Whether it is the flit last replayed is
free (log 2). -/
def execFlitReplay (d : BitVec 2) (lnk : BitVec 3) (s : State) : Host.Outcome State Fault Refusal :=
  let l := lnk.toNat
  let x := s.link d.toNat l
  if 6 ≤ l ∨ ¬ (x.st = .up ∨ x.st = .degraded) then .fault .notEnabled
  else
    let same := decide (Config.oracle s.picks % 2 = 1)
    let run := if same then x.run + 1 else 1
    let s := { s with picks := s.picks + 1 }
    let s := s.setEnd d.toNat l (fun x => { x with replays := min (2 ^ 32 - 1) (x.replays + 1), run := run })
    .next (if run < 8 then s
      else s.turnLink d.toNat l (fun x => { x with st := .retrain, run := 0, retrains := min (2 ^ 32 - 1) (x.retrains + 1) }))

/-- RETRAIN_COMPLETE (R436): the link runs again on the modules it has, or is DOWN. -/
def execRetrainComplete (d : BitVec 2) (lnk : BitVec 3) (up : Bool) (s : State) : Host.Outcome State Fault Refusal :=
  let l := lnk.toNat
  if (s.link d.toNat l).st ≠ .retrain then .fault .notEnabled
  else .next (s.turnLink d.toNat l (fun x =>
    { x with run := 0, st := if !up then .down else if x.mods < fullWidth d.toNat l then .degraded else .up }))

/-- LINK_MODULE_LOSS (R436): a ring or chiplet link runs DEGRADED on the modules left. -/
def execLinkModuleLoss (d : BitVec 2) (lnk : BitVec 3) (left : BitVec 4) (s : State) : Host.Outcome State Fault Refusal :=
  let l := lnk.toNat
  let x := s.link d.toNat l
  if 4 ≤ l ∨ left = 0 ∨ x.mods ≤ left.toNat ∨ ¬ (x.st = .up ∨ x.st = .degraded) then .fault .notEnabled
  else .next (s.turnLink d.toNat l (fun x => { x with st := .degraded, mods := left.toNat }))

/-! ### Collective rounds (R440-R442, R446-R448) -/

/-- Whether a partition's rounds with DOM = 1 are the domain's: where the host has enabled it for domain collectives (R441); those of
another partition are its own (log 31). -/
def State.shares (s : State) (p : Nat) (dom : Bool) : Bool := dom && (s.getPart p).regs.domColl
/-- The rounds that hold a key: the partition's, or the domain's. -/
def State.rounds (s : State) (p : Nat) (dom : Bool) : Rounds := if s.shares p dom then s.domain else (s.getPart p).rounds
/-- The same changed. -/
def State.updRounds (s : State) (p : Nat) (dom : Bool) (f : Rounds → Rounds) : State :=
  if s.shares p dom then { s with domain := f s.domain } else s.updPart p (fun x => { x with rounds := f x.rounds })
/-- Open rounds of a CID. -/
def Rounds.ofCid (r : Rounds) (cid : Nat) : List Round := r.open_.filter (fun x => x.cid == cid)

/-- A command of a core changed. -/
def Core.updFx (c : Core) (o : FxOp) : Core := { c with fxq := c.fxq.map (fun x => if x.idx = o.idx then o else x) }
/-- A command answered. -/
def State.answerFx (s : State) (k idx : Nat) (f : FxOp → FxOp) : State :=
  s.updCore k (fun c => match c.fxq.find? (fun o => o.idx == idx) with
    | some o => c.updFx { f o with place := .answered }
    | none => c)
/-- An answer without a round's result (statuses 4-7): zeros under TS's tag, no mask; VALUE is not stated, and free (log 2). -/
def State.refuseFx (s : State) (k idx status : Nat) : State :=
  let v := Config.oracle s.picks % 2 ^ 32
  ({ s with picks := s.picks + 1 }).answerFx k idx (fun o => { o with status := status, value := v, mask := 0, rtag := o.tag, res := [] })

/-- The identity of a reduction (R446). -/
def redIdent : Red → Nat
  | .addF32 | .addS32 => 0
  | .maxF32 => fMkInf 23 true
  | .minF32 => fMkInf 23 false
/-- One level of the tree over ranks. -/
def rankLevel (op : Red) : List (List Nat) → List (List Nat)
  | a :: b :: r => List.zipWith (redNew op) a b :: rankLevel op r
  | r => r
/-- The fixed pairwise tree over ranks (R446). -/
def rankTree (op : Red) : Nat → List (List Nat) → List Nat
  | 0, l => l.headD []
  | n + 1, l => if l.length ≤ 1 then l.headD [] else rankTree op n (rankLevel op l)
/-- The least power of two at or above a number. -/
def pow2Ceil (n : Nat) : Nat := 2 ^ tableBits n

/-- Whether a pair ranks above another (R448). -/
def pairAbove (a b : Nat × Nat) : Bool :=
  if fNan 23 a.1 then fNan 23 b.1 && decide (a.2 < b.2)
  else if fNan 23 b.1 then true
  else if fEq 23 a.1 b.1 then decide (a.2 < b.2) else fLt 23 b.1 a.1
/-- The largest pair. -/
def bestPair (l : List (Nat × Nat)) : Option (Nat × Nat) :=
  l.foldl (fun (b : Option (Nat × Nat)) x => match b with | none => some x | some y => if pairAbove x y then some x else b) none

/-- Intact contributions of a round, by rank. -/
def Round.intact (r : Round) : List (Nat × List Nat) := (r.ranks.filter (fun x => x.2.1)).map (fun x => (x.1, x.2.2.2.2))
/-- The shard mask. -/
def Round.mask (r : Round) : Nat := (r.intact.map (fun x => 2 ^ x.1)).sum
/-- The status of a round (Table 15.3). -/
def Round.status (r : Round) : Nat :=
  if r.op = 3 ∧ r.intact.length ≠ r.np then 3
  else if r.ranks.any (fun x => !x.2.1) then 2 else if r.ranks.length ≠ r.np then 1 else 0
/-- The result of a round: VALUE, tag and elements; of `fx.bc` none where the root is missing or corrupt (R446-R448). -/
def Round.result (r : Round) : Nat × Option (Fmt × List Nat) :=
  let xs := r.intact
  let n := xs.length
  let own (i : Nat) : Option (List Nat) := (xs.find? (fun x => x.1 == i)).map (·.2)
  if r.op = 0 then (n, (own r.root).map (fun e => (r.tag, e)))
  else if r.op = 3 then
    (if n ≠ r.np then (0xFFFFFFFF, some (.z32, [0, 0xFFFFFFFF]))
     else match bestPair (xs.map (fun x => (x.2.getD 0 0, x.2.getD 1 0))) with
      | some q => (q.2, some (.z32, [q.1, q.2]))
      | none => (0xFFFFFFFF, some (.z32, [0, 0xFFFFFFFF])))
  else
    let leaves := (List.range (pow2Ceil r.np)).map (fun i => (own i).getD (List.replicate r.nel (redIdent r.red)))
    (n, some (r.tag, rankTree r.red 7 leaves))

/-- A round complete (R441, R442): DONE takes its SEQ, and every rank counted is answered. -/
def State.completeRound (s : State) (p : Nat) (r : Round) : State :=
  let s := s.updRounds p r.dom (fun x => { x with open_ := x.open_.filter (fun y => !(y.cid == r.cid && y.seq == r.seq)), done := amSet x.done r.cid r.seq })
  let (v, res) := r.result
  r.ranks.foldl (fun (s : State) x => s.answerFx x.2.2.1 x.2.2.2.1 (fun o =>
    { o with status := r.status, value := v, mask := r.mask, rtag := (res.map (·.1)).getD (if r.ranks.any (fun y => y.1 == r.root) then r.tag else o.tag), res := (res.map (·.2)).getD [] })) s

/-- Commands on their way to their rounds' home, in the cores of a partition. -/
def State.flying (s : State) (p : Nat) : List (Nat × FxOp) :=
  s.cores.flatMap (fun e => if s.corePart e.1 = p then (e.2.fxq.filter (fun o => o.place == FxPlace.flying)).map (fun o => (e.1, o)) else [])

/-- Whether a SEQ is at or before DONE (R441). -/
def Rounds.late (r : Rounds) (cid seq : Nat) : Bool := match amFind cid r.done with
  | some d => decide ((d + 2 ^ 10 - seq) % 2 ^ 10 < 2 ^ 9)
  | none => false

/-- Whether a contribution agrees with a round; TS's tag is an attribute where every rank uses TS, of `fx.bc` only the root's. -/
def Round.agrees (r : Round) (o : FxOp) : Bool :=
  r.np == o.np && r.root == o.root && r.nel == o.nel && r.op == o.op && r.red == o.red && r.dom == o.dom && (r.op == 0 || r.tag == o.tag)

/-- Whether a path leads from a core to the home of its round (R441): the package unit's die of its partition, or of package 0. -/
def State.homeOk (s : State) (p k : Nat) (dom : Bool) : Bool :=
  if s.shares p dom && bits (s.getPart p).regs.fxdom.toNat 0 6 != 0 then s.peerOk p (coreDie k) 0
  else s.ringOk (coreDie k) ((s.getPart p).dies.headD 0)
/-- Whether a command on a round would open a fifth of its CID, those on their way counted (R441). -/
def State.noRoom (s : State) (p : Nat) (dom : Bool) (cid seq : Nat) : Bool :=
  let rs := s.rounds p dom
  let own := (rs.ofCid cid).map (·.seq)
  let come := ((List.range 4).filter (fun q => q == p || (s.shares p dom && s.shares q dom))).flatMap (fun q =>
    ((s.flying q).filter (fun x => x.2.cid == cid && s.shares q x.2.dom == s.shares p dom && !rs.late cid x.2.seq)).map (fun x => x.2.seq))
  let keys := (own ++ come).eraseDups
  !rs.late cid seq && !keys.contains seq && decide (4 ≤ keys.length)

/-- COLLECTIVE_CONTRIBUTION (R441, R442): the k-th contribution on its way reaches its round's home, and opens or joins the round or is
refused; one that finds no path stays on its way (R439). -/
def execCollectiveContribution (k : BitVec 8) (corrupt : Bool) (s : State) : Host.Outcome State Fault Refusal :=
  let p := s.part
  match (s.flying p)[k.toNat]? with
  | none => .fault .notEnabled
  | some (c, o) =>
    let rs := s.rounds p o.dom
    let entry := (o.rank, !corrupt, c, o.idx, o.els)
    let count (s : State) (r : Round) : State :=
      let s := s.updCore c (fun x => x.updFx { o with place := .counted })
      let s := s.updRounds p o.dom (fun x => { x with open_ := x.open_.filter (fun y => !(y.cid == r.cid && y.seq == r.seq)) ++ [r] })
      if r.ranks.length = r.np then s.completeRound p r else s
    if !s.homeOk p c o.dom then .fault .notEnabled
    else match rs.open_.find? (fun r => r.cid == o.cid && r.seq == o.seq) with
    | some r =>
      if !r.agrees o then .next (s.refuseFx c o.idx 4)
      else if r.ranks.any (fun x => x.1 == o.rank) then .next (s.refuseFx c o.idx 5)
      else if rs.late o.cid o.seq then .next (s.refuseFx c o.idx 6)
      else .next (count s { r with ranks := r.ranks ++ [entry], tag := if o.op = 0 ∧ o.rank = o.root then o.tag else r.tag })
    | none =>
      if rs.late o.cid o.seq then .next (s.refuseFx c o.idx 6)
      else if 4 ≤ (rs.ofCid o.cid).length then .fault .notEnabled
      else .next (count s ⟨o.cid, o.seq, o.dom, o.np, o.root, o.nel, o.op, o.red, o.tag, s.now, [entry]⟩)

/-- ROUND_TIMEOUT (R441): the k-th open round, the domain's after the partition's, has been open for FXTMO. -/
def execRoundTimeout (k : BitVec 8) (s : State) : Host.Outcome State Fault Refusal :=
  let p := s.part
  match ((s.getPart p).rounds.open_ ++ (if s.shares p true then s.domain.open_ else []))[k.toNat]? with
  | none => .fault .notEnabled
  | some r => if s.now < r.opened + s.fxtmo p then .fault .notEnabled else .next (s.completeRound p r)

/-! ### The FX commands at the XQ port (R443-R445, R449-R453) -/

/-- A fault of FX (Table 15.8). -/
def fxTrap (c : Cmd) (cause : Nat) : FaultClass → Word → Trap :=
  fun cls va => ⟨cls, 12, 0, BitVec.ofNat 64 (cause + opOf c.raw * 2 ^ 16), va, none, none⟩

/-- The collective word (Table 15.2) and what the command adds to it. -/
structure Coll where
  cid : Nat
  seq : Nat
  np : Nat
  rank : Nat
  root : Nat
  dom : Bool
  rsv : Nat
  nel : Nat
/-- A collective word read. -/
def Coll.of (w : Word) : Coll :=
  let v := w.toNat
  ⟨bits v 58 6, bits v 48 10, bits v 42 6 + 1, bits v 36 6, bits v 30 6, bits v 29 1 == 1, bits v 12 17, bits v 0 12 + 1⟩
/-- The collective word of the command in hand. -/
def collOf (s : State) : Coll := Coll.of (s.cmd.vals.getD 0 Scalar.zero).v

/-- The checks before any effect: scalars, the status address, the number outstanding, room for the round. -/
def fxPre (st : StatReg) : M (Option Nat) := do
  let s ← get
  let n := (scalarsOf s.cmd.instr).length
  for i in List.range n do
    let _ ← captured i (fxTrap s.cmd 2)
  let at_ ← match st with
    | .none => pure none
    | .at _ => do
      let x ← captured (n - 1) (fxTrap s.cmd 2)
      let o ← resultAt (fxTrap s.cmd 1) x 16 16
      pure (some o)
  let c ← core
  let p ← partNo
  let w := collOf s
  if 8 ≤ c.fxq.length ∨ s.noRoom p w.dom w.cid w.seq = true then waitFor 9
  return at_

/-- Whether a tile field is 0x00. -/
def tileUnused (t : TileRef) : Bool := t.n == 0 && t.mode == TileMode.plain

/-- A collective command: `op` its operation, `els` the elements it contributes. -/
def fxLane (s : State) (op : Nat) (red : Red) (want : Option Fmt) (td ts : TileRef) (st : StatReg) (els : Coll → Tile → List Nat) :
    Host.Outcome State Fault Refusal :=
  let w := collOf s
  let isRoot := w.rank == w.root
  let usesTs := op != 0 || isRoot
  let usesTd := op != 2 || isRoot
  let tsBad := op == 0 && (if isRoot then ts.mode == TileMode.produce else !tileUnused ts)
  let tdBad := op == 2 && (if isRoot then td.mode != TileMode.produce else !tileUnused td)
  let srcs := if usesTs && !tsBad then [(ts, 56)] else []
  if op ≠ 2 ∧ td.mode ≠ .produce then settle s (.error (.trap (illegalAt 12 0 s.cmd 12 8)))
  else
    xqLane s ⟨Tok.none, srcs, []⟩ true (do let _ ← fxPre st) (fun tiles => do
      let at_ ← fxPre st
      let p ← partNo
      let s' ← get
      let c := s'.core s'.cur
      let tag := if srcs = [] then (c.tile ts.n.toNat).tag else (tiles.getD 0 Tile.empty).tag
      let pkgs := bits (s'.getPart p).regs.fxdom.toNat 8 6
      let range := w.rsv != 0 || decide (w.np ≤ w.rank) || decide (w.np ≤ w.root) || tsBad || tdBad || (usesTs && decide (perTile tag < w.nel)) ||
        (w.dom && pkgs == 0) || (op % 2 == 1 && w.root != 0)
      let dst := if usesTd && !tdBad then some td.n.toNat else none
      let o : FxOp := ⟨s.cmd.idx, c.regs.ftag.toNat, w.cid, w.seq, w.np, w.rank, w.root, w.nel, w.dom, op, red, tag, dst, at_,
        if srcs = [] then [] else els w (tiles.getD 0 Tile.empty), .flying, 0, 0, 0, tag, []⟩
      keepXq 12
      modCore (fun c => { c with regs := { c.regs with ftag := c.regs.ftag + 1 }, fxq := c.fxq ++ [o] })
      if range then modify (fun s' => s'.refuseFx s'.cur s.cmd.idx 7))
      (fun tiles => if srcs = [] then pure () else do
        let t := tiles.getD 0 Tile.empty
        match want with
        | some f => if t.tag ≠ f then raise (illegalTag 12 0 s.cmd 56 8 t.tag)
        | none => pure ()
        if (List.range (min w.nel (perTile t.tag))).any (fun i => t.elPoisoned t.tag i) then raise (fxTrap s.cmd 2 .poison 0))

/-- The tag that a reduction requires (R244). -/
def fxRedTag : Red → Fmt
  | .addS32 => .s32
  | _ => .f32
/-- The first NEL elements of a tile under its tag. -/
def firstEls (w : Coll) (t : Tile) : List Nat := (List.range (min w.nel (perTile t.tag))).map (fun i => t.el t.tag i)

/-- `fx.bc` (R445, R447). -/
def execFxBc (td ts : TileRef) (_xa : XReg) (st : StatReg) (s : State) : Host.Outcome State Fault Refusal :=
  fxLane s 0 .addF32 none td ts st firstEls
/-- `fx.ar` (R445, R446). -/
def execFxAr (red : Red) (td ts : TileRef) (_xa : XReg) (st : StatReg) (s : State) : Host.Outcome State Fault Refusal :=
  fxLane s 1 red (some (fxRedTag red)) td ts st firstEls
/-- `fx.rd` (R445, R446). -/
def execFxRd (red : Red) (td ts : TileRef) (_xa : XReg) (st : StatReg) (s : State) : Host.Outcome State Fault Refusal :=
  fxLane s 2 red (some (fxRedTag red)) td ts st firstEls
/-- `fx.amax` (R445, R448). -/
def execFxAmax (td ts : TileRef) (_xa _xb : XReg) (st : StatReg) (s : State) : Host.Outcome State Fault Refusal :=
  fxLane s 3 .addF32 (some .f32) td ts st (fun w t =>
    let xb := (s.cmd.vals.getD 1 Scalar.zero).v.toNat
    let es := firstEls w t
    match bestPair (((List.range es.length).zip es).map (fun e => (e.2, (xb + e.1) % 2 ^ 32))) with
    | some q => [q.1, q.2]
    | none => [])

/-- `fx.wait` (R449). -/
def execFxWait (_xa : XReg) (s : State) : Host.Outcome State Fault Refusal :=
  xqLane s ⟨Tok.none, [], []⟩ false (pure ()) (fun _ => do
    let xa ← captured 0 (fxTrap s.cmd 2)
    let c ← core
    if c.fxq.any (fun o => decide (o.ftag = xa.toNat % 2 ^ 16) || decide (2 ^ 15 ≤ (o.ftag + 2 ^ 16 - xa.toNat % 2 ^ 16) % 2 ^ 16)) then
      waitFor 10 (BitVec.ofNat 64 (opOf s.cmd.raw)))

/-- `fx.stat` (R450). -/
def execFxStat (lnk : BitVec 8) (_xa : XReg) (s : State) : Host.Outcome State Fault Refusal :=
  xqLane s ⟨Tok.none, [], []⟩ true (if 7 ≤ lnk.toNat then do raise (illegalAt 12 0 s.cmd 12 8) else pure ()) (fun _ => do
    let xa ← captured 0 (fxTrap s.cmd 2)
    let o ← resultAt (fxTrap s.cmd 1) xa 32 32
    let s' ← get
    let x := s'.link (coreDie s'.cur) lnk.toNat
    writeResult o (leBytes 1 x.st.code ++ leBytes 1 x.mods ++ leBytes 2 0 ++ leBytes 4 x.replays ++ leBytes 4 x.retrains ++ leBytes 4 x.lost ++
      leBytes 8 x.at_ ++ leBytes 8 0))

/-- The tile that a delivery writes: the result's elements, every other element zero (R445). -/
def FxOp.tile (o : FxOp) : Tile :=
  let n := perRow o.rtag
  ⟨true, o.rtag, Tile.ofRows o.rtag ((List.range ((o.res.length + n - 1) / n)).map (fun i => (o.res.drop (n * i)).take n)), []⟩

/-- COLLECTIVE_DELIVERY (R445): the k-th outstanding command's result waits until TD is empty, then is written with its status
block. -/
def execCollectiveDelivery (k : BitVec 4) (s : State) : Host.Outcome State Fault Refusal :=
  let c := s.core s.cur
  match c.fxq[k.toNat]? with
  | none => .fault .notEnabled
  | some o =>
    if o.place ≠ .answered then .fault .notEnabled
    else if o.td.any (fun t => c.tileFull false t || c.tilePending false t) then portWait s (0xEE + o.op)
    else if o.stat.any (fun a => c.streams a 16) then .next { s with stalled := true }
    else .next { (s.updCore s.cur (fun c =>
      let c := match o.td with | some t => c.setTile t o.tile | none => c
      let c := { (c.dropXq 12 o.idx) with fxq := c.fxq.filter (fun x => x.idx != o.idx) }
      let c := if (amFind 5 c.waits).any (fun w => w.kind == 10 && w.wsa == BitVec.ofNat 64 (0xEE + o.op)) then c.clearWait 5 else c
      match o.stat with
      | some a => c.writeSp a (leBytes 4 o.status ++ leBytes 4 o.value ++ leBytes 8 o.mask) []
      | none => c)) with stalled := false }

end Sys2Proof.Machine
end

