-- ==== Sys2Proof/Machine/Pump.lean ====
section
/-! DEFINITION. The Cistern's Pump and the set table (13_cistern R370-R401): the PM commands and the jobs they queue. -/

namespace Sys2Proof.Machine

/-! ### Words, wear and spares (R370, R371, R397) -/

/-- The name of the cells that serve a word: its own number, or 2^30 and the number of its spare. -/
def Cistern.cell (c : Cistern) (w : Nat) : Nat := amGet w c.remap w
/-- The name of spare `n` of a slice. -/
def spareCell (slice n : Nat) : Nat := 2 ^ 30 + 16384 * slice + n
/-- The wear of a word's cells. -/
def Cistern.wearOf (c : Cistern) (w : Nat) : Nat := min (2 ^ 28 - 1) (amGet 0 c.wear (c.cell w) + c.clears)
/-- One erase of cells: a wear cycle, saturating. -/
def Cistern.wearCell (c : Cistern) (cell : Nat) : Cistern :=
  { c with wear := amSet c.wear cell (min (2 ^ 28 - 1) (amGet 0 c.wear cell + 1)) }
/-- The lowest unused spare of a slice. -/
def Cistern.freeSpare (c : Cistern) (slice : Nat) : Option Nat :=
  (List.range 16384).find? (fun n => !c.used.contains (16384 * slice + n))
/-- Unused spares of a slice. -/
def Cistern.sparesLeft (c : Cistern) (slice : Nat) : Nat :=
  ((List.range 16384).filter (fun n => !c.used.contains (16384 * slice + n))).length
/-- Words made invalid. -/
def Cistern.invalidate (c : Cistern) (ws : List Nat) : Cistern := { c with valid := c.valid.filter (fun w => !ws.contains w) }
/-- A word erased and left invalid (R391). -/
def Cistern.erase (c : Cistern) (w : Nat) : Cistern :=
  let c := (c.invalidate [w]).wearCell (c.cell w)
  { c with data := pokeBytes c.data (2048 * w) (List.replicate 2048 0), bad := nsDel (2 * w) (nsDel (2 * w + 1) c.bad) }

/-- Words whose entries leave every W buffer and scale cache before they become valid (R397). -/
def State.dropWords (s : State) (ws : List Nat) : State :=
  { s with cores := s.cores.map (fun (e : Nat × Core) => (e.1, { e.2 with
      wbuf := e.2.wbuf.filter (fun w => !ws.contains w)
      mx := { e.2.mx with cache := e.2.mx.cache.filter (fun x => !(x.wsp && (ws.contains (x.addr / 2048) || ws.contains ((x.addr + 3) / 2048)))) } })) }

/-- The cells of one attempt: the pulses it takes, and whether the word passes (R396): both free (log 2). -/
def attempt (v : Nat) : Nat × Bool := if v % 17 = 0 then (16, false) else (v % 17, true)

/-- A word written and checked (R396): the cells tried first, then at most one spare. The state, pulses, whether a spare was taken,
and whether the word passed. -/
def State.writeWord (s : State) (w cell : Nat) (bs : List Byte) : State × Nat × Bool × Bool :=
  let slice := w / 2 ^ 18
  let put (s : State) (cell : Nat) : State :=
    let c := s.cist
    { s with cist := { c with
        data := pokeBytes c.data (2048 * w) bs
        valid := nsAdd w c.valid
        bad := nsDel (2 * w) (nsDel (2 * w + 1) c.bad)
        remap := if cell = w then c.remap else amSet c.remap w cell } }
  let (n0, ok0) := attempt (Config.oracle s.picks)
  let s := { s with picks := s.picks + 1, cist := s.cist.wearCell cell }
  if ok0 then (put s cell, n0, false, true)
  else match s.cist.freeSpare slice with
    | none => ({ s with cist := s.cist.invalidate [w] }, n0, false, false)
    | some n =>
      let (n1, ok1) := attempt (Config.oracle s.picks)
      let c := { s.cist.wearCell (spareCell slice n) with used := nsAdd (16384 * slice + n) s.cist.used }
      let s := { s with picks := s.picks + 1, cist := c }
      if ok1 then (put s (spareCell slice n), n0 + n1, true, true)
      else ({ s with cist := { (s.cist.invalidate [w]) with remap := amSet s.cist.remap w (spareCell slice n) } }, n0 + n1, true, false)

/-! ### The set table (R379, R380) -/

/-- An entry that has never been opened. -/
def WSet.free : WSet := ⟨.free, 0, [], [], [], []⟩
/-- An entry of a partition's set table. -/
def Pump.set (p : Pump) (e : Nat) : WSet := amGet WSet.free p.sets e
/-- An entry replaced. -/
def Pump.setSet (p : Pump) (e : Nat) (x : WSet) : Pump := { p with sets := amSet p.sets e x }
/-- The code of a state (Table 13.3). -/
def SetSt.code : SetSt → Nat
  | .free => 0 | .opened => 1 | .sealed => 2 | .part => 3
/-- The handle of an entry (Table 13.4). -/
def Pump.handleOf (p : Pump) (e : Nat) : Word := BitVec.ofNat 64 (e + (p.set e).gen.toNat * 2 ^ 16)
/-- The entry that a handle names; its reserved bits are discarded (R7). -/
def Pump.entryOf (p : Pump) (h : Word) : Option Nat :=
  let e := bits h.toNat 0 6
  if e = 0 ∨ (p.set e).st = .free ∨ (p.set e).gen.toNat ≠ bits h.toNat 16 16 then none
  else some e
/-- The words of a chunk. -/
def chunkWords (w : Nat) : List Nat := nsRange w 512
/-- The words a set owns. -/
def WSet.words (x : WSet) : List Nat := x.chunks.flatMap (fun c => chunkWords c.1)
/-- Words owned by sets that are not FREE, in every partition. -/
def State.owned (s : State) (w : Nat) : Bool :=
  s.parts.toList.any (fun p => p.pump.sets.any (fun e => e.2.st != SetSt.free && e.2.chunks.any (fun c => decide (c.1 ≤ w) && decide (w < c.1 + 512))))
/-- The reference count of a set (R380): live replays, and records outside replays, that latched its handle. -/
def Part.refCount (p : Part) (h : Word) : Nat :=
  (p.sched.replays.filter (fun x => x.handle == h)).length + (p.sched.recs.filter (fun e => e.2.replay.isNone && e.2.handle == h)).length

/-- The word that stands for a set opened by the same task (R379). -/
def handleLast : Word := BitVec.allOnes 64
/-- The handle that a job's HANDLE field stands for: LAST names the task's latest ended open before the job in Pump order. -/
def Pump.resolve (p : Pump) (j : Job) : Option Word :=
  if j.handle = handleLast then
    match (p.opens.filter (fun o => o.1 == j.task && decide (o.2.1 < j.order))).foldl (fun (b : Option (Nat × Nat × Option Word)) o =>
        match b with | some x => if x.2.1 < o.2.1 then some o else b | none => some o) none with
    | some o => o.2.2
    | none => none
  else some j.handle
/-- The entry that a job names. -/
def Pump.jobSet (p : Pump) (j : Job) : Option Nat := (p.resolve j).bind p.entryOf

/-! ### Acceptance (R381, R382) -/

/-- A fault of PM (R401). -/
def pmTrap (c : Cmd) (cause : Nat) : FaultClass → Word → Trap :=
  fun cls va => ⟨cls, 10, 0, BitVec.ofNat 64 (cause + opOf c.raw * 2 ^ 16), va, none, none⟩

/-- Whether a job names its words by WADDR (R382 item 3). -/
def usesWaddr : Instr → Bool
  | .pmWear .. | .pmRemap .. | .pmClrR .. => true
  | _ => false
/-- The words that WADDR and COUNT name. -/
def Job.range (j : Job) : List Nat :=
  let w := j.waddr.toNat / 2048
  match j.instr with
  | .pmRemap .. => [w]
  | _ => nsRange w j.count

/-- The die whose Pump takes a job (R382 item 3): that of WADDR, or of the first chunk concerned; the partition's lowest die for the
others, and where a handle names no set or its set is not known yet. -/
def Part.jobDie (p : Part) (j : Job) : Nat :=
  let low := p.dies.headD 0
  let d := if usesWaddr j.instr then bits j.waddr.toNat 36 2
    else match j.instr with
      | .pmProg .. | .pmVer .. =>
        (match p.pump.jobSet j with
          | some e => (match (p.pump.set e).chunks[j.count]? with | some c => bits (2048 * c.1) 36 2 | none => low)
          | none => low)
      | _ => low
  if p.dies.contains d then d else low

/-- A PM command (R382): the job block read, a place in a Pump's queue taken. -/
def pmLane (s : State) : Host.Outcome State Fault Refusal :=
  xqLane s ⟨Tok.none, [], []⟩ true (pure ()) (fun _ => do
    let xa ← captured 0 (pmTrap s.cmd 4)
    let xb ← if (scalarsOf s.cmd.instr).length = 2 then captured 1 (pmTrap s.cmd 4) else pure 0
    if xa.toNat % 64 ≠ 0 then raise (pmTrap s.cmd 1 .align xa)
    let b ← readBy (walked .read (fun cls _ => pmTrap s.cmd 1 cls xa)) xa 64
    if b.poisoned then raise (pmTrap s.cmd 1 .poison xa)
    let t ← theTask
    let pn ← partNo
    let s' ← get
    let p := s'.getPart pn
    let f := fldAt b.bytes
    let j : Job := { order := p.pump.cnt + 1, die := 0, core := s'.cur, task := t.id, instr := s.cmd.instr, xa := xa, xb := xb
                     handle := BitVec.ofNat 64 (f 8 8), waddr := BitVec.ofNat 64 (f 0x10 8), count := f 0x18 4
                     arg := BitVec.ofNat 64 (f 0x20 8) }
    let j := { j with die := p.jobDie j }
    if 64 ≤ (p.pump.jobs.filter (fun x => x.die == j.die)).length then waitFor 9
    set (s'.updPart pn (fun p => { p with pump := { p.pump with jobs := p.pump.jobs ++ [j], cnt := p.pump.cnt + 1 } })))

/-- `pm.prog` (R381, R382, R387). -/
def execPmProg (_s : PmSem) (_xa _xb : XReg) (s : State) : Host.Outcome State Fault Refusal := pmLane s
/-- `pm.ver` (R381, R382, R388). -/
def execPmVer (_s : PmSem) (_xa _xb : XReg) (s : State) : Host.Outcome State Fault Refusal := pmLane s
/-- `pm.wear` (R381, R382, R393). -/
def execPmWear (_s : PmSem) (_xa : XReg) (s : State) : Host.Outcome State Fault Refusal := pmLane s
/-- `pm.remap` (R381, R382, R392). -/
def execPmRemap (_s : PmSem) (_xa : XReg) (s : State) : Host.Outcome State Fault Refusal := pmLane s
/-- `pm.clr` (R381, R382, R391). -/
def execPmClr (_s : PmSem) (_xa : XReg) (s : State) : Host.Outcome State Fault Refusal := pmLane s
/-- `pm.clr.r` (R381, R382, R391). -/
def execPmClrR (_s : PmSem) (_xa : XReg) (s : State) : Host.Outcome State Fault Refusal := pmLane s
/-- `pm.open` (R381, R382, R386). -/
def execPmOpen (_s : PmSem) (_xa _xb : XReg) (s : State) : Host.Outcome State Fault Refusal := pmLane s
/-- `pm.seal` (R381, R382, R389). -/
def execPmSeal (_s : PmSem) (_xa _xb : XReg) (s : State) : Host.Outcome State Fault Refusal := pmLane s
/-- `pm.act` (R381, R382, R390). -/
def execPmAct (_s : PmSem) (_xa : XReg) (s : State) : Host.Outcome State Fault Refusal := pmLane s
/-- `pm.stat` (R381, R382, R394). -/
def execPmStat (_s : PmSem) (_xa : XReg) (s : State) : Host.Outcome State Fault Refusal := pmLane s

/-! ### Jobs (R383, R386-R394) -/

/-- How a job ends: its status (Table 13.8), its results where it has them, and the handle an open writes. -/
structure JobEnd where
  st : Nat
  r0 : Option Nat
  r1 : Option Nat
  h : Option Word
/-- An end with a status and no results. -/
def JobEnd.of (st : Nat) : JobEnd := ⟨st, none, none, none⟩
/-- A job's outcome: its end before any effect, or the state with its effects and its end. -/
abbrev JobM := Except JobEnd

/-- The first address of a range at which a read, or a write, of the Pump fails. -/
def State.jobFault (s : State) (p va n : Nat) (write : Bool) : Nat :=
  ((piecesOf 4096 va n).find? (fun q => match (if write then (s.partXlate p true q.1).map (fun _ => ()) else (s.partRead p q.1 q.2).map (fun _ => ())) with
    | .error _ => true | .ok _ => false)).elim va (·.1)
/-- A read of a job (R383). -/
def State.jobRead (s : State) (p va n : Nat) : JobM (State × List Byte) :=
  match s.partRead p va n with
  | .ok r => .ok r
  | .error _ => .error ⟨14, some (s.jobFault p va n false), none, none⟩
/-- A write of a job (R383): the effects before it stand. -/
def State.jobWrite (s : State) (p va : Nat) (bs : List Byte) (e : JobEnd) : State × JobEnd :=
  match s.partWrite p va bs with
  | .ok s => (s, e)
  | .error _ => (s, { e with st := 14, r0 := some (s.jobFault p va bs.length true) })

/-- The leaf of a chunk (R377). -/
def leafOf (bs : List Byte) : List Byte := sha384 (0 :: bs)
/-- One level of the chunk tree. -/
def treeLevel : List (List Byte) → List (List Byte)
  | a :: b :: r => sha384 (1 :: a ++ b) :: treeLevel r
  | r => r
/-- The root of a list of leaves, in at most `n` levels. -/
def treeRoot : Nat → List (List Byte) → List Byte
  | 0, ls => ls.headD []
  | n + 1, ls => if ls.length ≤ 1 then ls.headD [] else treeRoot n (treeLevel ls)

/-- Whether a message is signed by one of the set-signing key pairs of the configuration rows, with both signatures (R378, log 13). -/
def State.setSigned (s : State) (msg sg : List Byte) : Bool :=
  s.rows.keys.any (fun k => Config.ed25519 k.1 msg (sg.take 64) && Config.mldsa k.2 msg ((sg.drop 64).take 3309))

/-- Whether a word lies in an enabled core of the partition. -/
def State.wordOk (s : State) (p w : Nat) : Bool :=
  let k := wCore (2048 * w)
  decide (2048 * w < 2 ^ 38) && (s.getPart p).dies.contains (coreDie k) && !s.disabled.contains k

/-- The first words of the chunks of a manifest by its placement table (R375); RANGE. -/
def State.place (s : State) (p : Nat) (cs : List (Nat × Nat × List Byte)) (table : List Nat) : JobM (List (Nat × List Byte)) := do
  if table.any (fun e => decide (2 ^ 38 ≤ e) || e % 2048 != 0 || !s.wordOk p (e / 2048)) then throw (.of 7)
  let out ← cs.mapM (fun (c : Nat × Nat × List Byte) =>
    let w := table.getD c.1 0 / 2048
    if 262144 < w % 262144 + c.2.1 + 512 then throw (JobEnd.of 7) else pure (w + c.2.1, c.2.2))
  if (List.range out.length).any (fun i => (out.drop (i + 1)).any (fun c =>
      decide (c.1 < (out.getD i (0, [])).1 + 512) && decide ((out.getD i (0, [])).1 < c.1 + 512))) then throw (.of 7)
  return out

/-- `pm.open` performed (R386). -/
def State.jobOpen (s : State) (p : Nat) (j : Job) : JobM (State × JobEnd) := do
  let m := j.xb.toNat
  if m % 64 ≠ 0 then throw (.of 4)
  let (s, hd) ← s.jobRead p m 0x80
  let n := fldAt hd 4 4
  let ns := fldAt hd 8 4
  if fldAt hd 0 4 ≠ 1 ∨ n = 0 ∨ 262144 < n ∨ ns = 0 ∨ 512 < ns ∨ fldAt hd 12 4 ≠ 0 ∨ (hd.drop 0x50).any (· != 0) then throw (.of 4)
  let (s, body) ← s.jobRead p (m + 0x80) (64 * n + 3392)
  let cs := (List.range n).map (fun i =>
    let e := (body.drop (64 * i)).take 64
    (fldAt e 0 4, fldAt e 4 4, e.drop 16))
  if (List.range n).any (fun i => fldAt body (64 * i + 8) 8 != 0) ∨ (body.drop (64 * n + 3373)).any (· != 0) ∨
      cs.any (fun c => decide (ns ≤ c.1) || c.2.1 % 512 != 0 || decide (261632 < c.2.1)) then throw (.of 4)
  let msg := hd ++ body.take (64 * n)
  let sg := body.drop (64 * n)
  if !s.setSigned msg sg then throw (.of 5)
  let root := (hd.drop 0x20).take 48
  if treeRoot 19 (cs.map (·.2.2)) ≠ root then throw (.of 6)
  let (s, tb) ← s.jobRead p j.arg.toNat (8 * ns)
  let chunks ← s.place p cs ((List.range ns).map (fun i => fldAt tb (8 * i) 8))
  let ws := chunks.flatMap (fun c => chunkWords c.1)
  if ws.any s.owned then throw (.of 8)
  let pu := (s.getPart p).pump
  match (nsRange 1 63).find? (fun e => (pu.set e).st == SetSt.free) with
  | none => throw (.of 9)
  | some e =>
    let g := (pu.set e).gen + 1
    let x : WSet := ⟨.opened, if g = 0 then 1 else g, chunks, [], root, (hd.drop 0x10).take 16⟩
    let pu := pu.setSet e x
    let s := s.updPart p (fun q => { q with pump := pu })
    return ({ s with cist := s.cist.invalidate ws }, ⟨0, some n, some ns, some (pu.handleOf e)⟩)

/-- The entry that a job names, or BADSET. -/
def State.needSet (s : State) (p : Nat) (j : Job) : JobM (Nat × WSet) :=
  match (s.getPart p).pump.jobSet j with
  | some e => .ok (e, (s.getPart p).pump.set e)
  | none => .error (.of 2)
/-- An entry of the set table replaced. -/
def State.setSet (s : State) (p e : Nat) (x : WSet) : State := s.updPart p (fun q => { q with pump := q.pump.setSet e x })

/-- `pm.prog` performed (R387). -/
def State.jobProg (s : State) (p : Nat) (j : Job) : JobM (State × JobEnd) := do
  let (e, x) ← s.needSet p j
  if !(x.st == SetSt.opened || (x.st == SetSt.part && !x.prog.contains j.count)) then throw (.of 2)
  match x.chunks[j.count]? with
  | none => throw (.of 1)
  | some (w0, leaf) =>
    let (s, img) ← s.jobRead p j.xb.toNat 0x100000
    if leafOf img ≠ leaf then
      let s := s.setSet p e { x with prog := nsDel j.count x.prog }
      return ({ s with cist := s.cist.invalidate (chunkWords w0) }, ⟨10, some 0, some 0, none⟩)
    let s := s.dropWords (chunkWords w0)
    let r := (List.range 512).foldl (fun (a : State × Nat × Nat × Bool) i =>
      let (s, n, sp, ok) := a.1.writeWord (w0 + i) (a.1.cist.cell (w0 + i)) ((img.drop (2048 * i)).take 2048)
      (s, a.2.1 + n, a.2.2.1 + sp.toNat, a.2.2.2 && ok)) (s, 0, 0, true)
    let (s, n, sp, ok) := r
    let prog := if ok then nsAdd j.count x.prog else nsDel j.count x.prog
    let st := if x.st = .part ∧ prog.length = x.chunks.length then SetSt.sealed else x.st
    return (s.setSet p e { x with prog := prog, st := st }, ⟨if ok then 0 else 11, some n, some sp, none⟩)

/-- `pm.ver` performed (R388); the codewords corrected are free within the number read. -/
def State.jobVer (s : State) (p : Nat) (j : Job) : JobM (State × JobEnd) := do
  let (e, x) ← s.needSet p j
  let n := j.arg.toNat
  if x.chunks.length < j.count + n then throw (.of 1)
  let todo := (List.range n).filter (fun i => x.prog.contains (j.count + i))
  let failed := todo.filter (fun i =>
    let c := x.chunks.getD (j.count + i) (0, [])
    let b := s.readW (2048 * c.1) 0x100000
    b.poisoned || leafOf b.bytes != c.2)
  let ws := failed.flatMap (fun i => chunkWords (x.chunks.getD (j.count + i) (0, [])).1)
  let st := if x.st = .sealed ∧ failed ≠ [] then SetSt.part else x.st
  let fixed := Config.oracle s.picks % (1024 * todo.length + 1)
  let s := { s with picks := s.picks + 1, cist := s.cist.invalidate ws }
  let s := s.setSet p e { x with st := st, prog := x.prog.filter (fun k => !failed.contains (k - j.count) || decide (k < j.count)) }
  let map := leBytes (8 * ((n + 63) / 64)) ((failed.map (2 ^ ·)).sum)
  return s.jobWrite p j.xb.toNat map ⟨if failed = [] then 0 else 12, some failed.length, some fixed, none⟩

/-- `pm.seal` performed (R389). -/
def State.jobSeal (s : State) (p : Nat) (j : Job) : JobM (State × JobEnd) := do
  let (e, x) ← s.needSet p j
  if x.st ≠ .opened then throw (.of 2)
  let st := if x.prog.length = x.chunks.length then SetSt.sealed else .part
  let s := s.setSet p e { x with st := st }
  let m := x.root ++ leBytes 8 st.code ++ leBytes 8 ((s.getPart p).pump.handleOf e).toNat
  return s.jobWrite p j.xb.toNat m ⟨if st = .sealed then 0 else 13, some x.prog.length, some (x.chunks.length - x.prog.length), none⟩

/-- `pm.act` performed (R390). -/
def State.jobAct (s : State) (p : Nat) (j : Job) : JobM (State × JobEnd) := do
  let old := (s.getPart p).handle.toNat
  let done (h : Word) : State × JobEnd := (s.updPart p (fun q => { q with handle := h }), ⟨0, some old, none, none⟩)
  if j.handle &&& 0xFFFF003F = 0 then return done 0
  let (e, x) ← s.needSet p j
  if x.st = .part then throw (.of 13)
  if x.st ≠ .sealed then throw (.of 2)
  return done ((s.getPart p).pump.handleOf e)

/-- `pm.clr` performed (R391). -/
def State.jobClr (s : State) (p : Nat) (j : Job) : JobM (State × JobEnd) := do
  let (e, x) ← s.needSet p j
  let h := (s.getPart p).pump.handleOf e
  if (s.getPart p).handle = h ∨ (s.getPart p).refCount h ≠ 0 then throw (.of 3)
  let ws := x.words
  let s := { s with cist := ws.foldl (fun (c : Cistern) w => c.erase w) s.cist }
  return ((s.dropWords ws).setSet p e { x with st := .free, chunks := [], prog := [] }, ⟨0, some ws.length, none, none⟩)

/-- `pm.clr.r` performed (R391). -/
def State.jobClrR (s : State) (p : Nat) (j : Job) : JobM (State × JobEnd) := do
  if !(j.range.all (s.wordOk p)) then throw (.of 7)
  if j.range.any s.owned then throw (.of 8)
  let s := { s with cist := j.range.foldl (fun (c : Cistern) w => c.erase w) s.cist }
  return (s.dropWords j.range, ⟨0, some j.range.length, none, none⟩)

/-- `pm.remap` performed (R392): the word's contents into a spare; an invalid word stays invalid. -/
def State.jobRemap (s : State) (p : Nat) (j : Job) : JobM (State × JobEnd) := do
  let w := j.waddr.toNat / 2048
  let slice := w / 2 ^ 18
  if !(s.wordOk p w) then throw (.of 7)
  match s.cist.freeSpare slice with
  | none => throw (.of 11)
  | some n =>
    let was := s.cist.valid.contains w
    let bad := s.cist.bad.filter (fun k => k / 2 == w)
    let old := s.cist
    let s1 := { s with cist := { s.cist with used := nsAdd (16384 * slice + n) s.cist.used } }
    let (s1, _, more, ok) := s1.writeWord w (spareCell slice n) (peekBytes s.cist.data (2048 * w) 2048)
    if ok then
      let c := s1.cist
      let c := { c with valid := if was then c.valid else nsDel w c.valid, bad := bad.foldl (fun b k => nsAdd k b) c.bad }
      let cell := c.cell w
      let n' := if more then cell - spareCell slice 0 else n
      return ({ s1 with cist := c }, ⟨0, some n', some (c.sparesLeft slice), none⟩)
    else return ({ s1 with cist := { old with wear := s1.cist.wear, used := s1.cist.used } }, .of 11)

/-- `pm.wear` performed (R393). -/
def State.jobWear (s : State) (p : Nat) (j : Job) : JobM (State × JobEnd) := do
  if !(j.range.all (s.wordOk p)) then throw (.of 7)
  let c := s.cist
  let es := j.range.map (fun w =>
    let n := c.wearOf w
    n + (decide (10000 ≤ n)).toNat * 2 ^ 29 + (amFind w c.remap).isSome.toNat * 2 ^ 30 + (c.valid.contains w).toNat * 2 ^ 31)
  let top := (j.range.map c.wearOf).foldl max 0
  let lim := (j.range.filter (fun w => decide (10000 ≤ c.wearOf w))).length
  return s.jobWrite p j.arg.toNat (es.flatMap (leBytes 4)) ⟨0, some top, some lim, none⟩

/-- `pm.stat` performed (R394). -/
def State.jobStat (s : State) (p : Nat) (j : Job) : JobM (State × JobEnd) := do
  let (e, x) ← s.needSet p j
  let q := s.getPart p
  let h := q.pump.handleOf e
  let refs := q.refCount h
  let b := leBytes 1 x.st.code ++ leBytes 3 (q.handle == h).toNat ++ leBytes 4 x.chunks.length ++ leBytes 4 x.prog.length ++
    leBytes 4 (x.chunks.length - x.prog.length) ++ leBytes 8 refs ++ leBytes 8 h.toNat ++ x.setid ++ x.root ++ leBytes 32 0
  return s.jobWrite p j.arg.toNat b ⟨0, some x.st.code, some refs, none⟩

/-- Whether the fields of a job block break R383; HANDLE is an output of `pm.open`, which does not read it. Its reserved
field is none of them: what it holds is discarded (R7). -/
def Job.bad (j : Job) : Bool :=
  let h := j.handle != 0
  let w := j.waddr != 0
  let c := j.count != 0
  let a := j.arg != 0
  let rng := j.waddr.toNat % 2048 != 0 || j.count == 0 || decide (262144 < j.count) ||
    decide (262144 < j.waddr.toNat / 2048 % 262144 + j.count)
  (match j.instr with
    | .pmOpen .. => w || c
    | .pmProg .. => w || a || j.xb.toNat % 4096 != 0
    | .pmVer .. => w || !a || j.xb.toNat % 8 != 0
    | .pmSeal .. => w || c || a || j.xb.toNat % 64 != 0
    | .pmAct .. => w || c || a
    | .pmClr .. => w || c || a
    | .pmClrR .. => h || a || rng
    | .pmRemap .. => h || c || a || j.waddr.toNat % 2048 != 0
    | .pmWear .. => h || rng || j.arg.toNat % 4 != 0
    | _ => w || c || j.arg.toNat % 64 != 0)

/-- A job performed (R383, R386-R394). -/
def State.doJob (s : State) (p : Nat) (j : Job) : State × JobEnd :=
  let r : JobM (State × JobEnd) := if j.bad then .error (.of 1) else
    match j.instr with
    | .pmOpen .. => s.jobOpen p j
    | .pmProg .. => s.jobProg p j
    | .pmVer .. => s.jobVer p j
    | .pmSeal .. => s.jobSeal p j
    | .pmAct .. => s.jobAct p j
    | .pmClr .. => s.jobClr p j
    | .pmClrR .. => s.jobClrR p j
    | .pmRemap .. => s.jobRemap p j
    | .pmWear .. => s.jobWear p j
    | _ => s.jobStat p j
  match r with
  | .ok q => q
  | .error e => (s, e)

/-- The semaphore of a PM command. -/
def pmSemOf : Instr → PmSem
  | .pmProg m _ _ | .pmVer m _ _ | .pmOpen m _ _ | .pmSeal m _ _ => m
  | .pmWear m _ | .pmRemap m _ | .pmClr m _ | .pmClrR m _ | .pmAct m _ | .pmStat m _ => m
  | _ => ⟨false, 0⟩
/-- Whether an instruction has a result RES1 (Table 13.7). -/
def hasRes1 : Instr → Bool
  | .pmAct .. | .pmClr .. | .pmClrR .. => false
  | _ => true
/-- Whether a job opens a set. -/
def isOpen : Instr → Bool
  | .pmOpen .. => true
  | _ => false

/-- The end of a job (R385): its results, in the job block, then its semaphore; a fault on that write is reported as PMFAULT. A result
of the instruction to which the spec gives no value at this end is free (log 2); a field that is no result of it is not written. -/
def State.endJob (s : State) (p : Nat) (j : Job) (e : JobEnd) : State :=
  let pu := (s.getPart p).pump
  let pu := { pu with jobs := pu.jobs.filter (fun x => x.order != j.order)
                      opens := if isOpen j.instr then pu.opens ++ [(j.task, j.order, e.h)] else pu.opens }
  let s := s.updPart p (fun q => { q with pump := pu })
  let r0 := e.r0.getD (Config.oracle s.picks)
  let r1 := e.r1.getD (Config.oracle (s.picks + 1))
  let s := { s with picks := s.picks + 2 }
  let xa := j.xa.toNat
  let hs := match e.h with | some h => [(xa + 8, leBytes 8 h.toNat)] | none => []
  let r1s := if hasRes1 j.instr then [(xa + 0x30, leBytes 8 r1)] else []
  let ws := [(xa, leBytes 4 e.st ++ leBytes 4 j.order)] ++ hs ++ [(xa + 0x28, leBytes 8 r0)] ++ r1s ++ [(xa + 0x38, leBytes 8 (s.cycle p))]
  let s := match ws.foldlM (fun (s : State) q => s.partWrite p q.1 q.2) s with
    | .ok s => s
    | .error c => s.post p 10 p j.xa (BitVec.ofNat 64 c.code)
  let m := pmSemOf j.instr
  if m.en then s.semSignal (0x30000 + p * 32 + m.sem.toNat) 1 else s

/-- Whether an earlier job must be complete first (R384): one of the same core, of the same set or words; an open, whose words its
manifest names, is ordered against every job. -/
def Part.blocks (p : Part) (a j : Job) : Bool :=
  let words (x : Job) : List Nat := if usesWaddr x.instr then x.range else
    match p.pump.jobSet x with | some e => (p.pump.set e).words | none => []
  a.core == j.core || a.task == j.task || isOpen a.instr || isOpen j.instr ||
    ((p.pump.jobSet a).isSome && p.pump.jobSet a == p.pump.jobSet j) || (words a).any (words j).contains

/-- A job that the reset of its die ends (R371, Table 13.8): the words it was writing become invalid, and their chunks are no longer
programmed. Whether it had begun to write, where no earlier job holds it back, is free (log 2). -/
def State.loseJob (s : State) (p : Nat) (j : Job) : State :=
  let q := s.getPart p
  let begun := q.pump.jobs.all (fun a => decide (j.order ≤ a.order) || !q.blocks a j) && Config.oracle s.picks % 2 == 1
  let s := { s with picks := s.picks + 1 }
  let drop (s : State) (ws : List Nat) : State := { s with cist := s.cist.invalidate ws }
  let s := if !begun || j.bad then s else match j.instr, q.pump.jobSet j with
    | .pmProg .., some e =>
      let x := q.pump.set e
      if x.st == SetSt.opened || (x.st == SetSt.part && !x.prog.contains j.count) then
        match x.chunks[j.count]? with
        | some (w0, _) => drop (s.setSet p e { x with prog := nsDel j.count x.prog }) (chunkWords w0)
        | none => s
      else s
    | .pmClr .., some e =>
      let x := q.pump.set e
      if q.handle = q.pump.handleOf e ∨ q.refCount (q.pump.handleOf e) ≠ 0 then s
      else drop (s.setSet p e { x with prog := [], st := if x.st = .sealed then .part else x.st }) x.words
    | .pmClrR .., _ => if j.range.all (s.wordOk p) && !j.range.any s.owned then drop s j.range else s
    | _, _ => s
  s.endJob p j (.of 15)

/-- PUMP_JOB (R384, R385): the Pump of die `d` performs the first of its jobs that no earlier one holds back. -/
def execPumpJob (d : BitVec 2) (s : State) : Host.Outcome State Fault Refusal :=
  let p := s.dieOwner d.toNat
  let q := s.getPart p
  match q.pump.jobs.find? (fun j => j.die == d.toNat && q.pump.jobs.all (fun a => decide (j.order ≤ a.order) || !q.blocks a j)) with
  | some j =>
    if (s.die d.toNat).up then
      let (s, e) := s.doJob p j
      .next (s.endJob p j e)
    else .fault .notEnabled
  | none => .fault .notEnabled

end Sys2Proof.Machine
end

