-- ==== Sys2Proof/Machine/Wellhead.lean ====
section
/-! DEFINITION. The Wellhead (16_wellhead R456-R479): the CK instructions, seals, containment and recovery; the resets of a die and of a
partition (R465, R506). -/

namespace Sys2Proof.Machine

/-! ### The CK instructions (R471-R477) -/

/-- A fault of CK (Table 16.9). -/
def ckTrap (c : Cmd) (cause : Nat) : FaultClass → Word → Trap :=
  fun cls va => ⟨cls, 13, 0, BitVec.ofNat 64 (cause + opOf c.raw * 2 ^ 16), va, none, none⟩

/-- The domain changed. -/
def State.updCk (s : State) (p : Nat) (f : Ck → Ck) : State := s.updPart p (fun x => { x with ck := f x.ck })
/-- WBASE of the lowest region in use. -/
def Ck.wbase (c : Ck) : Nat := (c.regions.find? (fun r => decide (0 < r.len))).elim 0 (·.wbase)
/-- What every CK instruction checks first: that a domain is set and not lost (R469, R472). -/
def ckCheck : M Unit := do
  let s ← get
  let p ← partNo
  let ck := (s.getPart p).ck
  if ck.regions = [] then raise (ckTrap s.cmd 3 .perm 0)
  if ck.st = 2 then raise (ckTrap s.cmd 4 .cktorn (BitVec.ofNat 64 ck.wbase))
/-- A CK lane. -/
def ckLane (s : State) (inLoop : Bool) (act : M Unit) : Host.Outcome State Fault Refusal :=
  xqLane s ⟨Tok.none, [], []⟩ inLoop (pure ()) (fun _ => act)

/-- `ck.open` (R473). -/
def execCkOpen (s : State) : Host.Outcome State Fault Refusal :=
  ckLane s false (do
    ckCheck
    modCore (fun c => { c with member := true }))
/-- `ck.open.lv` (R473), which a lost domain does not refuse (R469). -/
def execCkOpenLv (s : State) : Host.Outcome State Fault Refusal :=
  ckLane s false (do
    let p ← partNo
    let t ← get
    if (t.getPart p).ck.regions = [] then raise (ckTrap t.cmd 3 .perm 0)
    modCore (fun c => { c with member := false }))

/-- `ck.rp` (R474). -/
def execCkRp (line : BitVec 6) (_xa _xb : XReg) (s : State) : Host.Outcome State Fault Refusal :=
  ckLane s true (do
    ckCheck
    let xa ← captured 0 (ckTrap s.cmd 7)
    let xb ← captured 1 (ckTrap s.cmd 7)
    let c ← core
    if ¬ c.member then raise (ckTrap s.cmd 2 .perm 0)
    let p ← partNo
    modify (fun t => t.updCk p (fun k => { k with pendLn := amSet k.pendLn line.toNat (xa, xb) })))

/-- The result address of `ck.seal`, where it has one. -/
def sealAt (st : StatReg) : M (Option Nat) := do
  let s ← get
  match st with
  | .none => return none
  | .at _ => do
    let xs ← captured 0 (ckTrap s.cmd 7)
    let o ← resultAt (ckTrap s.cmd 1) xs 8 8
    return some o

/-- `ck.seal` (R475): a release without a write of its own; SEAL_COMPLETION ends it. -/
def execCkSeal (st : StatReg) (s : State) : Host.Outcome State Fault Refusal :=
  ckLane s true (do
    ckCheck
    let _ ← sealAt st
    let t ← get
    set (t.askSeal t.cur 5 t.cmd []).1
    keepXq 13)

/-- CKSTAT (Table 16.4), as a task that is a member or not reads it. -/
def Ck.stat (c : Ck) (member : Bool) : Word :=
  BitVec.ofNat 64 ((if c.regions = [] then 0 else c.st.toNat) + (!c.regions.isEmpty).toNat * 2 ^ 2 + c.torn.toNat * 2 ^ 3 + member.toNat * 2 ^ 4 +
    c.cdie.toNat * 2 ^ 8 + c.ncont.toNat * 2 ^ 32)
/-- The sealed value of a recovery-point line. -/
def Ck.line (c : Ck) (n : Nat) : Word × Word := amGet (0, 0) c.sealedLn n
/-- The record of `ck.read` (Table 16.8). -/
def Ck.record (c : Ck) (member : Bool) : List Byte :=
  leBytes 8 c.epoch.toNat ++ leBytes 8 (c.stat member).toNat ++ leBytes 8 (if c.epoch = 0 then 0 else c.tseal.toNat) ++ leBytes 40 0 ++
    (List.range 64).flatMap (fun n => leBytes 8 (c.line n).1.toNat ++ leBytes 8 (c.line n).2.toNat)

/-- `ck.read` (R476). -/
def execCkRead (_xa : XReg) (s : State) : Host.Outcome State Fault Refusal :=
  ckLane s true (do
    ckCheck
    let xa ← captured 0 (ckTrap s.cmd 7)
    if bits xa.toNat 24 1 = 0 ∧ 2 ^ 18 < xa.toNat % 2 ^ 18 + 1088 then raise (ckTrap s.cmd 1 .align xa)
    let o ← resultAt (ckTrap s.cmd 1) xa 1088 64
    let p ← partNo
    let c ← core
    let t ← get
    writeResult o ((t.getPart p).ck.record c.member))

/-! ### Seals (R458-R461) -/

/-- The granules of the domain that a release's own write lies in. -/
def Ck.ownGranules (c : Ck) (own : List Effect) : NSet :=
  own.foldl (fun (gs : NSet) e => match e with
    | .mem _ pa bs _ _ _ => ((granulesOf 256 pa bs.length).filter (fun g => (c.working (256 * g)).isSome)).foldl (fun gs g => nsAdd g gs) gs
    | .amo _ pa .. => if (c.working pa).isSome then nsAdd (pa / 256) gs else gs
    | _ => gs) []
/-- An own write as it is performed: of a task that is gone, an atomic writes no register. -/
def RcRelease.effs (r : RcRelease) : List Effect :=
  if r.gone then r.own.map (fun e => match e with | .amo va pa op z xb cmp _ pub nc => .amo va pa op z xb cmp 0 pub nc | e => e) else r.own
/-- The write hold's entry of a release whose loop iteration has retired. -/
def Core.askedHold (c : Core) (n : Nat) : Option Held := c.holds.find? (fun h => h.need == SealWait.asked n)
/-- The own writes of releases performed. -/
def State.performOwn (s : State) (rs : List RcRelease) : State := rs.foldl (fun (s : State) r =>
  match (s.core r.core).askedHold r.n with
  | some h => r.effs.foldl (fun (s : State) e => lateEffect s r.core h e) s
  | none => s.performAll r.core r.slot r.effs) s
/-- The granules still held by a `camo` whose seal is not complete. -/
def Ck.heldGranules (c : Ck) : NSet :=
  let rs := c.asks ++ (match c.run with | some r => r.serves | none => [])
  (rs.flatMap (fun r => r.own)).foldl (fun (gs : NSet) e => match e with
    | .amo _ pa .. => if (c.working pa).isSome then nsAdd (pa / 256) gs else gs
    | _ => gs) []

/-- A served release told of its seal's end (R460, R461, R475): one whose loop iteration has retired leaves its write hold, or raises LINK and
asks for a new seal when it is issued again; one that stands in its queue takes its answer; `ck.seal` completes, or goes back to its queue and
raises LINK. -/
def State.answerSeal (s : State) (p : Nat) (ok : Bool) (r : RcRelease) : State :=
  let c := s.core r.core
  if r.gone then s
  else match c.askedHold r.n with
    | some h =>
      if ok then s.updCore r.core (·.dropHeld h)
      else
        let link : Trap := if r.slot = 2 then stTrap r.cmd 7 0 .link 0 else ccTrap r.cmd .link 0
        takeFault (s.updCore r.core (·.replHeld h { h with need := .want })) r.core link r.cmd.idx r.cmd.lane
    | none =>
      if (cmdsOf (c.queue r.slot)).any (fun m => m.idx == r.cmd.idx) then
        s.updCk p (fun k => { k with answers := amSet k.answers r.n ok })
      else if r.slot = 5 then
        let s := s.updCore r.core (fun c => c.dropXq 13 r.cmd.idx)
        if ok then
          match r.cmd.instr with
          | .ckSeal (.at _) => s.updCore r.core (fun c => c.writeSp ((r.cmd.vals.getD 0 Scalar.zero).v.toNat % 2 ^ 22) (leBytes 8 (s.getPart p).ck.epoch.toNat) [])
          | _ => s
        else takeFault (s.updCore r.core (fun c => c.setQueue 5 (.cmd { r.cmd with iter := [], joined := none } :: c.queue 5))) r.core
          (ckTrap r.cmd 5 .link 0) r.cmd.idx r.cmd.lane
      else s

/-- The end of a seal: own writes performed where it has succeeded, the releases answered, the granules freed. -/
def State.endSeal (s : State) (p : Nat) (ok : Bool) (rs : List RcRelease) : State :=
  let ck := (s.getPart p).ck
  let s := if ok then (s.performOwn rs).updCk p (fun k => { k with dirty := ck.dirty, old := ck.old }) else s
  let s := rs.foldl (fun (s : State) r => s.answerSeal p ok r) s
  s.updCk p (fun k => { k with locked := k.heldGranules })

/-- SEAL (R459): the snapshot; with nothing to log the seal completes at once. -/
def execSeal (s : State) : Host.Outcome State Fault Refusal :=
  let p := s.part
  let ck := (s.getPart p).ck
  if ck.asks = [] ∨ ck.run.isSome then .fault .notEnabled
  else
    let after := s.performOwn ck.asks
    let gs := (ck.asks.flatMap (fun r => ck.ownGranules r.own)).foldl (fun gs g => nsAdd g gs) ck.dirty
    let gran := gs.map (fun g => (g, peekBytes after.mem (256 * g) 256))
    if gran = [] ∧ ck.pendLn = [] then
      .next ((s.updCk p (fun k => { k with asks := [] })).endSeal p true ck.asks)
    else
      .next (s.updCk p (fun k => { k with asks := [], dirty := [], pendLn := [], run := some ⟨s.cycle p, gran, ck.pendLn, ck.asks⟩ }))

/-- Whether the Wellhead reaches the chiplets of both mirrors of every region. -/
def State.mirrorsOk (s : State) (p : Nat) : Bool :=
  (s.getPart p).ck.regions.all (fun r => r.len == 0 || [r.mira, r.mirb].all (fun a =>
    s.chipOk ((s.getPart p).dies.headD 0) (a / chipBytes) && (s.chips.getD (a / chipBytes) Chiplet.reset).up))

/-- A seal durable on both mirrors (R459). -/
def State.completeSeal (s : State) (p : Nat) (r : SealRun) : State :=
  let s := s.updCk p (fun k => { k with
    epoch := k.epoch + 1
    tseal := r.at_
    run := none
    sealedLn := r.lines.foldl (fun m e => amSet m e.1 e.2) k.sealedLn
    old := k.dirty.map (fun g => (g, (amFind g r.gran).getD (amGet [] k.old g))) })
  s.endSeal p true r.serves
/-- SEAL_COMPLETION (R459, R460). -/
def execSealCompletion (s : State) : Host.Outcome State Fault Refusal :=
  match (s.getPart s.part).ck.run with
  | some r => if s.mirrorsOk s.part then .next (s.completeSeal s.part r) else .fault .notEnabled
  | none => .fault .notEnabled

/-- SEAL_FAILURE (R461): FXTMO has passed since S without both mirrors written, and they cannot be written now. -/
def execSealFailure (s : State) : Host.Outcome State Fault Refusal :=
  let p := s.part
  match (s.getPart p).ck.run with
  | some r =>
    if (s.cycle p - r.at_.toNat : Int) < s.fxtmo p ∨ s.mirrorsOk p = true then .fault .notEnabled
    else
      let own := r.serves.flatMap (fun x => (s.getPart p).ck.ownGranules x.own)
      let s := s.updCk p (fun k => { k with
        run := none
        dirty := (r.gran.filter (fun e => (amFind e.1 k.old).isSome || !own.contains e.1)).foldl (fun d e => nsAdd e.1 d) k.dirty
        pendLn := k.pendLn.foldl (fun m e => amSet m e.1 e.2) r.lines })
      .next (s.endSeal p false r.serves)
  | none => .fault .notEnabled

/-! ### Tasks ended by a reset (R198, R465, R466) -/

/-- An index that no command has: commands are numbered modulo 2^48. -/
def noIdx : Nat := 2 ^ 48
/-- The units' records of a core's commands made to name none of a task that is gone: results owed to it are discarded. -/
def State.orphan (s : State) (k : Nat) : State :=
  let p := s.corePart k
  let rounds (r : Rounds) : Rounds := { r with open_ := r.open_.map (fun (x : Round) =>
    { x with ranks := x.ranks.map (fun (e : Nat × Bool × Nat × Nat × List Nat) => if e.2.2.1 = k then (e.1, e.2.1, k, noIdx, e.2.2.2.2) else e) }) }
  let rel (r : RcRelease) : RcRelease := if r.core = k then { r with gone := true } else r
  let s := s.updPart p (fun x => { x with
    rounds := rounds x.rounds
    kv := { x.kv with dying := x.kv.dying.map (fun (e : Nat × List Dying) => (e.1, e.2.map (fun (d : Dying) => { d with users := d.users.filter (fun u => u.1 != k) }))) }
    ck := { x.ck with asks := x.ck.asks.map rel, run := x.ck.run.map (fun r => { r with serves := r.serves.map rel }) }
    sched := { x.sched with
      heldSubs := x.sched.heldSubs.map (fun (h : HeldSub) => if h.core = k then { h with stat := none, cmd := { h.cmd with idx := noIdx } } else h)
      heldPatches := x.sched.heldPatches.map (fun (h : HeldPatch) => if h.core = k then { h with cmd := { h.cmd with idx := noIdx } } else h)
      preempts := x.sched.preempts.filter (fun q => q.1 != k) } })
  { s with
    domain := rounds s.domain
    sync := { s.sync with
      waits := s.sync.waits.filter (fun w => w.2.core != k)
      sems := s.sync.sems.map (fun e => (e.1, { e.2 with waits := e.2.waits.filter (fun u => u.core != k) })) } }

/-- A core's task aborted (R198): its state is gone, and its record is told. -/
def State.abortCore (s : State) (k : Nat) : State :=
  let c := s.core k
  match c.task with
  | none => s
  | some t =>
    let s := match c.mode with
      | .resting _ (some a) => s.updSched (s.corePart k) (fun d => { d with poolBusy := nsDel a d.poolBusy })
      | _ => s
    (((s.orphan k).setCore k { c.fresh with staged := c.staged }).taskEnded (s.corePart k) t 0 true).releaseGang (k / 4)
/-- Cores of a partition with a task that a test picks. -/
def State.taskCores (s : State) (p : Nat) (f : Nat → Core → Bool) : List Nat :=
  s.cores.filterMap (fun e => if s.corePart e.1 = p ∧ e.2.task.isSome ∧ f e.1 e.2 then some e.1 else none)
/-- Saved contexts that a test picks dropped: their areas return to the pool, their tasks are aborted (R198). -/
def State.dropCtxs (s : State) (p : Nat) (f : Ctx → Bool) : State :=
  let gone := (s.sched p).ctxs.filter f
  let s := s.updSched p (fun d => { d with
    ctxs := d.ctxs.filter (fun c => !f c)
    poolBusy := d.poolBusy.filter (fun a => !gone.any (fun c => c.area == a)) })
  gone.foldl (fun (s : State) c => match c.core.task with
    | some t => s.taskEnded p t 0 true
    | none => s) s

/-! ### Containment and recovery (R466-R468) -/

/-- Whether a granule of the domain is uncorrectable in the images of both mirrors (log 11). -/
def State.granuleLost (s : State) (r : CkRegion) : Bool :=
  let bad (base : Nat) : NSet := (s.memPois.filter (fun g => decide (base ≤ 32 * g) && decide (32 * g < base + r.len * 2 ^ 21))).map (fun g => (32 * g - base) / 256)
  (bad r.mira).any (fun g => (bad r.mirb).contains g)
/-- The domain back at its last epoch: the granules written since have their values at it, and with `whole` every granule its mirrors' value;
LOST where a granule is uncorrectable in both images. A domain that is LOST stays so (R469), and its TORN (Table 16.6). -/
def State.windBack (s : State) (p : Nat) (torn whole : Bool) : State :=
  let ck := (s.getPart p).ck
  if ck.regions.any s.granuleLost then s.updCk p (fun k => { k with st := 2, run := none, asks := [], dirty := [], old := [], pendLn := [], locked := [] })
  else
    let s := ck.old.foldl (fun (s : State) (e : Nat × List Byte) =>
      (s.writePiece p (256 * e.1) (e.2.take 128) true).writePiece p (256 * e.1 + 128) (e.2.drop 128) true) s
    let s := { s with
      memPois := s.memPois.filter (fun g => if whole then (ck.working (32 * g)).isNone else (amFind (g / 8) ck.old).isNone) }
    s.updCk p (fun k => { k with st := if k.st = 2 then 2 else if torn then 1 else 0, torn := if k.st = 2 then k.torn else torn, run := none, asks := [], dirty := [], old := [], pendLn := [], locked := [] })

/-- A contained die reset (R466). -/
def State.contain (s : State) (p d : Nat) : State :=
  let s := (s.taskCores p (fun _ c => c.member)).foldl (fun (s : State) k => s.abortCore k) s
  let s := s.dropCtxs p (fun c => c.core.member)
  let s := s.updCk p (fun k => { k with pendLn := [] })
  let s := match (s.getPart p).ck.run with
    | some r => s.completeSeal p r
    | none => s
  let asks := (s.getPart p).ck.asks
  let s := s.windBack p false false
  let s := s.updCk p (fun k => { k with
    asks := asks.filter (fun r => !r.gone)
    cdie := BitVec.ofNat 2 d
    ncont := if k.ncont = 0xFFFF then 0xFFFF else k.ncont + 1 })
  let s := s.updCk p (fun k => { k with locked := k.heldGranules })
  let ck := (s.getPart p).ck
  s.post p 8 p ck.epoch (ck.stat false)

/-- The domain recovered from its seal records (R467): every task of the partition has ended. -/
def State.recover (s : State) (p : Nat) : State :=
  if (s.getPart p).ck.regions = [] then s else s.windBack p (s.getPart p).ck.run.isSome true

/-! ### Die resets (R465, Table 16.5) -/

/-- The sync units of a die cleared, and the package unit where it lies there: a semaphore keeps its pending waits. -/
def State.clearSync (s : State) (p d : Nat) : State :=
  let low := (s.getPart p).dies.headD 0 == d
  let cl (key : Nat) (n : Nat) : Bool := decide (0x10000 ≤ key) && decide (key < 0x20000) && ((key - 0x10000) / n / 32 == d)
  let di (key : Nat) : Bool := decide (0x20000 ≤ key) && decide (key < 0x30000) && ((key - 0x20000) / 64 == d)
  let y := s.sync
  let barGone (key : Nat) (part : Nat) : Bool := cl key 32 || di key || (low && decide (0x30000 ≤ key) && decide (key < 2 ^ 60) && part == p)
  let semGone (key : Nat) : Bool := cl key 64 || di key || (low && decide (0x30000 + 32 * p ≤ key) && decide (key < 0x30000 + 32 * (p + 1)))
  let gone := (y.bars.filter (fun e => barGone e.1 e.2.part)).map (·.1)
  { s with sync := {
      bars := y.bars.filter (fun e => !gone.contains e.1)
      sems := y.sems.filterMap (fun e => if semGone e.1 then (if e.2.waits = [] then none else some (e.1, ⟨0, false, e.2.waits⟩)) else some e)
      waits := y.waits.filter (fun w => !gone.contains w.1)
      notes := y.notes.filter (fun (n : Note) => !gone.contains n.key && n.die != d)
      pend := y.pend.filter (fun q => !gone.contains q.1 && q.2.1 != d)
      words := y.words.filter (fun e => !(decide (2 ^ 61 ≤ e.1) && (e.1 - 2 ^ 61) / 2 ^ 22 / 128 == d)) } }

/-- Links of a die. -/
def dieLinks (d : Nat) : List Nat := if d = 0 then nsRange 0 7 else nsRange 0 6
/-- The links of a die that run go DOWN. -/
def State.linksDown (s : State) (d : Nat) : State :=
  (dieLinks d).foldl (fun (s : State) l => if s.linkOk d l then s.turnLink d l (fun x => { x with st := .down, run := 0 }) else s) s
/-- The DOWN links of a die run again on the modules they have. -/
def State.linksUp (s : State) (d : Nat) : State :=
  (dieLinks d).foldl (fun (s : State) l =>
    if (s.link d l).st = .down ∧ (linkTwin d l).all (fun q => (s.die q.1).up) then
      s.turnLink d l (fun x => { x with st := if x.mods < fullWidth d l then .degraded else .up })
    else s) s

/-- Collective rounds whose home is a die end with TIMEOUT (R441). -/
def State.endRounds (s : State) (p d : Nat) : State :=
  if (s.getPart p).dies.headD 0 ≠ d then s
  else
    let s := (s.getPart p).rounds.open_.foldl (fun (s : State) r => s.completeRound p r) s
    if p = 0 ∧ bits (s.getPart p).regs.fxdom.toNat 0 6 = 0 then s.domain.open_.foldl (fun (s : State) r => s.completeRound p r) s else s
/-- Pump jobs of a die end with LOST. -/
def State.endJobs (s : State) (p d : Nat) : State :=
  ((s.getPart p).pump.jobs.filter (fun j => j.die == d)).foldl (fun (s : State) j => s.loseJob p j) s
/-- Lifetime counts of die resets by cause (Table 18.14). -/
def State.countReset (s : State) (d cause : Nat) : State :=
  let k := 8 * d + cause
  { s with life := { s.life with resets := amSet s.life.resets k (min (2 ^ 32 - 1) (amGet 0 s.life.resets k + 1)) } }

/-- A core's memory after the reset of its die: registers at their reset values; no rule says what its scratchpad holds, and it stays
(log 5). -/
def Core.afterReset (c : Core) : Core := { Core.reset with sp := c.sp, spPois := c.spPois }

/-- A reset of a die (R465): `cause` as the event DIERST reports it. -/
def State.dieReset (s : State) (d cause : Nat) : State :=
  let p := s.dieOwner d
  let hit : Bool := s.taskCores p (fun k c => coreDie k == d && c.member) != []
  let s := (s.taskCores p (fun k _ => coreDie k == d)).foldl (fun (s : State) k => s.abortCore k) s
  let s := { s with cores := s.cores.map (fun (e : Nat × Core) => if coreDie e.1 = d then (e.1, e.2.afterReset) else e)
                    gated := s.gated.filter (fun c => c / 32 != d) }
  let s := s.updDie d (fun x => { x with up := false, l2 := [], quads := x.quads.map (fun (q : Quad) => { q with cur := none }) })
  let s := ((s.clearSync p d).endRounds p d).endJobs p d
  let s := (s.linksDown d).countReset d cause
  let s := s.post p 7 p (BitVec.ofNat 64 d) (BitVec.ofNat 64 cause)
  let s : State := if hit && !(s.getPart p).ck.regions.isEmpty then s.contain p d else s
  s.dropStale p

/-- The cause of a die's own reset as DIERST reports it (Table 18.8); a fault of the base die is one of the die's logic there. -/
def dieCauseCode : DieCause → Nat
  | .logic | .base => 1
  | .temperature => 2
  | .regulator => 3

/-- DIE_RESET (R465, R491): by temperature only where a quadrant has reached 110 °C. -/
def execDieReset (d : BitVec 2) (cause : DieCause) (s : State) : Host.Outcome State Fault Refusal :=
  let n := d.toNat
  if s.phase = 0 ∨ ¬ (s.die n).up then .fault .notEnabled
  else if cause = .temperature ∧ (s.die n).quads.toList.all (fun q => decide (q.temp.toNat < 110)) then .fault .notEnabled
  else .next (s.dieReset n (dieCauseCode cause))

/-- DIE_REJOIN (R465): the die serves its partition again. -/
def execDieRejoin (d : BitVec 2) (s : State) : Host.Outcome State Fault Refusal :=
  if (s.die d.toNat).up then .fault .notEnabled
  else .next ((s.updDie d.toNat (fun x => { x with up := true })).linksUp d.toNat)

/-! ### Partition and chiplet resets (R467, R506) -/

/-- Every task of a partition ended (R506 step 1). -/
def State.endTasks (s : State) (p : Nat) : State :=
  let s := (s.taskCores p (fun _ _ => true)).foldl (fun (s : State) k => s.abortCore k) s
  s.dropCtxs p (fun _ => true)

/-- Dirty lines of a die written back (R506 step 2), or dropped. -/
def State.flushL2 (s : State) (d : Nat) (keep : Bool) : State :=
  let mem := if keep then ((s.die d).l2.filter (fun e => e.2.dirty)).foldl (fun m e => pokeBytes m (128 * e.1) (peekBytes e.2.data 0 128)) s.mem else s.mem
  ({ s with mem := mem }).updDie d (fun x => { x with l2 := [], up := true, quads := Vector.replicate 4 ⟨0, 0, none, none, 0, 0⟩, gm1 := 7, delta := 64 })

/-- A partition as its reset leaves it (R506): tables that the reset keeps, and the rest at reset values. -/
def Part.afterReset (x : Part) (now : Nat) : Part :=
  { Part.reset x.dies with
    base := now
    ck := { x.ck with ncont := 0, cdie := 0 }
    pump := { x.pump with jobs := [], cnt := 0, opens := [] }
    route := x.route }

/-- A partition reset (R506); a scrub's drops dirty lines (R515). -/
def State.partReset (s : State) (p : Nat) (keep : Bool) : State :=
  let ds := (s.getPart p).dies
  let s := s.endTasks p
  let s := ds.foldl (fun (s : State) d =>
    let s := s.flushL2 d keep
    ((s.clearSync p d).endRounds p d).endJobs p d) s
  let s := s.recover p
  let s := { s with
    cores := s.cores.map (fun (e : Nat × Core) => if ds.contains (coreDie e.1) then (e.1, e.2.afterReset) else e)
    gated := s.gated.filter (fun c => !ds.contains (c / 32))
    unpub := s.unpub.filter (fun e => e.2.1 / 16 != p)
    sync := { s.sync with
      waits := s.sync.waits.filter (fun w => s.corePart w.2.core != p)
      pend := s.sync.pend.filter (fun q => !ds.contains q.2.1)
      notes := s.sync.notes.filter (fun (n : Note) => !ds.contains n.die) } }
  let s := ds.foldl (fun (s : State) d => (dieLinks d).foldl (fun (s : State) l =>
    s.setEnd d l (fun x => { x with
      st := if x.st = .absent then .absent else if x.mods < fullWidth d l then .degraded else .up
      replays := 0
      run := 0
      retrains := 0 })) s) s
  let w := s.win p
  (s.updPart p (fun x => x.afterReset s.now)).setWin p { Window.reset with run := w.run }

/-- CHIPLET_RESET (R467): a chiplet that holds a mirror. -/
def execChipletReset (c : BitVec 2) (s : State) : Host.Outcome State Fault Refusal :=
  let p := s.dieOwner c.toNat
  if s.phase = 0 then .fault .notEnabled
  else if (s.getPart p).ck.regions.any (fun r => decide (0 < r.len) && (r.mira / chipBytes == c.toNat || r.mirb / chipBytes == c.toNat)) then
    .next (((s.endTasks p).recover p).dropStale p)
  else .next s

end Sys2Proof.Machine
end

