-- ==== Sys2Proof/Machine/Power.lean ====
section
/-! DEFINITION. Power and current control (17_power R480-R493): the forecast and the regulators, throttle levels, cluster gating. -/

namespace Sys2Proof.Machine

/-! ### The forecast and the regulators (R205, R485) -/

/-- P_q of a die's FCAST. -/
def fcastPred (w : Word) (q : Nat) : Nat := bits w.toNat (16 * q + 8) 8
/-- A regulator's look at a forecast (R485): more than four running tasks beyond it hold the quadrant's level at 1 or above for 4 µs, and
count in ESTEP of its cores. -/
def State.regulate (s : State) (d q : Nat) (w : Word) : State :=
  if fcastPred w q + 4 < s.quadRunning d q then
    let s := s.updQuad d q (fun x => { x with cur := some s.now })
    (nsRange (128 * d + 32 * q) 32).foldl (fun (s : State) k =>
      if (amFind k s.cores).isSome then
        s.updCore k (fun c => { c with regs := { c.regs with estep := if c.regs.estep = 0xFF then 0xFF else c.regs.estep + 1 } })
      else s) s
  else s

/-- FCAST_UPDATE (R205, R485): the regulators compare the load with the forecast made for this moment, and the new one is written. -/
def execFcastUpdate (s : State) : Host.Outcome State Fault Refusal :=
  let p := s.part
  let d0 := s.sched p
  if s.now / 2048 ≤ d0.fcastAt / 2048 ∨ (s.getPart p).dies = [] then .fault .notEnabled
  else
    let ds := (s.getPart p).dies
    let s := ds.foldl (fun (s : State) d => (List.range 4).foldl (fun (s : State) q => s.regulate d q (amGet 0 d0.fcast d)) s) s
    .next (s.updSched p (fun x => { x with fcast := ds.foldl (fun m d => amSet m d (s.fcastOf p d)) x.fcast, fcastAt := s.now }))

/-- CURRENT_THROTTLE_EXPIRY (R485): 4 µs after its beginning the current cause ends, unless the load still exceeds the forecast. -/
def execCurrentThrottleExpiry (d q : BitVec 2) (s : State) : Host.Outcome State Fault Refusal :=
  match (s.quad d.toNat q.toNat).cur with
  | some t =>
    if s.now < t + 8000 then .fault .notEnabled
    else
      let s := s.updQuad d.toNat q.toNat (fun x => { x with cur := none })
      .next (s.regulate d.toNat q.toNat (amGet 0 (s.sched (s.dieOwner d.toNat)).fcast d.toNat))
  | none => .fault .notEnabled

/-! ### Temperature (R491) -/

/-- Whether a temperature lies far enough below a level for the next one down. -/
def coolFor (lvl t : Nat) : Bool := decide (0 < lvl) && decide (t < threshold lvl - 3)

/-- TEMPERATURE_READING (R491): the level rises at once; at 110 °C the die orders its own reset. -/
def execTemperatureReading (d q : BitVec 2) (celsius : BitVec 8) (s : State) : Host.Outcome State Fault Refusal :=
  let n := d.toNat
  let t := celsius.toNat
  if s.phase = 0 ∨ ¬ (s.die n).up then .fault .notEnabled
  else
    let s := s.updQuad n q.toNat (fun x =>
      let l := max x.lvl (thermalLevel t)
      { x with temp := celsius, lvl := l, below := if coolFor l t then (if l = x.lvl ∧ x.below.isSome then x.below else some s.now) else none })
    let bin := (4 * n + q.toNat) * 64 + t / 5
    let s := { s with life := { s.life with temps := amSet s.life.temps bin (min (2 ^ 32 - 1) (amGet 0 s.life.temps bin + 1)) } }
    .next (if 110 ≤ t then s.dieReset n 2 else s)

/-- THROTTLE_DECAY (R491): 100 µs below the threshold minus 3 °C the thermal level falls by one. -/
def execThrottleDecay (d q : BitVec 2) (s : State) : Host.Outcome State Fault Refusal :=
  let x := s.quad d.toNat q.toNat
  match x.below with
  | some t =>
    if x.lvl = 0 ∨ s.now < t + 200000 then .fault .notEnabled
    else .next (s.updQuad d.toNat q.toNat (fun x =>
      { x with lvl := x.lvl - 1, below := if coolFor (x.lvl - 1) x.temp.toNat then some s.now else none }))
  | none => .fault .notEnabled

/-! ### Cluster gating (R486-R489) -/

/-- Whether an engine queue is empty, or its head waits on a semaphore, a sync word or a unit's result. -/
def Core.queueIdle (c : Core) (k : Slot) : Bool :=
  (c.queue k).isEmpty || (amFind k c.waits).any (fun w => w.kind == 3 || w.kind == 6 || w.kind == 10)
/-- Whether a core lets its cluster be gated (R486). -/
def State.gateable (s : State) (k : Nat) : Bool :=
  let c := s.core k
  if c.mode == CoreMode.idle then c.staged.isNone
  else
    c.mode == CoreMode.running && !c.dbg.halted && !c.dbg.stepping && (nsRange 1 13).all c.queueIdle &&
      c.cp.jrn.toList.all (·.isEmpty) && c.mx.nest.isNone && c.fetch.spec.isNone && c.loops.isEmpty &&
      (c.exiting.isSome || (amFind 0 c.waits).any (fun w => w.kind == 8)) &&
      !((s.sched (s.corePart k)).preempts.any (fun q => q.1 == k))

/-- Set bits of a word. -/
def popWord (w : Nat) (n : Nat) : Nat := ((List.range n).filter w.testBit).length
/-- Bytes that gating a core spills (R487): live tiles, accumulators, live banks. -/
def Core.spill (c : Core) : Nat :=
  if c.task.isNone then 0 else 0x2000 * popWord c.livetl.toNat 64 + 0x20000 + 0x40000 * popWord c.livebk.toNat 16

/-- L2 slots that a spill of `n` bytes takes. -/
def spillSlots (n : Nat) : Nat := (n + 127) / 128
/-- L2 slots of a die that the spills of its gated clusters hold. -/
def State.spilled (s : State) (d : Nat) : Nat := ((s.gated.filter (fun c => c / 32 == d)).map (fun c => amGet 0 s.spills c)).sum
/-- Data slots of a die's L2 that are in use. -/
def State.slotsUsed (s : State) (d : Nat) : Nat := ((s.die d).l2.filter (fun e => e.2.data != [])).length + s.spilled d
/-- Clusters of the listed cores that may not be gated now, noted (R486). -/
def State.noteBusy (s : State) : State :=
  s.cores.foldl (fun (t : State) e => if s.gateable e.1 then t else { t with busyAt := amSet t.busyAt (e.1 / 4) s.now }) s

/-- CLUSTER_GATING (R486, R487): eligible for GIDLE × 64 cc; the spill must fit 4 MiB and the die's free L2 slots. -/
def execClusterGating (k : BitVec 7) (s : State) : Host.Outcome State Fault Refusal :=
  let c := k.toNat
  let d := c / 32
  let ks := (nsRange (4 * c) 4).filter (fun k => !s.disabled.contains k)
  let n := (ks.map (fun k => (s.core k).spill)).sum
  let regs := (s.getPart (s.dieOwner d)).regs
  if s.phase = 1 ∧ (s.die d).up ∧ ks ≠ [] ∧ bits regs.gatectl.toNat 16 1 = 1 ∧ ¬ s.gated.contains c ∧ ks.all s.gateable ∧
      amGet 0 s.busyAt c + 64 * max 1 (bits regs.gatectl.toNat 0 16) ≤ s.now ∧ n ≤ 0x400000 ∧ spillSlots n + s.slotsUsed d ≤ l2Slots then
    .next { s with gated := nsAdd c s.gated, spills := amSet s.spills c (spillSlots n) }
  else .fault .notEnabled

/-- CLUSTER_WAKE (R488). -/
def execClusterWake (k : BitVec 7) (s : State) : Host.Outcome State Fault Refusal :=
  if s.gated.contains k.toNat then .next { s with gated := nsDel k.toNat s.gated } else .fault .notEnabled

end Sys2Proof.Machine
end

