-- ==== Sys2Proof/Machine/Context.lean ====
section
/-! DEFINITION. A fault's stop, pre-emption, the saved context and its restore (05_control_core R168-R179), the debugger (R180-R182), wait
timeouts (R364), errors of the arrays (R48, R49), the page walker (R38). -/

namespace Sys2Proof.Machine

/-! ### Coming to rest (R168, R172) -/

/-- Speculative results discarded; speculative commands are commands not yet executed. -/
def Core.dropSpec (c : Core) : Core :=
  let redo := c.sh.redo
  let nest := if c.mx.nest.any (fun (n : Nest) => n.cmd.spec != SpecMark.none) then none else c.mx.nest
  let fix (e : QEntry) : QEntry := match e with
    | .cmd m => if m.spec = .none then e else .cmd { m with started := false, srcs := [] }
    | e => e
  ({ c with sh := Shadow.nil, mx := { c.mx with nest := nest } }).mapQueues (fun k q => reissue (q.map fix) (amGet [] redo k))
/-- Incomplete transfers of a channel discarded: their counts are subtracted, and each is again to be made from its first row (R339). -/
def State.discardCopies (s : State) (k ch : Nat) : State :=
  let js := (s.core k).journal ch
  let s := (js.filter (fun (x : Xfer) => x.place == XferPlace.moving)).foldl (fun (s : State) x => s.uncount k ch x false) s
  s.updCore k (fun c =>
    let begun := js.filter (fun (x : Xfer) => x.place != XferPlace.waiting)
    let c := c.setJournal ch (js.map (fun (x : Xfer) =>
      { x with place := if x.place = .faulted then .faulted else .waiting, arr := [], sw := none, counted := 0, ix := [], todo := false }))
    c.setQueue (6 + ch) (begun.map (fun (x : Xfer) => QEntry.xfer x.id) ++ c.queue (6 + ch)))
/-- The waits of a core's commands forgotten by the sync units. -/
def State.forgetWaits (s : State) (k : Nat) : State :=
  { s with sync := { s.sync with
    waits := s.sync.waits.filter (fun w => w.2.core != k)
    sems := s.sync.sems.map (fun e => (e.1, { e.2 with waits := e.2.waits.filter (fun u => u.core != k) })) } }
/-- The engines and channels of a core brought to rest. -/
def State.toRest (s : State) (k : Nat) : State :=
  (List.range 8).foldl (fun (s : State) ch => s.discardCopies k ch) ((s.updCore k (fun c => { (c.dropSpec) with replays := [] })).forgetWaits k)
/-- A yield answered and a request forgotten: the core stops. -/
def State.dropRequest (s : State) (k : Nat) : State :=
  let p := s.corePart k
  let asked := (s.sched p).preempts.any (fun q => q.1 == k && q.2)
  let s := if asked then s.updCore k (fun c => { c with fetch := { c.fetch with yield := false } }) else s
  s.updSched p (fun d => { d with preempts := d.preempts.filter (fun q => q.1 != k) })

/-- A saturating count of the lifetime records. -/
def lifeAdd (m : AMap Nat) (k : Nat) : AMap Nat := amSet m k (min (2 ^ 32 - 1) (amGet 0 m k + 1))
/-- A snapshot trigger on a die (R512): the first after SNAPSET latches, later ones are counted. -/
def State.trigger (s : State) (p d : Nat) : State :=
  if s.snap.armed then { s with snap := { s.snap with armed := false, latch := some (s.cycle p, s.cores) } }
  else { s with life := { s.life with ignored := lifeAdd s.life.ignored d } }

/-- FAULT_STOP (R168 step 2): the core of a reported fault comes to rest; other members of its gang run on (log 27). -/
def execFaultStop (s : State) : Host.Outcome State Fault Refusal :=
  let k := s.cur
  if (s.core k).mode ≠ .stopped then .fault .notEnabled
  else
    let s := (s.toRest k).dropRequest k
    let s := s.updCore k (fun c => { c with mode := .resting true none })
    let cls := (s.core k).trap.cls.toNat % 64
    .next (if s.snap.mask.toNat.testBit cls then s.trigger (s.corePart k) (coreDie k) else s)

/-- PREEMPTION (R172, R197): a requested pre-emption of a running core, which a free save area for it and each of its gang allows. -/
def execPreemption (s : State) : Host.Outcome State Fault Refusal :=
  let k := s.cur
  let p := s.corePart k
  let c := s.core k
  let d := s.sched p
  let need := ((s.gangOf k).filter (fun j => d.preempts.any (fun q => q.1 == j))).length
  match d.freeAreas with
  | a :: _ =>
    if c.mode = .running ∧ ¬ c.dbg.halted ∧ d.preempts.any (fun q => q.1 == k) = true ∧ need ≤ d.freeAreas.length then
      let s := ((s.toRest k).dropRequest k).wake k
      let s := s.updSched p (fun d => { d with poolBusy := nsAdd a d.poolBusy })
      .next (s.updCore k (fun c => { c with mode := .resting false (some a) }))
    else .fault .notEnabled
  | [] => .fault .notEnabled

/-! ### The save area (R173, R174, Tables 5.15, 5.16) -/

/-- The number of a format tag as descriptors write it. -/
def bankWord (b : Bank) : Nat := b.fmt.code + b.act.toNat * 2 ^ 4 + b.viol.toNat * 2 ^ 7
/-- BKBND.n. -/
def boundWord (b : Bank) : Nat := b.lo.toNat + b.hi.toNat * 2 ^ 32
/-- The core state that a field of the control area holds (log 10): the marks of shadows (152-154) a write leaves. -/
def Core.ctlGet (c : Core) (f : Nat) : Option Nat :=
  if 1 ≤ f ∧ f ≤ 31 then some (c.x.getD f Scalar.zero).v.toNat
  else if f = 32 then some (((List.range 32).filter (fun i => (c.x.getD i Scalar.zero).poison)).map (2 ^ ·)).sum
  else if f = 33 then some (((nsRange 1 7).filter (fun i => c.p.getD i false)).map (2 ^ ·)).sum
  else if 34 ≤ f ∧ f ≤ 37 then some (c.lc.getD (f - 34) 0).toNat
  else if f = 38 then some c.fetch.pc.toNat
  else if f = 39 then some c.livebk.toNat
  else if f = 40 then some c.livetl.toNat
  else if 48 ≤ f ∧ f ≤ 63 then some (bankWord (c.bank (f - 48)))
  else if 64 ≤ f ∧ f ≤ 79 then some (boundWord (c.bank (f - 64)))
  else if 80 ≤ f ∧ f ≤ 143 then some ((c.tile (f - 80)).full.toNat + (c.tile (f - 80)).tag.code * 2)
  else if 144 ≤ f ∧ f ≤ 151 then some (c.tokCount (f - 144))
  else if f = 152 then some ((c.sh.accs.map (fun (e : Nat × Acc) => 2 ^ e.1)).sum)
  else if f = 153 then some ((c.sh.full.map (2 ^ ·)).sum)
  else if f = 154 then some ((c.sh.pend.map (2 ^ ·)).sum)
  else none
/-- A bank's descriptor replaced. -/
def Core.setBank (c : Core) (b : Nat) (x : Bank) : Core := if h : b < 16 then { c with banks := c.banks.set b x h } else c
/-- A field of the control area written. -/
def Core.ctlSet (c : Core) (f v : Nat) : Core :=
  let w : Word := BitVec.ofNat 64 v
  if 1 ≤ f ∧ f ≤ 31 then c.wrX (BitVec.ofNat 5 f) { c.rdX (BitVec.ofNat 5 f) with v := w }
  else if f = 32 then (nsRange 1 31).foldl (fun (c : Core) i => c.wrX (BitVec.ofNat 5 i) { c.rdX (BitVec.ofNat 5 i) with poison := v.testBit i }) c
  else if f = 33 then (nsRange 1 7).foldl (fun (c : Core) i => c.wrP (BitVec.ofNat 3 i) (v.testBit i)) c
  else if 34 ≤ f ∧ f ≤ 37 then c.wrLc (BitVec.ofNat 2 (f - 34)) (BitVec.ofNat 32 v)
  else if f = 38 then { c with fetch := { c.fetch with pc := w, buf := if w = c.fetch.pc then c.fetch.buf else [] } }
  else if f = 39 then { c with livebk := BitVec.ofNat 16 v }
  else if f = 40 then { c with livetl := w }
  else if 48 ≤ f ∧ f ≤ 63 then c.setBank (f - 48) { (c.bank (f - 48)) with fmt := fmtOf (bits v 0 4), act := BitVec.ofNat 2 (bits v 4 2), viol := v.testBit 7 }
  else if 64 ≤ f ∧ f ≤ 79 then c.setBank (f - 64) { (c.bank (f - 64)) with lo := BitVec.ofNat 32 v, hi := BitVec.ofNat 32 (v / 2 ^ 32) }
  else if 80 ≤ f ∧ f ≤ 143 then c.setTile (f - 80) { c.tile (f - 80) with full := v.testBit 0, tag := fmtOf (bits v 1 4) }
  else if 144 ≤ f ∧ f ≤ 151 then c.setTok (f - 144) (min 16 v)
  else c

/-! #### What the other regions hold (R171, R173, Table 5.12): places by the rules, contents by a layout that no rule gives (log 10) -/

/-- The numbers of an operand-log entry's command. -/
def Cmd.nums (m : Cmd) : List Nat :=
  [m.raw.toNat, m.idx, if m.spec = .none then 0 else if m.spec = .held then 2 else 1, m.started.toNat, m.pos] ++
    m.vals.flatMap (fun (v : Scalar) => [v.v.toNat, v.poison.toNat]) ++ m.iter.flatMap (fun (g : IterTag) => [g.ser, g.it, g.pass, g.tail.toNat])
/-- The numbers of a queue entry. -/
def QEntry.nums : QEntry → List Nat
  | .cmd m => 0 :: m.nums
  | .gate m => 1 :: m.nums
  | .mark id mask own spec => [2, id, mask.toNat, own.toNat, spec.toNat]
  | .pass ser j lc => [3, ser, j, lc.toNat]
  | .xfer id => [4, id]
/-- The 32 bytes of a queue entry. -/
def QEntry.image (e : QEntry) : List Byte := (List.range 32).map (Config.layout e.nums)
/-- A command as the 32 bytes of its entry give it: its word, index and captured scalars; a word that is no lane of its queue stays. -/
def Cmd.rebuild (m : Cmd) (k : Slot) (bs : List Byte) : Cmd :=
  let raw : Word := BitVec.ofNat 64 (Config.entryField bs 0)
  let i := (decodeTableWord 64 raw.toNat).getD m.instr
  let m := { m with
    idx := Config.entryField bs 1 % 2 ^ 48
    vals := m.vals.zipIdx.map (fun (p : Scalar × Nat) => ⟨BitVec.ofNat 64 (Config.entryField bs (2 + 2 * p.2)), (Config.entryField bs (3 + 2 * p.2)).testBit 0⟩) }
  if laneSlot (Cls.ofCode (opClass (opOf raw))) i = k then { m with raw := raw, instr := i } else m
/-- A queue entry as its 32 bytes give it. -/
def QEntry.rebuild (e : QEntry) (k : Slot) (bs : List Byte) : QEntry :=
  if bs = e.image then e
  else match e with
    | .cmd m => .cmd (m.rebuild k bs)
    | .gate m => .gate (m.rebuild 5 bs)
    | .mark id _ own spec => .mark id (BitVec.ofNat 14 (Config.entryField bs 0)) own spec
    | e => e
/-- Queue entries from `base` on: slot and place of each, of the queues named, oldest first. -/
def Core.entryList (c : Core) (ks : List Slot) : List (Slot × Nat × QEntry) :=
  ks.flatMap (fun k => ((c.queue k).zipIdx.filter (fun p => match p.1 with | .xfer _ => false | _ => true)).map (fun p => (k, p.2, p.1)))
/-- The entries of the queue region, and of the copy engine's command queue. -/
def Core.queueRegion (c : Core) : List (Slot × Nat × QEntry) := c.entryList (nsRange 1 5)
/-- See `Core.queueRegion`. -/
def Core.cpRegion (c : Core) : List (Slot × Nat × QEntry) := c.entryList (nsRange 6 8)
/-- A queue's entry rebuilt from 32 bytes. -/
def Core.setEntry (c : Core) (e : Slot × Nat × QEntry) (bs : List Byte) : Core :=
  c.setQueue e.1 ((c.queue e.1).set e.2.1 (e.2.2.rebuild e.1 bs))
/-- The doubleword at offset `o` of a list of entries. -/
def entryWord (es : List (Slot × Nat × QEntry)) (o : Nat) : Option Nat :=
  (es[o / 32]?).map (fun e => leNat ((e.2.2.image.drop (o % 32)).take 8))

/-- The numbers of an effect. -/
def Effect.nums : Effect → List Nat
  | .mem va pa bs pois pub nc => [0, va.toNat, pa, leNat bs, bs.length, pub.toNat, nc.toNat] ++ pois
  | .bank core off f els pois k0 acc => [1, core, off, f.code, k0, acc, els.length] ++ els ++ pois
  | .red core off op els k0 => [2, core, off, op.code, k0] ++ els.map BitVec.toNat
  | .signal key cnt => [3, key, cnt]
  | .copy ch w ccidx lane => [4, ch, w.toNat, ccidx, lane.toNat]
  | .amo va pa op sz64 xb cmp d pub nc => [5, va.toNat, pa, op.code, sz64.toNat, xb.toNat, cmp.toNat, d.toNat, pub.toNat, nc.toNat]
  | .publish win => [6, win]
/-- Bytes that a held write takes in the hold region: those of its entries (Table 5.12). -/
def Held.size (h : Held) : Nat :=
  if h.slot = 0 then 64 else if h.slot = 2 then 0x2200 else if h.slot = 4 then 0x4000 else 0x2000 * holdCost h
/-- The numbers of a held write. -/
def Held.nums (h : Held) : List Nat :=
  [h.ser, h.rel, h.slot, h.due.toNat] ++ h.joined ++ h.cmd.nums ++ h.effs.flatMap Effect.nums ++ h.cmd.srcs.flatMap (fun (t : Tile) => t.rows.flatMap (fun r => [r.1, r.2.toNat]))
/-- The held writes in the hold region: offset and entry, engine by engine, oldest first. -/
def Core.holdPlaces (c : Core) : List (Nat × Held) :=
  ((List.range 14).flatMap (fun k => c.holds.filter (fun h => h.slot == k))).foldl (fun (acc : List (Nat × Held)) h =>
    acc ++ [((acc.getLast?.map (fun e => e.1 + e.2.size)).getD 0x10000, h)]) []
/-- The index copies of started gathers, in the order of their start (R220): 64 indexes each. -/
def Core.gathers (c : Core) : List (List Byte) :=
  ((cmdsOf (c.queue 1)).filter (fun m => m.started && (match m.instr with | .ldG .. | .ldGs .. => true | _ => false))).map (fun m =>
    let t := m.srcs.headD Tile.empty
    (List.range 64).flatMap (fun i => leBytes 8 (BitVec.ofInt 64 (intVal t.tag (t.el t.tag i))).toNat))
/-- The parts of the hold region in use: offset and bytes. -/
def Core.holdRegion (c : Core) : List (Nat × List Byte) :=
  c.holdPlaces.map (fun e => (e.1, (List.range e.2.size).map (Config.layout e.2.nums))) ++ c.gathers.zipIdx.map (fun e => (0x7C000 + 0x200 * e.2, e.1))

/-- The numbers of the loop unit's state. -/
def Loop.nums (l : Loop) : List Nat :=
  [l.ser, l.lc.toNat, l.n, l.s, l.body.toNat, l.fin.toNat, l.pass, l.done.toNat, l.retired, l.from_.getD 0, l.turn.toNat, l.start] ++
    l.snaps.flatMap (fun (e : Nat × Snap) => e.1 :: (e.2.x.map (fun v => v.v.toNat) ++ e.2.p.map Bool.toNat ++ e.2.lc.map BitVec.toNat)) ++
    l.undo.flatMap (fun (u : Nat × Undo) => match u.2 with
      | .full t old => [u.1, 0, t, old.toNat]
      | .tokTaken f => [u.1, 1, f]
      | .tokSent f => [u.1, 2, f])
/-- The numbers of the matrix engine's state (R315). -/
def Mx.nums (m : Mx) : List Nat :=
  m.shadow.toList.map BitVec.toNat ++ m.active.toList.map BitVec.toNat ++ [m.stat.toNat, m.tv.toNat, m.treg.toNat, m.runs.toNat] ++
    (match m.nest with | some n => [n.cmd.idx, n.run, n.runs, n.drain.toNat] | none => [])
/-- The numbers of a cluster slot and of a semaphore. -/
def BarSlot.nums (b : BarSlot) : List Nat := [b.alloc.toNat, b.tag.toNat, b.init.toNat, b.expect, b.arrived, b.phase.toNat, b.tcomp.toNat]
/-- See `BarSlot.nums`. -/
def Sem.nums (m : Sem) : List Nat := [m.value.toNat, m.sat.toNat]
/-- The cluster objects that an area holds (R346): slots and semaphores by their numbers. -/
abbrev GangObjs := AMap BarSlot × AMap Sem

/-- CPINFO (Table 11.8). -/
def Core.cpinfo (c : Core) : Nat :=
  ((List.range 8).map (fun ch => (!(c.journal ch).isEmpty).toNat * 2 ^ (40 + ch))).sum + c.cp.tent.toNat * 2 ^ 26 + c.cp.tdw.toNat * 2 ^ 22 +
    c.cp.tv.toNat * 2 ^ 21 + c.cp.bflag.toNat * 2 ^ 7
/-- A doubleword of a journal entry (R339): the transfer's ID, its data word's lower half, PARAM, and the command index of its store (DEDUCED,
log 10: the rule names the four and their order, and gives no offsets). -/
def Xfer.jword (x : Xfer) (j : Nat) : Nat :=
  if j = 0 then x.id else if j = 1 then bits x.data.toNat 0 32 else if j = 2 then bits x.data.toNat 32 32 else x.ccidx
/-- A doubleword of the copy engine's region (R339), by its offset in the area: templates, journals, CHDONE, CHNEXT, CPINFO, the command queue. -/
def Core.copyWord (c : Core) (off : Nat) : Option Nat :=
  if off < 0x5000 then some ((c.template ((off - 0x4000) / 64)).getD ((off - 0x4000) / 8 % 8) 0)
  else if off < 0x7000 then ((c.journal ((off - 0x5000) / 0x400))[(off - 0x5000) % 0x400 / 32]?).map (fun (x : Xfer) => x.jword (off / 8 % 4))
  else if off < 0x7040 then some (c.cp.done.getD ((off - 0x7000) / 8) 0).toNat
  else if off < 0x7080 then some (c.cp.next.getD ((off - 0x7040) / 8) 0).toNat
  else if off < 0x7088 then some c.cpinfo
  else entryWord c.cpRegion (off - 0x7088)
/-- A doubleword of the wait-state registers at 0xF400 (R363). -/
def State.waitWord (s : State) (p : Nat) (c : Core) (i : Nat) : Nat :=
  let w := amGet ⟨0, 0, 0, 0, 0⟩ c.waits (i / 3)
  if i % 3 = 0 then wsk w else if i % 3 = 1 then w.wsa.toNat else s.wsc p w
/-- The doubleword of the control area at an offset 0x100-0xFFFF: registers, queues (R171), the copy engine (R339), loop unit and engine state, cluster
objects (R346), waits (R363) and the member flag (R464) where a rule gives their place; else free, of image `n`. -/
def State.ctlWord (s : State) (p : Nat) (c : Core) (objs : GangObjs) (n off : Nat) : Nat :=
  let lay (ns : List Nat) (o : Nat) : Nat := leNat ((List.range 8).map (fun i => Config.layout ns (o + i)))
  let found : Option Nat :=
    if off < 0x1000 then c.ctlGet (Config.ctlField off)
    else if off < 0x4000 then entryWord c.queueRegion (off - 0x1000)
    else if off < 0x8000 then c.copyWord off
    else if off < 0xC000 then some (lay (c.loops.flatMap Loop.nums) (off - 0x8000))
    else if off < 0xF000 then some (lay c.mx.nums (off - 0xC000))
    else if off < 0xF200 then (amFind ((off - 0xF000) / 16) objs.1).map (fun (b : BarSlot) => lay b.nums (off % 16))
    else if off < 0xF400 then (if objs.1 = [] then none else some (lay (amGet ⟨0, false, []⟩ objs.2 ((off - 0xF200) / 8)).nums 0))
    else if off < 0xF400 + 336 then some (s.waitWord p c ((off - 0xF400) / 8))
    else if off = 0xFC00 then some c.member.toNat
    else none
  found.getD (leNat ((List.range 8).map (fun i => Config.image n (off + i))))
/-- The header, with CHECK zero (Table 5.16). -/
def Core.header (c : Core) (p : Nat) (trapped : Bool) : List Byte :=
  let t := c.task.getD ⟨0, 0, 0, 0, [], none, 0, 0, false, 0, 0, 0, 0, 0⟩
  leBytes 4 1 ++ leBytes 4 (t.gang.toNat + trapped.toNat * 2 + (!c.loops.isEmpty).toNat * 8 + t.gpos * 16) ++ leBytes 8 t.id ++
    leBytes 8 (t.lin + t.recIdx * 2 ^ 48) ++ leBytes 8 t.handle.toNat ++ leBytes 8 c.livebk.toNat ++ leBytes 8 c.livetl.toNat ++
    ([c.trap.cls, c.trap.eng, c.trap.cmdidx, c.trap.stat, c.trap.va, c.trap.lane, c.trap.pend].flatMap (fun w => leBytes 8 w.toNat)) ++
    leBytes 8 p ++ ((List.range 6).flatMap (fun i => leBytes 8 (c.cidx.getD i 0))) ++ leBytes 96 0
/-- The control area, 64 KiB, with its CHECK. -/
def State.control (s : State) (p : Nat) (c : Core) (trapped : Bool) (objs : GangObjs) (n : Nat) : List Byte :=
  let b := c.header p trapped ++ (List.range 8160).flatMap (fun i => leBytes 8 (s.ctlWord p c objs n (0x100 + 8 * i)))
  b.take 0xF8 ++ leBytes 8 (crc32c b) ++ b.drop 0x100
/-- The bytes of a tile. -/
def Tile.bytes (t : Tile) : List Byte := (List.range 64).flatMap (fun i => leBytes 128 (t.row i).toNat)
/-- Rows from the bytes of a tile. -/
def rowsOf (bs : List Byte) : AMap Row := (List.range 64).filterMap (fun i =>
  let r : Row := BitVec.ofNat 1024 (fldAt bs (128 * i) 128)
  if r = 0 then none else some (i, r))
/-- The bytes of an accumulator. -/
def Acc.bytes (a : Acc) : List Byte := (List.range 4096).flatMap (fun i => leBytes 4 (amGet 0 a.el i).toNat)
/-- Elements from the bytes of an accumulator. -/
def elsOf (bs : List Byte) : AMap (BitVec 32) := (List.range 4096).filterMap (fun i =>
  let v : BitVec 32 := BitVec.ofNat 32 (fldAt bs (4 * i) 4)
  if v = 0 then none else some (i, v))

/-- A context written to its area (R173, R175), with the cluster objects of a gang's first member (R346). -/
def State.writeArea (s : State) (p a : Nat) (c : Core) (trapped : Bool) (objs : GangObjs) (n : Nat) : Except FaultClass State := do
  let s ← s.partWrite p a (s.control p c trapped objs n)
  let s ← c.holdRegion.foldlM (fun (s : State) e => s.partWrite p (a + e.1) e.2) s
  let s ← (List.range 64).foldlM (fun (s : State) i =>
    if c.livetl.getLsbD i then s.partWrite p (a + 0x80000 + 0x2000 * i) (c.tile i).bytes else pure s) s
  let s ← (List.range 8).foldlM (fun (s : State) i => s.partWrite p (a + 0x100000 + 0x4000 * i) (c.accs.getD i Acc.zero).bytes) s
  (List.range 16).foldlM (fun (s : State) b =>
    if c.livebk.getLsbD b then s.partWrite p (a + 0x200000 + 0x40000 * b) (peekBytes c.sp (0x40000 * b) 0x40000) else pure s) s

/-! ### Restore (R177-R179) -/

/-- The trap record of a header (Table 5.16). -/
def TrapRec.ofHeader (b : List Byte) : TrapRec :=
  let w (i : Nat) : Word := BitVec.ofNat 64 (fldAt b (0x30 + 8 * i) 8)
  ⟨w 0, w 1, w 2, w 3, w 4, w 5, w 6⟩
/-- A core's copy engine as the control area `b` gives it (R339). -/
def Core.loadCopies (c : Core) (b : List Byte) : Core :=
  let c := c.cpRegion.zipIdx.foldl (fun (c : Core) e => c.setEntry e.1 ((b.drop (0x7088 + 32 * e.2)).take 32)) c
  let c := (List.range 8).foldl (fun (c : Core) ch =>
    let ids := (c.journal ch).map (fun (x : Xfer) => x.id)
    let js := (c.journal ch).zipIdx.map (fun (e : Xfer × Nat) =>
      let w (j : Nat) : Nat := fldAt b (0x5000 + 0x400 * ch + 32 * e.2 + 8 * j) 8
      { e.1 with id := w 0, tn := bits (w 1) 0 6, data := BitVec.ofNat 64 (w 1 % 2 ^ 32 + w 2 % 2 ^ 32 * 2 ^ 32), ccidx := w 3 })
    let fix (e : QEntry) : QEntry := match e with
      | .xfer id => .xfer ((js.getD (ids.idxOf id) ⟨id, 0, 0, 0, 0, .waiting, [], none, 0, 0, 0, .raw, .raw, [], false⟩).id)
      | e => e
    (c.setJournal ch js).setQueue (6 + ch) ((c.queue (6 + ch)).map fix)) c
  let info := fldAt b 0x7080 8
  { c with cp := { c.cp with
    tmpl := (List.range 64).foldl (fun (m : AMap (List Word)) e =>
      amPut (List.replicate 8 0) m e ((List.range 8).map (fun j => BitVec.ofNat 64 (fldAt b (0x4000 + 64 * e + 8 * j) 8)))) []
    done := Vector.ofFn (fun (i : Fin 8) => BitVec.ofNat 32 (fldAt b (0x7000 + 8 * i.val) 8))
    next := Vector.ofFn (fun (i : Fin 8) => BitVec.ofNat 32 (fldAt b (0x7040 + 8 * i.val) 8))
    tent := BitVec.ofNat 6 (bits info 26 6)
    tdw := BitVec.ofNat 4 (bits info 22 4)
    tv := info.testBit 21
    bflag := info.testBit 7 } }
/-- A core's control area loaded (R179 steps 1 to 3): registers, queues, the copy engine, the header's words; the trap record of a context that
no fault stopped is clear (R140). -/
def Core.loadControl (c : Core) (b : List Byte) : Core :=
  let c := (List.range 480).foldl (fun (c : Core) i =>
    let off := 0x100 + 8 * i
    if (c.ctlGet (Config.ctlField off)).isSome then c.ctlSet (Config.ctlField off) (fldAt b off 8) else c) c
  let c := c.queueRegion.zipIdx.foldl (fun (c : Core) e => c.setEntry e.1 ((b.drop (0x1000 + 32 * e.2)).take 32)) c
  let c := c.loadCopies b
  { c with
    member := (b.getD 0xFC00 0).getLsbD 0
    livebk := BitVec.ofNat 16 (fldAt b 0x20 8)
    livetl := BitVec.ofNat 64 (fldAt b 0x28 8)
    cidx := Vector.ofFn (fun (i : Fin 7) => if i.val < 6 then fldAt b (0x70 + 8 * i.val) 8 else c.cidx[i])
    trap := if (b.getD 4 0).getLsbD 1 then TrapRec.ofHeader b else TrapRec.zero }

/-- A context read back onto a core: Table 5.18's status, or the state and whether SKIPF is set. A bank whose LIVEBK bit is 0 has no value that the
spec gives after a restore: its bytes are free (log 54). -/
def State.readArea (s : State) (p k : Nat) (x : Ctx) : Except Nat (State × Bool) := do
  let mem {α : Type} (r : Except FaultClass α) : Except Nat α := r.mapError (fun _ => 6)
  let (s, b) ← mem (s.partRead p x.area 0x10000)
  if fldAt b 0 4 ≠ 1 ∨ fldAt b 4 4 / 64 ≠ 0 ∨ fldAt b 0xA0 88 ≠ 0 ∨ fldAt b 0xFC 4 ≠ 0 then throw 1
  if crc32c (b.take 0xF8 ++ leBytes 8 0 ++ b.drop 0x100) ≠ fldAt b 0xF8 4 then throw 2
  if fldAt b 0x68 8 ≠ p then throw 3
  let c := x.core.loadControl b
  let (s, tiles) ← (List.range 64).foldlM (fun (acc : State × List Tile) i =>
    if c.livetl.getLsbD i then do
      let (s, t) ← mem (acc.1.partRead p (x.area + 0x80000 + 0x2000 * i) 0x2000)
      return (s, acc.2 ++ [{ c.tile i with rows := rowsOf t }])
    else return (acc.1, acc.2 ++ [{ c.tile i with rows := [], pois := [] }])) (s, [])
  let (s, accs) ← (List.range 8).foldlM (fun (acc : State × List Acc) i => do
    let (s, t) ← mem (acc.1.partRead p (x.area + 0x100000 + 0x4000 * i) 0x4000)
    return (s, acc.2 ++ [{ (c.accs.getD i Acc.zero) with el := elsOf t }])) (s, [])
  let here := s.core k
  let (s, sp) ← (List.range 16).foldlM (fun (acc : State × Bytes) i => do
    let (s, t) ← if c.livebk.getLsbD i then mem (acc.1.partRead p (x.area + 0x200000 + 0x40000 * i) 0x40000)
      else pure (acc.1, (List.range 0x40000).map (fun o => Config.image acc.1.picks (0x200000 + 0x40000 * i + o)))
    return (s, pokeBytes acc.2 (0x40000 * i) t)) (s, here.sp)
  let c : Core := { c with
    mode := .running
    tiles := Vector.ofFn (fun (i : Fin 64) => tiles.getD i.val Tile.empty)
    accs := Vector.ofFn (fun (i : Fin 8) => accs.getD i.val Acc.zero)
    sp := sp
    spPois := c.spPois.filter (fun g => c.livebk.getLsbD (g / 0x2000))
    tlb := here.tlb
    wbuf := here.wbuf
    dbg := here.dbg
    waits := [] }
  return ({ (s.setCore k c) with picks := s.picks + 1 }, (b.getD 4 0).getLsbD 2)

/-- The slot of a TRAPENG code. -/
def engSlot (eng chan : Nat) : Slot := if eng ≤ 5 then eng - 1 else if eng = 6 then 6 + chan else 5
/-- The failing command treated as suppressed (R168, R340): a transfer as complete; a control-core lane is passed by fetch; a fault of
fetch, at which no command stands, is raised again (log 22). -/
def Core.skip (c : Core) : Core :=
  let eng := c.trap.eng.toNat % 16
  let k := engSlot eng (c.trap.eng.toNat / 16)
  let idx := c.trap.cmdidx.toNat
  let xfer := if 6 ≤ k then (c.journal (k - 6)).find? (fun (x : Xfer) => x.place == XferPlace.faulted && x.id == idx) else none
  match xfer with
  | some x => c.dropXfer (k - 6) x.id
  | none =>
    let here (m : Cmd) : Bool := m.idx == idx
    let stalled := c.fetch.stall == some idx && k == 0
    let long := ((cmdsOf (c.queue 0)).find? here).elim false (fun m => isLong m.raw)
    let gone (q : Slot) (m : Cmd) : Bool := here m && (q == k || (k == 5 && decide (q < 5)))
    let c := c.mapQueues (fun q es => es.filter (fun e => match e with
      | .cmd m => !(q == k && here m)
      | .gate m => !gone q m
      | .mark id _ own _ => !(own && k == 0 && id == idx)
      | _ => true))
    let c := { c with
      holds := c.holds.filter (fun h => !(h.slot == k && h.cmd.idx == idx))
      mx := { c.mx with nest := if k = 4 ∧ c.mx.nest.any (fun (n : Nest) => n.cmd.idx == idx) then none else c.mx.nest } }
    let c := if k = 0 then c.resolve idx else c
    if stalled then ({ c with fetch := { c.fetch with stall := none } }).pathAfter c.trap.lane long else c
/-- A context's transfers are to be made again in ID order (R179, R339). -/
def Core.replayCopies (c : Core) : Core :=
  (List.range 8).foldl (fun (c : Core) ch => c.setJournal ch ((c.journal ch).map (fun (x : Xfer) => { x with place := .waiting, todo := false, ix := [] }))) c
/-- The transfers that a restore replays before any engine starts (R179): those at the front of their channels' orders, which had begun; one that
a lane of its channel still holds back starts after that lane. -/
def Core.toReplay (c : Core) : List (Nat × Nat) :=
  (List.range 8).flatMap (fun ch => ((c.queue (6 + ch)).takeWhile (fun e => match e with | .xfer _ => true | _ => false)).filterMap (fun e => match e with
    | .xfer id => some (ch, id)
    | _ => none))
/-- Whether a replay that a restore has begun goes on. -/
def Core.replaying (c : Core) : Bool :=
  c.replays.any (fun r => (c.journal r.1).any (fun (x : Xfer) => x.id == r.2 && (x.place == XferPlace.waiting || x.todo)))
/-- A context restored onto a core: the failing command of a trapped one is re-issued or skipped. -/
def State.restoreOne (s : State) (p k : Nat) (x : Ctx) (trapped : Bool) : Except Nat State := do
  let (s, skipf) ← s.readArea p k x
  let s := s.updCore k (fun c =>
    let c := (if trapped && skipf then c.skip else c).replayCopies
    { c with replays := c.toReplay })
  let s := s.updSched p (fun d => { d with ctxs := d.ctxs.filter (fun y => y.area != x.area), poolBusy := nsDel x.area d.poolBusy })
  let s := { s with sync := { s.sync with words := s.sync.words.filter (fun e => !(decide (2 ^ 61 ≤ e.1) && (e.1 - 2 ^ 61) / 2 ^ 22 == k)) } }
  return (s.markHot k).wake k
/-- A context that cannot be restored: reported as lost, held until its task is aborted (R198). -/
def State.loseCtx (s : State) (p : Nat) (x : Ctx) (code : Nat) : State :=
  let s := s.updSched p (fun d => { d with ctxs := d.ctxs.map (fun (y : Ctx) => if y.area = x.area then { y with place := .lost } else y) })
  s.post p 4 p (BitVec.ofNat 64 ((x.core.task.map (·.id)).getD 0)) (BitVec.ofNat 64 (x.area + code))
/-- Whether a context was trapped when it was saved: its trap record says so. -/
def Ctx.trapped (x : Ctx) : Bool := x.core.trap.cls != 0

/-- The cluster objects of a gang loaded into a cluster that runs none of its members, from the context that holds them (R346, log 27). -/
def State.loadObjects (s : State) (p g : Nat) (t : Task) : State :=
  if (nsRange (4 * g) 4).any (fun k => (s.core k).task.any t.mate) then s
  else match (s.sched p).ctxs.find? (fun x => x.core.task.any t.mate && x.bars != []) with
    | none => s
    | some x =>
      let s := { s with sync := { s.sync with
        bars := x.bars.foldl (fun (m : AMap BarSlot) (e : Nat × BarSlot) => amSet m (0x10000 + g * 32 + e.1) e.2) s.sync.bars
        sems := x.sems.foldl (fun (m : AMap Sem) (e : Nat × Sem) => amSet m (0x10000 + g * 64 + e.1) e.2) s.sync.sems } }
      s.updSched p (fun d => { d with ctxs := d.ctxs.map (fun (y : Ctx) => if y.area = x.area then { y with bars := [], sems := [] } else y) })
/-- Why a restore onto some cores is refused before anything is read (Table 5.18): BUSY, a core runs or has staged a task; NOGANG, a gang without
four enabled, free cores. -/
def State.restoreRefused (s : State) (ks : List Nat) (gang : Bool) : Option Nat :=
  if ks.any (fun k => (s.core k).mode != CoreMode.idle || (s.core k).staged.isSome) then some 5
  else if gang && (ks.length != 4 || ks.any (fun k => s.disabled.contains k || !s.coreFree k)) then some 4
  else none

/-- CONTEXT_RESTORE (R177-R179, R195, R198): the scheduler's choice is the context of this area, or its gang. Refused with NOGANG or BUSY it stays
on the resume list. Where one member of a gang is refused with another code, those restored before it run, and those after it stay on the resume list: the
spec does not say what becomes of them (the model's choice, log 27). -/
def execContextRestore (area : Word) (s : State) : Host.Outcome State Fault Refusal :=
  let p := s.part
  match s.selection p with
  | some (⟨none, areas, _, _, _, _⟩, ks) =>
    if areas.contains area.toNat then
      let xs := areas.filterMap (fun a => (s.sched p).ctxs.find? (fun x => x.area == a))
      let xs := (List.range 4).flatMap (fun g => xs.filter (fun x => (x.core.task.map (·.gpos)).getD 0 == g))
      let t := xs.head?.bind (fun x => x.core.task)
      let gang := t.any (fun (t : Task) => t.gang)
      if (s.restoreRefused ks gang).isSome then .next (s.dropStale p) else
      let s := match t with | some t => if gang then s.loadObjects p (ks.headD 0 / 4) t else s | none => s
      let r := (xs.map (fun (x : Ctx) => (x, if ks.length = 4 then ks.getD ((x.core.task.map (·.gpos)).getD 0) 0 else ks.headD 0))).foldl (fun (acc : State × Option (Ctx × Nat)) q => match acc.2 with
        | some _ => acc
        | none => match acc.1.restoreOne p q.2 q.1 q.1.trapped with
          | .ok s' => (s', none)
          | .error c => (acc.1, some (q.1, c))) (s, none)
      match r.2 with
      | none => .next (r.1.dropStale p)
      | some (x, code) => .next ((s.loseCtx p x code).dropStale p)
    else .fault .notEnabled
  | _ => .fault .notEnabled

/-! ### Saving (R172 step 5, R175, R176, R198) -/

/-- Whether an engine of a core that comes to rest has finished the command it had started, or cannot now: it waits, or a fault has stopped it (R172). -/
def Core.rests (c : Core) (k : Slot) : Bool :=
  match c.headEntry k with
  | some (.cmd m) => !m.sealing && (!m.started || (k == 4 && c.mx.nest.isSome) || c.stoppedAt k || (amFind k c.waits).isSome)
  | _ => true
/-- Whether nothing that a save awaits is left (R134, R172): results of accepted XQ commands, seals of releases, the matrix engine's next
retirement, commands begun, writes of retired iterations. -/
def Core.canSave (c : Core) : Bool :=
  c.xq.isEmpty && c.atq.isEmpty && c.fxq.isEmpty && (nsRange 0 6).all c.rests && c.mx.nest.all (fun (n : Nest) => n.rested) &&
    c.holds.all (fun h => match h.need with | .asked _ => false | _ => true) &&
    (match c.dueHolds with | h :: _ => c.stoppedAt h.slot || h.effs.any (journalFull c) | [] => true)
/-- The core state that a context keeps beside its area: no scale cache (R315), no record of a fault that did not stop it (R140). -/
def Core.kept (c : Core) (trapped : Bool) (hot : Nat) : Core :=
  { c with
    mode := .idle
    trap := if trapped then c.trap else TrapRec.zero
    waits := []
    sp := []
    tlb := []
    wbuf := []
    staged := none
    mx := { c.mx with cache := [], nest := c.mx.nest.map (fun (n : Nest) => { n with rested := true }) }
    regs := { c.regs with hot := hot } }
/-- The objects of a cluster, by their numbers. -/
def State.clusterObjects (s : State) (g : Nat) : GangObjs :=
  ((s.sync.bars.filter (fun e => decide (0x10000 + g * 32 ≤ e.1) && decide (e.1 < 0x10000 + (g + 1) * 32))).map (fun e => (e.1 - (0x10000 + g * 32), e.2)),
   (s.sync.sems.filter (fun e => decide (0x10000 + g * 64 ≤ e.1) && decide (e.1 < 0x10000 + (g + 1) * 64))).map (fun e => (e.1 - (0x10000 + g * 64), { e.2 with waits := [] })))
/-- The cluster objects that a core's save takes with it (R346): those of the member with GANGPOS 0, once every member on the cluster is at rest. -/
def State.gangSaved (s : State) (k : Nat) : GangObjs :=
  if (s.core k).task.any (fun t => t.gang && t.gpos == 0) && (s.gangOf k).all (fun j => (s.core j).resting) then s.clusterObjects (k / 4) else ([], [])
/-- The objects of a cluster that its last member leaves put into the context of its gang's first saved member, where none holds them: members that
were saved apart, by faults, leave them (log 27). -/
def State.stowObjects (s : State) (p g : Nat) (t : Task) : State :=
  let mine := (s.sched p).ctxs.filter (fun x => x.core.task.any t.mate)
  if (nsRange (4 * g) 4).any (fun k => (s.core k).task.any t.mate) || mine.any (fun x => x.bars != []) then s
  else
    let o := s.clusterObjects g
    match (List.range 4).findSome? (fun i => mine.find? (fun x => x.core.task.any (fun u => u.gpos == i))) with
    | none => s
    | some x => s.updSched p (fun d => { d with ctxs := d.ctxs.map (fun (y : Ctx) => if y.area = x.area then { y with bars := o.1, sems := o.2 } else y) })

/-- An unsaved context (R172, R176, R198): the area leaves the pool and is reported; the task runs on, or, stopped by a fault, waits for
another area; saved members of its gang are restored in place, members at rest run on. -/
def State.unsaved (s : State) (k a : Nat) (trapped asked : Bool) : State :=
  let p := s.corePart k
  let t := (s.core k).task
  let id := (t.map (·.id)).getD 0
  let s := s.updSched p (fun d => { d with pool := nsDel a d.pool, poolBusy := nsDel a d.poolBusy })
  let s := s.updCore k (fun c => { (c.replayCopies) with mode := if trapped then .resting true none else .running })
  let s := s.post p 5 p (BitVec.ofNat 64 id) (BitVec.ofNat 64 a)
  match t with
  | some t =>
    if t.gang ∧ asked then
      let s := (nsRange (k / 4 * 4) 4).foldl (fun (s : State) j =>
        if j = k then s
        else match (s.core j).mode with
          | .resting false b =>
            let s := s.updCore j (fun c => { (c.replayCopies) with mode := .running })
            (match b with | some b => s.updSched p (fun d => { d with poolBusy := nsDel b d.poolBusy }) | none => s)
          | _ => s) s
      let s := (s.gangOf k).foldl (fun (s : State) j => s.dropRequest j) s
      let mine := (s.sched p).ctxs.filter (fun x => x.place == CtxPlace.resume && x.core.task.any t.mate)
      mine.foldl (fun (s : State) x => match s.restoreOne p x.home x x.trapped with
        | .ok s => s
        | .error c => s.loseCtx p x c) s
    else s
  | none => s

/-- SAVE_SEQUENCE (R172 step 5, R175): the context of a core at rest is written and reported, and the core is free; of a gang, the first
member saves once the others are at rest. -/
def execSaveSequence (s : State) : Host.Outcome State Fault Refusal :=
  let k := s.cur
  let p := s.corePart k
  let c := s.core k
  match c.mode, c.task with
  | .resting trapped area, some t =>
    let d := s.sched p
    match (match area with | some a => some a | none => d.freeAreas.head?) with
    | none => .fault .notEnabled
    | some a =>
      let others := (nsRange (k / 4 * 4) 4).filter (fun j => j != k)
      if !c.canSave ∨ (t.gang ∧ t.gpos = 0 ∧ c.yielding ∧ others.any (fun j => (s.core j).inGang && !(s.core j).resting) = true) then .fault .notEnabled
      else
        let objs := s.gangSaved k
        match s.writeArea p a c trapped objs s.picks with
        | .error _ => .next (s.unsaved k a trapped c.yielding)
        | .ok s1 =>
          let x : Ctx := ⟨a, c.kept trapped (s1.coreHot k), if trapped then .trapped else .resume, s.now, k, objs.1, objs.2⟩
          let s1 := { s1 with picks := s1.picks + 1 }
          let s1 := (s1.forgetWaits k).setCore k { c.fresh with staged := c.staged }
          let s1 := s1.updSched p (fun d => { d with ctxs := d.ctxs ++ [x], poolBusy := nsAdd a d.poolBusy })
          let s1 := if trapped then s1.post p 3 p (BitVec.ofNat 64 t.id) (BitVec.ofNat 64 a) else s1
          let s1 := if t.gang then (s1.stowObjects p (k / 4) t).releaseGang (k / 4) else s1
          .next (s1.dropStale p)
  | _, _ => .fault .notEnabled

/-! ### The debugger (R180-R182) -/

/-- DBGCTL (Table 5.7). -/
def Dbg.ctl (g : Dbg) : Word :=
  BitVec.ofNat 64 (g.halted.toNat + g.brken.toNat * 2 + g.lbrken.toNat * 2 ^ 2 + g.cmpen.toNat * 2 ^ 3 + g.stepeng.toNat * 2 ^ 6 + g.why.toNat * 2 ^ 10 +
    g.bcode.toNat * 2 ^ 12)
/-- DBGCMP (Table 5.8). -/
def Dbg.cmp (g : Dbg) : Word := BitVec.ofNat 64 (g.cmpIdx.toNat + g.cmpEng.toNat * 2 ^ 48)
/-- A core halted (R180); a debugger's halt triggers a snapshot (R512). -/
def State.halt (s : State) (k : Nat) (why : Nat) : State :=
  let s := (s.updCore k (fun c => { c with dbg := { c.dbg with halted := true, stepping := false, why := BitVec.ofNat 2 why, haltAt := some s.now } })).wake k
  s.trigger (s.corePart k) (coreDie k)

/-- DEBUGGER_HALT_REQUEST (R180). -/
def execDebuggerHaltRequest (s : State) : Host.Outcome State Fault Refusal :=
  let c := s.core s.cur
  if s.rows.debugen ∧ c.mode = .running ∧ ¬ c.dbg.halted then .next (s.halt s.cur 0) else .fault .notEnabled

/-- Whether the command at the head of a slot is the one that DBGCMP names, not yet started (R180). -/
def Core.matches (c : Core) (k : Slot) : Bool :=
  c.mode == CoreMode.running && !c.dbg.halted && c.dbg.cmpen && !c.dbg.cmpDone && slotEng k == c.dbg.cmpEng.toNat &&
    (match c.headEntry k with | some (.cmd m) => m.idx == c.dbg.cmpIdx.toNat && !m.started | _ => false)
/-- DBGCMP_MATCH (R180). -/
def execDbgcmpMatch (s : State) : Host.Outcome State Fault Refusal :=
  if (List.range 14).any (s.core s.cur).matches then .next (s.halt s.cur 2) else .fault .notEnabled

/-- A doubleword of a list of queue entries written: the entry is what its 32 bytes then give. -/
def Core.setEntryWord (c : Core) (es : List (Slot × Nat × QEntry)) (o : Nat) (v : Word) : Core :=
  match es[o / 32]? with
  | some e => c.setEntry e (e.2.2.image.take (o % 32) ++ leBytes 8 v.toNat ++ e.2.2.image.drop (o % 32 + 8))
  | none => c
/-- A write through the window, as it takes effect at resume (R181): tiles, accumulators, banks, templates, queue entries and the control area's
registers. -/
def Core.dbgApply (c : Core) (off : Nat) (v : Word) : Core :=
  if off < 0x1000 then c.ctlSet (Config.ctlField off) v.toNat
  else if off < 0x4000 then c.setEntryWord c.queueRegion (off - 0x1000) v
  else if 0x7088 ≤ off ∧ off < 0x8000 then c.setEntryWord c.cpRegion (off - 0x7088) v
  else if 0x4000 ≤ off ∧ off < 0x5000 then
    let e := (off - 0x4000) / 64
    let old := amGet (List.replicate 8 (0 : Word)) c.cp.tmpl e
    { c with cp := { c.cp with tmpl := amPut (List.replicate 8 0) c.cp.tmpl e (old.set ((off - 0x4000) / 8 % 8) v) } }
  else if 0x80000 ≤ off ∧ off < 0x100000 then
    let n := (off - 0x80000) / 0x2000
    let i := (off - 0x80000) % 0x2000 / 128
    c.setTile n ((c.tile n).setRow i (setBits ((c.tile n).row i) (off % 128 / 8 * 64) 64 v.toNat))
  else if 0x100000 ≤ off ∧ off < 0x120000 then
    let n := (off - 0x100000) / 0x4000
    let e := (off - 0x100000) % 0x4000 / 8 * 2
    if h : n < 8 then
      let a := c.accs[n]
      { c with accs := c.accs.set n { a with el := amPut 0 (amPut 0 a.el e (v.setWidth 32)) (e + 1) (BitVec.ofNat 32 (v.toNat / 2 ^ 32)) } h }
    else c
  else if 0x200000 ≤ off ∧ off < 0x600000 then { c with sp := pokeBytes c.sp ((off - 0x200000) / 8 * 8) (leBytes 8 v.toNat) }
  else c
/-- The resume of a halted core (R182): window writes take effect, and the halt counts towards no timeout (R364). -/
def State.resume (s : State) (k : Nat) : State :=
  s.updCore k (fun c =>
    let c := c.dbg.writes.foldl (fun (c : Core) w => c.dbgApply w.1 w.2) c
    let g := c.dbg
    let paused := c.waits.map (fun e =>
      let old := amGet (0, 0) g.paused e.1
      (e.1, (e.2.wsc.toNat, s.now - g.haltAt.getD s.now + (if old.1 = e.2.wsc.toNat then old.2 else 0))))
    { c with dbg := { g with halted := false, haltAt := none, writes := [], paused := paused, stepping := false, passed := g.passed || g.why == 3, cmpDone := g.cmpDone || g.why == 2 } })

/-- GO written (R182): a halted core resumes; one whose stepped command still waits leaves its step and runs on. -/
def State.go (s : State) (k : Nat) : State :=
  if (s.core k).dbg.halted then s.resume k else s.updCore k (fun c => { c with dbg := { c.dbg with stepping := false } })
/-- DEBUG_GO (R182). -/
def execDebugGo (s : State) : Host.Outcome State Fault Refusal :=
  let g := (s.core s.cur).dbg
  if g.halted ∨ g.stepping then .next (s.go s.cur) else .fault .notEnabled
/-- A step of an engine begun (R182). -/
def State.stepOne (s : State) (k : Nat) (eng : BitVec 4) : State :=
  (s.resume k).updCore k (fun c => { c with dbg := { c.dbg with stepping := true, stepeng := eng } })
/-- DEBUG_STEP (R182). -/
def execDebugStep (eng : BitVec 4) (s : State) : Host.Outcome State Fault Refusal :=
  if (s.core s.cur).dbg.halted ∧ eng ≠ 0 ∧ eng.toNat ≤ 7 then .next (s.stepOne s.cur eng) else .fault .notEnabled

/-- A doubleword of a halted core's layout (R181). -/
def State.dbgRead (s : State) (k off : Nat) : Word :=
  let c := s.core k
  let p := s.corePart k
  let stopped := c.mode != CoreMode.running
  BitVec.ofNat 64 (
    if off < 0x100 then fldAt (s.control p c stopped (s.clusterObjects (k / 4)) s.picks) off 8
    else if off < 0x10000 then s.ctlWord p c (if (s.core k).task.any (fun t => t.gang && t.gpos == 0) then s.clusterObjects (k / 4) else ([], [])) s.picks off
    else if off < 0x80000 then
      match c.holdRegion.find? (fun e => decide (e.1 ≤ off) && decide (off < e.1 + e.2.length)) with
      | some e => fldAt e.2 (off - e.1) 8
      | none => leNat ((List.range 8).map (fun i => Config.image s.picks (off + i)))
    else if 0x80000 ≤ off ∧ off < 0x100000 then fldAt (c.tile ((off - 0x80000) / 0x2000)).bytes ((off - 0x80000) % 0x2000) 8
    else if 0x100000 ≤ off ∧ off < 0x120000 then fldAt (c.accs.getD ((off - 0x100000) / 0x4000) Acc.zero).bytes ((off - 0x100000) % 0x4000) 8
    else if 0x140000 ≤ off ∧ off < 0x160000 then fldAt (amGet Acc.zero c.sh.accs ((off - 0x140000) / 0x4000)).bytes ((off - 0x140000) % 0x4000) 8
    else if 0x160000 ≤ off ∧ off < 0x1E0000 then fldAt (amGet Tile.empty c.sh.tiles ((off - 0x160000) / 0x2000)).bytes ((off - 0x160000) % 0x2000) 8
    else if 0x200000 ≤ off ∧ off < 0x600000 then leNat (peekBytes c.sp (off - 0x200000) 8)
    else leNat ((List.range 8).map (fun i => Config.image s.picks (off + i))))

/-- DEBUG_WINDOW_ACCESS (R181, R514): eight bytes at an offset of the window; what a read returns is what the host has seen. -/
def execDebugWindowAccess (write : Bool) (off : BitVec 24) (v : Word) (s : State) : Host.Outcome State Fault Refusal :=
  let o := off.toNat / 8 * 8
  let ones := { s with seen := List.replicate 8 255 }
  if s.phase = 0 then .fault .notEnabled
  else match (s.getPart s.part).dbgsel with
  | none => .next (if write then s else ones)
  | some k =>
    let s := s.wake k
    let c := s.core k
    let saw (x : Word) : State := { s with seen := leBytes 8 x.toNat, picks := s.picks + 1 }
    if o = 0x7F0000 then
      if write then
        let n := v.toNat
        let s := s.updCore k (fun c => { c with dbg := { c.dbg with
          brken := n.testBit 1, lbrken := n.testBit 2, cmpen := n.testBit 3, stepeng := BitVec.ofNat 4 (bits n 6 4) } })
        .next (if n.testBit 4 then s.go k
          else if c.dbg.halted ∧ n.testBit 5 then s.stepOne k (BitVec.ofNat 4 (bits n 6 4)) else s)
      else .next (saw c.dbg.ctl)
    else if ¬ c.dbg.halted then .next (if write then s else { ones with gated := s.gated })
    else if o = 0x7F0008 then
      if write then
        .next (s.updCore k (fun c => { c with dbg := { c.dbg with cmpEng := BitVec.ofNat 4 (bits v.toNat 48 4), cmpIdx := v.setWidth 48, cmpDone := false } }))
      else .next (saw c.dbg.cmp)
    else if write then .next (s.updCore k (fun c => { c with dbg := { c.dbg with writes := c.dbg.writes ++ [(o, v)] } }))
    else .next (saw (s.dbgRead k o))

/-! ### Wait timeouts (R364) -/

/-- A fault of an engine that the command at a queue's head does not give its cause for: a timeout, or parity of the entry; `xqc` gives
the cause of each unit at the XQ port. -/
def headTrap (k : Slot) (m : Cmd) (cause : Nat) (xqc : Nat → Nat) (arg : Nat) : FaultClass → Word → Trap :=
  if k = 0 then fun cls va => ccTrap m cls va
  else if k = 1 then ldTrap m cause 0
  else if k = 2 then stTrap m cause 0
  else if k = 3 then vxTrap m cause 0
  else if k = 4 then mxTrap m cause 0 0 0
  else if k = 5 then
    let u := cmdEng 5 m
    if u = 9 then syTrap m (xqc 9) arg
    else fun cls va => ⟨cls, u, 0, BitVec.ofNat 64 (xqc u + opOf m.raw * 2 ^ 16), va, none, none⟩
  else fun cls va => ⟨cls, 6, k - 6, BitVec.ofNat 64 ((if cause = 0 then 0 else 7) + opOf m.raw * 2 ^ 16), va, none, none⟩
/-- The command that stands at the head of a slot: a marker stands for its `qjoin`, an empty queue for the next command. -/
def Core.headCmd (c : Core) (k : Slot) : Cmd :=
  match c.headEntry k with
  | some (.cmd m) => m
  | some (.gate m) => m
  | some (.mark ..) => { Cmd.nil with raw := 0x29000000, idx := c.cidx[slotCtr k] }
  | some (.xfer id) => { Cmd.nil with idx := id }
  | _ => { Cmd.nil with idx := c.cidx[slotCtr k] }
/-- The cc of a wait that count: those spent halted do not. -/
def State.waited (s : State) (k : Nat) (slot : Slot) (w : Wait) : Nat :=
  let q := amGet (0, 0) (s.core k).dbg.paused slot
  s.now - w.wsc.toNat - (if q.1 = w.wsc.toNat then q.2 else 0)
/-- The causes of a timeout by unit. -/
def timeoutCause (u : Nat) : Nat := if u = 9 then 5 else if u = 10 then 2 else if u = 12 then 4 else 0

/-- WAITTMO (R364). A submission that waits for queue room (R208) leaves the scheduler, and is given to the port again when its fault is re-issued. -/
def execWaittmo (slot : BitVec 4) (s : State) : Host.Outcome State Fault Refusal :=
  let k := s.cur
  let c := s.core k
  let n := slot.toNat
  let units := bits (s.getPart (s.corePart k)).regs.wtmo.toNat 0 32
  match amFind n c.waits with
  | none => .fault .notEnabled
  | some w =>
    if c.mode ≠ .running ∨ c.dbg.halted ∨ w.kind = 5 ∨ w.kind = 0 ∨ 10 < w.kind ∨ units = 0 ∨ s.waited k n w < units * 1024 then .fault .notEnabled
    else
      let arg := w.wsa.toNat % 2 ^ 32
      let atPort (op : Nat) : Bool := n == 5 && w.kind == 10 && w.wsa.toNat == op
      let held := (s.sched (s.corePart k)).heldSubs.find? (fun h => h.core == k)
      if n = 5 ∧ w.kind = 9 ∧ w.wsa = 0 ∧ held.isSome then
        let m := (held.map (·.cmd)).getD Cmd.nil
        let s := (s.wake k).updSched (s.corePart k) (fun d => { d with heldSubs := d.heldSubs.filter (fun h => !(h.core == k && h.cmd.idx == m.idx)) })
        let s := s.updCore k (fun c => ((c.dropXq 8 m.idx).clearWait 5).regiveXq m)
        .next { takeFault s k (sqTrap m 0 .waittmo 0) m.idx m.lane with stalled := false }
      else if atPort 0xE2 then
        let m := ((c.xq.find? (fun x => x.unit == 11)).map (·.cmd)).getD Cmd.nil
        .next { takeFault (s.wake k) k (atTrap m 0 .waittmo 0) m.idx m.lane with stalled := false }
      else if [0xEE, 0xEF, 0xF0, 0xF1].any atPort then
        let m := ((c.xq.find? (fun x => x.unit == 12)).map (·.cmd)).getD Cmd.nil
        .next { takeFault (s.wake k) k (fxTrap m 4 .waittmo 0) m.idx m.lane with stalled := false }
      else
        let m := c.headCmd n
        let t := match c.headEntry n with
          | some (.gate m) => syTrap m 5 arg .waittmo 0
          | _ => headTrap n m 0 timeoutCause arg .waittmo 0
        .next { takeFault (s.wake k) k t m.idx m.lane with stalled := false }

/-! ### Errors (R48, R49) and the walker (R38) -/

/-- The number under which the lifetime records count an array's errors (Table 1.15). -/
def arrayNo : ErrArray → Nat
  | .l2 => 0 | .scratchpad => 1 | .tile => 2 | .cistern => 3 | .lpddr => 4 | .chipletSram => 5 | .l2Tags => 6 | .acc => 7 | .queue => 8
/-- The number of an array's bank or channel, or other unit, in the lifetime records (Table 18.14). -/
def unitKey (array unit : Nat) : Nat := array * 2 ^ 32 + unit
/-- CORRECTED_ERROR (R48, R513): counted for its array's bank or channel. -/
def execCorrectedError (a : ArrayUnit) (s : State) : Host.Outcome State Fault Refusal :=
  .next { s with life := { s.life with corr := lifeAdd s.life.corr (unitKey (arrayNo a.array) a.unit.toNat) } }
/-- The causes of parity by unit. -/
def parityCause (u : Nat) : Nat := if u = 9 then 7 else if u = 13 then 6 else if u = 8 then 0 else 3
/-- The array of an error's site, and its unit: of device memory the chiplet and LPDDR channel (R35), of a scratchpad the core and bank, of a
Cistern the core, else the core. -/
def siteKey (k : Nat) : ErrSite → Nat
  | .mem pa => unitKey 4 (pa.toNat / chipBytes * 32 + lpddrChannel pa.toNat)
  | .scratchpad off => unitKey 1 (k * 16 + bankOf off.toNat)
  | .tile .. | .shadowTile .. => unitKey 2 k
  | .cistern w => unitKey 3 (wCore (w.toNat * 1024))
  | .acc .. | .shadowAcc .. | .runRegister => unitKey 7 k
  | .queue _ | .fifo _ | .storeBuffer | .copyJob .. => unitKey 8 k
  | .l2Tag pa => unitKey 6 (pa.toNat / 128)
  | .chipletSram chip _ _ => unitKey 5 chip.toNat

/-- Parity of a queue entry of a core (R49): the fault of the command at the queue's head, or of the transfer there; of a running nest with its run
and accumulator (R314). -/
def State.entryParity (s : State) (k n : Nat) : State :=
  let c := s.core k
  let m := c.headCmd n
  let journal := if 6 ≤ n then c.journal (n - 6) else []
  match c.headEntry n, c.mx.nest with
  | some (.xfer id), _ =>
    match journal.find? (fun (x : Xfer) => x.id == id) with
    | some x => xferFault s k (n - 6) x (xferTrap (n - 6) x.tn 7 0 .poison 0)
    | none => s
  | _, some nest =>
    if n = 4 ∧ nest.cmd.idx = m.idx then
      cmdFault { s with slot := 4, cmd := nest.cmd } k (mxTrap nest.cmd 4 0 (nestAcc nest) nest.run .poison 0) nest.cmd
    else cmdFault { s with slot := n, cmd := m } k (headTrap n m 4 parityCause 0 .poison 0) m
  | _, none => cmdFault { s with slot := n, cmd := m } k (headTrap n m 4 parityCause 0 .poison 0) m
/-- A token of a KV block poisoned. -/
def KvBlock.poison (b : KvBlock) (tok : Nat) : KvBlock :=
  { b with toks := b.toks.map (fun (e : Nat × KvTok) => if e.1 = tok then (tok, { e.2 with pois := true }) else e) }

/-- UNCORRECTABLE_ERROR (R49): the granule is poisoned; an error in a queue, FIFO, store buffer, journal or template raises POISON at once in its
engine, of the run register at the run's retirement (R314). A line whose tag is lost is poisoned as a whole, and of what a chiplet holds of a block, in its SRAM
or its KV space, the token (log 14). -/
def execUncorrectableError (site : ErrSite) (s : State) : Host.Outcome State Fault Refusal :=
  let k := s.cur
  let c := s.core k
  let s := { s with life := { s.life with uncorr := lifeAdd s.life.uncorr (siteKey k site) } }
  let calm (t : State) : Host.Outcome State Fault Refusal := .next { t with stalled := false }
  match site with
  | .mem pa => .next { s with memPois := nsAdd (pa.toNat / 32) s.memPois }
  | .scratchpad off => .next (s.updCore k (fun c => { c with spPois := nsAdd (off.toNat / 32) c.spPois }))
  | .tile n g => .next (s.updCore k (fun c => c.setTile n.toNat { c.tile n.toNat with pois := nsAdd g.toNat (c.tile n.toNat).pois }))
  | .acc a r => .next (s.updCore k (fun c => { c with accs := c.accs.set a.toNat { c.accs[a.toNat] with pois := nsAdd r.toNat c.accs[a.toNat].pois } a.isLt }))
  | .cistern w => .next { s with cist := { s.cist with bad := nsAdd w.toNat s.cist.bad } }
  | .shadowTile n g =>
    match amFind n.toNat c.sh.tiles with
    | some t => .next (s.setCore k { c with sh := { c.sh with tiles := amSet c.sh.tiles n.toNat { t with pois := nsAdd g.toNat t.pois } } })
    | none => .fault .notEnabled
  | .shadowAcc a r =>
    match amFind a.toNat c.sh.accs with
    | some t => .next (s.setCore k { c with sh := { c.sh with accs := amSet c.sh.accs a.toNat { t with pois := nsAdd r.toNat t.pois } } })
    | none => .fault .notEnabled
  | .queue q => if 14 ≤ q.toNat ∨ (c.queue q.toNat).isEmpty ∨ c.mode ≠ .running then .fault .notEnabled else calm (s.entryParity k q.toNat)
  | .fifo f =>
    let n := fifoDst f.toNat
    if c.tokCount f.toNat = 0 ∨ c.mode ≠ .running then .fault .notEnabled
    else
      let m := c.headCmd n
      calm (cmdFault { s with slot := n, cmd := m } k (headTrap n m 4 parityCause 0 .poison 0) m)
  | .storeBuffer =>
    let started := (cmdsOf (c.queue 2)).filter (fun m => m.started)
    match (c.holds.filter (fun h => h.slot == 2)).map (·.cmd) ++ started with
    | [] => .fault .notEnabled
    | m :: _ => if c.mode ≠ .running then .fault .notEnabled else calm (cmdFault { s with slot := 2, cmd := m } k (stTrap m 4 0 .poison 0) m)
  | .copyJob ch i =>
    match (c.journal ch.toNat)[i.toNat]? with
    | some x => if c.mode ≠ .running then .fault .notEnabled else calm (xferFault s k ch.toNat x (xferTrap ch.toNat x.tn 7 0 .poison 0))
    | none => .fault .notEnabled
  | .runRegister =>
    match c.mx.nest with
    | some nest =>
      if c.mode ≠ .running ∨ nest.drain ∨ nest.rested then .fault .notEnabled
      else calm (cmdFault { s with slot := 4, cmd := nest.cmd } k (mxTrap nest.cmd 3 6 (nestAcc nest) nest.run .poison 0) nest.cmd)
    | none => .fault .notEnabled
  | .l2Tag pa =>
    let line := pa.toNat / 128
    if (s.lineDie line).isNone then .fault .notEnabled
    else .next { s with memPois := (List.range 4).foldl (fun (m : NSet) i => nsAdd (line * 4 + i) m) s.memPois }
  | .chipletSram chip block tok =>
    let p := s.dieOwner chip.toNat
    let j := (s.getPart p).dies.idxOf chip.toNat
    let bs := s.kvBlocks p j
    if bs.length ≤ block.toNat then .fault .notEnabled
    else .next (s.updPart p (fun x => { x with kv := { x.kv with blocks := amSet x.kv.blocks j (bs.modify block.toNat (fun b => b.poison tok.toNat)) } }))

/-- PAGE_WALK (R38): the walker translates an address for a core; one with no translation leaves nothing, and the command that needs it
raises PAGE. -/
def execPageWalk (va : Word) (write : Bool) (s : State) : Host.Outcome State Fault Refusal :=
  match s.pageWalk s.cur va write with
  | .ok s => .next { s with stalled := false }
  | .error _ => .next s

end Sys2Proof.Machine
end

