-- ==== Sys2Proof/Machine/SysReg.lean ====
section
/-! DEFINITION. System registers (05_control_core R139, R140, R164, and the register tables of the other chapters), and the markers that a
`qjoin` or a bank descriptor's write places in the queues (R45, R162). -/

namespace Sys2Proof.Machine

/-! ### Markers (R45, R162) -/

/-- Whether a queue has reached the marker of a control-core lane: everything before it has completed (R29, R162). -/
def Core.reached (c : Core) (k : Slot) (id : Nat) : Bool :=
  match (c.queue k).head? with
  | some (.mark n _ _ spec) =>
    n == id && !spec && !c.unsent.any (fun u => u.1 == k) &&
      (k != 5 || (c.xq.isEmpty && c.atq.isEmpty && c.fxq.isEmpty)) && (decide (k < 6) || (!c.cstBefore id && (c.journal (k - 6)).all (fun x => x.place == XferPlace.waiting)))
  | _ => false
/-- Whether an entry is the marker of a lane. -/
def QEntry.marks (id : Nat) : QEntry → Bool
  | .mark n .. => n == id
  | _ => false
/-- Whether every queue that still holds a marker of a lane has reached it. -/
def Core.allReached (c : Core) (id : Nat) : Bool :=
  (List.range 14).all (fun k => !(c.queue k).any (QEntry.marks id) || c.reached k id)
/-- The markers of a lane removed. -/
def Core.dropMarks (c : Core) (id : Nat) : Core := c.mapQueues (fun _ q => q.filter (fun e => !QEntry.marks id e))
/-- Whether a recorded wait is for a marker that its queue no longer has at its head (Table 12.7). -/
def Core.pastMark (c : Core) (k : Slot) (w : Wait) : Bool :=
  w.kind == 8 && (match c.headEntry k with
    | some (.mark ..) => false
    | some (.cmd m) => !isBankWrite m.instr
    | _ => true)
/-- What a `qjoin` that all its queues have reached leaves: held writes of the queues it names come before every later command of them (R109); the
mark of a release fence at recovery scope passes from the control core to the queues it joins to it (R117). -/
def Core.join (c : Core) (mask : BitVec 14) : Core :=
  let slots := maskSlots mask
  { c with
    holds := c.holds.map (fun h => if slots.contains h.slot then { h with joined := slots.foldl (fun (j : NSet) k => nsAdd k j) h.joined } else h)
    rcMore := if slots.contains 0 && c.rcNext then (slots.filter (· != 0)).foldl (fun (j : NSet) k => nsAdd k j) c.rcMore else c.rcMore }
/-- The markers at queue heads whose queues have all reached them, removed; a queue held at one waits (R162, Table 12.7). -/
def Core.passMarks (c : Core) (now : Nat) : Core :=
  let heads : List (Nat × BitVec 14) := (List.range 14).filterMap (fun k => match (c.queue k).head? with
    | some (.mark id m own _) => if own then none else some (id, m)
    | _ => none)
  let c := heads.foldl (fun (c : Core) q => if c.allReached q.1 then (c.join q.2).dropMarks q.1 else c) c
  let c : Core := { c with waits := c.waits.filter (fun (e : Nat × Wait) => !c.pastMark e.1 e.2) }
  (List.range 14).foldl (fun (c : Core) k => match c.headEntry k with
    | some (.mark _ m _ _) => c.setWait k now ⟨8, 0, 0, m.setWidth 64, 0⟩
    | _ => c) c

/-! ### Reads (R164) -/

/-- Whether the command at the head of the MX queue is a drain under way (Table 10.9). -/
def Core.draining (c : Core) : Bool :=
  c.mx.nest.any (·.drain) || (match c.headEntry 4 with
    | some (.cmd m) => m.started && (match m.instr with | .mxdr .. | .mxdrb .. => true | _ => false)
    | _ => false)
/-- MXINFO (Table 10.9). -/
def Core.mxinfo (c : Core) : Nat :=
  c.mx.tv.toNat * 2 ^ 53 + c.mx.treg.toNat * 2 ^ 48 + c.mx.runs.toNat * 2 ^ 16 +
    (c.mx.nest.any (fun n => n.cmd.spec != SpecMark.none)).toNat * 4 + c.draining.toNat * 2 + c.mx.nest.isSome.toNat
/-- Commands of a queue started and not completed. -/
def Core.inflight (c : Core) (k : Slot) : Nat := ((cmdsOf (c.queue k)).filter (·.started)).length
/-- LPSTAT (Table 5.6). -/
def LpStat.word (l : LpStat) : Nat := l.iter.toNat + l.count.toNat * 2 ^ 32 + l.lc.toNat * 2 ^ 48
/-- GPSTAT (Table 6.7a). -/
def EngRegs.gpstat (r : EngRegs) : Nat := r.gpStale.toNat + r.gpSlot.toNat * 2 ^ 8
/-- VXINFO without its STALL (Table 9.8). -/
def EngRegs.vxbits (r : EngRegs) : Nat := r.vxNang.toNat * 2 ^ 4 + r.vxOvf.toNat * 2 ^ 5 + r.vxIsat.toNat * 2 ^ 6 + r.vxBflag.toNat * 2 ^ 7
/-- ATGEO, with CL of the partition's dies (Table 14.7). -/
def Part.geo (p : Part) : Nat :=
  let g := p.regs.atgeo.toNat
  let n := p.dies.length
  bits g 0 12 + (if 4 ≤ n then 2 else if 2 ≤ n then 1 else 0) * 2 ^ 12 + bits g 32 16 * 2 ^ 32
/-- PWRSTAT (Table 17.6). -/
def State.pwrstat (s : State) (k : Nat) : Nat :=
  let d := coreDie k
  let q := coreQuad k
  s.level d q + s.levelCause d q * 2 ^ 2 + (s.core k).regs.estep.toNat * 2 ^ 8 + (s.quad d q).temp.toNat * 2 ^ 24 +
    min 0xFFFF (s.coreHot k / 1024) * 2 ^ 32
/-- PACE.e (Table 17.3). -/
def State.paceWord (s : State) (k e : Nat) : Nat :=
  ((s.core k).gap.getD e 0).toNat + ((s.getPart (s.corePart k)).regs.floors.getD e 0).toNat * 2 ^ 8 + s.eff k e * 2 ^ 16

/-- A system register as core `k` reads it, none where no chapter assigns the number (R139, Table 5.2). CIDX is what a `sysr` captures, given here as `idx`. -/
def State.sysreg (s : State) (k n : Nat) (idx : List Word) : Option Nat :=
  let c := s.core k
  let p := s.corePart k
  let x := s.getPart p
  let g := x.regs
  let z (v : Word) : Option Nat := some v.toNat
  if n = 0 then some ((c.task.map (fun (t : Task) => t.id)).getD 0)
  else if n = 1 then some (s.coreloc k)
  else if n = 2 then some (s.cycle p)
  else if 4 ≤ n ∧ n ≤ 9 then z (idx.getD (n - 4) 0)
  else if n = 0x10 then z c.trap.cls
  else if n = 0x11 then z c.trap.eng
  else if n = 0x12 then z c.trap.cmdidx
  else if n = 0x13 then z c.trap.stat
  else if n = 0x14 then z c.trap.va
  else if n = 0x15 then z c.trap.lane
  else if n = 0x16 then z c.trap.pend
  else if n = 0x20 then some c.lpstat.word
  else if n = 0x21 then some c.livebk.toNat
  else if n = 0x22 then some c.livetl.toNat
  else if n = 0x30 then z c.dbg.ctl
  else if n = 0x31 then z c.dbg.cmp
  else if 0x100 ≤ n ∧ n ≤ 0x10F then some (bankWord (c.bank (n - 0x100)))
  else if 0x110 ≤ n ∧ n ≤ 0x11F then some (boundWord (c.bank (n - 0x110)))
  else if n = 0x200 then some c.mx.stat.toNat
  else if n = 0x201 then some (max 1 g.mxkmax.toNat)
  else if n = 0x202 then some c.mxinfo
  else if 0x240 ≤ n ∧ n ≤ 0x25F then z (c.mx.active.getD (n - 0x240) 0)
  else if 0x260 ≤ n ∧ n ≤ 0x27F then z (c.mx.shadow.getD (n - 0x260) 0)
  else if 0x300 ≤ n ∧ n ≤ 0x307 then some (c.cp.done.getD (n - 0x300) 0).toNat
  else if 0x308 ≤ n ∧ n ≤ 0x30F then some (c.cp.next.getD (n - 0x308) 0).toNat
  else if n = 0x310 then some c.cpinfo
  else if n = 0x400 then z (amGet 0 x.sched.fcast (coreDie k))
  else if 0x401 ≤ n ∧ n ≤ 0x403 then some (x.sched.ac.getD (n - 0x401) 0).toNat
  else if n = 0x404 then some g.acthr.toNat
  else if n = 0x405 then some c.regs.gpstat
  else if n = 0x406 then some (((c.task.bind (fun (t : Task) => t.replay))).getD 0)
  else if n = 0x407 then some g.prewait.toNat
  else if n = 0x500 then some ((s.die (coreDie k)).delta.toNat + (s.die (coreDie k)).gm1.toNat * 2 ^ 8)
  else if n = 0x501 then some g.wtmo.toNat
  else if 0x510 ≤ n ∧ n < 0x510 + 42 then
    let w := amGet ⟨0, 0, 0, 0, 0⟩ c.waits ((n - 0x510) / 3)
    some (if (n - 0x510) % 3 = 0 then wsk w else if (n - 0x510) % 3 = 1 then w.wsa.toNat else s.wsc p w)
  else if n = 0x600 then some (c.inflight 1 + c.regs.stallLd.toNat * 2 ^ 16 + c.regs.wrem.toNat * 2 ^ 32)
  else if n = 0x610 then some (c.inflight 2 + c.regs.stBflag.toNat * 2 ^ 5 + c.regs.stallSt.toNat * 2 ^ 16 + c.regs.pubn.toNat * 2 ^ 32)
  else if n = 0x620 then some (c.inflight 3 + c.regs.vxbits + c.regs.stallVx.toNat * 2 ^ 32)
  else if 0x700 ≤ n ∧ n ≤ 0x705 then some (s.paceWord k (n - 0x700))
  else if n = 0x710 then some (s.pwrstat k)
  else if n = 0x711 then some (max 1 (bits g.gatectl.toNat 0 16) + bits g.gatectl.toNat 16 1 * 2 ^ 16)
  else if n = 0x800 then some (bits x.handle.toNat 0 6 + bits x.handle.toNat 16 16 * 2 ^ 16)
  else if n = 0x900 then some x.geo
  else if n = 0x901 then some (c.atq.length + c.regs.qtag.toNat * 2 ^ 32)
  else if n = 0x980 then some (c.fxq.length + c.regs.ftag.toNat * 2 ^ 32)
  else if n = 0x981 then some (max 1 (bits g.fxtmo.toNat 0 16))
  else if n = 0x982 then z c.regs.fxlerr
  else if n = 0x983 then some (bits g.fxdom.toNat 0 6 + bits g.fxdom.toNat 8 6 * 2 ^ 8)
  else if 0xA00 ≤ n ∧ n < 0xA80 then
    let l := x.ck.line ((n - 0xA00) / 2)
    z (if n % 2 = 0 then l.1 else l.2)
  else if n = 0xA80 then z (x.ck.stat c.member)
  else if n = 0xA81 then z x.ck.epoch
  else none

/-- ILLEGAL at a `sysr` or `sysw` of a number that no chapter assigns (R139, R169). -/
def unassigned (num : BitVec 14) : M Unit := do
  let s ← get
  raise { illegalAt 1 0 s.cmd 0 14 with stat := illegalStat (opOf s.cmd.raw) 0 14 num.toNat false false }

/-- `sysr` (R164). -/
def execSysr (d : XReg) (num : BitVec 14) (s : State) : Host.Outcome State Fault Refusal :=
  ccLane s (do
    match s.sysreg s.cur num.toNat s.cmd.table with
    | some v => writeX d (BitVec.ofNat 64 v)
    | none => unassigned num)

/-! ### Writes (R164) -/

/-- What a write of a system register does, but for bank descriptors and PACE: the core it leaves, none where a task may not write it
(log 23). -/
def Core.sysWrite (c : Core) (n : Nat) (v : Word) : Option Core :=
  if n < 0x20 ∨ n = 0x20 ∨ n = 0x600 then some c
  else if n = 0x21 then some { c with livebk := v.setWidth 16 }
  else if n = 0x22 then some { c with livetl := v }
  else if n = 0x200 then some { c with mx := { c.mx with stat := c.mx.stat &&& ~~~(v.setWidth 32) } }
  else if n = 0x310 then (if v.getLsbD 7 then some { c with cp := { c.cp with bflag := false } } else none)
  else if n = 0x610 then some { c with regs := { c.regs with stBflag := c.regs.stBflag && !v.getLsbD 5 } }
  else if n = 0x620 then some { c with regs := { c.regs with
    vxBflag := c.regs.vxBflag && !v.getLsbD 7
    vxIsat := c.regs.vxIsat && !v.getLsbD 6
    vxOvf := c.regs.vxOvf && !v.getLsbD 5
    vxNang := c.regs.vxNang && !v.getLsbD 4 } }
  else none

/-- `sysw` of a register other than a bank descriptor or PACE (R139, R164): by its access codes, PERM where a task may not write it. -/
def execSysw (a : XReg) (num : BitVec 14) (s : State) : Host.Outcome State Fault Refusal :=
  ccLane s (do
    if (s.sysreg s.cur num.toNat []).isNone then unassigned num
    let v ← readX a
    match (s.core s.cur).sysWrite num.toNat v with
    | some _ => modCore (fun c => (c.sysWrite num.toNat v).getD c)
    | none => ccRaise .perm 0)

/-- `sysw PACE.e` (R481, R483): GAP. -/
def execPaceGapWrite (e : BitVec 3) (a : XReg) (s : State) : Host.Outcome State Fault Refusal :=
  ccLane s (do
    let v ← readX a
    modCore (·.setGap e.toNat s.cmd.idx (v.setWidth 8)))

/-- A write of a bank descriptor, ordered as a `qjoin` of every queue and channel (R45). -/
def bankLane (s : State) (a : XReg) (body : Word → M Unit) : Host.Outcome State Fault Refusal :=
  ccLane s (do
    let c ← core
    if ¬ c.allReached s.cmd.idx then waitFor 8 0x3FDF
    let v ← readX a
    body v
    modCore (fun c => c.dropMarks s.cmd.idx))

/-- `sysw BKFMT.n` (R42, Table 1.13). -/
def execBkfmtWrite (n : BitVec 4) (a : XReg) (s : State) : Host.Outcome State Fault Refusal :=
  bankLane s a (fun v => do
    let fmt := bits v.toNat 0 4
    let act := bits v.toNat 4 2
    let bad (flo flen val : Nat) : M Unit := raise { illegalAt 1 0 s.cmd 0 0 with stat := illegalStat 0x2C flo flen val true false }
    if 14 ≤ fmt then bad 0 4 fmt
    else if fmt = 0 ∧ act ≠ 0 then bad 4 2 act
    modCore (fun c =>
      let b := c.bank n.toNat
      c.setBank n.toNat { b with fmt := fmtOf fmt, act := BitVec.ofNat 2 act, viol := b.viol && !v.getLsbD 7 }))

/-- `sysw BKBND.n` (Table 1.14). -/
def execBkbndWrite (n : BitVec 4) (a : XReg) (s : State) : Host.Outcome State Fault Refusal :=
  bankLane s a (fun v => modCore (fun c =>
    c.setBank n.toNat { (c.bank n.toNat) with lo := v.setWidth 32, hi := BitVec.ofNat 32 (v.toNat / 2 ^ 32) }))

end Sys2Proof.Machine
end

