-- ==== Sys2Proof/Machine/HostIf.lean ====
section
/-! DEFINITION. The host's windows and their commands, host accesses, start-up, scrub and power loss (18_host_and_start). -/

namespace Sys2Proof.Machine

/-! ### Window registers (R496, R503) -/

/-- The device's physical address of a host physical address (Table 1.10, log 25). -/
def hostPa (a : Word) : Nat := hostBase + a.toNat % 2 ^ 48
/-- Bytes of host memory that a command names. -/
def State.hostBytes (s : State) (a : Word) (n : Nat) : List Byte := s.readPa (hostPa a) n
/-- Bytes written to host memory. -/
def State.hostPut (s : State) (a : Word) (bs : List Byte) : State := s.writePa 0 (hostPa a) bs true []

/-- What the host reads of a window's register (R6, R496, Tables 18.2-18.4); of an offset that names none, zero. -/
def Window.read (x : Window) (off : Nat) : Word :=
  if off = 0 then x.cmd.setWidth 64
  else if 8 ≤ off ∧ off ≤ 0x20 ∧ off % 8 = 0 then x.args.getD (off / 8 - 1) 0
  else if off = 0x28 then x.stat
  else if off = 0x30 then x.evbase
  else if off = 0x38 then BitVec.ofNat 64 x.entries
  else if off = 0x40 then x.evhead
  else if off = 0x48 then x.evtail
  else if off = 0x50 then BitVec.ofNat 64 (x.dropCmd.toNat + x.dropEv.toNat * 2 ^ 32)
  else 0

/-- MODSTAT (Table 18.11). -/
def State.modstat (s : State) : Word := BitVec.ofNat 64 (s.phase.toNat + s.alts.toNat * 2 ^ 8 + s.hxerr.toNat * 2 ^ 32)
/-- What the host reads of the windows at an offset of BAR0 (R494, R496, Table 18.1): the module window with MODSTAT, the launch windows; of a
reserved offset, zero. A debug window is read by DEBUG_WINDOW_ACCESS. -/
def State.barRead (s : State) (off : Nat) : Word :=
  if off = 0x100 then s.modstat
  else if off < 0x10000 then (s.win 4).read off
  else if off < 0x50000 then (s.win (off / 0x10000 - 1)).read (off % 0x10000)
  else 0

/-- EVBASE_WRITE (R503): the ring is set, and takes the kept events. -/
def execEvbaseWrite (v : Word) (s : State) : Host.Outcome State Fault Refusal :=
  let x := s.win s.part
  let s' := s.setWin s.part { x with evbase := v &&& ~~~0xFFF, evhead := 0, evtail := 0, isSet := true, kept := [] }
  .next (x.kept.foldl (fun (s : State) e => s.ringWrite s.part e) s')
/-- EVSIZE_WRITE (R503). -/
def execEvsizeWrite (v : Word) (s : State) : Host.Outcome State Fault Refusal :=
  .next (s.setWin s.part { (s.win s.part) with evsize := v, evhead := 0, evtail := 0 })
/-- HOST_WINDOW_REGISTER_WRITE (R494, R496): ARG0-ARG3 and EVTAIL; a write elsewhere is discarded. -/
def execHostWindowRegisterWrite (module_ : Bool) (off : BitVec 16) (v : Word) (s : State) : Host.Outcome State Fault Refusal :=
  let w := if module_ then 4 else s.part
  let x := s.win w
  let o := off.toNat
  if o = 0 ∨ o = 0x30 ∨ o = 0x38 then .fault .notEnabled
  else if 8 ≤ o ∧ o ≤ 0x20 ∧ o % 8 = 0 then
    .next (s.setWin w { x with args := if h : o / 8 - 1 < 4 then x.args.set (o / 8 - 1) v h else x.args })
  else if o = 0x48 then .next (s.setWin w { x with evtail := v })
  else .next s

/-! ### Host and peer accesses (R128, R129, R495) -/

/-- Whether a range of device memory is excluded from the host: a KV region or a checkpoint mirror (R495). -/
def State.hostExcluded (s : State) (pa n : Nat) : Bool :=
  [pa, pa + n - 1].any (fun a => (match s.region a with | .kv => true | _ => false) || (s.getPart (s.paOwner a)).ck.mirror a)
/-- Whether an address lies in device memory that a host access may now reach: its home is up. -/
def State.hostReaches (s : State) (pa : Nat) : Bool :=
  decide (pa < 4 * chipBytes) && (s.die (s.homeDie (s.paOwner pa) pa)).up && decide (s.phase ≠ 0)
/-- Bytes as an agent outside the package sees them: of a published page, as its last publication left them (R129). -/
def State.outside (s : State) (pa n : Nat) : List Byte :=
  ((s.readPa pa n).zip (List.range n)).map (fun q => match amFind (pa + q.2) s.unpub with | some e => e.2 | none => q.1)
/-- Whether a write from outside bypasses the L2: a checkpoint working range, or a line known to be of an NC page (R495, log 25). -/
def State.bypasses (s : State) (pa : Nat) : Bool :=
  ((s.getPart (s.paOwner pa)).ck.working pa).isSome ||
    s.cores.any (fun e => e.2.tlb.any (fun t => t.nc && decide (t.pa ≤ pa) && decide (pa < t.pa + t.size)))
/-- Bytes written from outside the package. -/
def State.putOutside (s : State) (pa : Nat) (bs : List Byte) : State :=
  let s := { s with unpub := s.unpub.filter (fun e => !(decide (pa ≤ e.1) && decide (e.1 < pa + bs.length))) }
  s.writePa (s.paOwner pa) pa bs (s.bypasses pa) []
/-- An access refused by R495. -/
def State.refuseHost (s : State) : State := { s with hxerr := s.hxerr + 1 }

/-- HOST_MEM_READ (R128, R495). -/
def execHostMemRead (pa : BitVec 52) (n : BitVec 7) (s : State) : Host.Outcome State Fault Refusal :=
  let a := pa.toNat
  let k := n.toNat
  match s.region a with
  | .host => .next { s with seen := s.readPa a k }
  | _ =>
    if !s.hostReaches a then .fault .notEnabled
    else if s.hostExcluded a k then .next { s.refuseHost with seen := List.replicate k 255 }
    else .next { s with seen := s.outside a k }
/-- HOST_MEM_WRITE (R128, R495); in the host's own memory, the host's store (log 25). -/
def execHostMemWrite (pa : BitVec 52) (bytes : List Byte) (s : State) : Host.Outcome State Fault Refusal :=
  let a := pa.toNat
  match s.region a with
  | .host => .next (s.writePa 0 a bytes true [])
  | _ =>
    if !s.hostReaches a then .fault .notEnabled
    else if s.hostExcluded a bytes.length then .next s.refuseHost
    else .next (s.putOutside a bytes)

/-- PEER_PACKAGE_ACCESS (Table 4.5, R35): performed at the line's home; a location that no dense-die agent may touch is none of a peer's. -/
def execPeerPackageAccess (pa : BitVec 52) (acc : PeerAcc) (sz64 : Bool) (v cmp : Word) (s : State) : Host.Outcome State Fault Refusal :=
  let a := pa.toNat
  let n := if sz64 then 8 else 4
  if !s.hostReaches a || s.hostExcluded a n || decide (a % n ≠ 0) then .fault .notEnabled
  else
    let old := s.readPa a n
    match acc with
    | .load => .next { s with seen := s.outside a n }
    | .store => .next (s.putOutside a (leBytes n v.toNat))
    | .amo op => .next { (s.putOutside a (leBytes n (amoNew op (8 * n) (leNat old) v.toNat cmp.toNat))) with seen := old }

/-! ### Launch-window commands (R498) -/

/-- A command of the launch window. -/
def launch (s : State) (code : Nat) (act : (Nat → Word) → State → State) : Host.Outcome State Fault Refusal :=
  if s.part < 4 then hostCmd s s.part code (fun args s => act (fun i => args.getD i 0) s) else .fault .notEnabled
/-- A command of the module window. -/
def moduleCmd (s : State) (code : Nat) (act : (Nat → Word) → State → State) : Host.Outcome State Fault Refusal :=
  hostCmd s 4 code (fun args s => act (fun i => args.getD i 0) s)
/-- A launch window's command ends. -/
def State.ended (s : State) (status : Nat) (value : Nat := 0) : State := s.cmdDone s.part status value

/-- SUBMIT (R185, R208): a refusal is reported as REFUSED too. -/
def execSubmit (s : State) : Host.Outcome State Fault Refusal :=
  launch s 0x01 (fun a s =>
    let p := s.part
    let va := (a 0).toNat
    let refused (s : State) : State := (s.post p 6 p (a 0) 0).ended 4
    if va % 128 ≠ 0 then s.ended 2
    else match s.partRead p va 128 with
      | .error _ => refused s
      | .ok (s, bs) =>
        let r := Record.parse bs
        if !r.ok bs none then refused s
        else
          let d := s.sched p
          if !d.hasRoom r.cls then s.ended 7
          else
            let (d, idx) := d.accept s.now r none (s.getPart p).handle
            (((s.updSched p (fun _ => d)).settleQueues p).dropStale p).ended 0 idx)

/-- REPLAY (R199, R200): of the starts that must wait, the first is held. -/
def execReplay (s : State) : Host.Outcome State Fault Refusal :=
  launch s 0x02 (fun a s =>
    let p := s.part
    let d := s.sched p
    let m := (a 1).toNat
    if m ≤ d.latest then s.ended 5
    else if d.latest + 1 < m then s.ended 6
    else if d.olderLive then
      (s.updSched p (fun d => { d with heldReplay := some (d.heldReplay.getD ((a 0).toNat, m)) })).ended 7
    else
      let (s, st, v) := s.startReplay p (a 0).toNat
      (s.dropStale p).ended st v)

/-- PATCH (R202). -/
def execPatch (s : State) : Host.Outcome State Fault Refusal :=
  launch s 0x03 (fun a s =>
    let d := s.sched s.part
    let m := (a 1).toNat
    if 64 ≤ (a 0).toNat then s.ended 8
    else if m ≤ d.latest then s.ended 5
    else if d.latest + 1 < m then s.ended 6
    else if d.olderLive then s.ended 7
    else (s.updSched s.part (fun d => d.patch (a 0).toNat (a 2))).ended 0)

/-- ACCW (R203). -/
def execAccw (s : State) : Host.Outcome State Fault Refusal :=
  launch s 0x04 (fun a s =>
    if h : (a 0).toNat < 3 then (s.updSched s.part (fun d => { d with ac := d.ac.set (a 0).toNat ((a 1).setWidth 16) h })).ended 0
    else s.ended 2)

/-- PREEMPT (R197): in progress until the task's pre-emption has ended. -/
def execPreempt (s : State) : Host.Outcome State Fault Refusal :=
  launch s 0x05 (fun a s =>
    match (s.runningTasks s.part).find? (fun q => q.2.id == (a 0).toNat) with
    | some (k, _) => s.askPreempt k false
    | none => s.ended 8)

/-- RELEASE (R198, Table 18.6): the header is checked as it stands. -/
def execRelease (s : State) : Host.Outcome State Fault Refusal :=
  launch s 0x06 (fun a s =>
    let p := s.part
    let area := (a 0).toNat
    match (s.sched p).ctxs.find? (fun x => x.area == area) with
    | none => s.ended 8
    | some x =>
      if x.place ≠ .trapped then s.ended 3
      else match s.partRead p area 0x10000 with
        | .error _ => s.ended 2
        | .ok (s, b) =>
          if crc32c (b.take 0xF8 ++ leBytes 8 0 ++ b.drop 0x100) ≠ fldAt b 0xF8 4 ∨ fldAt b 0xFC 4 ≠ 0 then s.ended 2
          else
            let s := s.updSched p (fun d => { d with ctxs := d.ctxs.map (fun (y : Ctx) => if y.area = area then { y with place := .resume, since := s.now } else y) })
            (s.dropStale p).ended 0)

/-- ABORT (R198). -/
def execAbort (s : State) : Host.Outcome State Fault Refusal :=
  launch s 0x07 (fun a s =>
    let p := s.part
    let id := (a 0).toNat
    let ks := s.taskCores p (fun _ c => c.task.any (fun t => t.id == id))
    let mine (x : Ctx) : Bool := x.core.task.any (fun t => t.id == id)
    if ks = [] ∧ (s.sched p).ctxs.any mine = false then s.ended 8
    else (((ks.foldl (fun (s : State) k => s.abortCore k) s).dropCtxs p mine).dropStale p).ended 0)

/-- POOLADD (Table 18.6). -/
def execPooladd (s : State) : Host.Outcome State Fault Refusal :=
  launch s 0x08 (fun a s =>
    let d := s.sched s.part
    let area := (a 0).toNat
    if area % 2 ^ 21 ≠ 0 then s.ended 2
    else if 4096 ≤ d.pool.length ∧ d.pool.contains area = false then s.ended 3
    else (s.updSched s.part (fun d => { d with pool := nsAdd area d.pool })).ended 0)
/-- POOLDEL (Table 18.6). -/
def execPooldel (s : State) : Host.Outcome State Fault Refusal :=
  launch s 0x09 (fun a s =>
    let d := s.sched s.part
    let area := (a 0).toNat
    if d.poolBusy.contains area then s.ended 3
    else if !d.pool.contains area then s.ended 8
    else (s.updSched s.part (fun d => { d with pool := nsDel area d.pool })).ended 0)

/-! ### SETREG (R499, Table 18.7) -/

/-- SETREG of a field: whether its value is within limits, whether the state forbids the write, and the write. ARG0 names the field; a code
past the table is BADARG. -/
def setreg (code : Nat) (limit : Word → Word → State → Bool) (forbids : State → Bool) (put : Word → Word → State → State) (s : State) :
    Host.Outcome State Fault Refusal :=
  let c := ((s.win s.part).args.getD 0 0).toNat
  if c ≠ code ∧ c ≤ 12 then .fault .notEnabled
  else launch s 0x10 (fun a s =>
    if 12 < (a 0).toNat ∨ limit (a 1) (a 2) s = false then s.ended 2
    else if forbids s then s.ended 3
    else (put (a 1) (a 2) s).ended 0)
/-- No state forbids the write. -/
def always (_ : State) : Bool := false
/-- Host-set registers of a partition changed. -/
def State.updRegs (s : State) (f : PartRegs → PartRegs) : State := s.updPart s.part (fun x => { x with regs := f x.regs })
/-- A limit on the value alone. -/
def below (n : Nat) (v _ : Word) (_ : State) : Bool := decide (v.toNat < n)

/-- SETREG MXKMAX. -/
def execSetregMxkmax (s : State) : Host.Outcome State Fault Refusal :=
  setreg 0 (below 65536) always (fun v _ s => s.updRegs (fun r => { r with mxkmax := v.setWidth 16 })) s
/-- SETREG ACTHR. -/
def execSetregActhr (s : State) : Host.Outcome State Fault Refusal :=
  setreg 1 (below (2 ^ 48)) always (fun v _ s => s.updRegs (fun r => { r with acthr := v.setWidth 48 })) s
/-- SETREG PREWAIT. -/
def execSetregPrewait (s : State) : Host.Outcome State Fault Refusal :=
  setreg 2 (below 65536) always (fun v _ s => s.updRegs (fun r => { r with prewait := v.setWidth 16 })) s
/-- SETREG WTMO. -/
def execSetregWtmo (s : State) : Host.Outcome State Fault Refusal :=
  setreg 3 (below (2 ^ 32)) always (fun v _ s => s.updRegs (fun r => { r with wtmo := v.setWidth 32 })) s
/-- SETREG STAGGER of a die of the partition; reserved bits are discarded (R7). -/
def execSetregStagger (s : State) : Host.Outcome State Fault Refusal :=
  setreg 4 (fun _ d s => (s.getPart s.part).dies.contains d.toNat) always (fun v d s =>
    s.updDie d.toNat (fun x => { x with gm1 := BitVec.ofNat 4 (bits v.toNat 8 4), delta := v.setWidth 8 })) s
/-- SETREG PACE FLOOR of an engine. -/
def execSetregPaceFloor (s : State) : Host.Outcome State Fault Refusal :=
  setreg 5 (fun v e _ => decide (v.toNat < 256) && decide (e.toNat < 6)) always (fun v e s => s.updRegs (fun r =>
    { r with floors := if h : e.toNat < 6 then r.floors.set e.toNat (v.setWidth 8) h else r.floors })) s
/-- SETREG GATECTL: every value of its fields is within their limits, and reserved bits are discarded (R7). -/
def execSetregGatectl (s : State) : Host.Outcome State Fault Refusal :=
  setreg 6 (fun _ _ _ => true) always (fun v _ s => s.updRegs (fun r => { r with gatectl := v &&& 0x1FFFF })) s
/-- SETREG FXTMO. -/
def execSetregFxtmo (s : State) : Host.Outcome State Fault Refusal :=
  setreg 7 (below 65536) always (fun v _ s => s.updRegs (fun r => { r with fxtmo := v })) s
/-- SETREG FXDOM: the same. -/
def execSetregFxdom (s : State) : Host.Outcome State Fault Refusal :=
  setreg 8 (fun _ _ _ => true) (fun s => !s.domain.open_.isEmpty) (fun v _ s => s.updRegs (fun r => { r with fxdom := v &&& 0x3F3F })) s
/-- Whether every sequence and prefix of a partition is FREE. -/
def Kv.allFree (k : Kv) : Bool := k.seqs.all (fun e => e.2.st == SeqSt.free) && k.prefixes.all (fun e => e.2.st == PfxSt.free)
/-- SETREG ATGEO: the same; CL is set with the partition. -/
def execSetregAtgeo (s : State) : Host.Outcome State Fault Refusal :=
  setreg 9 (fun _ _ _ => true) (fun s => !(s.getPart s.part).kv.allFree)
    (fun v _ s => s.updRegs (fun r => { r with atgeo := v &&& 0xFFFF00000FFF })) s
/-- SETREG least throttle level: the counts above level 0 are first brought up to now. -/
def execSetregThrottle (s : State) : Host.Outcome State Fault Refusal :=
  setreg 10 (below 4) always (fun v _ s =>
    let s := (s.getPart s.part).dies.foldl (fun (s : State) d => (List.range 4).foldl (fun (s : State) q => s.updQuad d q (fun x => x)) s) s
    s.updRegs (fun r => { r with throttle := v.setWidth 8 })) s
/-- SETREG QoS share. -/
def execSetregQosShare (s : State) : Host.Outcome State Fault Refusal :=
  setreg 11 (fun v _ _ => decide (1 ≤ v.toNat) && decide (v.toNat < 256)) always (fun v _ s => s.updRegs (fun r => { r with qos := v.setWidth 8 })) s
/-- SETREG domain collectives. -/
def execSetregDomainCollectives (s : State) : Host.Outcome State Fault Refusal :=
  setreg 12 (below 2) always (fun v _ s => s.updRegs (fun r => { r with domColl := v != 0 })) s

/-! ### Memory and windows -/

/-- Whether a partition has a task running on a core, stopped on one included. -/
def State.anyTask (s : State) (p : Nat) : Bool := s.taskCores p (fun _ _ => true) != []
/-- Whether a core of a partition holds a staged preload. -/
def State.anyStaged (s : State) (p : Nat) : Bool := s.cores.any (fun e => s.corePart e.1 == p && e.2.staged.isSome)

/-- PTROOT (R38). -/
def execPtroot (s : State) : Host.Outcome State Fault Refusal :=
  launch s 0x11 (fun a s =>
    if s.anyTask s.part || s.anyStaged s.part then s.ended 3
    else (s.updPart s.part (fun x => { x with root := some (bits (a 0).toNat 12 40 * 2 ^ 12) })).ended 0)

/-- TLBINV (R500): in progress until the accesses that used the entries are performed. -/
def execTlbinv (s : State) : Host.Outcome State Fault Refusal := launch s 0x12 (fun _ s => s)
/-- Whether an address range meets that of a TLBINV. -/
def tlbMeets (va n : Nat) (start pages : Nat) : Bool :=
  pages == 0 || (decide (va < (start / 4096 + pages) * 4096) && decide (start / 4096 * 4096 < va + n))
/-- Whether a core still holds a write that translated through the range. -/
def Core.holdsIn (c : Core) (start pages : Nat) : Bool :=
  c.holds.any (fun h => h.effs.any (fun e => match e with
    | .mem va _ bs _ _ _ => tlbMeets va.toNat bs.length start pages
    | .amo va .. => tlbMeets va.toNat 8 start pages
    | _ => false))

/-- PUBWIN (R246, Table 8.5); what the reserved field holds is discarded (R7). -/
def execPubwin (s : State) : Host.Outcome State Fault Refusal :=
  launch s 0x13 (fun a s =>
    let n := (a 0).toNat
    let b := s.hostBytes (a 1) 32
    let base := fldAt b 0 8
    let len := fldAt b 8 8
    let cnt := fldAt b 16 8
    if 16 ≤ n then s.ended 2
    else if s.anyTask s.part then s.ended 3
    else if base % 2 ^ 16 ≠ 0 ∨ 2 ^ 32 < len ∨ (len ≠ 0 ∧ (cnt < hostBase ∨ 2 * hostBase ≤ cnt ∨ cnt % 8 ≠ 0)) then s.ended 2
    else (s.updPart s.part (fun x => { x with
      pubw := if h : n < 16 then x.pubw.set n ⟨BitVec.ofNat 64 base, len, BitVec.ofNat 64 cnt⟩ h else x.pubw })).ended 0)

/-- Whether two ranges overlap. -/
def rangesMeet (a b : Nat × Nat) : Bool := decide (0 < a.2) && decide (0 < b.2) && decide (a.1 < b.1 + b.2) && decide (b.1 < a.1 + a.2)
/-- The ranges of a checkpoint region: the working range and its mirrors. -/
def CkRegion.ranges (r : CkRegion) : List (Nat × Nat) :=
  if r.len = 0 then [] else [(r.wbase, r.len * 2 ^ 21), (r.mira, (2 * r.len + 1) * 2 ^ 21), (r.mirb, (2 * r.len + 1) * 2 ^ 21)]

/-- KVREG (R403). -/
def execKvreg (s : State) : Host.Outcome State Fault Refusal :=
  launch s 0x14 (fun a s =>
    let p := s.part
    let x := s.getPart p
    let c := x.dies.getD (a 0).toNat 4
    let base := (a 1).toNat
    let n := (a 2).toNat * 2 ^ 21
    if c ≥ 4 ∨ base % 2 ^ 21 ≠ 0 ∨ base < c * chipBytes ∨ (c + 1) * chipBytes < base + n ∨
        (x.ck.regions.flatMap CkRegion.ranges).any (rangesMeet (base, n)) = true then s.ended 2
    else if !x.kv.allFree then s.ended 3
    else { s with chips := if h : c < 4 then s.chips.set c { s.chips[c] with kvBase := base, kvLen := n } h else s.chips }.ended 0)

/-! ### KV paging (R501) -/

/-- The key of KVOUT and KVIN: OWNER, LAYER, b. -/
def kvKey (w : Word) : Nat × Nat × Nat := (bits w.toNat 0 32, bits w.toNat 32 8, bits w.toNat 40 20)
/-- The bytes of a block in host memory (log 24). -/
def State.kvBytes (s : State) (p : Nat) (x : KvBlock) : List Byte :=
  let ts := x.toks.map (fun e => (e.1, e.2.k.toNat, e.2.v.toNat))
  (List.range (32768 * (s.geo p).2.1)).map (fun i => Config.kvImage ts i)
/-- A block's tokens from bytes of host memory: those it was paged out with where the bytes are still those. -/
def State.kvBack (s : State) (p : Nat) (x : KvBlock) (bs : List Byte) : AMap KvTok :=
  if bs = s.kvBytes p x then x.toks
  else (List.range (64 * (s.geo p).2.1)).map (fun i =>
    let t := Config.kvToken bs i
    (i, ⟨BitVec.ofNat 2048 t.1, BitVec.ofNat 2048 t.2, false⟩))

/-- KVOUT: takes its place at once, the block ABSENT; written once no snapshot reads it. -/
def execKvout (s : State) : Host.Outcome State Fault Refusal :=
  launch s 0x15 (fun a s =>
    let p := s.part
    let (o, l, b) := kvKey (a 0)
    if (a 1).toNat % 4096 ≠ 0 then s.ended 2
    else match s.kvFind p o l b with
      | none => s.ended 8
      | some x =>
        if x.absent then s.ended 3
        else (s.kvUpd p o l b (fun x => { x with absent := true })).kvRelease p (b % s.kvC p) (o, l, b))
/-- KVIN: read back at its place. -/
def execKvin (s : State) : Host.Outcome State Fault Refusal :=
  launch s 0x16 (fun a s =>
    let p := s.part
    let (o, l, b) := kvKey (a 0)
    let j := b % s.kvC p
    if (a 1).toNat % 4096 ≠ 0 then s.ended 2
    else match s.kvFind p o l b with
      | none => s.ended 8
      | some x =>
        if !x.absent || decide (s.pool p j ≤ s.poolUsed p j) then s.ended 3
        else
          let bs := s.hostBytes (a 1) (32768 * (s.geo p).2.1)
          s.kvUpd p o l b (fun x => { x with absent := false, toks := s.kvBack p x bs }))

/-! ### The checkpoint domain (R456) -/

/-- A descriptor of Table 16.1. -/
def ckRegionOf (b : List Byte) : CkRegion := ⟨fldAt b 0 8, fldAt b 8 4, fldAt b 16 8, fldAt b 24 8⟩
/-- Whether the descriptors of a domain are as R456 asks. -/
def State.ckOk (s : State) (p : Nat) (rs : List CkRegion) : Bool :=
  let used := rs.filter (fun r => r.len != 0)
  let all := used.flatMap CkRegion.ranges
  let own (q : Nat × Nat) : Bool := decide (q.1 + q.2 ≤ 4 * chipBytes) && s.paOwner q.1 == p && s.paOwner (q.1 + q.2 - 1) == p && q.1 % 2 ^ 21 == 0
  let one (q : Nat × Nat) : Bool := q.1 / chipBytes == (q.1 + q.2 - 1) / chipBytes
  let kv := s.chips.toList.map (fun (c : Chiplet) => (c.kvBase, c.kvLen))
  used.all (fun r => decide (r.len ≤ 4096)) && all.all own &&
    used.all (fun r => (r.ranges.drop 1).all one && ((s.getPart p).dies.length == 1 || r.mira / chipBytes != r.mirb / chipBytes)) &&
    (List.range all.length).all (fun i => (List.range i).all (fun j => !rangesMeet (all.getD i (0, 0)) (all.getD j (0, 0)))) &&
    all.all (fun q => !kv.any (rangesMeet q))
/-- Lines of working ranges out of every L2, written back where they are dirty (R457). -/
def State.uncache (s : State) (f : Nat → Bool) : State :=
  (List.range 4).foldl (fun (s : State) d =>
    let ls := (s.die d).l2.filter (fun e => f (128 * e.1))
    let mem := (ls.filter (fun e => e.2.dirty)).foldl (fun m e => pokeBytes m (128 * e.1) (peekBytes e.2.data 0 128)) s.mem
    ({ s with mem := mem }).updDie d (fun x => { x with l2 := x.l2.filter (fun e => !f (128 * e.1)) })) s

/-- CKDOM (R456): refused while a task of the partition is a member. -/
def execCkdom (s : State) : Host.Outcome State Fault Refusal :=
  launch s 0x17 (fun a s =>
    let p := s.part
    let b := s.hostBytes (a 0) 256
    let rs := (List.range 8).map (fun i => ckRegionOf ((b.drop (32 * i)).take 32))
    if s.taskCores p (fun _ c => c.member) ≠ [] ∨ (s.sched p).ctxs.any (fun x => x.core.member) = true then s.ended 3
    else if !s.ckOk p rs then s.ended 2
    else
      let ck := (s.getPart p).ck
      let s := s.endSeal p true ((match ck.run with | some r => r.serves | none => []) ++ ck.asks)
      let ck := (s.getPart p).ck
      let s := s.updCk p (fun _ => { Ck.reset with
        regions := rs.filter (fun r => r.len != 0), ticket := ck.ticket, answers := ck.answers, cdie := ck.cdie, ncont := ck.ncont })
      (s.uncache (fun pa => ((s.getPart p).ck.working pa).isSome)).ended 0)

/-! ### Links, dies, the debugger -/

/-- ROUTE (R437): a table whose layout no rule gives (log 18). -/
def execRoute (s : State) : Host.Outcome State Fault Refusal :=
  launch s 0x18 (fun _ s =>
    if s.domain.open_ ≠ [] then s.ended 3
    else ({ (s.updPart s.part (fun x => { x with route := some s.picks })) with picks := s.picks + 1 }).ended 0)
/-- LINKUP (R436, R450): in progress until the retrain ends. -/
def execLinkup (s : State) : Host.Outcome State Fault Refusal :=
  launch s 0x19 (fun a s =>
    let d := (a 0).toNat
    let l := (a 1).toNat
    if !(s.getPart s.part).dies.contains d || decide (7 ≤ l) then s.ended 2
    else if (s.link d l).st ≠ .down ∨ (s.die d).up = false then s.ended 3
    else s.turnLink d l (fun x => { x with st := .retrain, run := 0, retrains := min (2 ^ 32 - 1) (x.retrains + 1) }))
/-- DIERESET (R465): in progress until the die rejoins. -/
def execDieresetCmd (s : State) : Host.Outcome State Fault Refusal :=
  launch s 0x1A (fun a s =>
    let d := (a 0).toNat
    if !(s.getPart s.part).dies.contains d then s.ended 2
    else if !(s.die d).up then s.ended 3
    else s.dieReset d 0)
/-- PRESET (R506). -/
def execPreset (s : State) : Host.Outcome State Fault Refusal := launch s 0x1B (fun _ s => (s.partReset s.part true).ended 0)
/-- DBGSEL (R514). -/
def execDbgsel (s : State) : Host.Outcome State Fault Refusal :=
  launch s 0x1C (fun a s =>
    let k := (a 0).toNat
    if !s.rows.debugen then s.ended 3
    else if 512 ≤ k ∨ s.disabled.contains k ∨ s.corePart k ≠ s.part then s.ended 2
    else (s.updPart s.part (fun x => { x with dbgsel := some k })).ended 0)

/-! ### Module commands -/

/-- The dies of each partition in a mode (Table 18.9). -/
def modeDies (m : Nat) : List (List Nat) :=
  if m = 0 then [[0, 1, 2, 3]] else if m = 1 then [[0, 1], [2, 3]] else [[0], [1], [2], [3]]
/-- The partitions of a mode, each as after a partition reset (R504); a set table stays with its number (log 24). -/
def State.setMode (s : State) (m : Nat) : State :=
  let ds (p : Nat) : List Nat := (modeDies m).getD p []
  let s := (List.range 4).foldl (fun (s : State) p => if (s.getPart p).dies = [] then s else s.partReset p true) s
  let s := (List.range 4).foldl (fun (s : State) p =>
    (s.updPart p (fun x => if x.dies = ds p then x else { (Part.reset (ds p)) with base := s.now, pump := x.pump })).setWin p
      (if (s.getPart p).dies = ds p then s.win p else { Window.reset with run := (s.win p).run })) s
  { s with mode := m }
/-- PARTCFG (R504). -/
def execPartcfg (s : State) : Host.Outcome State Fault Refusal :=
  moduleCmd s 0x40 (fun a s =>
    if 3 ≤ (a 0).toNat then s.cmdDone 4 2 0
    else if (List.range 4).any (fun p => s.anyTask p || s.anyStaged p || !(s.sched p).ctxs.isEmpty) then s.cmdDone 4 3 0
    else (s.setMode (a 0).toNat).cmdDone 4 0 0)

/-- CFGUPD (R509): a vendor group is signed by Otsel, an owner group by the owner, whose keys the vendor group holds. -/
def execCfgupd (s : State) : Host.Outcome State Fault Refusal :=
  moduleCmd s 0x41 (fun a s =>
    let img := s.hostBytes (a 0) (a 1).toNat
    let vendor := Config.rowField img 0 % 2 == 0
    let signed := (if vendor then Config.vendorData 0 else s.rows.vendor.image) ++ img
    let g := if vendor then s.rows.vendor else s.rows.owner
    let v := Config.rowField img 1
    if Config.rowField signed 4 = 0 ∨ Config.rowField signed 5 = 0 then s.cmdDone 4 9 0
    else if v < g.version then s.cmdDone 4 10 0
    else
      let g := { g with version := v, next := some img }
      ({ s with rows := if vendor then { s.rows with vendor := g } else { s.rows with owner := g } }).cmdDone 4 0 0)

/-- SCRUB (R515 step 1, R513): in progress. -/
def execScrub (s : State) : Host.Outcome State Fault Refusal :=
  moduleCmd s 0x42 (fun _ s =>
    let s := { s with phase := 3, rows := { s.rows with scrub := true, life := s.life } }
    (List.range 4).foldl (fun (s : State) p => if (s.getPart p).dies = [] then s else s.partReset p false) s)
/-- Whether a partition is idle: no task of it is running, staged, saved, trapped or waiting for a core (R517, log 24). -/
def State.idlePart (s : State) (p : Nat) : Bool :=
  !s.anyTask p && !s.anyStaged p && (s.sched p).ctxs.isEmpty && (s.sched p).waiting == 0
/-- HEALTH (R517): in progress, PHASE HEALTH (log 24). -/
def execHealth (s : State) : Host.Outcome State Fault Refusal :=
  moduleCmd s 0x43 (fun _ s =>
    if (List.range 4).all s.idlePart then { s with phase := 4 } else s.cmdDone 4 3 0)

/-- The numbers of the lifetime records. -/
def Life.nums (l : Life) : List Nat :=
  let m (x : AMap Nat) : List Nat := x.length :: x.flatMap (fun e => [e.1, e.2])
  m l.temps ++ m l.volts ++ m l.corr ++ m l.uncorr ++ m l.resets ++ m l.ignored
/-- The numbers of the wear records. -/
def Cistern.nums (c : Cistern) : List Nat := c.clears :: c.wear.flatMap (fun e => [e.1, e.2])
/-- LIFERD (R513): 64 KiB whose layout no rule gives (log 21). -/
def execLiferd (s : State) : Host.Outcome State Fault Refusal :=
  moduleCmd s 0x44 (fun a s =>
    let ns := s.life.nums ++ s.cist.nums
    (s.hostPut (a 0) ((List.range 65536).map (Config.layout ns))).cmdDone 4 0 0)
/-- SNAPSET (R512). -/
def execSnapset (s : State) : Host.Outcome State Fault Refusal :=
  moduleCmd s 0x45 (fun a s => ({ s with snap := ⟨true, a 0, a 1, none⟩ }).cmdDone 4 0 0)
/-- SNAP (R512). -/
def execSnap (s : State) : Host.Outcome State Fault Refusal := moduleCmd s 0x46 (fun _ s => (s.trigger 0 0).cmdDone 4 0 0)

/-- Whether Table 18.6 has a code in a window. -/
def knownCode (module_ : Bool) (code : Nat) : Bool :=
  if module_ then decide (0x40 ≤ code) && decide (code ≤ 0x46)
  else (decide (1 ≤ code) && decide (code ≤ 9)) || (decide (0x10 ≤ code) && decide (code ≤ 0x1C))
/-- RESERVED_COMMAND_CODE (R498). -/
def execReservedCommandCode (module_ : Bool) (code : BitVec 8) (s : State) : Host.Outcome State Fault Refusal :=
  if knownCode module_ code.toNat then .fault .notEnabled
  else if module_ then moduleCmd s code.toNat (fun _ s => s.cmdDone 4 2 0)
  else launch s code.toNat (fun _ s => s.ended 2)

/-! ### Snapshots and lifetime records (R512, R513) -/

/-- The system registers that a snapshot of a core latches: those a chapter assigns. -/
def State.latched (s : State) (k : Nat) : List Nat :=
  (List.range 0xB00).flatMap (fun n => match s.sysreg k n ((s.core k).cidx.toList.map (BitVec.ofNat 64)) with
    | some v => [k, n, v]
    | none => [])
/-- SNAPSHOT_WRITE_OUT (R512): which registers a block latches, and their numbers, no rule gives; the records are free bytes of what was
latched (log 21). -/
def execSnapshotWriteOut (s : State) : Host.Outcome State Fault Refusal :=
  match s.snap.latch with
  | none => .fault .notEnabled
  | some (cyc, cores) =>
    let then_ : State := { s with cores := cores }
    let ns := cores.flatMap (fun e => then_.latched e.1)
    let n := 16 * (Config.oracle s.picks % 65537)
    let s := s.hostPut s.snap.buf ((List.range n).map (Config.layout ns))
    .next (({ s with picks := s.picks + 1, snap := { s.snap with latch := none } }).post 4 11 0 cyc (BitVec.ofNat 64 n))
/-- LIFETIME_RECORD_WRITE (R513): the records into the rows; which voltage each domain has had since is free (log 2). -/
def execLifetimeRecordWrite (s : State) : Host.Outcome State Fault Refusal :=
  let v := Config.oracle s.picks
  let life := { s.life with volts := (List.range 32).foldl (fun m d => lifeAdd m (256 * d + v / 256 ^ d % 256)) s.life.volts }
  .next { s with picks := s.picks + 1, life := life, rows := { s.rows with life := life } }

/-! ### Commands that take time (R497) -/

/-- The end of a launch window's command in progress, where it has come. -/
def State.finishCmd (s : State) (p : Nat) (r : Running) : Option State :=
  let a (i : Nat) : Word := r.args.getD i 0
  let ok (s : State) (v : Nat) : Option State := some (s.cmdDone p 0 v)
  if r.code = 0x05 then
    let ks := s.taskCores p (fun _ c => c.task.any (fun t => t.id == (a 0).toNat))
    if ks.any (fun k => (s.sched p).preempts.any (fun q => q.1 == k) || (s.core k).resting) then none else ok s 0
  else if r.code = 0x12 then
    let (start, pages) := ((a 0).toNat, (a 1).toNat)
    if s.cores.any (fun e => s.corePart e.1 == p && e.2.holdsIn start pages) then none
    else ok { s with cores := s.cores.map (fun (e : Nat × Core) => if s.corePart e.1 = p then
      (e.1, { e.2 with tlb := e.2.tlb.filter (fun t => !tlbMeets t.va t.size start pages) }) else e) } 0
  else if r.code = 0x15 then
    let (o, l, b) := kvKey (a 0)
    if s.readers p (o, l, b) ≠ [] then none
    else match s.kvFind p o l b with
      | some x => ok (s.hostPut (a 1) (s.kvBytes p x)) 0
      | none => ok s 0
  else if r.code = 0x16 then ok s 0
  else if r.code = 0x19 then
    let st := (s.link (a 0).toNat (a 1).toNat).st
    if st = .retrain then none else ok s st.code
  else if r.code = 0x1A then
    if (s.die (a 0).toNat).up then ok s 0 else none
  else none

/-- Steps 2-4 of a scrub (R515): every array zero, the Cistern cleared (R391), the settings of the last tenant gone. -/
def State.scrubClear (s : State) : State :=
  { s with
    cores := []
    mem := s.mem.filter (fun e => decide (4 * chipBytes ≤ e.1))
    memPois := s.memPois.filter (fun g => decide (4 * chipBytes ≤ 32 * g))
    unpub := []
    gated := []
    dies := s.dies.map (fun d => { d with l2 := d.l2.map (fun (e : Nat × L2Line) => (e.1, { e.2 with data := [] })) })
    sync := { s.sync with words := [] }
    cist := { s.cist with data := [], valid := [], bad := [], clears := s.cist.clears + 1 }
    rows := { s.rows with keys := [] }
    parts := s.parts.map (fun x => { x with
      ck := Ck.reset
      route := none
      pubw := Vector.replicate 16 ⟨0, 0, 0⟩
      kv := ⟨[], [], [], []⟩
      pump := ⟨x.pump.sets.map (fun e => (e.1, { WSet.free with gen := e.2.gen })), [], 0, []⟩ }) }

/-- The health test's result, free (log 2), and what it zeroes: which arrays it uses is not stated, and free. -/
def State.healthTest (s : State) : State :=
  let v := Config.oracle s.picks
  let used := Config.oracle (s.picks + 1)
  let cnt := Config.oracle (s.picks + 2)
  let kept (pa : Nat) : Bool := !(decide (pa < 4 * chipBytes) && used.testBit (2 + pa / chipBytes))
  { s with
    picks := s.picks + 3
    health := (v % 2 ^ 32, cnt % 2 ^ 32)
    cores := if used.testBit 0 then s.cores.map (fun (e : Nat × Core) => (e.1, { e.2 with sp := [], spPois := [] })) else s.cores
    dies := if used.testBit 1 then s.dies.map (fun d => { d with l2 := d.l2.map (fun (e : Nat × L2Line) => (e.1, ⟨[], true⟩)) }) else s.dies
    mem := s.mem.filter (fun e => kept e.1)
    memPois := s.memPois.filter (fun g => kept (32 * g)) }

/-- COMMAND_COMPLETION (R497): a launch window's command; or the next part of a scrub, one repeated at start included, or of a health
test (R515-R517). -/
def execCommandCompletion (module_ : Bool) (s : State) : Host.Outcome State Fault Refusal :=
  if module_ then
    if s.phase = 3 then .next { (s.scrubClear) with phase := 4 }
    else if s.phase = 4 then
      let s := s.healthTest
      let code := if s.rows.scrub then 12 else 13
      let s := { s with phase := 1, rows := { s.rows with scrub := false } }
      let s := s.post 4 code 0 (BitVec.ofNat 64 s.health.1) (BitVec.ofNat 64 s.health.2)
      .next (if (s.win 4).run.isSome then s.cmdDone 4 0 0 else s)
    else .fault .notEnabled
  else if 4 ≤ s.part then .fault .notEnabled
  else match (s.win s.part).run with
    | none => .fault .notEnabled
    | some r => match s.finishCmd s.part r with
      | some s => .next s
      | none => .fault .notEnabled

/-! ### Start-up and power loss (R507-R509, R516) -/

/-- Whether a start step has an alternative (Table 18.10). -/
def hasAlt (n : Nat) : Bool := [1, 4, 5, 6, 7].contains n
/-- One start step: its record, and whether the start ends there, with an alternative left or without (R507, log 26). -/
def startStep (prev : List JournalRec) (fails : Bool) (n cyc : Nat) : JournalRec × Option Bool :=
  let alt := prev.any (fun r => r.step == n && r.alt != 0)
  if !fails then (⟨n, if alt then 2 else 0, alt.toNat, cyc, []⟩, none)
  else if n = 8 then (⟨n, 1, 0, cyc, []⟩, none)
  else if hasAlt n && !alt then (⟨n, 3, 1, cyc, []⟩, some true)
  else (⟨n, 3, 0, cyc, []⟩, some false)
/-- The start steps in order, up to one that fails; bit n of `v` says that step n does. -/
def startSteps (prev : List JournalRec) (v cyc : Nat) : List JournalRec × Option Bool :=
  (nsRange 1 9).foldl (fun (acc : List JournalRec × Option Bool) n => match acc.2 with
    | some _ => acc
    | none =>
      let (r, e) := startStep prev (v.testBit n) n cyc
      (acc.1 ++ [r], e)) ([], none)

/-- A group's image at a start: the one last installed (R509). -/
def RowGroup.settle (g : RowGroup) : RowGroup := { g with image := g.next.getD g.image, next := none }
/-- The rows as a start reads them. -/
def Rows.settle (r : Rows) : Rows :=
  let img := r.owner.settle.image
  let r := if r.owner.next.isSome then
      { r with keys := Config.rowKeys img, debugen := Config.rowField img 2 != 0, mode := Config.rowField img 3 % 3 }
    else r
  { r with vendor := r.vendor.settle, owner := r.owner.settle }
/-- Whether a journal shows a step with an outcome. -/
def journalHas (js : List JournalRec) (n o : Nat) : Bool := js.any (fun r => r.step == n && r.outcome == o)

/-- The enabled sites of a quadrant (R18): those that the repair map, the disabled-unit map or a reduced map leaves. A site with a disabled core
goes too while a site without a name is left to stand in for it, the lowest-numbered first (log 53). -/
def keptSites (gone : Nat → Bool) (off : Nat → Nat → Bool) : List Nat :=
  let on := (List.range 9).filter (fun s => !gone s && !(List.range 4).all (off s))
  on.foldl (fun (l : List Nat) s => if (List.range 4).any (off s) ∧ 8 < l.length then l.filter (· != s) else l) on
/-- The enabled sites of quadrant q of die d by a vendor image; `cut` says which sites the reduced map leaves out. -/
def rowSites (img : List Byte) (cut : Nat → Bool) (d q : Nat) : List Nat :=
  let n := (4 * d + q) * 9
  keptSites (fun s => (Config.rowRepair img).contains (n + s) || cut (n + s)) (fun s i => (Config.rowDisabled img).contains ((n + s) * 4 + i))
/-- The site of every name of a die's clusters (R18): the eight lowest enabled sites in ascending order. -/
def siteNames (img : List Byte) (cut : Nat → Bool) : AMap Nat :=
  (List.range 128).map (fun c => (c, (rowSites img cut (c / 32) (c / 8 % 4)).getD (c % 8) (16 + c % 8)))
/-- The place of the Cistern slice above a core: its own site's (R18). -/
def slicePlace (sites : AMap Nat) (k : Nat) : Nat := (k / 32 * 32 + amGet (k / 4 % 8) sites (k / 4)) * 4 + k % 4
/-- The number under which a slice is known once the sites are named anew: its core's; 512 and its place where it lies above a site without a name. -/
def sliceName (old new : AMap Nat) (n : Nat) : Nat :=
  let x := if n < 512 then slicePlace old n else n - 512
  ((nsRange (x / 128 * 32) 32).find? (fun k => slicePlace new k == x)).getD (512 + x)
/-- The Cistern under new names of its slices. -/
def Cistern.rename (c : Cistern) (f : Nat → Nat) : Cistern :=
  let at_ (n x : Nat) : Nat := f (x / n) * n + x % n
  let cell (x : Nat) : Nat := if x < 2 ^ 30 then at_ (2 ^ 18) x else 2 ^ 30 + at_ 16384 (x - 2 ^ 30)
  { c with
    data := c.data.foldl (fun (m : Bytes) e => amPut 0 m (at_ (2 ^ 29) e.1) e.2) []
    valid := c.valid.foldl (fun (m : NSet) w => nsAdd (at_ (2 ^ 18) w) m) []
    bad := c.bad.foldl (fun (m : NSet) w => nsAdd (at_ (2 ^ 19) w) m) []
    wear := c.wear.foldl (fun (m : AMap Nat) e => amSet m (cell e.1) e.2) []
    remap := c.remap.foldl (fun (m : AMap Nat) e => amSet m (at_ (2 ^ 18) e.1) (cell e.2)) []
    used := c.used.foldl (fun (m : NSet) x => nsAdd (cell x) m) [] }
/-- The rows of the repair map served by their spares (R16). -/
def Cistern.repair (c : Cistern) (rs : List (Nat × Nat)) : Cistern :=
  rs.foldl (fun (c : Cistern) r =>
    let x := spareCell (r.1 / 2 ^ 18) r.2
    if (amFind r.1 c.remap).isSome then c else { c with remap := amSet c.remap r.1 x, used := nsAdd x c.used }) c

/-- What the reduced map of step 4's alternative leaves out: which sites fail their test is free (log 2). -/
def State.cutSites (s : State) (js : List JournalRec) (n : Nat) : Bool := journalHas js 4 2 && (Config.oracle s.picks).testBit n
/-- What the steps of a start that succeeds leave: rows in effect, clusters named and their slices with them (R18), remapped rows (R16), cores
without the disabled ones, links, VALID (R371), partitions. -/
def State.started (s : State) (js : List JournalRec) : State :=
  let rows := s.rows.settle
  let img := rows.vendor.image
  let sites := siteNames img (s.cutSites js)
  let off := (List.range 512).filter (fun k =>
    let x := amGet 16 sites (k / 4)
    decide (9 ≤ x) || (Config.rowDisabled img).contains ((k / 32 * 9 + x) * 4 + k % 4))
  let s := { s with rows := rows, picks := s.picks + 1, disabled := off, sites := sites
                    cist := (s.cist.rename (sliceName s.sites sites)).repair (Config.rowRemap img)
                    alts := BitVec.ofNat 8 ((js.filter (fun r => r.outcome == 1 || r.outcome == 2)).map (fun r => 2 ^ (r.step - 1))).sum }
  let s := if journalHas js 8 1 then (List.range 4).foldl (fun (s : State) d => (s.setEnd d 4 (fun x => { x with st := .down })).setEnd d 5 (fun x => { x with st := .down })) s else s
  let s := if journalHas js 7 2 then s.setEnd 0 6 (fun x => { x with st := .degraded, mods := 8 }) else s
  let s := { s with cist := { s.cist with valid := s.cist.valid.filter s.owned } }
  s.setMode rows.mode

/-- A start's journal with the reduced map in the record of step 4 (R18). -/
def State.journal (s : State) (js : List JournalRec) : List JournalRec :=
  let gone := (siteNames s.rows.settle.vendor.image (s.cutSites js)).filterMap (fun e => if 9 ≤ e.2 then some e.1 else none)
  js.map (fun (r : JournalRec) => if r.step = 4 then { r with map := gone } else r)
/-- POWER_ON (R507, R508): a run of the start steps; whether each step's work succeeds is free (log 2). A step that fails with an alternative
left is for the next run. -/
def execPowerOn (s : State) : Host.Outcome State Fault Refusal :=
  if s.phase ≠ 0 then .fault .notEnabled
  else
    let (js, e) := startSteps (s.rows.journals.headD []) (Config.oracle s.picks) (s.now % 2 ^ 40)
    let s := { s with picks := s.picks + 1 }
    let s := { s with rows := { s.rows with journals := (s.journal js :: s.rows.journals).take 8 } }
    match e with
    | some true => .next s
    | some false =>
      let s := { s with phase := 2 }
      .next (s.post 4 14 0 s.modstat 0)
    | none =>
      let s := s.started js
      let s := { s with phase := if s.rows.scrub then 3 else 1 }
      .next (s.post 4 14 0 s.modstat 0)

/-- POWER_LOSS (R370, R508, R509, R516): what the rows and the Cistern hold stays, with the memories outside the package. -/
def execPowerLoss (s : State) : Host.Outcome State Fault Refusal :=
  .next { State.reset with
    now := s.now
    picks := s.picks
    agenda := s.agenda
    mem := s.mem.filter (fun e => decide (4 * chipBytes ≤ e.1))
    memPois := s.memPois.filter (fun g => decide (4 * chipBytes ≤ 32 * g))
    cist := s.cist
    sites := s.sites
    rows := s.rows
    life := s.rows.life
    parts := Vector.ofFn (fun (i : Fin 4) => { State.reset.parts[i] with base := s.now, pump := ⟨s.parts[i].pump.sets, [], 0, []⟩ }) }

end Sys2Proof.Machine
end

