-- ==== Sys2Proof/Machine/Reserved.lean ====
section
/-! DEFINITION. Reserved opcodes and reserved field values (02_encoding R65, R72): ILLEGAL in the engine the lane belongs to,
before every wait. -/

namespace Sys2Proof.Machine

/-- The ILLEGAL of the lane in hand by a field of its word: a control-core lane raises it when it executes, any other at the
head of its queue (R65). -/
def reservedLane (flo flen : Nat) (s : State) : Host.Outcome State Fault Refusal :=
  if s.slot = 0 then ccLane s (ccIllegal flo flen)
  else settle s (.error (.trap (illegalAt (cmdEng s.slot s.cmd) (slotChan s.slot) s.cmd flo flen)))

/-- RESERVED_OPCODE (R72): the opcode field is named. -/
def execReservedOpcode (_w : Word) (s : State) : Host.Outcome State Fault Refusal := reservedLane 24 8 s

/-- RESERVED_FIELD_VALUE (R65): the first field that breaks a rule is named (log 1). -/
def execReservedFieldValue (w : Word) (s : State) : Host.Outcome State Fault Refusal :=
  match badFields w.toNat with
  | f :: _ => reservedLane f.lo f.len s
  | [] => reservedLane 24 8 s

end Sys2Proof.Machine
end

