-- ==== Sys2Proof/Machine/Spdm.lean ====
section
/-! DEFINITION. The module's SPDM responder (18_host_and_start R510, R511, R516); the formats of its messages are the standard's (log 20). -/

namespace Sys2Proof.Machine

/-- The certificate chain (log 13). -/
def certChain : List Byte := Config.vendorData 1
/-- A request the responder answers: `msg` are the request's bytes, `resp` gives the answer's contents and bytes from the transcript before it.
While a scrub has not come to its step 4 the answer is Busy, and no part of the transcript (R516). -/
def spdm (s : State) (msg : List Byte) (fresh : Bool) (resp : List Byte → SpdmResp × List Byte) : Host.Outcome State Fault Refusal :=
  if s.phase = 0 then .fault .notEnabled
  else if s.phase = 3 then .next { s with doe := some .busy }
  else
    let before := (if fresh then [] else s.talk) ++ msg
    let (r, bs) := resp before
    .next { s with doe := some r, talk := before ++ bs }

/-- GET_VERSION (R510): 1.2 and 1.3. -/
def execGetVersion (s : State) : Host.Outcome State Fault Refusal :=
  spdm s (Config.spdm 0 []) true (fun _ => (.version [0x12, 0x13], Config.spdm 1 [[0x12, 0x13]]))
/-- GET_CAPABILITIES (R510). -/
def execGetCapabilities (s : State) : Host.Outcome State Fault Refusal :=
  spdm s (Config.spdm 2 []) false (fun _ => (.capabilities, Config.spdm 3 []))
/-- NEGOTIATE_ALGORITHMS (R510): of an offer, bit 0 stands for EdDSA Ed25519 and bit 1 for SHA-384. -/
def execNegotiateAlgorithms (offer : BitVec 32) (s : State) : Host.Outcome State Fault Refusal :=
  let sel := bits offer.toNat 0 2
  spdm s (Config.spdm 4 [leBytes 4 offer.toNat]) false (fun _ => (.algorithms sel, Config.spdm 5 [leBytes 4 sel]))
/-- GET_DIGESTS (R510). -/
def execGetDigests (s : State) : Host.Outcome State Fault Refusal :=
  spdm s (Config.spdm 6 []) false (fun _ => (.digests (sha384 certChain), Config.spdm 7 [sha384 certChain]))
/-- GET_CERTIFICATE (R510). -/
def execGetCertificate (off len : BitVec 16) (s : State) : Host.Outcome State Fault Refusal :=
  let rest := certChain.drop off.toNat
  spdm s (Config.spdm 8 [leBytes 2 off.toNat, leBytes 2 len.toNat]) false (fun _ =>
    (.certificate (rest.take len.toNat) (rest.length - len.toNat), Config.spdm 9 [rest.take len.toNat]))
/-- CHALLENGE (R510): both signatures over one transcript. -/
def execChallenge (nonce : BitVec 256) (s : State) : Host.Outcome State Fault Refusal :=
  spdm s (Config.spdm 10 [leBytes 32 nonce.toNat]) false (fun t =>
    let d := sha384 certChain
    let body := t ++ Config.spdm 11 [leBytes 32 nonce.toNat, d]
    let sig := Config.sign25519 body
    let sig2 := Config.signMldsa body
    (.challenge nonce d sig sig2, Config.spdm 12 [leBytes 32 nonce.toNat, d, sig, sig2]))

/-- A record of the boot journal, 16 B (R508, log 21). -/
def JournalRec.bytes (r : JournalRec) : List Byte := (List.range 16).map (Config.layout ([r.step, r.outcome, r.alt, r.cycle] ++ r.map))
/-- The owner rows as they stand. -/
def Rows.ownerImage (r : Rows) : List Byte := if r.keys = Config.rowKeys r.owner.image then r.owner.image else Config.rowCleared r.owner.image
/-- The set-table entries in use: entry, state, ROOT and SETID. -/
def State.setsRaw (s : State) : List Byte :=
  s.parts.toList.flatMap (fun p => p.pump.sets.flatMap (fun e =>
    if e.2.st = .free then [] else leBytes 1 e.1 ++ leBytes 1 e.2.st.code ++ e.2.root ++ e.2.setid))
/-- A measurement block (Table 18.13). -/
def State.measurement (s : State) (i : Nat) : List Byte :=
  match i with
  | 1 => sha384 (Config.vendorData 2)
  | 2 => sha384 (Config.vendorData 3)
  | 3 => sha384 s.rows.vendor.image
  | 4 => sha384 s.rows.ownerImage
  | 5 => (s.rows.journals.headD []).flatMap JournalRec.bytes
  | 6 => s.setsRaw
  | 7 => leBytes 1 s.mode
  | _ => leBytes 4 s.health.1 ++ leBytes 4 s.health.2
/-- GET_MEASUREMENTS (R511): one block, or all of them for index 255. -/
def execGetMeasurements (nonce : BitVec 256) (index : BitVec 8) (s : State) : Host.Outcome State Fault Refusal :=
  let i := index.toNat
  let is := if i = 255 then nsRange 1 8 else if 1 ≤ i ∧ i ≤ 8 then [i] else []
  let blocks := is.map (fun i => (i, s.measurement i))
  spdm s (Config.spdm 13 [leBytes 32 nonce.toNat, [BitVec.ofNat 8 i]]) false (fun t =>
    let body := t ++ Config.spdm 14 (leBytes 32 nonce.toNat :: blocks.map (·.2))
    let sig := Config.sign25519 body
    let sig2 := Config.signMldsa body
    (.measurements nonce blocks sig sig2, Config.spdm 15 (leBytes 32 nonce.toNat :: sig :: sig2 :: blocks.map (·.2))))

/-- The request codes that the responder supports (R510), by their place in its list. -/
def spdmSupported : List Nat := [0x84, 0xE1, 0xE3, 0x81, 0x82, 0x83, 0xE0]
/-- UNSUPPORTED_SPDM_REQUEST (R510): refused with an error; the codes of the supported requests are the standard's (log 20). -/
def execUnsupportedSpdmRequest (code : BitVec 8) (s : State) : Host.Outcome State Fault Refusal :=
  if spdmSupported.contains code.toNat then .fault .notEnabled
  else spdm s (Config.spdm 16 [[code]]) false (fun _ => (.unsupported code.toNat, Config.spdm 17 [[code]]))

end Sys2Proof.Machine
end

