-- ==== Sys2Proof/Machine/Dispatch.lean ====
section
/-! DEFINITION. The meaning of each instruction and event: one arm per row of the operation table. -/

namespace Sys2Proof.Machine

/-- What an instruction or event does. -/
def exec (i : Instr) (s : State) : Host.Outcome State Fault Refusal :=
  match i with
  | .trapZ bits => Sys2Proof.Machine.execTrapZ bits s
  | .add d a b w => Sys2Proof.Machine.execAdd d a b w s
  | .sub d a b w => Sys2Proof.Machine.execSub d a b w s
  | .and d a b w => Sys2Proof.Machine.execAnd d a b w s
  | .or d a b w => Sys2Proof.Machine.execOr d a b w s
  | .xor d a b w => Sys2Proof.Machine.execXor d a b w s
  | .shl d a b w => Sys2Proof.Machine.execShl d a b w s
  | .shr d a b w => Sys2Proof.Machine.execShr d a b w s
  | .sra d a b w => Sys2Proof.Machine.execSra d a b w s
  | .mul d a b w => Sys2Proof.Machine.execMul d a b w s
  | .mulh d a b w u => Sys2Proof.Machine.execMulh d a b w u s
  | .div d a b w u => Sys2Proof.Machine.execDiv d a b w u s
  | .rem d a b w u => Sys2Proof.Machine.execRem d a b w u s
  | .min d a b w u => Sys2Proof.Machine.execMin d a b w u s
  | .max d a b w u => Sys2Proof.Machine.execMax d a b w u s
  | .addi d a imm => Sys2Proof.Machine.execAddi d a imm s
  | .andi d a imm => Sys2Proof.Machine.execAndi d a imm s
  | .ori d a imm => Sys2Proof.Machine.execOri d a imm s
  | .xori d a imm => Sys2Proof.Machine.execXori d a imm s
  | .shli d a w sh => Sys2Proof.Machine.execShli d a w sh s
  | .shri d a w sh => Sys2Proof.Machine.execShri d a w sh s
  | .srai d a w sh => Sys2Proof.Machine.execSrai d a w sh s
  | .cmp pd a b comb w c => Sys2Proof.Machine.execCmp pd a b comb w c s
  | .cmpi pd a c imm => Sys2Proof.Machine.execCmpi pd a c imm s
  | .pcomb pd pa pb lut => Sys2Proof.Machine.execPcomb pd pa pb lut s
  | .sel d a b neg p => Sys2Proof.Machine.execSel d a b neg p s
  | .movi d imm => Sys2Proof.Machine.execMovi d imm s
  | .movhi d imm => Sys2Proof.Machine.execMovhi d imm s
  | .lea d a pcrel sc imm => Sys2Proof.Machine.execLea d a pcrel sc imm s
  | .cld d a sz off => Sys2Proof.Machine.execCld d a sz off s
  | .cst d a sz off => Sys2Proof.Machine.execCst d a sz off s
  | .sld d a sz off => Sys2Proof.Machine.execSld d a sz off s
  | .sst d a sz off => Sys2Proof.Machine.execSst d a sz off s
  | .camo d a b scope ord sz64 op => Sys2Proof.Machine.execCamo d a b scope ord sz64 op s
  | .cfence kind scope => Sys2Proof.Machine.execCfence kind scope s
  | .b p neg hint off => Sys2Proof.Machine.execB p neg hint off s
  | .call p neg hint off => Sys2Proof.Machine.execCall p neg hint off s
  | .jr a => Sys2Proof.Machine.execJr a s
  | .callr d a => Sys2Proof.Machine.execCallr d a s
  | .loop lc a sg stg len => Sys2Proof.Machine.execLoop lc a sg stg len s
  | .loopi lc sg stg len n => Sys2Proof.Machine.execLoopi lc sg stg len n s
  | .qjoin mask => Sys2Proof.Machine.execQjoin mask s
  | .qflush cp q => Sys2Proof.Machine.execQflush cp q s
  | .sysr d num => Sys2Proof.Machine.execSysr d num s
  | .sysw a num => Sys2Proof.Machine.execSysw a num s
  | .bkfmtWrite n a => Sys2Proof.Machine.execBkfmtWrite n a s
  | .bkbndWrite n a => Sys2Proof.Machine.execBkbndWrite n a s
  | .paceGapWrite e a => Sys2Proof.Machine.execPaceGapWrite e a s
  | .exit status => Sys2Proof.Machine.execExit status s
  | .token slot => Sys2Proof.Machine.execToken slot s
  | .brk code => Sys2Proof.Machine.execBrk code s
  | .mxcfg n a imm => Sys2Proof.Machine.execMxcfg n a imm s
  | .mxcfgT a imm => Sys2Proof.Machine.execMxcfgT a imm s
  | .mxst d clr k => Sys2Proof.Machine.execMxst d clr k s
  | .mxstAll d clr => Sys2Proof.Machine.execMxstAll d clr s
  | .pget d => Sys2Proof.Machine.execPget d s
  | .pset a mask => Sys2Proof.Machine.execPset a mask s
  | .bitcPop d a w => Sys2Proof.Machine.execBitcPop d a w s
  | .bitcClz d a w => Sys2Proof.Machine.execBitcClz d a w s
  | .bitcCtz d a w => Sys2Proof.Machine.execBitcCtz d a w s
  | .ext d a b sg => Sys2Proof.Machine.execExt d a b sg s
  | .ins d a b => Sys2Proof.Machine.execIns d a b s
  | .lcr d n => Sys2Proof.Machine.execLcr d n s
  | .lcw n a => Sys2Proof.Machine.execLcw n a s
  | .pblk cls p cnt pat => Sys2Proof.Machine.execPblk cls p cnt pat s
  | .contextRestore area => Sys2Proof.Machine.execContextRestore area s
  | .debugStep eng => Sys2Proof.Machine.execDebugStep eng s
  | .debugWindowAccess write off v => Sys2Proof.Machine.execDebugWindowAccess write off v s
  | .waittmo slot => Sys2Proof.Machine.execWaittmo slot s
  | .uncorrectableError site => Sys2Proof.Machine.execUncorrectableError site s
  | .correctedError a => Sys2Proof.Machine.execCorrectedError a s
  | .pageWalk va write => Sys2Proof.Machine.execPageWalk va write s
  | .ldT o => Sys2Proof.Machine.execLdT o s
  | .ldS o => Sys2Proof.Machine.execLdS o s
  | .ldG o ti => Sys2Proof.Machine.execLdG o ti s
  | .ldGs o ti => Sys2Proof.Machine.execLdGs o ti s
  | .ldB o sp => Sys2Proof.Machine.execLdB o sp s
  | .ldW o => Sys2Proof.Machine.execLdW o s
  | .ldAcq o sp scope => Sys2Proof.Machine.execLdAcq o sp scope s
  | .pf tok nl xa => Sys2Proof.Machine.execPf tok nl xa s
  | .pfW tok nw xa => Sys2Proof.Machine.execPfW tok nw xa s
  | .stT o => Sys2Proof.Machine.execStT o s
  | .stS o => Sys2Proof.Machine.execStS o s
  | .stSc o ti => Sys2Proof.Machine.execStSc o ti s
  | .stSs o ti => Sys2Proof.Machine.execStSs o ti s
  | .stRel o sp scope => Sys2Proof.Machine.execStRel o sp scope s
  | .stRed o red semen sem => Sys2Proof.Machine.execStRed o red semen sem s
  | .pubv tok win => Sys2Proof.Machine.execPubv tok win s
  | .vadd tok td ta b rm sat => Sys2Proof.Machine.execVadd tok td ta b rm sat s
  | .vsub tok td ta b rm sat => Sys2Proof.Machine.execVsub tok td ta b rm sat s
  | .vmul tok td ta b rm sat => Sys2Proof.Machine.execVmul tok td ta b rm sat s
  | .vfma tok td ta b tc rm => Sys2Proof.Machine.execVfma tok td ta b tc rm s
  | .vfms tok td ta b tc rm => Sys2Proof.Machine.execVfms tok td ta b tc rm s
  | .vmin tok td ta b => Sys2Proof.Machine.execVmin tok td ta b s
  | .vmax tok td ta b => Sys2Proof.Machine.execVmax tok td ta b s
  | .vabs tok td ta sat => Sys2Proof.Machine.execVabs tok td ta sat s
  | .vneg tok td ta sat => Sys2Proof.Machine.execVneg tok td ta sat s
  | .vcmp tok td ta b c => Sys2Proof.Machine.execVcmp tok td ta b c s
  | .vsel tok td tm ta b => Sys2Proof.Machine.execVsel tok td tm ta b s
  | .vand tok td ta b => Sys2Proof.Machine.execVand tok td ta b s
  | .vor tok td ta b => Sys2Proof.Machine.execVor tok td ta b s
  | .vxor tok td ta b => Sys2Proof.Machine.execVxor tok td ta b s
  | .vshl tok td ta b => Sys2Proof.Machine.execVshl tok td ta b s
  | .vshr tok td ta b ari => Sys2Proof.Machine.execVshr tok td ta b ari s
  | .vcvt tok td ta tb tc ss ds ty rm sat part => Sys2Proof.Machine.execVcvt tok td ta tb tc ss ds ty rm sat part s
  | .vexp2 tok td ta => Sys2Proof.Machine.execVexp2 tok td ta s
  | .vlog2 tok td ta => Sys2Proof.Machine.execVlog2 tok td ta s
  | .vrcp tok td ta => Sys2Proof.Machine.execVrcp tok td ta s
  | .vrsq tok td ta => Sys2Proof.Machine.execVrsq tok td ta s
  | .vtanh tok td ta => Sys2Proof.Machine.execVtanh tok td ta s
  | .vredr tok td ta f sat => Sys2Proof.Machine.execVredr tok td ta f sat s
  | .vredc tok td ta f sat => Sys2Proof.Machine.execVredc tok td ta f sat s
  | .vscan tok td ta tf f sat exc row => Sys2Proof.Machine.execVscan tok td ta tf f sat exc row s
  | .vtr tok td ta => Sys2Proof.Machine.execVtr tok td ta s
  | .vbcr tok td ta xb => Sys2Proof.Machine.execVbcr tok td ta xb s
  | .vbcc tok td ta xb => Sys2Proof.Machine.execVbcc tok td ta xb s
  | .vpermB tok td ta tb tc nib => Sys2Proof.Machine.execVpermB tok td ta tb tc nib s
  | .vrng tok td xa xb f => Sys2Proof.Machine.execVrng tok td xa xb f s
  | .vbnd tok td ta bank => Sys2Proof.Machine.execVbnd tok td ta bank s
  | .vmov tok td ta => Sys2Proof.Machine.execVmov tok td ta s
  | .vmovLoad tok td xa => Sys2Proof.Machine.execVmovLoad tok td xa s
  | .vmovStore tok ts xa => Sys2Proof.Machine.execVmovStore tok ts xa s
  | .vfill tok td ty xa iota xb => Sys2Proof.Machine.execVfill tok td ty xa iota xb s
  | .mxgo tok => Sys2Proof.Machine.execMxgo tok s
  | .mxdr tok td k ty clr part => Sys2Proof.Machine.execMxdr tok td k ty clr part s
  | .mxdrb tok k shape xa xb nrow clr => Sys2Proof.Machine.execMxdrb tok k shape xa xb nrow clr s
  | .mxclr tok mask => Sys2Proof.Machine.execMxclr tok mask s
  | .mxld tok ta k part => Sys2Proof.Machine.execMxld tok ta k part s
  | .mxsc tok => Sys2Proof.Machine.execMxsc tok s
  | .mxscSp tok => Sys2Proof.Machine.execMxscSp tok s
  | .mxscW tok => Sys2Proof.Machine.execMxscW tok s
  | .cpWait ch xa => Sys2Proof.Machine.execCpWait ch xa s
  | .cpTw sp ch tn xa cnt => Sys2Proof.Machine.execCpTw sp ch tn xa cnt s
  | .cpCancel ch => Sys2Proof.Machine.execCpCancel ch s
  | .copyTransferStart ch => Sys2Proof.Machine.execCopyTransferStart ch s
  | .syncWordArrival k => Sys2Proof.Machine.execSyncWordArrival k s
  | .copyTransferComplete ch => Sys2Proof.Machine.execCopyTransferComplete ch s
  | .swInit ch xa xb => Sys2Proof.Machine.execSwInit ch xa xb s
  | .swWait ch xa xg => Sys2Proof.Machine.execSwWait ch xa xg s
  | .swWaitSt ch xa xg xr => Sys2Proof.Machine.execSwWaitSt ch xa xg xr s
  | .sqSub xa st xb => Sys2Proof.Machine.execSqSub xa st xb s
  | .sqGpr cnt slot xa => Sys2Proof.Machine.execSqGpr cnt slot xa s
  | .sqGpw slot xa => Sys2Proof.Machine.execSqGpw slot xa s
  | .sqCrd xa => Sys2Proof.Machine.execSqCrd xa s
  | .sqAcc k xa => Sys2Proof.Machine.execSqAcc k xa s
  | .barAlloc scope xa => Sys2Proof.Machine.execBarAlloc scope xa s
  | .barInit xa xn => Sys2Proof.Machine.execBarInit xa xn s
  | .barInitM sp scope xa xn => Sys2Proof.Machine.execBarInitM sp scope xa xn s
  | .barArr eng xa => Sys2Proof.Machine.execBarArr eng xa s
  | .barWait eng xa xg => Sys2Proof.Machine.execBarWait eng xa xg s
  | .barArw eng xa => Sys2Proof.Machine.execBarArw eng xa s
  | .barFree xa => Sys2Proof.Machine.execBarFree xa s
  | .barrierNotification k => Sys2Proof.Machine.execBarrierNotification k s
  | .staggeredRelease slot => Sys2Proof.Machine.execStaggeredRelease slot s
  | .gateReached slot => Sys2Proof.Machine.execGateReached slot s
  | .semInit sem xa => Sys2Proof.Machine.execSemInit sem xa s
  | .semSigImm eng sem cnt => Sys2Proof.Machine.execSemSigImm eng sem cnt s
  | .semSigReg eng sem xa => Sys2Proof.Machine.execSemSigReg eng sem xa s
  | .semWaitImm eng sem cnt => Sys2Proof.Machine.execSemWaitImm eng sem cnt s
  | .semWaitReg eng sem xa => Sys2Proof.Machine.execSemWaitReg eng sem xa s
  | .wsRdCore xa xg => Sys2Proof.Machine.execWsRdCore xa xg s
  | .wsRdBar xa xg => Sys2Proof.Machine.execWsRdBar xa xg s
  | .wsRdSem xa xg => Sys2Proof.Machine.execWsRdSem xa xg s
  | .pmProg sg xa xb => Sys2Proof.Machine.execPmProg sg xa xb s
  | .pmVer sg xa xb => Sys2Proof.Machine.execPmVer sg xa xb s
  | .pmWear sg xa => Sys2Proof.Machine.execPmWear sg xa s
  | .pmRemap sg xa => Sys2Proof.Machine.execPmRemap sg xa s
  | .pmClr sg xa => Sys2Proof.Machine.execPmClr sg xa s
  | .pmClrR sg xa => Sys2Proof.Machine.execPmClrR sg xa s
  | .pmOpen sg xa xb => Sys2Proof.Machine.execPmOpen sg xa xb s
  | .pmSeal sg xa xb => Sys2Proof.Machine.execPmSeal sg xa xb s
  | .pmAct sg xa => Sys2Proof.Machine.execPmAct sg xa s
  | .pmStat sg xa => Sys2Proof.Machine.execPmStat sg xa s
  | .pumpJob d => Sys2Proof.Machine.execPumpJob d s
  | .aqSend td tq xa st => Sys2Proof.Machine.execAqSend td tq xa st s
  | .aqSendResultArrival k => Sys2Proof.Machine.execAqSendResultArrival k s
  | .merge k => Sys2Proof.Machine.execMerge k s
  | .mergeTimeout k => Sys2Proof.Machine.execMergeTimeout k s
  | .aqKvapp tk tv xa st => Sys2Proof.Machine.execAqKvapp tk tv xa st s
  | .aqTins tp xa st => Sys2Proof.Machine.execAqTins tp xa st s
  | .aqTacc tl xa st => Sys2Proof.Machine.execAqTacc tl xa st s
  | .aqComp xa st => Sys2Proof.Machine.execAqComp xa st s
  | .aqAtt xa xp st => Sys2Proof.Machine.execAqAtt xa xp st s
  | .aqDet xa st => Sys2Proof.Machine.execAqDet xa st s
  | .aqSeqOpen xa st => Sys2Proof.Machine.execAqSeqOpen xa st s
  | .aqSeqClose xa st => Sys2Proof.Machine.execAqSeqClose xa st s
  | .aqSeqGrow xa st => Sys2Proof.Machine.execAqSeqGrow xa st s
  | .aqSeqTrunc xa st => Sys2Proof.Machine.execAqSeqTrunc xa st s
  | .aqSeqPub xa st => Sys2Proof.Machine.execAqSeqPub xa st s
  | .aqSeqEvict xa st => Sys2Proof.Machine.execAqSeqEvict xa st s
  | .aqSeqTclr xa st => Sys2Proof.Machine.execAqSeqTclr xa st s
  | .fxBc td ts xa st => Sys2Proof.Machine.execFxBc td ts xa st s
  | .fxAr red td ts xa st => Sys2Proof.Machine.execFxAr red td ts xa st s
  | .fxRd red td ts xa st => Sys2Proof.Machine.execFxRd red td ts xa st s
  | .fxAmax td ts xa xb st => Sys2Proof.Machine.execFxAmax td ts xa xb st s
  | .fxWait xa => Sys2Proof.Machine.execFxWait xa s
  | .fxStat lnk xa => Sys2Proof.Machine.execFxStat lnk xa s
  | .collectiveContribution k corrupt => Sys2Proof.Machine.execCollectiveContribution k corrupt s
  | .roundTimeout k => Sys2Proof.Machine.execRoundTimeout k s
  | .collectiveDelivery k => Sys2Proof.Machine.execCollectiveDelivery k s
  | .flitReplay d lnk => Sys2Proof.Machine.execFlitReplay d lnk s
  | .retrainComplete d lnk up => Sys2Proof.Machine.execRetrainComplete d lnk up s
  | .linkModuleLoss d lnk left => Sys2Proof.Machine.execLinkModuleLoss d lnk left s
  | .ckSeal st => Sys2Proof.Machine.execCkSeal st s
  | .ckRp line xa xb => Sys2Proof.Machine.execCkRp line xa xb s
  | .ckRead xa => Sys2Proof.Machine.execCkRead xa s
  | .dieReset d cause => Sys2Proof.Machine.execDieReset d cause s
  | .dieRejoin d => Sys2Proof.Machine.execDieRejoin d s
  | .chipletReset c => Sys2Proof.Machine.execChipletReset c s
  | .temperatureReading d q celsius => Sys2Proof.Machine.execTemperatureReading d q celsius s
  | .throttleDecay d q => Sys2Proof.Machine.execThrottleDecay d q s
  | .currentThrottleExpiry d q => Sys2Proof.Machine.execCurrentThrottleExpiry d q s
  | .clusterGating k => Sys2Proof.Machine.execClusterGating k s
  | .clusterWake k => Sys2Proof.Machine.execClusterWake k s
  | .evbaseWrite v => Sys2Proof.Machine.execEvbaseWrite v s
  | .evsizeWrite v => Sys2Proof.Machine.execEvsizeWrite v s
  | .hostWindowRegisterWrite module off v => Sys2Proof.Machine.execHostWindowRegisterWrite module off v s
  | .hostMemRead pa n => Sys2Proof.Machine.execHostMemRead pa n s
  | .hostMemWrite pa bytes => Sys2Proof.Machine.execHostMemWrite pa bytes s
  | .negotiateAlgorithms offer => Sys2Proof.Machine.execNegotiateAlgorithms offer s
  | .getCertificate off len => Sys2Proof.Machine.execGetCertificate off len s
  | .challenge nonce => Sys2Proof.Machine.execChallenge nonce s
  | .getMeasurements nonce index => Sys2Proof.Machine.execGetMeasurements nonce index s
  | .commandCompletion module => Sys2Proof.Machine.execCommandCompletion module s
  | .peerPackageAccess pa acc sz64 v cmp => Sys2Proof.Machine.execPeerPackageAccess pa acc sz64 v cmp s
  | .reservedOpcode w => Sys2Proof.Machine.execReservedOpcode w s
  | .reservedFieldValue w => Sys2Proof.Machine.execReservedFieldValue w s
  | .reservedCommandCode module code => Sys2Proof.Machine.execReservedCommandCode module code s
  | .unsupportedSpdmRequest code => Sys2Proof.Machine.execUnsupportedSpdmRequest code s
  | .fetchLine => Sys2Proof.Machine.execFetchLine s
  | .speculationCommit => Sys2Proof.Machine.execSpeculationCommit s
  | .misprediction => Sys2Proof.Machine.execMisprediction s
  | .nop => Sys2Proof.Machine.execNop s
  | .iterationRetirement => Sys2Proof.Machine.execIterationRetirement s
  | .loopRollback => Sys2Proof.Machine.execLoopRollback s
  | .loopReentry => Sys2Proof.Machine.execLoopReentry s
  | .exitCompletion => Sys2Proof.Machine.execExitCompletion s
  | .faultStop => Sys2Proof.Machine.execFaultStop s
  | .preemption => Sys2Proof.Machine.execPreemption s
  | .saveSequence => Sys2Proof.Machine.execSaveSequence s
  | .debuggerHaltRequest => Sys2Proof.Machine.execDebuggerHaltRequest s
  | .dbgcmpMatch => Sys2Proof.Machine.execDbgcmpMatch s
  | .debugGo => Sys2Proof.Machine.execDebugGo s
  | .taskDispatch => Sys2Proof.Machine.execTaskDispatch s
  | .taskStaging => Sys2Proof.Machine.execTaskStaging s
  | .prewaitExpiry => Sys2Proof.Machine.execPrewaitExpiry s
  | .fcastUpdate => Sys2Proof.Machine.execFcastUpdate s
  | .readyListEntry => Sys2Proof.Machine.execReadyListEntry s
  | .heldReplayStart => Sys2Proof.Machine.execHeldReplayStart s
  | .heldPatch => Sys2Proof.Machine.execHeldPatch s
  | .heldSubmission => Sys2Proof.Machine.execHeldSubmission s
  | .runRetirement => Sys2Proof.Machine.execRunRetirement s
  | .sqYield => Sys2Proof.Machine.execSqYield s
  | .sqYieldAl => Sys2Proof.Machine.execSqYieldAl s
  | .deferredBlockFree => Sys2Proof.Machine.execDeferredBlockFree s
  | .ckOpen => Sys2Proof.Machine.execCkOpen s
  | .ckOpenLv => Sys2Proof.Machine.execCkOpenLv s
  | .seal => Sys2Proof.Machine.execSeal s
  | .sealCompletion => Sys2Proof.Machine.execSealCompletion s
  | .sealFailure => Sys2Proof.Machine.execSealFailure s
  | .submit => Sys2Proof.Machine.execSubmit s
  | .replay => Sys2Proof.Machine.execReplay s
  | .patch => Sys2Proof.Machine.execPatch s
  | .accw => Sys2Proof.Machine.execAccw s
  | .preempt => Sys2Proof.Machine.execPreempt s
  | .release => Sys2Proof.Machine.execRelease s
  | .abort => Sys2Proof.Machine.execAbort s
  | .pooladd => Sys2Proof.Machine.execPooladd s
  | .pooldel => Sys2Proof.Machine.execPooldel s
  | .setregMxkmax => Sys2Proof.Machine.execSetregMxkmax s
  | .setregActhr => Sys2Proof.Machine.execSetregActhr s
  | .setregPrewait => Sys2Proof.Machine.execSetregPrewait s
  | .setregWtmo => Sys2Proof.Machine.execSetregWtmo s
  | .setregStagger => Sys2Proof.Machine.execSetregStagger s
  | .setregPaceFloor => Sys2Proof.Machine.execSetregPaceFloor s
  | .setregGatectl => Sys2Proof.Machine.execSetregGatectl s
  | .setregFxtmo => Sys2Proof.Machine.execSetregFxtmo s
  | .setregFxdom => Sys2Proof.Machine.execSetregFxdom s
  | .setregAtgeo => Sys2Proof.Machine.execSetregAtgeo s
  | .setregThrottle => Sys2Proof.Machine.execSetregThrottle s
  | .setregQosShare => Sys2Proof.Machine.execSetregQosShare s
  | .setregDomainCollectives => Sys2Proof.Machine.execSetregDomainCollectives s
  | .ptroot => Sys2Proof.Machine.execPtroot s
  | .tlbinv => Sys2Proof.Machine.execTlbinv s
  | .pubwin => Sys2Proof.Machine.execPubwin s
  | .kvreg => Sys2Proof.Machine.execKvreg s
  | .kvout => Sys2Proof.Machine.execKvout s
  | .kvin => Sys2Proof.Machine.execKvin s
  | .ckdom => Sys2Proof.Machine.execCkdom s
  | .route => Sys2Proof.Machine.execRoute s
  | .linkup => Sys2Proof.Machine.execLinkup s
  | .dieresetCmd => Sys2Proof.Machine.execDieresetCmd s
  | .preset => Sys2Proof.Machine.execPreset s
  | .dbgsel => Sys2Proof.Machine.execDbgsel s
  | .partcfg => Sys2Proof.Machine.execPartcfg s
  | .cfgupd => Sys2Proof.Machine.execCfgupd s
  | .scrub => Sys2Proof.Machine.execScrub s
  | .health => Sys2Proof.Machine.execHealth s
  | .liferd => Sys2Proof.Machine.execLiferd s
  | .snapset => Sys2Proof.Machine.execSnapset s
  | .snap => Sys2Proof.Machine.execSnap s
  | .snapshotWriteOut => Sys2Proof.Machine.execSnapshotWriteOut s
  | .lifetimeRecordWrite => Sys2Proof.Machine.execLifetimeRecordWrite s
  | .getVersion => Sys2Proof.Machine.execGetVersion s
  | .getCapabilities => Sys2Proof.Machine.execGetCapabilities s
  | .getDigests => Sys2Proof.Machine.execGetDigests s
  | .powerOn => Sys2Proof.Machine.execPowerOn s
  | .powerLoss => Sys2Proof.Machine.execPowerLoss s

end Sys2Proof.Machine
end

