-- ==== Sys2Proof/Machine/Turns.lean ====
section
/-! DEFINITION. Who may move next, and what a turn brings to `exec` (log 3): the heads of the queues, fetch, the module's own events; and the
line that `State.withFetchWord` places (log 12). -/

namespace Sys2Proof.Machine

/-! ### Which engines may move -/

/-- Whether a roll-back under way holds an entry until its loop is entered again (R158): it belongs to the poisoned iteration or a later one. -/
def Core.rollHolds (c : Core) (k : Slot) (e : QEntry) : Bool :=
  match c.loops with
  | l :: _ =>
    match l.roll with
    | none => false
    | some i =>
      let late (m : Cmd) : Bool := (m.tagIn l.ser).any (fun (g : IterTag) => g.tail || (if k = 0 then decide (i + l.s ≤ g.pass + 1) else decide (i ≤ g.it)))
      match e with
      | .cmd m => late m || (k == 0 && l.ccDrop == some m.idx)
      | .gate m => late m
      | .pass ser j _ => ser == l.ser && decide (i + l.s ≤ j + 1)
      | _ => false
  | [] => false

/-- Whether the engine of a slot may act on the head of its queue: its die runs, its cluster is powered, no roll-back holds the entry; a prediction
whose predicate is written is resolved first (R33), and of a restored core every transfer is replayed first (R179). A core that is halted, or comes to rest,
finishes what its engines had begun, a nest up to its next retirement (R168, R172, R180); a single-stepped core starts commands of the stepped engine
alone (R182). -/
def State.mayRun (s : State) (k : Nat) (slot : Slot) : Bool :=
  let c := s.core k
  let begun := match c.headEntry slot with
    | some (.cmd m) => (m.started || m.sealing) && !(slot == 4 && c.mx.nest.any (fun (n : Nest) => n.rested))
    | _ => false
  (s.die (coreDie k)).up && !s.gated.contains (k / 4) && !(c.headEntry slot).any (c.rollHolds slot) &&
    (match c.mode with
      | .running => !(c.fetch.spec.any (fun sp => sp.got.isSome)) && (decide (6 ≤ slot) || !c.replaying) &&
          (if c.dbg.halted then begun else if c.dbg.stepping then begun || slotEng slot == c.dbg.stepeng.toNat else true)
      | .idle => false
      | _ => decide (slot < 6) && begun && !c.stoppedAt slot)

/-- Commands of a queue that have started, and the one behind them, not speculative, which may start while they are in flight (R214, R232, R253):
at most 16 loads or stores, two VX commands; a command whose tiles none of those still has to write. -/
def Core.early (c : Core) (slot : Slot) : Option Cmd :=
  let es := (c.queue slot).filter (fun e => !e.isHeld)
  let begun (e : QEntry) : Bool := match e with | .cmd m => m.started | _ => false
  let flight := cmdsOf (es.takeWhile begun)
  match es.dropWhile begun with
  | .cmd m :: _ =>
    let t := tilesOf m.instr
    let clash := flight.any (fun (a : Cmd) => (tilesOf a.instr).2.any (fun d => (t.1 ++ t.2).any (fun r => r.n == d.n)))
    if flight ≠ [] ∧ flight.length < (if slot = 3 then 2 else 16) ∧ 1 ≤ slot ∧ slot ≤ 3 ∧ m.spec = .none ∧ clash = false then some m else none
  | _ => none

/-- What a turn of an engine comes to: an instruction or event in hand; a change of its own; nothing. -/
inductive Go
  | exec (i : Instr) (s : State)
  | next (s : State)
  | none

/-- The turn of an engine at the head of its queue. -/
def State.prepare (s : State) (k : Nat) (slot : Slot) : Go :=
  let s := { s with cur := k, slot := slot }
  let c := s.core k
  if !s.mayRun k slot || !s.paced k slot then .none
  else if c.matches slot then .exec .dbgcmpMatch s
  else if slot = 4 ∧ c.mx.nest.isSome then .exec .runRetirement s
  else match c.headEntry slot with
    | some (.cmd m) => .exec m.instr { s with cmd := m }
    | some (.gate _) => .exec (.gateReached (BitVec.ofNat 4 slot)) s
    | some (.pass ser j lc) => .next (s.setCore k (c.startPass ser j lc))
    | some (.xfer _) => .exec (.copyTransferStart (BitVec.ofNat 3 (slot - 6))) s
    | _ => .none

/-- The first queue that a routed line has given a head. -/
def Core.newHead (old new : Core) : Option Slot := (List.range 14).find? (fun k => (old.queue k).isEmpty && !(new.queue k).isEmpty)

/-! ### Events -/

/-- Whether an instruction comes by a queue or by fetch, and so is no event. -/
def isLane (i : Instr) : Bool :=
  match i with
  | .reservedOpcode _ | .reservedFieldValue _ | .fetchLine => true
  | _ => (encode i).isSome
/-- The engine that an event needs able to act. -/
def eventSlot (i : Instr) : Option Slot :=
  match i with
  | .gateReached k | .staggeredRelease k => some k.toNat
  | .runRetirement => some 4
  | _ => none
/-- Whether a turn may bring an event to a core; a copy engine acts while its die runs. -/
def State.mayHappen (s : State) (k : Nat) (i : Instr) : Bool :=
  !isLane i && (eventSlot i).all (s.mayRun k) && (match i with
    | .copyTransferStart ch => (s.die (coreDie k)).up && !s.gated.contains (k / 4) && s.paced k (6 + ch.toNat)
    | _ => true)

/-- The events that the hardware itself may bring about, for a core. -/
def State.coreEvents (s : State) (k : Nat) : List Instr :=
  let c := s.core k
  let slots (f : BitVec 4 → Instr) : List Instr := (List.range 14).map (fun i => f (BitVec.ofNat 4 i))
  let each (n : Nat) (f : Nat → Instr) : List Instr := (List.range n).map f
  [.speculationCommit, .misprediction, .iterationRetirement, .loopRollback, .loopReentry, .exitCompletion, .faultStop, .preemption, .saveSequence,
    .taskStaging, .clusterGating (BitVec.ofNat 7 (k / 4)), .clusterWake (BitVec.ofNat 7 (k / 4))] ++
  slots .token ++ slots .waittmo ++ slots .staggeredRelease ++
  each 8 (fun ch => .copyTransferStart (BitVec.ofNat 3 ch)) ++ each 8 (fun ch => .copyTransferComplete (BitVec.ofNat 3 ch)) ++
  each c.arrivalList.length (fun i => .syncWordArrival (BitVec.ofNat 8 i)) ++
  each c.atq.length (fun i => .aqSendResultArrival (BitVec.ofNat 4 i)) ++
  each c.atq.length (fun i => .merge (BitVec.ofNat 4 i)) ++
  each c.atq.length (fun i => .mergeTimeout (BitVec.ofNat 4 i)) ++
  each c.fxq.length (fun i => .collectiveDelivery (BitVec.ofNat 4 i))
/-- The same for a partition. -/
def State.partEvents (s : State) (p : Nat) : List Instr :=
  let each (n : Nat) (f : Nat → Instr) : List Instr := (List.range n).map f
  [.taskDispatch, .prewaitExpiry, .fcastUpdate, .readyListEntry, .heldReplayStart, .heldPatch, .heldSubmission, .deferredBlockFree, .seal,
    .sealCompletion, .sealFailure, .commandCompletion false] ++
  (s.getPart p).sched.ctxs.map (fun x => .contextRestore (BitVec.ofNat 64 x.area)) ++
  each (s.flying p).length (fun i => .collectiveContribution (BitVec.ofNat 8 i) false) ++
  each ((s.getPart p).rounds.open_.length + s.domain.open_.length) (fun i => .roundTimeout (BitVec.ofNat 8 i))
/-- The same for the module. -/
def State.moduleEvents (s : State) : List Instr :=
  let dies (f : BitVec 2 → Instr) : List Instr := (List.range 4).map (fun d => f (BitVec.ofNat 2 d))
  let quads (f : BitVec 2 → BitVec 2 → Instr) : List Instr := (List.range 16).map (fun n => f (BitVec.ofNat 2 (n / 4)) (BitVec.ofNat 2 n))
  let links (f : BitVec 2 → BitVec 3 → Instr) : List Instr := (List.range 24).map (fun n => f (BitVec.ofNat 2 (n / 6)) (BitVec.ofNat 3 (n % 6)))
  [.powerOn, .commandCompletion true, .snapshotWriteOut, .lifetimeRecordWrite] ++ dies .pumpJob ++ dies .dieRejoin ++ quads .throttleDecay ++
    quads .currentThrottleExpiry ++ links (fun d l => .retrainComplete d l true) ++ links (fun d l => .retrainComplete d l false) ++
    (List.range s.sync.pend.length).map (fun i => .barrierNotification (BitVec.ofNat 8 i))

/-- Every turn that the hardware may take by itself: what comes from outside the module (the host, errors, sensors, a debugger, power) only the
agenda brings. -/
def State.turns (s : State) : List Turn :=
  (s.cores.flatMap (fun (e : Nat × Core) =>
    (List.range 14).map (fun (slot : Nat) => Turn.run e.1 slot) ++ (nsRange 1 3).map (fun (slot : Nat) => Turn.early e.1 slot) ++ [Turn.fetch e.1] ++ (s.coreEvents e.1).map (Turn.ev e.1 (s.corePart e.1) false))) ++
    (List.range 4).flatMap (fun p => (s.partEvents p).map (Turn.ev 0 p false)) ++ s.moduleEvents.map (Turn.ev 0 4 false)
/-- The tiles that a turn's command or delivery waits for, and its place in the precedence of R27: engines, then units delivering results, AT before
FX, then the XQ port. -/
def State.wants (s : State) (t : Turn) : Option (Nat × Nat × List TileRef) :=
  let sync (ts : List TileRef) : List TileRef := ts.filter (fun r => r.mode != TileMode.plain)
  let made (n : Nat) : TileRef := ⟨BitVec.ofNat 6 n, .produce⟩
  match t with
  | .run k slot =>
    match (s.core k).headEntry slot with
    | some (.cmd m) =>
      if m.started ∨ slot = 0 ∨ 5 < slot then none
      else some (k, (if slot = 4 then 0 else if slot = 3 then 1 else if slot = 1 then 2 else if slot = 2 then 3 else 6), sync ((tilesOf m.instr).1 ++ (tilesOf m.instr).2))
    | _ => none
  | .ev k _ _ (.aqSendResultArrival i) => ((s.core k).atq[i.toNat]?).map (fun (o : AtOp) => (k, 4, [made o.td]))
  | .ev k _ _ (.collectiveDelivery i) => ((s.core k).fxq[i.toNat]?).bind (fun (o : FxOp) => o.td.map (fun n => (k, 5, [made n])))
  | _ => none
/-- Turns of a core that go before one which meets the condition on the same tile (R27): a peek before a consume, else by precedence. -/
def State.rivals (s : State) (t : Turn) : List Turn :=
  match s.wants t with
  | none => []
  | some (k, rank, ts) =>
    if ts = [] then []
    else
      let c := s.core k
      let all := (nsRange 1 5).map (fun (slot : Nat) => Turn.run k slot) ++
        (List.range c.atq.length).map (fun i => Turn.ev k (s.corePart k) false (.aqSendResultArrival (BitVec.ofNat 4 i))) ++
        (List.range c.fxq.length).map (fun i => Turn.ev k (s.corePart k) false (.collectiveDelivery (BitVec.ofNat 4 i)))
      all.filter (fun u => match s.wants u with
        | some (_, r, us) => u != t && us.any (fun x => ts.any (fun y => x.n == y.n &&
            ((x.mode == TileMode.peek && y.mode == TileMode.consume) || (x.mode == y.mode && x.mode != TileMode.peek && decide (r < rank)))))
        | none => false)
/-- A turn with those that go before it. -/
def State.withRivals (s : State) : Nat → Turn → List Turn
  | 0, t => [t]
  | n + 1, t => (s.rivals t).flatMap (s.withRivals n) ++ [t]
/-- The turns in the order in which they are tried: it starts at one that no rule chooses (log 3), and of those that meet at a tile the one with
precedence is tried first (R27). -/
def State.order (s : State) : List Turn :=
  let l := s.turns
  let n := Config.oracle s.picks % max 1 l.length
  (l.drop n ++ l.take n).flatMap (s.withRivals 4)

/-! ### What follows a step -/

/-- A wait of a slot ends with the command that waited, however that left its queue; those of the port and of the loop unit stay. -/
def Core.dropWaits (old new : Core) : Core :=
  let head (c : Core) (k : Slot) : Option Nat := (c.headEntry k).map (fun e => match e with
    | .cmd m => m.idx | .gate m => m.idx | .mark id _ _ _ => id | .pass _ j _ => j | .xfer id => id)
  { new with waits := new.waits.filter (fun (e : Nat × Wait) =>
      amFind e.1 old.waits != some e.2 || head old e.1 == head new e.1 || ((e.1 == 0 || e.1 == 5) && decide (9 ≤ e.2.kind))) }
/-- Whether a core has a submission that the scheduler holds for queue room (R208). -/
def State.holdsSub (s : State) (k : Nat) : Bool := (s.sched (s.corePart k)).heldSubs.any (fun h => h.core == k)
/-- The wait of a held submission, in XQ's wait-state registers while they show no other (R208, R363). -/
def Core.subWait (c : Core) (now : Nat) (was is : Bool) : Core :=
  if is then (if (amFind 5 c.waits).isSome then c else c.setWait 5 now ⟨9, 0, 0, 0, 0⟩)
  else if was && (amFind 5 c.waits).any (fun (w : Wait) => w.kind == 9 && w.wsa == 0) then c.clearWait 5 else c
/-- A nest that rests goes on where its core runs, unless another engine is single-stepped, or transfers are replayed (R179, R182, R315). -/
def Core.goOn (c : Core) : Core :=
  if c.mode == CoreMode.running && !c.dbg.halted && !c.replaying && (!c.dbg.stepping || c.dbg.stepeng == 5) && c.mx.nest.any (fun (n : Nest) => n.rested) then
    { c with mx := { c.mx with nest := c.mx.nest.map (fun (n : Nest) => { n with rested := false }) } }
  else c
/-- What needs no turn of its own: waiting tokens enter their queues (R29), markers reached by all pass (R162), a nest goes on, a held submission's
wait shows; and a core that has halted begins its halt, which triggers a snapshot (R364, R512). -/
def State.tidyCore (old s : State) (k : Nat) : State :=
  let c := Core.notePace (old.core k) (Core.dropWaits (old.core k) (s.core k)) s.now
  let c := if 3 ≤ s.level (coreDie k) (coreQuad k) ∧ c.fetch.pc ≠ (old.core k).fetch.pc then { c with paceAt := amSet c.paceAt 6 s.now } else c
  let c := (c.subWait s.now (old.holdsSub k) (s.holdsSub k)).goOn
  let c := if c.mode = .running ∧ ¬ c.dbg.halted then (c.flushUnsent).passMarks s.now else c
  if c.dbg.halted ∧ c.dbg.haltAt.isNone then (s.setCore k { c with dbg := { c.dbg with haltAt := some s.now } }).trigger (s.corePart k) (coreDie k)
  else s.setCore k c
/-- The same for every core; and preloads that the selection no longer names, be it by ageing, are dropped (R191). -/
def State.tidy (old s : State) : State :=
  let s := (s.cores.foldl (fun (t : State) (e : Nat × Core) => State.tidyCore old t e.1) s).noteBusy
  if s.cores.any (fun e => e.2.staged.isSome) then (List.range 4).foldl (fun (s : State) p => s.dropStale p) s else s

/-! ### A line for one instruction (log 12) -/

/-- The line that holds an instruction of `nbits` bits at lane 1 (R50, Tables 2.1, 2.2): its class by its opcode, 9 where it takes a second
lane; 8 where the word is a prefix. -/
def lineFor (nbits w : Nat) : List Byte :=
  let w := w % 2 ^ nbits
  let op := bits w 24 8
  let prefix_ := (reservedOp op || decide (badFields w ≠ [])) && (decodePrefix w).isSome
  let head := if prefix_ then 8 else opClass op + (if longOp op then 9 * 16 else 0)
  leBytes 4 head ++ leBytes 8 w ++ List.replicate 20 0
/-- Where the line stands. -/
def lineAt : Nat := 0x1000
/-- A page that maps a core's first 2 MiB of addresses to the same of device memory, for every access. -/
def flatPage : TlbEntry := ⟨0, 2 ^ 21, 0, true, true, false, false, false, true⟩
/-- A task of partition 0 placed on a core that runs nothing else: it stands before the line. -/
def Core.atLine (c : Core) : Core :=
  { c with
    mode := .running
    task := some ⟨0, 0, 0, 0, [], none, 0, 0, false, 0, 0, 0, 0, 0⟩
    fetch := ⟨BitVec.ofNat 64 (lineAt + 4), [], [], [], none, false, false, none, none⟩
    tlb := [flatPage] }

end Sys2Proof.Machine
end

