-- ==== Sys2Proof/Machine/Step.lean ====
section
/-! DEFINITION. One step of the machine: the turn that the agenda brings, or one that the hardware takes by itself (log 3). -/

namespace Sys2Proof.Machine

/-- What a turn of an engine does. -/
def go (g : Go) : Host.Outcome State Fault Refusal :=
  match g with
  | .exec i s => exec i s
  | .next s => .next s
  | .none => .fault .notEnabled

/-- A turn of fetch: the prefix that stands next takes effect; else lanes are routed, and the first queue that was empty begins its command
at once. What that command waits for, its queue keeps. -/
def fetchTurn (k : Nat) (s : State) : Host.Outcome State Fault Refusal :=
  let s := { s with cur := k, slot := 0 }
  match (s.core k).nextPrefix with
  | some i => exec i s
  | none =>
    match exec .fetchLine s with
    | .next t =>
      if t.stalled then .next t
      else match (t.core k).nextPrefix with
        | some i => exec i t
        | none => match (s.core k).newHead (t.core k) with
          | some slot => match go (t.prepare k slot) with
            | .next u => .next { u with stalled := false }
            | _ => .next t
          | none => .next t
    | o => o

/-- A turn that only starts an engine's next command, while earlier ones are in flight (R214, R253). -/
def earlyTurn (k : Nat) (slot : Slot) (s : State) : Host.Outcome State Fault Refusal :=
  match (s.core k).early slot with
  | some m =>
    if (s.core k).mode = .running ∧ ¬ (s.core k).dbg.halted ∧ ¬ (s.core k).dbg.stepping ∧ s.mayRun k slot ∧ s.gapOver k slot m.pos = true ∧ (s.core k).rollHolds slot (.cmd m) = false then
      match exec m.instr { s with cur := k, slot := slot, cmd := m, starting := true } with
      | .next t =>
        if !t.stalled && (cmdsOf ((t.core k).queue slot)).any (fun (n : Cmd) => n.idx == m.idx && n.started) then .next { t with starting := false }
        else .fault .notEnabled
      | _ => .fault .notEnabled
    else .fault .notEnabled
  | none => .fault .notEnabled

/-- What a turn does. -/
def turn (t : Turn) (s : State) : Host.Outcome State Fault Refusal :=
  let s := { s with stalled := false, starting := false }
  match t with
  | .ev k p irq i => if s.mayHappen k i then exec i { s with cur := k, part := p, irq := irq } else .fault .notEnabled
  | .run k slot => go (s.prepare k slot)
  | .early k slot => earlyTurn k slot s
  | .fetch k => if (s.die (coreDie k)).up ∧ s.fetchPaced k = true then fetchTurn k s else .fault .notEnabled
  | .elapse n => .next { s with now := s.now + n }

/-- The first of several turns that is not held up; what the others wait for is recorded. -/
def firstTurn (ts : List Turn) (s : State) : State :=
  match ts with
  | [] => { s with stalled := false }
  | t :: ts =>
    match turn t s with
    | .next s' => if s'.stalled then firstTurn ts s' else s'
    | _ => firstTurn ts s

/-- A clock cycle later. -/
def tick (old s : State) : State := { State.tidy old s with now := s.now + 1 }

/-- One step. -/
def step (s : State) : Host.Outcome State Fault Refusal :=
  match s.agenda with
  | t :: ts =>
    match turn t { s with agenda := ts } with
    | .next s' => .next (tick s s')
    | .fault f => .fault f
    | .refused r => .refused r
  | [] => .next (tick s (firstTurn s.order { s with picks := s.picks + 1 }))

/-- The instruction stored where a task of core 0 fetches next, that task's fetch being the next turn: what a host, a scheduler and a page
table do before a program runs (log 12). -/
def State.withFetchWord (s : State) (nbits w : Nat) : State :=
  let s := { s with phase := 1, disabled := nsDel 0 s.disabled, gated := nsDel 0 s.gated, agenda := [.fetch 0] }
  (s.writePa 0 lineAt (lineFor nbits w) true []).updCore 0 (·.atLine)

end Sys2Proof.Machine
end

