-- ==== Sys2Proof/Safety.lean ====
section
/-! DEFINITION. What a sound state of the machine is: canonical memories, and what no step leaves behind. -/

namespace Sys2Proof.Machine

/-- The canonical form of a memory: addresses strictly rising, no byte listed that equals what an unlisted address reads as. -/
def Memory.wf (m : Bytes) : Bool := bytesWf m

/-- Every memory of the module in its canonical form: physical memory, the L2 lines, the scratchpads, W-space. -/
def State.memoriesWf (s : State) : Bool :=
  Memory.wf s.mem && Memory.wf s.cist.data && s.dies.toList.all (fun d => d.l2.all (fun e => Memory.wf e.2.data)) &&
    s.cores.all (fun e => Memory.wf e.2.sp)

/-- A core with nothing left to be done without a turn: no token waits to be sent while its FIFO has room (R29), and a halt has its beginning
(R364). -/
def Core.settled (c : Core) : Prop :=
  (c.mode = .running → c.dbg.halted = false → ∀ u ∈ c.unsent, 16 ≤ c.tokCount u.2.1) ∧ (c.dbg.halted = true → c.dbg.haltAt.isSome = true)

/-- A settled module: every core of it is. -/
def State.settled (s : State) : Prop := ∀ k, (s.core k).settled

end Sys2Proof.Machine
end

