-- ==== Sys2Proof/Certificates/Slice0/Obligations.lean ====
section
/-! DEFINITION. The statements for the provers. -/

namespace Sys2Proof.Claim

open Sys2Proof.Machine

/-! ### The words of the statements -/

/-- No held `camo` of a core writes a register that a lane reads or writes, and no full fence stands before it (R150, R151). -/
def Unheld (c : Core) (m : Cmd) : Prop := c.awaitsAmo m.instr = false ∧ c.overwrites m = false ∧ c.fence = false
/-- The control-core lane `i` is in hand and may start: not speculative (Table 1.8), and not held. -/
def Cc (i : Instr) (s : State) : Prop := s.cmd.instr = i ∧ s.slot = 0 ∧ s.cmd.spec = .none ∧ Unheld (s.core s.cur) s.cmd
/-- A scalar register of the core in hand holds `v`, not poisoned (R138). -/
def Reads (s : State) (r : XReg) (v : Word) : Prop := (s.core s.cur).rdX r = ⟨v, false⟩
/-- The state in which the control-core lane in hand has completed, its core otherwise being `c`: the lane has left its queue, and a prediction
that rests on it has its value. -/
def ccDone (s : State) (c : Core) : State := { s.setCore s.cur ((c.retire 0 s.cmd).resolve s.cmd.idx) with stalled := false }
/-- The state in which the lane in hand has completed with `v` written to a scalar register (R138: a clean result). -/
def ccWrote (s : State) (d : XReg) (v : Word) : State := ccDone s ((s.core s.cur).wrX d ⟨v, false⟩)
/-- An integer function at the width and the extension that a type suffix names (R142): `.s32` and `.z32` work on the low 32 bits. -/
def typed (f : (n : Nat) → BitVec n → BitVec n → BitVec n) (w u : Bool) (x y : Word) : Word :=
  if w then (if u then (f 32 (x.setWidth 32) (y.setWidth 32)).setWidth 64 else (f 32 (x.setWidth 32) (y.setWidth 32)).signExtend 64)
  else f 64 x y
/-- The high half of a product. -/
def highHalf (u : Bool) (n : Nat) (x y : BitVec n) : BitVec n :=
  if u then ((x.setWidth (2 * n) * y.setWidth (2 * n)) >>> n).setWidth n else ((x.signExtend (2 * n) * y.signExtend (2 * n)) >>> n).setWidth n
/-- A condition of R147 on two words of `n` bits. -/
def holds (cnd : Cond) {n : Nat} (x y : BitVec n) : Bool :=
  match cnd with
  | .eq => x == y | .ne => x != y | .lt => x.slt y | .ge => !x.slt y | .ltu => x.ult y | .geu => !x.ult y
/-- COMB of `cmp` (R147). -/
def combined (m : Comb) (old c : Bool) : Bool := match m with | .set => c | .and => old && c | .or => old || c

/-- Every byte of memory reads as before: device memory, W-space, every scratchpad. -/
def SameBytes (s t : State) : Prop :=
  (∀ a, peekByte t.mem a = peekByte s.mem a) ∧ (∀ a, peekByte t.cist.data a = peekByte s.cist.data a) ∧
    ∀ k a, peekByte (t.core k).sp a = peekByte (s.core k).sp a
/-- Every core but the one in hand is unchanged. -/
def OthersKept (s t : State) : Prop := ∀ k, k ≠ s.cur → t.core k = s.core k
/-- What the module holds outside its cores is unchanged. -/
def ModuleKept (s t : State) : Prop :=
  t.mem = s.mem ∧ t.memPois = s.memPois ∧ t.unpub = s.unpub ∧ t.sync = s.sync ∧ t.cist = s.cist ∧ t.disabled = s.disabled ∧ t.sites = s.sites ∧ t.parts = s.parts ∧
    t.dies = s.dies ∧ t.chips = s.chips ∧ t.links = s.links ∧ t.domain = s.domain ∧ t.wins = s.wins ∧ t.msix = s.msix ∧ t.gated = s.gated ∧ t.spills = s.spills ∧
    t.busyAt = s.busyAt ∧
    t.phase = s.phase ∧ t.alts = s.alts ∧ t.hxerr = s.hxerr ∧ t.seen = s.seen ∧ t.rows = s.rows ∧ t.life = s.life ∧ t.snap = s.snap ∧
    t.doe = s.doe ∧ t.talk = s.talk ∧ t.mode = s.mode ∧ t.health = s.health
/-- The engine state of a core that no scalar lane touches: tiles, accumulators, tokens, scratchpad, matrix and copy engines, units. -/
def EnginesKept (c d : Core) : Prop :=
  d.tiles = c.tiles ∧ d.accs = c.accs ∧ d.toks = c.toks ∧ d.unsent = c.unsent ∧ d.sp = c.sp ∧ d.spPois = c.spPois ∧ d.mx = c.mx ∧ d.cp = c.cp ∧
    d.xq = c.xq ∧ d.atq = c.atq ∧ d.fxq = c.fxq ∧ d.holds = c.holds ∧ d.loops = c.loops ∧ d.wbuf = c.wbuf ∧ d.sh = c.sh
/-- The special registers of a core: trap record, LPSTAT, live masks, banks, engine status, PACE GAPs, command counts, TLB, membership. -/
def SpecialKept (c d : Core) : Prop :=
  d.trap = c.trap ∧ d.lpstat = c.lpstat ∧ d.livebk = c.livebk ∧ d.livetl = c.livetl ∧ d.banks = c.banks ∧ d.regs = c.regs ∧ d.gap = c.gap ∧
    d.cidx = c.cidx ∧ d.tlb = c.tlb ∧ d.member = c.member ∧ d.task = c.task

/-! ### Memory, faults and completion -/

/-- The L2s and memory agree: no line lies in two L2s, and a line that is not dirty holds what memory holds (R40, R41). -/
def Coherent (s : State) : Prop :=
  (∀ d e line, d < 4 → e < 4 → (amFind line (s.die d).l2).isSome = true → (amFind line (s.die e).l2).isSome = true → d = e) ∧
    ∀ d line l, d < 4 → amFind line (s.die d).l2 = some l → l.dirty = false → ∀ i < 128, peekByte l.data i = peekByte s.mem (128 * line + i)
/-- No loop is active and no write is held on the core in hand. -/
def Calm (s : State) : Prop := (s.core s.cur).loops = [] ∧ (s.core s.cur).holds = []
/-- The address `va` translates to the place `p` for an access of a kind, with no fault, wait or walk (R35, R38). -/
def Lands (s : State) (kind : AccKind) (va : Word) (p : Place) : Prop := ∀ mk, (translate kind mk va).run s = .ok (p, s)
/-- A place that a load or store may use: neither copy aperture nor system window. -/
def Plain (p : Place) : Prop := p.reg ≠ .aperture ∧ p.reg ≠ .window
/-- The scratchpad address word `xa` names offset `o` of core `k` (R36). -/
def SpLands (s : State) (xa : Word) (k o : Nat) : Prop := ∀ mk, (spTarget mk xa).run s = .ok ((k, o), s)
/-- Bytes of a scalar access (R149). -/
def width : MemSz → Nat
  | .s8 | .z8 => 1 | .s16 | .z16 => 2 | .s32 | .z32 => 4 | .s64 => 8
/-- A loaded value, extended as its size code says (R149). -/
def loaded (z : MemSz) (n : Nat) : Word :=
  match z with
  | .s8 => (BitVec.ofNat 8 n).signExtend 64 | .s16 => (BitVec.ofNat 16 n).signExtend 64 | .s32 => (BitVec.ofNat 32 n).signExtend 64
  | _ => BitVec.ofNat 64 n
/-- The address of a scalar access: the base plus the offset times the access size (R149). -/
def scalarAddr (z : MemSz) (x : Word) (off : BitVec 11) : Word := x + off.signExtend 64 * BitVec.ofNat 64 (width z)
/-- The lane after a one-lane instruction: lane 0 of a line holds its header (R50, R67). -/
def after (a : Word) : Word := if a.toNat % 32 = 28 then a + 8 else a + 4
/-- The fault of the lane in hand is taken: its core stopped, the trap record naming class, engine, address, lane and command (R168, R169). -/
def Trapped (s t : State) (cls eng : Nat) (va : Word) : Prop :=
  let c := s.core s.cur
  let d := t.core s.cur
  d.mode = .stopped ∧ d.trap.cls = BitVec.ofNat 64 cls ∧ d.trap.eng = BitVec.ofNat 64 eng ∧ d.trap.va = va ∧ d.trap.lane = s.cmd.lane ∧
    d.trap.cmdidx = BitVec.ofNat 64 (s.cmd.idx % 2 ^ 48) ∧ d.x = c.x ∧ d.p = c.p
/-- The lane in hand faults: a next state in which its fault is taken, no byte of memory changed. -/
def Faults (i : Instr) (s : State) (cls eng : Nat) (va : Word) : Prop :=
  ∃ t, exec i s = .next t ∧ Trapped s t cls eng va ∧ t.mem = s.mem ∧ t.cist.data = s.cist.data ∧ (t.core s.cur).sp = (s.core s.cur).sp
/-- The lane in hand completes: a next state in which its command has left its queue and its core still runs, and `P` holds. -/
def Completes (i : Instr) (s : State) (P : State → Prop) : Prop :=
  ∃ t, exec i s = .next t ∧ t.stalled = false ∧ (∀ m ∈ cmdsOf ((t.core s.cur).queue s.slot), m.idx ≠ s.cmd.idx) ∧
    (t.core s.cur).mode = (s.core s.cur).mode ∧ P t
/-- The event in hand takes place: a next state in which `P` holds. -/
def Happens (i : Instr) (s : State) (P : State → Prop) : Prop := ∃ t, exec i s = .next t ∧ P t
/-- The new value of an atomic on `n` bits (R150). -/
def amo (op : AmoOp) {n : Nat} (old x cmp : BitVec n) : BitVec n :=
  match op with
  | .swap => x | .add => old + x | .and => old &&& x | .or => old ||| x | .xor => old ^^^ x
  | .smin => if x.slt old then x else old
  | .smax => if old.slt x then x else old
  | .cas => if old = cmp then x else old

end Sys2Proof.Claim

open Sys2Proof Sys2Proof.Machine Sys2Proof.Claim

/-! ### The control core: integer lanes -/

/-- R142 and Table 5.11: the register forms at every width and extension; W is the type suffix's 32-bit bit, U its zero-extension. -/
def Obligations.AluResults : Prop :=
  ∀ (s : State) (d a b : XReg) (w u : Bool) (x y : Word), Reads s a x → Reads s b y →
    (Cc (.add d a b w) s → exec (.add d a b w) s = .next (ccWrote s d (typed (fun _ x y => x + y) w false x y))) ∧
    (Cc (.sub d a b w) s → exec (.sub d a b w) s = .next (ccWrote s d (typed (fun _ x y => x - y) w false x y))) ∧
    (Cc (.and d a b w) s → exec (.and d a b w) s = .next (ccWrote s d (typed (fun _ x y => x &&& y) w false x y))) ∧
    (Cc (.or d a b w) s → exec (.or d a b w) s = .next (ccWrote s d (typed (fun _ x y => x ||| y) w false x y))) ∧
    (Cc (.xor d a b w) s → exec (.xor d a b w) s = .next (ccWrote s d (typed (fun _ x y => x ^^^ y) w false x y))) ∧
    (Cc (.shl d a b w) s → exec (.shl d a b w) s = .next (ccWrote s d (typed (fun n x y => x <<< (y.toNat % n)) w false x y))) ∧
    (Cc (.shr d a b w) s → exec (.shr d a b w) s = .next (ccWrote s d (typed (fun n x y => x >>> (y.toNat % n)) w false x y))) ∧
    (Cc (.sra d a b w) s → exec (.sra d a b w) s = .next (ccWrote s d (typed (fun n x y => x.sshiftRight (y.toNat % n)) w false x y))) ∧
    (Cc (.mul d a b w) s → exec (.mul d a b w) s = .next (ccWrote s d (typed (fun _ x y => x * y) w false x y))) ∧
    (Cc (.mulh d a b w u) s → exec (.mulh d a b w u) s = .next (ccWrote s d (typed (highHalf u) w u x y))) ∧
    (Cc (.div d a b w u) s → exec (.div d a b w u) s =
      .next (ccWrote s d (typed (fun n x y => if y = 0 then BitVec.allOnes n else if u then x.udiv y else x.sdiv y) w u x y))) ∧
    (Cc (.rem d a b w u) s → exec (.rem d a b w u) s =
      .next (ccWrote s d (typed (fun _ x y => if y = 0 then x else if u then x.umod y else x.srem y) w u x y))) ∧
    (Cc (.min d a b w u) s → exec (.min d a b w u) s =
      .next (ccWrote s d (typed (fun _ x y => if (if u then y.ult x else y.slt x) then y else x) w u x y))) ∧
    (Cc (.max d a b w u) s → exec (.max d a b w u) s =
      .next (ccWrote s d (typed (fun _ x y => if (if u then x.ult y else x.slt y) then y else x) w u x y)))

/-- R143: the immediate forms; `shli`, `shri` and `srai` at a count below the width. -/
def Sys2Proof.Claim.AluImmediateResults : Prop :=
  ∀ (s : State) (d a : XReg) (i : BitVec 14) (w : Bool) (n : BitVec 6) (x : Word), Reads s a x →
    (Cc (.addi d a i) s → exec (.addi d a i) s = .next (ccWrote s d (x + i.signExtend 64))) ∧
    (Cc (.andi d a i) s → exec (.andi d a i) s = .next (ccWrote s d (x &&& i.signExtend 64))) ∧
    (Cc (.ori d a i) s → exec (.ori d a i) s = .next (ccWrote s d (x ||| i.setWidth 64))) ∧
    (Cc (.xori d a i) s → exec (.xori d a i) s = .next (ccWrote s d (x ^^^ i.setWidth 64))) ∧
    ((w = true → n.toNat < 32) →
      (Cc (.shli d a w n) s → exec (.shli d a w n) s = .next (ccWrote s d (typed (fun _ x _ => x <<< n.toNat) w false x 0))) ∧
      (Cc (.shri d a w n) s → exec (.shri d a w n) s = .next (ccWrote s d (typed (fun _ x _ => x >>> n.toNat) w false x 0))) ∧
      (Cc (.srai d a w n) s → exec (.srai d a w n) s = .next (ccWrote s d (typed (fun _ x _ => x.sshiftRight n.toNat) w false x 0))))

/-- R144: the bit counts, and the fields that `ext` and `ins` move, bit by bit. -/
def Obligations.BitInstructionResults : Prop :=
  ∀ (s : State) (d a b : XReg) (w sg : Bool) (o x y : Word), Reads s a x →
    let n := if w then 32 else 64
    (Cc (.bitcPop d a w) s → exec (.bitcPop d a w) s = .next (ccWrote s d (BitVec.ofNat 64 ((List.range n).countP (fun i => x.getLsbD i))))) ∧
    (Cc (.bitcClz d a w) s → ∃ r, r ≤ n ∧ (∀ i, n - r ≤ i → i < n → x.getLsbD i = false) ∧ (r < n → x.getLsbD (n - 1 - r) = true) ∧
      exec (.bitcClz d a w) s = .next (ccWrote s d (BitVec.ofNat 64 r))) ∧
    (Cc (.bitcCtz d a w) s → ∃ r, r ≤ n ∧ (∀ i, i < r → x.getLsbD i = false) ∧ (r < n → x.getLsbD r = true) ∧
      exec (.bitcCtz d a w) s = .next (ccWrote s d (BitVec.ofNat 64 r))) ∧
    (Reads s b y →
      let pos := (y.extractLsb' 0 6).toNat
      let len := (y.extractLsb' 8 6).toNat + 1
      (Cc (.ext d a b sg) s → ∃ r : Word, (∀ i, i < 64 → r.getLsbD i = if i < len then x.getLsbD (pos + i) else sg && x.getLsbD (pos + len - 1)) ∧
        exec (.ext d a b sg) s = .next (ccWrote s d r)) ∧
      (Cc (.ins d a b) s → Reads s d o →
        ∃ r : Word, (∀ i, i < 64 → r.getLsbD i = if pos ≤ i ∧ i < pos + len then x.getLsbD (i - pos) else o.getLsbD i) ∧
          exec (.ins d a b) s = .next (ccWrote s d r)))

/-- R145, R146: constants and addresses; `movhi` keeps bits 39:0. -/
def Sys2Proof.Claim.ConstantResults : Prop :=
  ∀ (s : State) (d a : XReg) (e : BitVec 40) (h : BitVec 24) (sc : BitVec 2) (o x : Word),
    (Cc (.movi d e) s → exec (.movi d e) s = .next (ccWrote s d (e.signExtend 64))) ∧
    (Cc (.movhi d h) s → Reads s d o → exec (.movhi d h) s = .next (ccWrote s d (h ++ o.extractLsb' 0 40))) ∧
    (Cc (.lea d a false sc e) s → Reads s a x → exec (.lea d a false sc e) s = .next (ccWrote s d (x + e.signExtend 64 <<< sc.toNat))) ∧
    (Cc (.lea d 0 true sc e) s → exec (.lea d 0 true sc e) s = .next (ccWrote s d (s.cmd.lane + e.signExtend 64 <<< sc.toNat)))

/-- R147, R148: compares and predicates; p0 discards a write; `sel` passes its operand on with its poison (R138). -/
def Obligations.PredicateResults : Prop :=
  ∀ (s : State) (pd pa pb : PReg) (d a b : XReg) (m : Comb) (w neg : Bool) (cnd : Cond) (e : BitVec 11) (lut : BitVec 4) (mask : BitVec 7) (x y : Word),
    let c := s.core s.cur
    (Cc (.cmp pd a b m w cnd) s → Reads s a x → Reads s b y →
      exec (.cmp pd a b m w cnd) s =
        .next (ccDone s (c.wrP pd (combined m (c.rdP pd) (if w then holds cnd (x.setWidth 32) (y.setWidth 32) else holds cnd x y))))) ∧
    (Cc (.cmpi pd a cnd e) s → Reads s a x →
      exec (.cmpi pd a cnd e) s =
        .next (ccDone s (c.wrP pd (holds cnd x (if cnd = .ltu ∨ cnd = .geu then e.setWidth 64 else e.signExtend 64))))) ∧
    (Cc (.pcomb pd pa pb lut) s →
      exec (.pcomb pd pa pb lut) s = .next (ccDone s (c.wrP pd (lut.getLsbD (2 * (c.rdP pa).toNat + (c.rdP pb).toNat))))) ∧
    (Cc (.sel d a b neg pa) s →
      exec (.sel d a b neg pa) s = .next (ccDone s (c.wrX d (if c.rdP pa != neg then c.rdX a else c.rdX b)))) ∧
    (Cc (.pget d) s → ∃ r : Word, (∀ k : Nat, k < 64 → r.getLsbD k = (decide (k < 8) && c.rdP (BitVec.ofNat 3 k))) ∧
      exec (.pget d) s = .next (ccWrote s d r)) ∧
    (Cc (.pset a mask) s → Reads s a x → ∃ c' : Core,
      (∀ k : PReg, c'.rdP k = if k ≠ 0 ∧ mask.getLsbD (k.toNat - 1) = true then x.getLsbD k.toNat else c.rdP k) ∧ { c' with p := c.p } = c ∧
      exec (.pset a mask) s = .next (ccDone s c'))

/-- R161, R75, R162, R151, R166, R165: the lanes without a scalar result. A `qjoin` acts by its markers; in one core that performs its accesses in
order a fence has nothing to order (the model's choice, log 6), but for held writes: a full one holds the next lane until they are performed; and a release
fence at recovery scope marks the next write (R130), a full one with no domain to seal. -/
def Obligations.OtherControlLanes : Prop :=
  ∀ (s : State) (d a : XReg) (n : BitVec 2) (mask code : BitVec 14) (k : FenceKind) (sc : Scope) (st : BitVec 8) (x : Word),
    let c := s.core s.cur
    (Cc (.lcr d n) s → exec (.lcr d n) s = .next (ccWrote s d ((c.rdLc n).setWidth 64))) ∧
    (Cc (.lcw n a) s → Reads s a x → (∀ l ∈ c.loops, l.lc ≠ n) → exec (.lcw n a) s = .next (ccDone s (c.wrLc n (x.setWidth 32)))) ∧
    (Cc .nop s → exec .nop s = .next (ccDone s c)) ∧
    (Cc (.qjoin mask) s → exec (.qjoin mask) s = .next (ccDone s c)) ∧
    (Cc (.cfence k sc) s → k ≠ .full → (sc ≠ .rc ∨ k = .acq) → exec (.cfence k sc) s = .next (ccDone s c)) ∧
    (Cc (.cfence k sc) s → k ≠ .full → sc = .rc → k ≠ .acq → exec (.cfence k sc) s = .next (ccDone s { c with rcNext := true })) ∧
    (Cc (.cfence k sc) s → k = .full → sc ≠ .rc → exec (.cfence k sc) s = .next (ccDone s { c with fence := true })) ∧
    (Cc (.cfence k sc) s → k = .full → sc = .rc → c.behindDue 0 = false → (s.getPart (s.corePart s.cur)).ck.regions = [] →
      exec (.cfence k sc) s = .next (ccDone s { c with rcNext := true, fence := true })) ∧
    (s.cmd.instr = .nop → s.cmd.spec = .none → c.fence = true → (∃ h ∈ c.holds, h.slot = 0) →
      ∃ t, exec .nop s = .next t ∧ t.stalled = true ∧ (t.core s.cur).queue 0 = c.queue 0) ∧
    (Cc (.brk code) s → c.dbg.brken = false → exec (.brk code) s = .next (ccDone s c)) ∧
    (Cc (.brk code) s → c.dbg.brken = true →
      exec (.brk code) s = .next (ccDone s { c with dbg := { c.dbg with halted := true, why := 1, bcode := code } })) ∧
    (Cc (.exit st) s → c.loops = [] →
      exec (.exit st) s = .next (ccDone s { c with exiting := some st, fetch := { c.fetch with ended := true } }))

/-- The frame of the lanes that only compute on registers (R137-R148, R161): where no fault is taken and no roll-back begins, the destination register or predicate apart,
every register, every special register, every accumulator, the rest of the module and every byte of memory stay. -/
def Obligations.ScalarLaneFrame : Prop :=
  ∀ (s t : State) (i : Instr) (ds : List XReg) (ps : List PReg),
    ((∃ d a b w u, (i = .add d a b w ∨ i = .sub d a b w ∨ i = .and d a b w ∨ i = .or d a b w ∨ i = .xor d a b w ∨ i = .shl d a b w ∨
        i = .shr d a b w ∨ i = .sra d a b w ∨ i = .mul d a b w ∨ i = .mulh d a b w u ∨ i = .div d a b w u ∨ i = .rem d a b w u ∨
        i = .min d a b w u ∨ i = .max d a b w u ∨ i = .bitcPop d a w ∨ i = .bitcClz d a w ∨ i = .bitcCtz d a w ∨ i = .ext d a b u ∨
        i = .ins d a b) ∧ ds = [d] ∧ ps = []) ∨
     (∃ d a e w n, (i = .addi d a e ∨ i = .andi d a e ∨ i = .ori d a e ∨ i = .xori d a e ∨ i = .shli d a w n ∨ i = .shri d a w n ∨
        i = .srai d a w n) ∧ ds = [d] ∧ ps = []) ∨
     (∃ d a b p sc e h n, (i = .movi d e ∨ i = .movhi d h ∨ i = .lea d a p sc e ∨ i = .sel d a b p n ∨ i = .pget d) ∧ ds = [d] ∧ ps = []) ∨
     (∃ pd pa pb a b m w cnd e lut, (i = .cmp pd a b m w cnd ∨ i = .cmpi pd a cnd e ∨ i = .pcomb pd pa pb lut) ∧ ds = [] ∧ ps = [pd])) →
    Cc i s → (s.core s.cur).mode = .running → exec i s = .next t → (t.core s.cur).mode = .running → (t.core s.cur).loops = (s.core s.cur).loops →
    let c := s.core s.cur
    let d := t.core s.cur
    (∀ r, r ∉ ds → d.rdX r = c.rdX r) ∧ (∀ p, p ∉ ps → d.rdP p = c.rdP p) ∧ d.rdX 0 = Scalar.zero ∧ d.rdP 0 = true ∧ d.lc = c.lc ∧
      EnginesKept c d ∧ SpecialKept c d ∧ OthersKept s t ∧ ModuleKept s t ∧ SameBytes s t

/-- R138: an arithmetic lane that reads a poisoned register outside a loop consumes poison: the task stops with POISON, TRAPCLS 0x18, named for the
control core, and nothing is written to its registers. -/
def Sys2Proof.Claim.PoisonedOperandTraps : Prop :=
  ∀ (s t : State) (d a b : XReg) (w : Bool) (e : BitVec 14), ((s.core s.cur).rdX a).poison = true → (s.core s.cur).loops = [] →
    (s.core s.cur).mode = .running →
    (Cc (.add d a b w) s ∧ exec (.add d a b w) s = .next t ∨ Cc (.addi d a e) s ∧ exec (.addi d a e) s = .next t) →
      (t.core s.cur).mode = .stopped ∧ (t.core s.cur).trap.cls = 0x18 ∧ (t.core s.cur).trap.eng = 1 ∧
        (t.core s.cur).trap.va = 0 ∧ (t.core s.cur).trap.lane = s.cmd.lane ∧ (t.core s.cur).x = (s.core s.cur).x

/-! ### The control core: memory lanes -/

/-- R149: `cld` and `sld` write the extended value, with the poison of the granules read (R49); an `sld` while the matrix engine streams from its
bank group stalls (R46).
The model's choices in it: bytes that nothing has written read as log 4 says. -/
def Obligations.ScalarLoadResults : Prop :=
  ∀ (s : State) (d a : XReg) (z : MemSz) (off : BitVec 11) (x : Word), Calm s → Reads s a x → (scalarAddr z x off).toNat % width z = 0 →
    (∀ p, Cc (.cld d a z off) s → Lands s .read (scalarAddr z x off) p → Plain p →
      exec (.cld d a z off) s = .next (ccDone s ((s.core s.cur).wrX d
        ⟨loaded z (leNat (s.readPaP p.pa (width z)).bytes), (s.readPaP p.pa (width z)).poisoned⟩))) ∧
    (∀ k o, Cc (.sld d a z off) s → SpLands s (scalarAddr z x off) k o → (s.core k).streams o (width z) = false →
      exec (.sld d a z off) s = .next (ccDone s ((s.core s.cur).wrX d
        ⟨loaded z (leNat (peekBytes (s.core k).sp o (width z))), (List.range (width z)).any (fun i => (s.core k).spPois.contains ((o + i) / 32))⟩))) ∧
    (∀ k o, Cc (.sld d a z off) s → SpLands s (scalarAddr z x off) k o → (s.core k).streams o (width z) = true →
      ∃ t, exec (.sld d a z off) s = .next t ∧ t.stalled = true ∧ (t.core s.cur).x = (s.core s.cur).x ∧ (t.core s.cur).queue 0 = (s.core s.cur).queue 0)

/-- R149, R321, R322: `cst` writes the low bytes of its register, poison with them; at a copy aperture slot it starts a copy.
The model's choices in it: a store is performed at once, at every scope: log 6; poison of a granule written in part: log 14. -/
def Sys2Proof.Claim.ScalarStoreResults : Prop :=
  ∀ (s : State) (d a : XReg) (z : MemSz) (off : BitVec 11) (x : Word) (p : Place), Calm s → (s.core s.cur).rcNext = false → Reads s a x →
    Cc (.cst d a z off) s → (scalarAddr z x off).toNat % width z = 0 → Lands s .write (scalarAddr z x off) p →
    let c := s.core s.cur
    let v := c.rdX d
    (Plain p → p.ent.pub = false →
      let t := s.writePa (s.corePart s.cur) p.pa (leBytes (width z) v.v.toNat) p.ent.nc (if v.poison then nsRange 0 (width z) else [])
      exec (.cst d a z off) s = .next (ccDone t (t.core s.cur))) ∧
    (p.reg = .aperture → z = .s64 → p.pa % 4096 < 0x40 → v.poison = false → (c.journal (p.pa % 4096 / 8)).length < 32 →
      exec (.cst d a z off) s = .next (ccDone s (c.startCopy (p.pa % 4096 / 8) v.v s.cmd.idx s.cmd.lane s.cmd.idx)))

/-- R149, R44: `sst` writes its bytes into a bank whose ACT is off, or that they satisfy; a trapping bank that they violate raises BOUND, with the
bank's VIOL set and nothing written. -/
def Sys2Proof.Claim.ScratchpadStoreResults : Prop :=
  ∀ (s : State) (d a : XReg) (z : MemSz) (off : BitVec 11) (x : Word) (k o : Nat), Calm s → (s.core s.cur).rcNext = false → Reads s a x →
    Cc (.sst d a z off) s → (scalarAddr z x off).toNat % width z = 0 → SpLands s (scalarAddr z x off) k o → (s.core k).streams o (width z) = false →
    let v := (s.core s.cur).rdX d
    let b := (s.core k).bank (bankOf o)
    let n := v.v.toNat % 2 ^ (8 * width z)
    (b.act = 0 ∨ (Fmt.isBlock b.fmt = false ∧ Fmt.size b.fmt = 8 * width z ∧ violates b.fmt b.lo.toNat b.hi.toNat n = false) →
      let t := s.updCore k (fun c => c.writeSp o (leBytes (width z) v.v.toNat) (if v.poison then nsRange 0 (width z) else []))
      exec (.sst d a z off) s = .next (ccDone t (t.core s.cur))) ∧
    (b.act = 3 → Fmt.isBlock b.fmt = false → Fmt.size b.fmt = 8 * width z → violates b.fmt b.lo.toNat b.hi.toNat n = true →
      (s.core s.cur).mode = .running → Faults (.sst d a z off) s 0x11 1 (BitVec.ofNat 64 o))

/-- R150: the atomic's new value in memory, the old one sign-extended in xd; `cas` compares with xd.
The model's choices in it: an access is performed at once: log 6. -/
def Obligations.AtomicResults : Prop :=
  ∀ (s : State) (d a b : XReg) (sc : Scope) (ord : AmoOrd) (sz : Bool) (op : AmoOp) (va x y : Word) (p : Place),
    Calm s → (s.core s.cur).rcNext = false → Cc (.camo d a b sc ord sz op) s → (sc = .rc → ord ≠ .rel ∧ ord ≠ .ar) →
    Reads s a va → Reads s b x → (op = .cas → Reads s d y) → (op ≠ .cas → y = 0) → Lands s .write va p → Plain p → p.ent.pub = false →
    (p.reg = .host → p.ent.sysat = true) →
    let n := if sz then 64 else 32
    va.toNat % (n / 8) = 0 → s.paPoisoned p.pa (n / 8) = false →
    let old := BitVec.ofNat n (leNat (s.readPa p.pa (n / 8)))
    let t := s.writePa (s.corePart s.cur) p.pa (leBytes (n / 8) (amo op old (x.setWidth n) (y.setWidth n)).toNat) p.ent.nc []
    exec (.camo d a b sc ord sz op) s = .next (ccDone t ((t.core s.cur).wrX d ⟨old.signExtend 64, false⟩))

/-- R149, R150, R120: a misaligned scalar access raises ALIGN, and an atomic to host memory on a page without SYSAT raises ATOMSCOPE, with the
address in TRAPVA; nothing is written. -/
def Sys2Proof.Claim.ScalarAccessTraps : Prop :=
  ∀ (s : State) (i : Instr) (d a b : XReg) (z : MemSz) (off : BitVec 11) (sc : Scope) (ord : AmoOrd) (sz : Bool) (op : AmoOp) (x : Word),
    Cc i s → Reads s a x → (s.core s.cur).mode = .running →
    ((i = .cld d a z off ∨ i = .cst d a z off ∨ i = .sld d a z off ∨ i = .sst d a z off) → (scalarAddr z x off).toNat % width z ≠ 0 →
      Faults i s 0x08 1 (scalarAddr z x off)) ∧
    (i = .camo d a b sc ord sz op → x.toNat % (if sz then 8 else 4) ≠ 0 → Faults i s 0x08 1 x) ∧
    (∀ y p, i = .camo d a b sc ord sz op → op ≠ .cas → x.toNat % (if sz then 8 else 4) = 0 → Reads s b y → Lands s .write x p → p.reg = .host →
      p.ent.sysat = false → Faults i s 0x0C 1 x)

/-- The frame of the control core's memory lanes (R149, R150): `cld` and `sld` store nothing; `cst` and `camo` store to the bytes at the place that
`translate` gives for their address, `sst` to those at the place that `spTarget` gives; but for them every byte of memory, and but for the destination
register every register, stays; where the L2s and memory agree. -/
def Obligations.MemoryLaneFrame : Prop :=
  ∀ (s t : State) (i : Instr) (d a b : XReg) (z : MemSz) (off : BitVec 11) (sc : Scope) (ord : AmoOrd) (sz : Bool) (op : AmoOp) (va : Word),
    Cc i s → Calm s → Coherent s → (∀ q, ∀ e ∈ (s.getPart q).dies, e < 4) → (s.core s.cur).rcNext = false → (s.core s.cur).mode = .running →
    exec i s = .next t → (t.core s.cur).mode = .running →
    let c := s.core s.cur
    let e := t.core s.cur
    (∀ p, i = .cld d a z off → (ccAddr a z off).run s = .ok (va, s) → Lands s .read va p →
      (∀ r, r ≠ d → e.rdX r = c.rdX r) ∧ e.p = c.p ∧ EnginesKept c e ∧ SpecialKept c e ∧ OthersKept s t ∧ ModuleKept s t ∧ SameBytes s t) ∧
    (i = .sld d a z off →
      (∀ r, r ≠ d → e.rdX r = c.rdX r) ∧ e.p = c.p ∧ EnginesKept c e ∧ SpecialKept c e ∧ OthersKept s t ∧ ModuleKept s t ∧ SameBytes s t) ∧
    (∀ p, i = .cst d a z off → (ccAddr a z off).run s = .ok (va, s) → Lands s .write va p →
      e.x = c.x ∧ e.p = c.p ∧ SpecialKept c e ∧ OthersKept s t ∧ (∀ k, (t.core k).sp = (s.core k).sp) ∧ t.cist.data = s.cist.data ∧
        ∀ q, (Plain p → q < p.pa ∨ p.pa + width z ≤ q) → t.readPa q 1 = s.readPa q 1) ∧
    (∀ p, i = .camo d a b sc ord sz op → c.rdX a = ⟨va, false⟩ → Lands s .write va p →
      (∀ r, r ≠ d → e.rdX r = c.rdX r) ∧ e.p = c.p ∧ SpecialKept c e ∧ OthersKept s t ∧ (∀ k, (t.core k).sp = (s.core k).sp) ∧
        t.cist.data = s.cist.data ∧ ∀ q, q < p.pa ∨ p.pa + (if sz then 8 else 4) ≤ q → t.readPa q 1 = s.readPa q 1) ∧
    (∀ k o, i = .sst d a z off → (ccAddr a z off).run s = .ok (va, s) → SpLands s va k o →
      e.x = c.x ∧ e.p = c.p ∧ e.trap = c.trap ∧ e.livebk = c.livebk ∧ e.livetl = c.livetl ∧ e.accs = c.accs ∧ e.tiles = c.tiles ∧ ModuleKept s t ∧
        ∀ j q, (j = k → q < o ∨ o + width z ≤ q) → peekByte (t.core j).sp q = peekByte (s.core j).sp q)

/-! ### The control core: transfers and loops -/

/-- R60, R152, R66, R67: `b` and `call` transfer when p[PRED] XOR NEG = 1, to the lane's address plus the offset times 4; a `call` that transfers
writes x31; fetch, where it awaits the lane, goes on there or at the next lane. -/
def Sys2Proof.Claim.BranchResults : Prop :=
  ∀ (s : State) (p : PReg) (neg hint : Bool) (off : BitVec 19), Calm s →
    let c := s.core s.cur
    let a := s.cmd.lane
    let target := a + off.signExtend 64 <<< 2
    let past := { c with fetch := { c.fetch with hist := (a :: c.fetch.hist.filter (· != a)).take 64 } }
    let go (c : Core) : Core := if c.fetch.stall = some s.cmd.idx then { c with fetch := { c.fetch with pc := target, buf := [], pfx := [], stall := none, line := none } } else c
    (c.rdP p != neg) = true → target.toNat % 4 = 0 → target.toNat % 32 ≠ 0 →
      (Cc (.b p neg hint off) s → exec (.b p neg hint off) s = .next (ccDone s (go past))) ∧
      (Cc (.call p neg hint off) s → exec (.call p neg hint off) s = .next (ccDone s (go (past.wrX 31 ⟨after a, false⟩))))

/-- R60, R152: with the condition not met neither transfers, and `call` writes nothing; a taken target that is a header lane raises ALIGN. -/
def Sys2Proof.Claim.BranchNotTakenAndTargetTraps : Prop :=
  ∀ (s : State) (i : Instr) (p : PReg) (neg hint : Bool) (off : BitVec 19), (i = .b p neg hint off ∨ i = .call p neg hint off) → Cc i s →
    let c := s.core s.cur
    let a := s.cmd.lane
    let target := a + off.signExtend 64 <<< 2
    let past := { c with fetch := { c.fetch with hist := (a :: c.fetch.hist.filter (· != a)).take 64 } }
    (c.rdP p = neg → c.loops = [] →
      exec i s = .next (ccDone s (if c.fetch.stall = some s.cmd.idx then { past with fetch := { past.fetch with pc := after a, stall := none } } else past))) ∧
    ((c.rdP p != neg) = true → target.toNat % 32 = 0 → c.mode = .running → Faults i s 0x08 1 target)

/-- R153, R66: `jr` and `callr` transfer to their register's value, read before the link is written; a value that is no lane address raises ALIGN, one
above 52 bits PAGE. -/
def Sys2Proof.Claim.RegisterJumpResults : Prop :=
  ∀ (s : State) (d a : XReg) (t : Word), Reads s a t →
    let c := s.core s.cur
    let go (c : Core) : Core := if c.fetch.stall = some s.cmd.idx then { c with fetch := { c.fetch with pc := t, buf := [], pfx := [], stall := none, line := none } } else c
    (Calm s → t.toNat % 4 = 0 → t.toNat % 32 ≠ 0 → t.toNat < 2 ^ 52 →
      (Cc (.jr a) s → exec (.jr a) s = .next (ccDone s (go c))) ∧
      (Cc (.callr d a) s → exec (.callr d a) s = .next (ccDone s (go (c.wrX d ⟨after s.cmd.lane, false⟩))))) ∧
    (∀ i, i = .jr a ∨ i = .callr d a → Cc i s → c.mode = .running →
      (t.toNat % 4 ≠ 0 ∨ t.toNat % 32 = 0 → Faults i s 0x08 1 t) ∧
      (t.toNat % 4 = 0 → t.toNat % 32 ≠ 0 → 2 ^ 52 ≤ t.toNat → Faults i s 0x09 1 t))

/-- R155, R156: with N at least 1 a loop begins: its counter register, N, S, body and END lane, no pass made, and fetch at its body; with N = 0 the
counter is 0 and fetch goes on past the instruction that END lies in.
The model's choices in it: what a loop holds: log 34; a body skipped with N = 0: log 50. -/
def Obligations.LoopResults : Prop :=
  ∀ (s : State) (i : Instr) (lc sm1 : BitVec 2) (stg : Stages) (len : BitVec 12) (a : XReg) (x : Word) (imm : BitVec 14) (n : Nat), Calm s →
    (i = .loop lc a sm1 stg len ∧ Reads s a x ∧ n = x.toNat ∧ n < 2 ^ 32 ∨ i = .loopi lc sm1 stg len imm ∧ n = imm.toNat) → Cc i s →
    let c := s.core s.cur
    let body := after (s.cmd.lane + 4)
    let fin := s.cmd.lane + BitVec.ofNat 64 (4 * len.toNat)
    body.toNat ≤ fin.toNat → fin.toNat % 32 ≠ 0 →
    (1 ≤ n → ∃ l : Loop, exec i s = .next (ccDone s { c with loops := [l], serial := c.serial + 1, fetch := { c.fetch with stall := none, pc := body } }) ∧
      l.lc = lc ∧ l.n = n ∧ l.s = sm1.toNat + 1 ∧ l.stg = stg ∧ l.body = body ∧ l.fin = fin ∧ l.pass = 0 ∧ l.retired = 0 ∧ l.turn = true ∧
        l.done = false ∧ l.roll = none) ∧
    (∀ p, n = 0 → Lands s .fetch (BitVec.ofNat 64 (fin.toNat / 32 * 32)) p →
      let line := s.readPa p.pa 32
      let two := nibble (leNat (line.take 4)) (fin.toNat / 4 % 8) != 9 && longOp (bits (leNat ((line.drop (fin.toNat % 32)).take 4)) 24 8)
      exec i s = .next (ccDone s { c.wrLc lc 0 with fetch := { c.fetch with
        pc := if two then after (fin + 4) else after fin, buf := [], pfx := [], stall := none, line := none } }))

/-! ### The control core: queues, system registers -/

/-- R163: a `qflush` outside a loop body removes from the queues it names the commands routed before it that have not started, and stops a matrix
nest; tokens and the queues it does not name stay. -/
def Obligations.QueueFlushResults : Prop :=
  ∀ (s : State) (cp : BitVec 8) (q : BitVec 5), Cc (.qflush cp q) s → s.slot = 0 → s.cmd.iter = [] →
    Completes (.qflush cp q) s (fun t =>
      let c := s.core s.cur
      let d := t.core s.cur
      (∀ k, 1 ≤ k → k ≤ 3 → cmdsOf (d.queue k) =
        if q.getLsbD (k - 1) then (cmdsOf (c.queue k)).filter (fun m => decide (s.cmd.idx < m.pos) || m.started) else cmdsOf (c.queue k)) ∧
      (cmdsOf (d.queue 4) = if q.getLsbD 3 then (cmdsOf (c.queue 4)).filter (fun m => decide (s.cmd.idx < m.pos)) else cmdsOf (c.queue 4)) ∧
      (∀ n, c.mx.nest = some n → n.cmd.pos ≤ s.cmd.idx → q.getLsbD 3 = true → d.mx.nest = none) ∧
      (∀ k, k < 8 → cmdsOf (d.queue (6 + k)) =
        if cp.getLsbD k then (cmdsOf (c.queue (6 + k))).filter (fun m => decide (s.cmd.idx < m.pos)) else cmdsOf (c.queue (6 + k))) ∧
      d.toks = c.toks ∧ d.cidx = c.cidx ∧ d.x = c.x ∧ d.p = c.p ∧ d.tiles = c.tiles ∧ d.accs = c.accs)

/-- R164, Tables 5.2-5.8: `sysr` gives the register's map, here for registers of each chapter; a number that no chapter assigns raises ILLEGAL. -/
def Obligations.SystemRegisterReads : Prop :=
  ∀ (s : State) (d : XReg) (n : BitVec 14) (k : Nat), Cc (.sysr d n) s →
    let c := s.core s.cur
    let x := s.getPart (s.corePart s.cur)
    (∀ v, s.sysreg s.cur n.toNat s.cmd.table = some v → exec (.sysr d n) s = .next (ccWrote s d (BitVec.ofNat 64 v))) ∧
    (s.sysreg s.cur n.toNat s.cmd.table = none → c.mode = .running → Faults (.sysr d n) s 0x01 1 s.cmd.lane) ∧
    (n.toNat = 2 → exec (.sysr d n) s = .next (ccWrote s d (BitVec.ofNat 64 (s.now - x.base)))) ∧
    (n.toNat = 0x10 → exec (.sysr d n) s = .next (ccWrote s d c.trap.cls)) ∧
    (n.toNat = 0x12 → exec (.sysr d n) s = .next (ccWrote s d c.trap.cmdidx)) ∧
    (n.toNat = 0x15 → exec (.sysr d n) s = .next (ccWrote s d c.trap.lane)) ∧
    (n.toNat = 0x16 → exec (.sysr d n) s = .next (ccWrote s d c.trap.pend)) ∧
    (n.toNat = 0x21 → exec (.sysr d n) s = .next (ccWrote s d (c.livebk.setWidth 64))) ∧
    (n.toNat = 0x22 → exec (.sysr d n) s = .next (ccWrote s d c.livetl)) ∧
    (n.toNat = 0x200 → exec (.sysr d n) s = .next (ccWrote s d (c.mx.stat.setWidth 64))) ∧
    (k < 32 → n.toNat = 0x260 + k → exec (.sysr d n) s = .next (ccWrote s d (c.mx.shadow.getD k 0))) ∧
    (k < 8 → n.toNat = 0x300 + k → exec (.sysr d n) s = .next (ccWrote s d ((c.cp.done.getD k 0).setWidth 64))) ∧
    (n.toNat = 0x501 → exec (.sysr d n) s = .next (ccWrote s d (x.regs.wtmo.setWidth 64))) ∧
    (n.toNat = 0xA81 → exec (.sysr d n) s = .next (ccWrote s d x.ck.epoch)) ∧
    (n.toNat = 3 ∨ n.toNat = 0x3FFF → c.mode = .running → Faults (.sysr d n) s 0x01 1 s.cmd.lane)

/-- R164, R6, R7: `sysw` of the live masks replaces them; the sticky bits of MXSTAT, STINFO and VXINFO are cleared by ones; a register that no
task may write raises PERM, one that no chapter assigns ILLEGAL; `sysw PACE.e` writes GAP, and commands routed before it keep the gap they had (R483).
The model's choices in it: a write of a register that a task may not make: log 23. -/
def Sys2Proof.Claim.SystemRegisterWrites : Prop :=
  ∀ (s : State) (a : XReg) (n : BitVec 14) (e : BitVec 3) (v : Word), Reads s a v →
    let c := s.core s.cur
    (Cc (.sysw a n) s →
      (n.toNat = 0x21 → exec (.sysw a n) s = .next (ccDone s { c with livebk := v.setWidth 16 })) ∧
      (n.toNat = 0x22 → exec (.sysw a n) s = .next (ccDone s { c with livetl := v })) ∧
      (n.toNat = 0x200 → exec (.sysw a n) s = .next (ccDone s { c with mx := { c.mx with stat := c.mx.stat &&& ~~~(v.setWidth 32) } })) ∧
      (n.toNat = 0x610 → exec (.sysw a n) s = .next (ccDone s { c with regs := { c.regs with stBflag := c.regs.stBflag && !v.getLsbD 5 } })) ∧
      (n.toNat = 0x620 → exec (.sysw a n) s = .next (ccDone s { c with regs := { c.regs with
        vxBflag := c.regs.vxBflag && !v.getLsbD 7, vxIsat := c.regs.vxIsat && !v.getLsbD 6, vxOvf := c.regs.vxOvf && !v.getLsbD 5,
        vxNang := c.regs.vxNang && !v.getLsbD 4 } })) ∧
      (c.mode = .running → n.toNat = 0x30 ∨ n.toNat = 0x501 ∨ n.toNat = 0xA81 → Faults (.sysw a n) s 0x0A 1 0) ∧
      (c.mode = .running → n.toNat = 3 ∨ n.toNat = 0x3FFF → Faults (.sysw a n) s 0x01 1 s.cmd.lane)) ∧
    (Cc (.paceGapWrite e a) s → ∃ c' : Core, exec (.paceGapWrite e a) s = .next (ccDone s c') ∧
      (∀ k : Fin 6, c'.gap[k] = if k.val = e.toNat then v.setWidth 8 else c.gap[k]) ∧ { c' with gap := c.gap, gapWas := c.gapWas } = c ∧
      ∀ k, 1 ≤ k → k < 14 → ∀ m ∈ cmdsOf (c.queue k), m.pos ≤ s.cmd.idx → c'.gapOf (paceEng k) m.pos = c.gapOf (paceEng k) m.pos)

/-- R45, Tables 1.13 and 1.14: a write of a bank descriptor waits until every queue has reached its marker, then writes the descriptor (VIOL cleared
by a one) and removes its markers; a reserved format, or an action on a raw bank, raises ILLEGAL. -/
def Sys2Proof.Claim.BankDescriptorWrites : Prop :=
  ∀ (s : State) (n : BitVec 4) (a : XReg) (v : Word), Reads s a v →
    let c := s.core s.cur
    let b := c.bank n.toNat
    (c.allReached s.cmd.idx = true → Cc (.bkfmtWrite n a) s → bits v.toNat 0 4 < 14 → (bits v.toNat 0 4 = 0 → bits v.toNat 4 2 = 0) →
      exec (.bkfmtWrite n a) s = .next (ccDone s ((c.setBank n.toNat
        { b with fmt := fmtOf (bits v.toNat 0 4), act := v.extractLsb' 4 2, viol := b.viol && !v.getLsbD 7 }).dropMarks s.cmd.idx))) ∧
    (c.allReached s.cmd.idx = true → Cc (.bkbndWrite n a) s →
      exec (.bkbndWrite n a) s = .next (ccDone s ((c.setBank n.toNat
        { b with lo := v.setWidth 32, hi := v.extractLsb' 32 32 }).dropMarks s.cmd.idx))) ∧
    (∀ i, i = .bkfmtWrite n a ∨ i = .bkbndWrite n a → Cc i s → c.allReached s.cmd.idx = false →
      ∃ t, exec i s = .next t ∧ t.stalled = true ∧ (t.core s.cur).banks = c.banks) ∧
    (c.allReached s.cmd.idx = true → Cc (.bkfmtWrite n a) s → c.mode = .running →
      14 ≤ bits v.toNat 0 4 ∨ (bits v.toNat 0 4 = 0 ∧ bits v.toNat 4 2 ≠ 0) → Faults (.bkfmtWrite n a) s 0x01 1 s.cmd.lane)

/-- R295, R311: `mxcfg` writes a shadow register, `mxcfg.t` all of them from 256 bytes of memory; `mxst` reads an accumulator's status, or all of it,
and clears it where it is asked to. -/
def Obligations.MatrixConfigurationResults : Prop :=
  ∀ (s : State) (d a : XReg) (n : BitVec 5) (imm : BitVec 40) (clr : Bool) (k : BitVec 3) (x : Word) (p : Place),
    let c := s.core s.cur
    let va := x + imm.signExtend 64
    (Cc (.mxcfg n a imm) s → Reads s a x →
      exec (.mxcfg n a imm) s = .next (ccDone s { c with mx := { c.mx with shadow := c.mx.shadow.set n.toNat va n.isLt } })) ∧
    (Cc (.mxcfgT a imm) s → Reads s a x → c.holds = [] → va.toNat % 256 = 0 → Lands s .read va p → Plain p → (s.readPaP p.pa 256).poisoned = false →
      ∃ w : Vector Word 32, (∀ j : Fin 32, w[j] = BitVec.ofNat 64 (leNat (((s.readPaP p.pa 256).bytes.drop (8 * j.val)).take 8))) ∧
        exec (.mxcfgT a imm) s = .next (ccDone s { c with mx := { c.mx with shadow := w } })) ∧
    (Cc (.mxst d clr k) s → cmdsOf (c.queue 4) = [] →
      exec (.mxst d clr k) s = .next (ccDone s (let e := c.wrX d ⟨BitVec.ofNat 64 (bits c.mx.stat.toNat (4 * k.toNat) 4), false⟩
        if clr then { e with mx := { c.mx with stat := c.mx.stat &&& ~~~(0xF <<< (4 * k.toNat) : BitVec 32) } } else e))) ∧
    (Cc (.mxstAll d clr) s → cmdsOf (c.queue 4) = [] →
      exec (.mxstAll d clr) s = .next (ccDone s (let e := c.wrX d ⟨c.mx.stat.setWidth 64, false⟩
        if clr then { e with mx := { c.mx with stat := 0 } } else e)))

/-- R74, R169: `trap.z` is ILLEGAL_ZERO with CHK = 10.
The model's choices in it: details of the trap record: log 35. -/
def Sys2Proof.Claim.TrapZResult : Prop :=
  ∀ (s : State) (b : BitVec 24), Cc (.trapZ b) s → (s.core s.cur).mode = .running →
    ∃ t, exec (.trapZ b) s = .next t ∧ Trapped s t 0x04 1 s.cmd.lane ∧ bits (t.core s.cur).trap.stat.toNat 4 4 = 10 ∧ ModuleKept s t ∧ SameBytes s t

/-- R168-R170: the first fault of a running core sets the trap record and stops it; a later one only sets its engine's bit in TRAPPEND, but of two
faults of one cycle the record takes that of the lower ENG.
The model's choices in it: details of the trap record: log 35. -/
def Sys2Proof.Claim.FaultTaking : Prop :=
  ∀ (s : State) (k : Nat) (t : Trap) (idx : Nat) (lane : Word), t.aux = none → t.viol = none → t.cls ≠ .link → (t.eng ≠ 5 ∨ t.cls ≠ .bound) →
    let c := s.core k
    let d := (takeFault s k t idx lane).core k
    (c.mode = .running → d.mode = .stopped ∧ d.trap = ⟨BitVec.ofNat 64 t.cls.code, BitVec.ofNat 64 (t.eng + t.chan * 16), BitVec.ofNat 64 (idx % 2 ^ 48),
      t.stat, t.va, lane, 0⟩) ∧
    (c.mode = .stopped → (c.trapAt ≠ s.now ∨ c.trap.eng.toNat % 16 < t.eng) →
      d.mode = .stopped ∧ d.trap = { c.trap with pend := c.trap.pend ||| (1 <<< t.eng : Word) }) ∧
    (c.mode = .stopped → c.trapAt = s.now → t.eng < c.trap.eng.toNat % 16 →
      d.mode = .stopped ∧ d.trap = ⟨BitVec.ofNat 64 t.cls.code, BitVec.ofNat 64 (t.eng + t.chan * 16), BitVec.ofNat 64 (idx % 2 ^ 48), t.stat, t.va, lane,
        c.trap.pend ||| (1 <<< (c.trap.eng.toNat % 16) : Word)⟩) ∧
    (∀ a, c.mode = .resting true a → d.mode = c.mode ∧ d.trap = { c.trap with pend := c.trap.pend ||| (1 <<< t.eng : Word) }) ∧
    { d with mode := c.mode, trap := c.trap, trapAt := c.trapAt, mx := c.mx } = c ∧ (t.eng ≠ 5 → d.mx = c.mx) ∧
    ∀ j, j ≠ k → (takeFault s k t idx lane).core j = s.core j

/-! ### Translation -/

/-- R35, R36, R38: which address translates, where to, and which fault it raises otherwise; the scratchpad address word.
The model's choices in it: translation: log 32. -/
def Sys2Proof.Claim.TranslationResults : Prop :=
  (∀ (s : State) (kind : AccKind) (mk : FaultClass → Word → Trap) (va : Word), 2 ^ 52 ≤ va.toNat → (translate kind mk va).run s = .error (.trap (mk .page va))) ∧
  (∀ (s : State) (kind : AccKind) (mk : FaultClass → Word → Trap) (va : Word) (e : TlbEntry), va.toNat < 2 ^ 52 →
    (s.core s.cur).tlb.find? (fun e => decide (e.va ≤ va.toNat) && decide (va.toNat < e.va + e.size)) = some e →
    let pa := e.pa + (va.toNat - e.va)
    let bad (c : FaultClass) : Prop := (translate kind mk va).run s = .error (.trap (mk c va))
    (kind = .write → e.w = false → bad .perm) ∧ (kind = .fetch → e.x = false → bad .perm) ∧
    ((kind = .write → e.w = true ∧ e.d = true) → (kind = .fetch → e.x = true) →
      (s.region pa = .unassigned → bad .page) ∧ (s.region pa = .kv → bad .perm) ∧
      (∀ c, s.region pa = .device c → s.dieOwner c ≠ s.corePart s.cur → bad .perm) ∧
      (∀ c, s.region pa = .device c → s.dieOwner c = s.corePart s.cur → (s.getPart (s.corePart s.cur)).ck.regions = [] →
        s.chipOk (coreDie s.cur) c = true → (cacheable pa e.nc = true → (s.die (s.homeDie (s.corePart s.cur) pa)).up = true) →
        (translate kind mk va).run s = .ok (⟨pa, e.size - (va.toNat - e.va), e, .device c⟩, s)))) ∧
  (∀ (s : State) (mk : FaultClass → Word → Trap) (xa : Word),
    (bits xa.toNat 25 39 ≠ 0 → (spTarget mk xa).run s = .error (.trap (mk .page xa))) ∧
    (bits xa.toNat 25 39 = 0 → bits xa.toNat 24 1 = 0 → bits xa.toNat 22 2 = 0 → s.disabled.contains s.cur = false →
      SpLands s xa s.cur (bits xa.toNat 0 22)) ∧
    (bits xa.toNat 25 39 = 0 → bits xa.toNat 24 1 = 1 →
      let k := s.cur / 4 * 4 + bits xa.toNat 22 2
      (s.disabled.contains k = false → SpLands s xa k (bits xa.toNat 0 22)) ∧
        (s.disabled.contains k = true → (spTarget mk xa).run s = .error (.trap (mk .page xa)))))

/-! ### Fetch, predictions, loop events -/

/-- R23, R53, R54, R67: the last lane of a line routed: outside loops, prefixes and predictions, its command joins its queue in fetch order with the
scalars it captures and the next index of its counter, and fetch goes on past it. R68-R70: a prefix covers the lanes after it: by
its predicate, where that is known, or by a prediction, the one already made of that predicate or a new one (R33); fetch goes on past it.
The model's choices in it: fetch and its turns: log 3, 33 and 49. -/
def Sys2Proof.Claim.RoutedLane : Prop :=
  ∀ (s : State) (b : LaneBuf), (s.core s.cur).fetching = true → (s.core s.cur).loops = [] → (s.core s.cur).fetch.buf = [b] →
    let c := s.core s.cur
    (∀ cls i w len, b.item = .instr cls i w len → c.fetch.spec = none → c.fetch.pfx = [] → isTransfer i = false → isExit i = false → isBankWrite i = false →
      isYield i = false → (∀ m, i ≠ .qjoin m) → c.holdsMxgo i = false → gateOf i = none → (∀ r ∈ scalarsOf i, c.xPending r = false) →
      let k := laneSlot cls i
      Happens .fetchLine s (fun t =>
        let d := t.core s.cur
        (∃ m : Cmd, d.queue k = c.queue k ++ [.cmd m] ∧ m.instr = i ∧ m.raw = BitVec.ofNat 64 w ∧ m.idx = c.cidx[slotCtr k] ∧ m.lane = b.addr ∧
          m.vals = (scalarsOf i).map c.rdX ∧ m.spec = .none ∧ m.iter = [] ∧ m.started = false) ∧
        d.cidx[slotCtr k] = (c.cidx[slotCtr k] + 1) % 2 ^ 48 ∧ d.fetch.buf = [] ∧
        d.fetch.pc = (if len == 2 then after (b.addr + 4) else after b.addr) ∧ d.x = c.x ∧ d.p = c.p)) ∧
    (∀ cls p cnt pat, b.item = .pfx (.pblk cls p cnt pat) →
      let prefixed (v spec : Bool) (made : Option Spec) (t : State) : Prop :=
        let d := t.core s.cur
        d.fetch.pfx = c.fetch.pfx ++ [⟨cls, p, (List.range (cnt.toNat + 1)).map (fun j => pat.getLsbD j), v, spec⟩] ∧ d.fetch.spec = made ∧
          d.fetch.buf = [] ∧ d.fetch.pc = after b.addr ∧ d.qs = c.qs ∧ t.stalled = false
      (c.predWriter p = none → Happens (.pblk cls p cnt pat) s (prefixed (c.rdP p) false c.fetch.spec)) ∧
      (∀ w sp, c.predWriter p = some w → c.fetch.spec = some sp → sp.pred = p → sp.writer = w → sp.got = none →
        Happens (.pblk cls p cnt pat) s (prefixed sp.val true (some sp))) ∧
      (∀ w, c.predWriter p = some w → c.fetch.spec = none →
        Happens (.pblk cls p cnt pat) s (fun t => ∃ v : Bool, prefixed v true (some ⟨p, v, w, none, none, none⟩) t)))

/-- R68-R71: a prefix that stands next in the line being routed takes effect: its outcomes stand for its class with the predicate's value, where no
lane that writes the predicate is on its way, and the lanes behind it are routed; else with the value predicted; and a second unresolved predicate
is awaited (R33).
The model's choices in it: fetch and its turns: log 3, 33 and 49. -/
def Sys2Proof.Claim.PrefixResults : Prop :=
  ∀ (s : State) (b : LaneBuf) (bs : List LaneBuf) (cls : Cls) (p : PReg) (cnt : BitVec 3) (pat : BitVec 8),
    let c := s.core s.cur
    c.nextPrefix = some (.pblk cls p cnt pat) → c.fetch.buf = b :: bs →
    let placed (v spec : Bool) (made : Option Spec) : State :=
      let pf : Pfx := ⟨cls, p, (List.range (cnt.toNat + 1)).map (fun j => pat.getLsbD j), v, spec⟩
      s.setCore s.cur (routeBuf 16 (({ c with fetch := { c.fetch with spec := made, buf := bs, pfx := c.fetch.pfx ++ [pf] } }).pathAfter b.addr false))
    (c.predWriter p = none → exec (.pblk cls p cnt pat) s = .next { (placed (c.rdP p) false c.fetch.spec) with stalled := false }) ∧
    (∀ w, c.predWriter p = some w → c.fetch.spec = none → ∃ v : Bool,
      exec (.pblk cls p cnt pat) s = .next { (placed v true (some ⟨p, v, w, none, none, none⟩)) with picks := s.picks + 1, stalled := false }) ∧
    (∀ w sp, c.predWriter p = some w → c.fetch.spec = some sp →
      (sp.pred = p ∧ sp.writer = w ∧ sp.got = none → exec (.pblk cls p cnt pat) s = .next { (placed sp.val true (some sp)) with stalled := false }) ∧
      (¬ (sp.pred = p ∧ sp.writer = w ∧ sp.got = none) → exec (.pblk cls p cnt pat) s = .next { s with stalled := true }))

/-- R33: a right prediction makes its lanes ordinary and its results lasting; a wrong one removes what rested on it, and fetch resumes on the other
way.
The model's choices in it: fetch and its turns: log 3, 33 and 49. -/
def Sys2Proof.Claim.PredictionOutcomes : Prop :=
  ∀ (s : State) (sp : Spec) (v : Bool), (s.core s.cur).fetch.spec = some sp → sp.got = some v →
    let c := s.core s.cur
    (v = sp.val → sp.held = none → Happens .speculationCommit s (fun t =>
      let d := t.core s.cur
      d.fetch.spec = none ∧ d.sh = Shadow.nil ∧ d.x = c.x ∧ d.p = c.p ∧ d.mode = c.mode ∧
        ∀ k < 14, cmdsOf (d.queue k) = ((cmdsOf (c.queue k)).filter (fun m => m.spec != .held)).map (fun m => { m with spec := .none }))) ∧
    (v ≠ sp.val → Happens .misprediction s (fun t =>
      let d := t.core s.cur
      d.fetch.spec = none ∧ d.sh = Shadow.nil ∧ d.x = c.x ∧ d.p = c.p ∧ d.tiles = c.tiles ∧ d.accs = c.accs ∧ d.toks = c.toks ∧
        (∀ r, sp.resume = some r → d.fetch.pc = r.pc ∧ d.fetch.buf = []) ∧ ∀ k < 14, ∀ m ∈ cmdsOf (d.queue k), m.spec = .none))

/-- R157, R158: an iteration with no held write retires; a held store that is due is performed; a roll-back cancels its engines' commands from the poisoned iteration on; re-entry begins the
loop again there with the registers of that pass, and counts in LPSTAT.
The model's choices in it: what a loop holds: log 34. -/
def Obligations.LoopEvents : Prop :=
  ∀ (s : State) (l : Loop) (ls : List Loop), (s.core s.cur).loops = l :: ls →
    let c := s.core s.cur
    (c.mode = .running → c.dbg.halted = false → c.canRetire = true → (∀ h ∈ c.holds, h.due = false) → (∀ h ∈ c.holds, h.ser = l.ser → l.retired < h.rel) →
      Happens .iterationRetirement s (fun t =>
      let d := t.core s.cur
      d.x = c.x ∧ if l.done = true ∧ l.retired + 1 = l.n then d.loops = ls else ∃ l', d.loops = l' :: ls ∧ l'.retired = l.retired + 1 ∧ l'.n = l.n)) ∧
    (∀ h va pa bs pois nc, c.mode = .running → c.holds = [h] → h.due = true → h.need = .no → h.slot ≠ 5 → h.effs = [.mem va pa bs pois false nc] →
      Happens .iterationRetirement s (fun t => (t.core s.cur).holds = [] ∧ (t.core s.cur).x = c.x ∧ (t.core s.cur).loops = c.loops ∧
        t.mem = (s.writePa (s.corePart s.cur) pa bs nc pois).mem ∧ t.dies = (s.writePa (s.corePart s.cur) pa bs nc pois).dies)) ∧
    (∀ i, l.roll = some i → l.drain = false → l.ccDrop = none → Happens .loopRollback s (fun t =>
      let d := t.core s.cur
      (∃ l', d.loops = l' :: ls ∧ l'.drain = true ∧ l'.roll = some i ∧ l'.n = l.n) ∧ d.x = c.x ∧
        ∀ k < 14, ∀ m ∈ cmdsOf (d.queue k), ∀ g, m.tagIn l.ser = some g → g.tail = false ∧ (0x40 ≤ opOf m.raw → g.it < i))) ∧
    (∀ i, l.roll = some i → l.drain = true → i ≤ l.retired → Happens .loopReentry s (fun t =>
      let d := t.core s.cur
      (∃ l' rest, d.loops = l' :: rest ∧ l'.pass = i ∧ l'.start = i ∧ l'.from_ = some i ∧ l'.roll = none ∧ l'.turn = true ∧ l'.done = false ∧ l'.n = l.n) ∧
        d.fetch.pc = l.body ∧ d.lpstat.lc = l.lc ∧ d.lpstat.iter = BitVec.ofNat 32 i ∧
        d.lpstat.count = (if c.lpstat.count = 0xFFFF then 0xFFFF else c.lpstat.count + 1) ∧
        ∀ n, amFind i l.snaps = some n → ∀ r : Fin 32, d.x[r] = n.x.getD r.val Scalar.zero))

/-! ### Stops, saves and the debugger -/

/-- R165, R30: EXIT_COMPLETION of a task with nothing left leaves its core idle, and raises TOKEN where a token is left over; an engine that waits for a
token no sender will send raises TOKEN.
The model's choices in it: when the check is made: log 3. -/
def Sys2Proof.Claim.TaskEndAndTokenCheck : Prop :=
  ∀ (s : State) (st : BitVec 8) (tk : Task) (slot : BitVec 4) (m : Cmd) (w : Wait),
    let c := s.core s.cur
    let n := slot.toNat
    (c.exiting = some st → c.task = some tk → c.mode = .running → c.allDone = true → c.fetch.spec = none →
      ((∀ f < 8, c.tokCount f = 0) → Happens .exitCompletion s (fun t => (t.core s.cur).mode = .idle ∧ (t.core s.cur).task = none)) ∧
      (∀ f < 8, 0 < c.tokCount f → Happens .exitCompletion s (fun t => (t.core s.cur).mode = .stopped ∧ (t.core s.cur).trap.cls = 0x23))) ∧
    (c.headEntry n = some (.cmd m) → amFind n c.waits = some w → c.mode = .running → w.kind = 2 → fifoDst w.wsa.toNat = n →
      c.tokCount w.wsa.toNat = 0 → c.fetch.ended = true → (c.queue (fifoSrc w.wsa.toNat)) = [] → c.unsent = [] → c.fetch.spec = none → c.loops = [] →
      Happens (.token slot) s (fun t => (t.core s.cur).mode = .stopped ∧ (t.core s.cur).trap.cls = 0x23 ∧
        (t.core s.cur).trap.cmdidx = BitVec.ofNat 64 (m.idx % 2 ^ 48)))

/-- R168, R172, R175-R179: a faulted core comes to rest; a pre-emption brings its core to rest with a save area reserved; a save writes the context
and frees the core, or gives the area up; a restore brings the context back, reports it as lost where its area is not read back, and onto a core
that is not free does nothing (BUSY, Table 5.18).
The model's choices in it: the regions of a save area that no rule lays out: log 10; gangs: log 27. -/
def Obligations.SaveAndRestoreEvents : Prop :=
  ∀ (s : State) (a : Nat) (tk : Task) (trapped : Bool),
    let k := s.cur
    let p := s.corePart k
    let c := s.core k
    (c.mode = .stopped → Happens .faultStop s (fun t => (t.core k).mode = .resting true none ∧ (t.core k).trap = c.trap ∧ (t.core k).x = c.x ∧
      (t.core k).sh = Shadow.nil)) ∧
    (c.mode = .running → c.dbg.halted = false → c.inGang = false → (∃ q ∈ (s.sched p).preempts, q.1 = k) → (s.sched p).freeAreas.head? = some a →
      Happens .preemption s (fun t => (t.core k).mode = .resting false (some a) ∧ (t.core k).x = c.x ∧ a ∈ (t.sched p).poolBusy ∧
        ∀ q ∈ (t.sched p).preempts, q.1 ≠ k)) ∧
    (c.mode = .resting trapped (some a) → c.task = some tk → tk.gang = false → c.canSave = true →
      Happens .saveSequence s (fun t =>
        (∀ s', s.writeArea p a c trapped ([], []) s.picks = .ok s' → (t.core k).mode = .idle ∧ (t.core k).task = none ∧
          ∃ x ∈ (t.sched p).ctxs, x.area = a ∧ x.place = if trapped then .trapped else .resume) ∧
        (∀ e, s.writeArea p a c trapped ([], []) s.picks = .error e → a ∉ (t.sched p).pool ∧ (t.core k).mode = if trapped then .resting true none else .running))) ∧
    (∀ e since cls x ys zs, s.selection s.part = some (⟨none, [a], e, since, cls, false⟩, [k]) → (s.sched s.part).ctxs = ys ++ x :: zs →
      (∀ y ∈ ys, y.area ≠ a) → x.area = a → a < 2 ^ 64 → (x.core.task.map (·.gpos)).getD 0 < 4 → x.core.task.any (fun t => t.gang) = false →
      (c.mode = .idle → c.staged = none → Happens (.contextRestore (BitVec.ofNat 64 a)) s (fun t =>
        (∀ s', s.restoreOne s.part k x x.trapped = .ok s' → t.core k = { s'.core k with staged := (t.core k).staged } ∧ (t.core k).mode = .running ∧
          (∀ y ∈ (t.sched s.part).ctxs, y.area ≠ a) ∧ a ∉ (t.sched s.part).poolBusy ∧
          ∀ u b, s.partRead s.part a 0x10000 = .ok (u, b) → fldAt b 0 4 = 1 ∧ fldAt b 0x68 8 = s.part ∧ (t.core k).livebk.toNat = fldAt b 0x20 8 % 2 ^ 16 ∧
            (t.core k).livetl.toNat = fldAt b 0x28 8 ∧ ∀ i : Fin 6, (t.core k).cidx[i] = fldAt b (0x70 + 8 * i.val) 8) ∧
        (∀ n, s.restoreOne s.part k x x.trapped = .error n → ∃ y ∈ (t.sched s.part).ctxs, y.area = a ∧ y.place = .lost))) ∧
      (c.mode ≠ .idle ∨ c.staged ≠ none → Happens (.contextRestore (BitVec.ofNat 64 a)) s (fun t =>
        (t.sched s.part).ctxs = (s.sched s.part).ctxs ∧ (t.core k).mode = c.mode)))

/-- R180-R182: a debugger halts a running core, or its DBGCMP does; DEBUG_GO resumes it, DEBUG_STEP for one command of an engine; through the window
DBGCTL is read and a halted core's state written.
The model's choices in it: the debugger: log 44. -/
def Obligations.DebuggerEvents : Prop :=
  ∀ (s : State) (eng : BitVec 4) (off : BitVec 24) (v : Word),
    let k := s.cur
    let c := s.core k
    (s.rows.debugen = true → c.mode = .running → c.dbg.halted = false →
      Happens .debuggerHaltRequest s (fun t => (t.core k).dbg.halted = true ∧ (t.core k).dbg.why = 0 ∧ (t.core k).x = c.x)) ∧
    ((∃ n < 14, c.matches n = true) → Happens .dbgcmpMatch s (fun t => (t.core k).dbg.halted = true ∧ (t.core k).dbg.why = 2)) ∧
    (c.dbg.halted = true → c.dbg.writes = [] → Happens .debugGo s (fun t => (t.core k).dbg.halted = false ∧ (t.core k).x = c.x) ∧
      (1 ≤ eng.toNat → eng.toNat ≤ 7 →
        Happens (.debugStep eng) s (fun t => (t.core k).dbg.halted = false ∧ (t.core k).dbg.stepping = true ∧
        (t.core k).dbg.stepeng = eng))) ∧
    (c.dbg.halted = false → c.dbg.stepping = true → Happens .debugGo s (fun t => (t.core k).dbg.stepping = false ∧ (t.core k).dbg.halted = false)) ∧
    (∀ j, s.phase ≠ 0 → (s.getPart s.part).dbgsel = some j →
      (off.toNat / 8 * 8 = 0x7F0000 → Happens (.debugWindowAccess false off v) s (fun t => t.seen = leBytes 8 (s.core j).dbg.ctl.toNat)) ∧
      ((s.core j).dbg.halted = true → off.toNat / 8 * 8 < 0x7F0000 → Happens (.debugWindowAccess true off v) s (fun t =>
        (t.core j).dbg.writes = (s.core j).dbg.writes ++ [(off.toNat / 8 * 8, v)])) ∧
      ((s.core j).dbg.halted = false → off.toNat / 8 * 8 ≠ 0x7F0000 → Happens (.debugWindowAccess false off v) s (fun t => t.seen = List.replicate 8 255)))

/-- R364: a wait of a running core on a token, longer than WTMO, raises WAITTMO for its command.
The model's choices in it: waits: log 37. -/
def Sys2Proof.Claim.WaitTimeout : Prop :=
  ∀ (s : State) (slot : BitVec 4) (m : Cmd) (w : Wait), 1 ≤ slot.toNat → slot.toNat ≤ 4 →
    let c := s.core s.cur
    amFind slot.toNat c.waits = some w → c.headEntry slot.toNat = some (.cmd m) → c.mode = .running → c.dbg.halted = false →
    (w.kind = 1 ∨ w.kind = 2 ∨ w.kind = 3) → amFind slot.toNat c.dbg.paused = none →
    let limit := (s.getPart (s.corePart s.cur)).regs.wtmo.toNat % 2 ^ 32 * 1024
    (0 < limit → limit ≤ s.now - w.wsc.toNat → Happens (.waittmo slot) s (fun t =>
      let d := t.core s.cur
      d.mode = .stopped ∧ d.trap.cls = 0x22 ∧ d.trap.eng = BitVec.ofNat 64 (slot.toNat + 1) ∧ d.trap.cmdidx = BitVec.ofNat 64 (m.idx % 2 ^ 48) ∧
        d.trap.lane = m.lane ∧ d.x = c.x)) ∧
    (limit = 0 ∨ s.now - w.wsc.toNat < limit → exec (.waittmo slot) s = .fault .notEnabled)

/-- R48, R49: a corrected error only counts; an uncorrectable one poisons its granule and leaves every byte, and in a queue, a token FIFO, a store
buffer, a journal or the run register raises POISON at once.
The model's choices in it: poison of a granule: log 14. -/
def Sys2Proof.Claim.ErrorEvents : Prop :=
  ∀ (s : State) (a : ArrayUnit) (pa : BitVec 52) (off : BitVec 22) (n : BitVec 6) (g : BitVec 10) (k : BitVec 3) (r : BitVec 6) (w : BitVec 28)
    (q : BitVec 4) (ch : BitVec 3) (e : BitVec 5) (m : Cmd) (chip : BitVec 2) (blk tok : BitVec 32) (b : KvBlock),
    let c := s.core s.cur
    let p := s.dieOwner chip.toNat
    let j := (s.getPart p).dies.idxOf chip.toNat
    let site (x : ErrSite) (P : State → Prop) : Prop := Happens (.uncorrectableError x) s (fun t => P t ∧ t.mem = s.mem)
    let trapped (t : State) (eng idx : Nat) : Prop := (t.core s.cur).mode = .stopped ∧ (t.core s.cur).trap.cls = 0x18 ∧
      (t.core s.cur).trap.eng = BitVec.ofNat 64 eng ∧ (t.core s.cur).trap.cmdidx = BitVec.ofNat 64 (idx % 2 ^ 48)
    Happens (.correctedError a) s (fun t => ∃ l key, t = { s with life := { s.life with corr := l } } ∧
      amGet 0 l key = min (2 ^ 32 - 1) (amGet 0 s.life.corr key + 1) ∧ ∀ j, j ≠ key → amGet 0 l j = amGet 0 s.life.corr j) ∧
    site (.mem pa) (fun t => pa.toNat / 32 ∈ t.memPois ∧ ∀ b ∈ s.memPois, b ∈ t.memPois) ∧
    site (.scratchpad off) (fun t => off.toNat / 32 ∈ (t.core s.cur).spPois ∧ (t.core s.cur).sp = c.sp) ∧
    site (.tile n g) (fun t => g.toNat ∈ ((t.core s.cur).tile n.toNat).pois ∧ ((t.core s.cur).tile n.toNat).rows = (c.tile n.toNat).rows) ∧
    site (.acc k r) (fun t => r.toNat ∈ ((t.core s.cur).accs[k.toNat]'k.isLt).pois) ∧
    site (.cistern w) (fun t => w.toNat ∈ t.cist.bad ∧ t.cist.data = s.cist.data) ∧
    (∀ x, amFind n.toNat c.sh.tiles = some x → site (.shadowTile n g) (fun t =>
      ∃ y, amFind n.toNat (t.core s.cur).sh.tiles = some y ∧ g.toNat ∈ y.pois ∧ y.rows = x.rows)) ∧
    (∀ x, amFind k.toNat c.sh.accs = some x → site (.shadowAcc k r) (fun t =>
      ∃ y, amFind k.toNat (t.core s.cur).sh.accs = some y ∧ r.toNat ∈ y.pois ∧ y.el = x.el)) ∧
    (p < 4 → (s.kvBlocks p j)[blk.toNat]? = some b → site (.chipletSram chip blk tok) (fun t => ∃ y, (t.kvBlocks p j)[blk.toNat]? = some y ∧
      (y.owner, y.layer, y.b, y.absent) = (b.owner, b.layer, b.b, b.absent) ∧
      ∀ i, amFind i y.toks = (amFind i b.toks).map (fun z => if i = tok.toNat then { z with pois := true } else z))) ∧
    ((s.lineDie (pa.toNat / 128)).isSome = true → site (.l2Tag pa) (fun t => ∀ i < 4, pa.toNat / 128 * 4 + i ∈ t.memPois)) ∧
    (c.loops = [] → c.mode = .running →
      (q.toNat < 14 → c.headEntry q.toNat = some (.cmd m) → site (.queue q) (fun t => trapped t (cmdEng q.toNat m + slotChan q.toNat * 16) m.idx)) ∧
      (0 < c.tokCount k.toNat → c.headEntry (fifoDst k.toNat) = some (.cmd m) → site (.fifo k) (fun t => trapped t (fifoDst k.toNat + 1) m.idx)) ∧
      (∀ h hs, c.holds = h :: hs → h.slot = 2 → site .storeBuffer (fun t => trapped t 3 h.cmd.idx)) ∧
      (∀ x, (c.journal ch.toNat)[e.toNat]? = some x → site (.copyJob ch e) (fun t => trapped t (6 + ch.toNat * 16) x.id)) ∧
      (∀ nest, c.mx.nest = some nest → nest.drain = false → nest.rested = false → site .runRegister (fun t => trapped t 5 nest.cmd.idx)))

/-- R38, R39: the walker's answer to a missed address: no table, or an address above 52 bits, is PAGE; else an entry of the TLB covers it, at most
256 of them, with write permission and D as the tables give them.
The model's choices in it: translation: log 32. -/
def Sys2Proof.Claim.PageWalkResults : Prop :=
  ∀ (s : State) (va : Word) (write : Bool),
    let p := s.corePart s.cur
    ((s.getPart p).root = none ∨ 2 ^ 52 ≤ va.toNat → s.pageWalk s.cur va write = .error .page ∧ exec (.pageWalk va write) s = .next s) ∧
    (∀ root used e size, (s.getPart p).root = some root → va.toNat < 2 ^ 52 → s.walk va.toNat 3 root [] = .ok (used, e, size) →
      Happens (.pageWalk va write) s (fun t => ((s.core s.cur).tlb.length ≤ 256 → (t.core s.cur).tlb.length ≤ 256) ∧ ∃ x ∈ (t.core s.cur).tlb, x.va = va.toNat / size * size ∧ x.size = size ∧ x.pa = bits e 12 40 * 2 ^ 12 ∧
        x.w = e.testBit 4 ∧ x.x = e.testBit 5 ∧ x.pub = e.testBit 7 ∧ x.nc = e.testBit 8 ∧ x.sysat = e.testBit 6 ∧
        x.d = ((write && e.testBit 4) || e.testBit 10)) )

/-- R65, R72: a reserved opcode, and a reserved field value, raise ILLEGAL in the engine of their lane, which the trap record's status names. -/
def Sys2Proof.Claim.ReservedLanes : Prop :=
  ∀ (s : State) (w : Word), s.cmd.spec = .none → (s.core s.cur).mode = .running → s.slot < 14 → (s.slot = 0 → Unheld (s.core s.cur) s.cmd) →
    let eng := if s.slot = 0 then 1 else cmdEng s.slot s.cmd + slotChan s.slot * 16
    (∃ t, exec (.reservedOpcode w) s = .next t ∧ Trapped s t 0x01 eng s.cmd.lane ∧
      (t.core s.cur).trap.stat = illegalStat (opOf s.cmd.raw) 24 8 (bits s.cmd.raw.toNat 24 8) false false ∧ SameBytes s t) ∧
    (∀ f fs, badFields w.toNat = f :: fs → ∃ t, exec (.reservedFieldValue w) s = .next t ∧ Trapped s t 0x01 eng s.cmd.lane ∧
      (t.core s.cur).trap.stat = illegalStat (opOf s.cmd.raw) f.lo f.len (bits s.cmd.raw.toNat f.lo f.len) false false ∧ SameBytes s t)

namespace Sys2Proof.Claim

/-- The XQ command `i` is in hand at its port, outside loops, new and not speculative. -/
def Xq (i : Instr) (s : State) : Prop :=
  s.cmd.instr = i ∧ s.slot = 5 ∧ s.cmd.spec = .none ∧ s.cmd.started = false ∧ s.cmd.accepted = false ∧ s.cmd.iter = [] ∧ Calm s ∧
    (s.core s.cur).unsent = []
/-- The scalar captured at place `j` when the command was routed (R53). -/
def Has (s : State) (j : Nat) (v : Word) : Prop := s.cmd.vals.getD j Scalar.zero = ⟨v, false⟩
/-- `xa` names `n` bytes, aligned, of the core's own scratchpad in banks without an action, where a unit may write a result (R207, R352), and from which no nest streams (R46). -/
def ResultOk (s : State) (xa : Word) (n align : Nat) : Prop :=
  xa.toNat + n ≤ 0x400000 ∧ xa.toNat % align = 0 ∧ (s.core s.cur).streams xa.toNat n = false ∧ ∀ b, bankOf xa.toNat ≤ b → b ≤ bankOf (xa.toNat + n - 1) → ((s.core s.cur).bank b).act = 0
/-- Only `n` bytes at `o` of the core's scratchpad changed, to `bs`. -/
def SpBytes (s t : State) (o : Nat) (bs : List Byte) : Prop := (t.core s.cur).sp = pokeBytes (s.core s.cur).sp o bs

end Sys2Proof.Claim

/-! ### The scheduler -/

/-- R187, R190, R195: the selected record binds its next iteration to the selected core: a new task number, the iteration's indexes and the record's
arguments in x1-x8, the path at the first lane of its code until that line is routed.
The model's choices in it: the scheduler: log 41 and 52. -/
def Sys2Proof.Claim.TaskDispatchResult : Prop :=
  ∀ (s : State) (ser e since cls k n0 : Nat) (r : RecLive), s.selection s.part = some (⟨some ser, [], e, since, cls, false⟩, [k]) → s.part < 4 →
    (s.sched s.part).rcd? ser = some r → r.n0w = some n0 → r.rcd.total n0 ≠ 0 → r.rcd.gang = false →
    Happens .taskDispatch s (fun t =>
      let d := t.core k
      ∃ tk : Task, d.task = some tk ∧ tk.id = (s.sched s.part).taskCnt + 1 ∧ tk.ser = ser ∧ tk.lin = r.next ∧ tk.idx = r.rcd.indexes n0 r.next ∧
        (d.mode = .running ∨ d.mode = .stopped) ∧ (d.fetch.line = none → (∀ n : Fin 7, d.cidx[n] = 0) → d.fetch.pc = r.rcd.entry + 0x204) ∧
        (∀ j : Fin 4, d.rdX (BitVec.ofNat 5 (j.val + 1)) = ⟨BitVec.ofNat 64 (tk.idx.getD j.val 0), false⟩) ∧
        d.rdX 5 = ⟨BitVec.ofNat 64 r.next, false⟩ ∧ d.rdX 6 = ⟨r.rcd.arg0, false⟩ ∧ d.rdX 7 = ⟨r.rcd.arg1, false⟩ ∧ d.rdX 8 = ⟨0, false⟩ ∧
        (∀ x : XReg, 9 ≤ x.toNat → d.rdX x = ⟨0, false⟩) ∧ d.livebk = r.rcd.livebk ∧ d.livetl = r.rcd.livetl)

/-- R191, R193, R197, R199-R202, R205, R208: the scheduler's own events.
The model's choices in it: the scheduler: log 41 and 52. -/
def Sys2Proof.Claim.SchedulerEvents : Prop :=
  ∀ (s : State) (ser : Nat), s.part < 4 →
    let p := s.part
    let d := s.sched p
    let q := s.corePart s.cur
    let noEmpty : Prop := ∀ e ∈ d.recs, e.2.place = .queued → e.2.empty = false
    (s.nextRec q = some ser → (s.core s.cur).mode = .running → (s.core s.cur).staged = none → (s.partCores q).contains s.cur = true →
      Happens .taskStaging s (fun t => (t.core s.cur).x = (s.core s.cur).x ∧ ∃ g, (t.core s.cur).staged = some g ∧ g.ser = ser ∧
        ∀ r s1 bs, (s.sched q).rcd? ser = some r → s.partRead q r.rcd.entry.toNat 512 = .ok (s1, bs) → g.desc = some bs)) ∧
    (∀ c k, s.cands p = [c] → c.gang = false → 2000 * (s.getPart p).regs.prewait.toNat ≤ s.now - c.since → s.victim p c = [k] → s.corePart k = p →
      (s.core k).mode = .running → (s.core k).task.isSome = true →
      (∀ j ∈ s.partCores p, s.coreFree j = false) → d.preempts = [] → Happens .prewaitExpiry s (fun t => (k, false) ∈ (t.sched p).preempts)) ∧
    (d.fcastAt / 2048 < s.now / 2048 → (s.getPart p).dies ≠ [] → Happens .fcastUpdate s (fun t => (t.sched p).fcastAt = s.now ∧
      ∀ e ∈ (s.getPart p).dies, amGet 0 (t.sched p).fcast e = s.fcastOf p e)) ∧
    (∀ r, d.ready = [ser] → d.rcd? ser = some r → r.rcd.cls < 4 → (d.queue r.rcd.cls).length < 256 → noEmpty →
      (r.empty = false → Happens .readyListEntry s (fun t => (t.sched p).queue r.rcd.cls = d.queue r.rcd.cls ++ [ser] ∧ (t.sched p).ready = [])) ∧
      (r.empty = true → Happens .readyListEntry s (fun t => (t.sched p).rcd? ser = none ∧ ser ∉ (t.sched p).ready))) ∧
    (∀ va m, d.heldReplay = some (va, m) → d.olderLive = false → Happens .heldReplayStart s (fun t =>
      (t.sched p).heldReplay = none ∧ (m ≠ d.latest + 1 → (t.sched p).latest = d.latest) ∧
      (m = d.latest + 1 → let u := s.updSched p (fun d => { d with heldReplay := none })
        (∀ s1 rs, u.readAlmanac p va = .ok (s1, rs) → (t.sched p).latest = m ∧ (t.sched p).patched = []) ∧
        (∀ e, u.readAlmanac p va = .error e → (t.sched p).latest = d.latest ∧ (t.sched p).recs = d.recs)))) ∧
    (∀ h hs, d.heldPatches = h :: hs → d.olderLive = false → d.latest < h.p → Happens .heldPatch s (fun t =>
      (t.sched p).heldPatches = hs ∧ amGet 0 (t.sched p).gp ((d.latest + 1) % 2 * 64 + h.slot) = h.v ∧ h.slot ∈ (t.sched p).patched)) ∧
    (∀ h, d.heldSubs = [h] → h.rcd.cls < 4 → d.hasRoom h.rcd.cls = true → noEmpty → h.rcd.total (h.rcd.n.getD 0 0) ≠ 0 → Happens .heldSubmission s (fun t =>
      (t.sched p).queue h.rcd.cls = d.queue h.rcd.cls ++ [d.serial] ∧ (t.sched p).heldSubs = [] ∧
        ∀ x ∈ (t.core h.core).xq, ¬ (x.unit = 8 ∧ x.cmd.idx = h.cmd.idx)))

/-- R208-R213: the SQ instructions. `sq.sub` appends a well-formed record to its class's queue, or refuses it in the status word; `sq.gpr` reads the
task's bank of slots; `sq.gpw` writes a slot for the next replay, or sets GPSTAT where the task's replay is past; `sq.acc` moves an acceptance
counter an eighth of the way; `sq.crd` writes the coordinate block; a yield not granted lets fetch go on, and one that a waiting candidate of the task's effective class or a better one justifies, or `sq.yield.al` with an
area, asks for pre-emption. -/
def Obligations.SchedulerQueueResults : Prop :=
  ∀ (s : State) (xa xb : XReg) (a b : Word) (st : Bool) (cnt : BitVec 4) (slot : BitVec 6) (k : BitVec 2) (p : Place) (tk : Task),
    let c := s.core s.cur
    let q := s.corePart s.cur
    let d := s.sched q
    Has s 0 a → c.task = some tk →
    (Xq (.sqSub xa st xb) s → (st = true → Has s 1 b ∧ ResultOk s b 8 8) → a.toNat % 128 = 0 → Lands s .read a p → Plain p →
      (s.readPaP p.pa 128).poisoned = false →
      let bs := (s.readPaP p.pa 128).bytes
      let r := Record.parse bs
      (r.ok bs none = true → d.hasRoom r.cls = true → d.heldSubs = [] → r.total (r.n.getD 0 0) ≠ 0 → (∀ e ∈ d.recs, e.2.place = .queued → e.2.empty = false) → Completes (.sqSub xa st xb) s (fun t =>
        (t.sched q).queue r.cls = d.queue r.cls ++ [d.serial] ∧
          (st = true → SpBytes s t b.toNat (leBytes 8 ((0x8000 + d.subIdx % 0x8000) * 2 ^ 32))))) ∧
      (r.ok bs none = false → Completes (.sqSub xa st xb) s (fun t =>
        (t.sched q).queue r.cls = d.queue r.cls ∧ (st = true → SpBytes s t b.toNat (leBytes 8 1))))) ∧
    (Xq (.sqGpr cnt slot xa) s → slot.toNat + cnt.toNat ≤ 63 → ResultOk s a (8 * (cnt.toNat + 1)) 8 → Completes (.sqGpr cnt slot xa) s (fun t =>
      SpBytes s t a.toNat ((List.range (cnt.toNat + 1)).flatMap (fun i =>
        leBytes 8 (amGet 0 d.gp ((tk.replay.getD d.latest) % 2 * 64 + (slot.toNat + i))).toNat)))) ∧
    (Xq (.sqGpw slot xa) s →
      (∀ m, tk.replay = some m → d.latest < m + 1 → d.olderLive = false → Completes (.sqGpw slot xa) s (fun t =>
        amGet 0 (t.sched q).gp ((d.latest + 1) % 2 * 64 + slot.toNat) = a ∧ slot.toNat ∈ (t.sched q).patched)) ∧
      (tk.replay = none → Completes (.sqGpw slot xa) s (fun t =>
        (t.core s.cur).regs.gpStale = true ∧ (t.core s.cur).regs.gpSlot = slot ∧ (t.sched q).gp = d.gp))) ∧
    (Xq (.sqAcc k xa) s → Completes (.sqAcc k xa) s (fun t => ∀ j : Fin 3, (t.sched q).ac[j] =
      if j.val = k.toNat ∧ a.toNat % 2 ^ 32 ≠ 0 then
        BitVec.ofInt 16 ((d.ac[j].toNat : Int) + ((min 0xFFFF (min (a.toNat / 2 ^ 32) (a.toNat % 2 ^ 32) * 65536 / (a.toNat % 2 ^ 32)) : Nat) - (d.ac[j].toNat : Int)) / 8)
      else d.ac[j])) ∧
    (Xq (.sqCrd xa) s → ResultOk s a 64 64 → Completes (.sqCrd xa) s (fun t => ∃ bs, bs.length = 64 ∧ SpBytes s t a.toNat bs ∧
      leNat (bs.take 8) = tk.id % 2 ^ 64 ∧ leNat ((bs.drop 8).take 8) = tk.lin % 2 ^ 64 ∧ leNat ((bs.drop 16).take 4) = tk.idx.getD 0 0 % 2 ^ 32)) ∧
    (∀ i, i = .sqYield ∨ i = .sqYieldAl → Xq i s → c.mode = .running →
      let wanted : Prop := i = .sqYieldAl ∧ d.freeAreas ≠ [] ∨ i = .sqYield ∧ (∀ j ∈ s.partCores q, s.coreFree j = false) ∧ ∃ x ∈ s.cands q, x.e ≤ tk.ecls
      (¬ wanted → Completes i s (fun t => (t.core s.cur).fetch.yield = false ∧ (t.sched q).preempts = d.preempts)) ∧
      (wanted → c.inGang = false → d.preempts = [] → Completes i s (fun t => (t.sched q).preempts = [(s.cur, true)])))

namespace Sys2Proof.Claim

/-- The engine lane `i` is in hand at engine slot `k`, outside loops, new, not speculative, its operands in modes their places allow; its tokens are
there, its consumed and peeked tiles full, and a produced tile empty or consumed by the lane itself (R25, R26, R29); no recovery-scope fence marks it
(R117), and a store finds a free store buffer of the 16 (R232). -/
def Lane (i : Instr) (s : State) (k : Slot) (o : LaneOps) : Prop :=
  let c := s.core s.cur
  s.cmd.instr = i ∧ s.slot = k ∧ s.cmd.spec = .none ∧ s.cmd.started = false ∧ s.starting = false ∧ s.cmd.iter = [] ∧ Calm s ∧ c.relNext k = false ∧
    (k = 2 → c.begun 2 < 16) ∧ c.unsent = [] ∧ c.sh = Shadow.nil ∧ o.illegal = none ∧ (∀ f ∈ tokTakes k o.tok, 0 < c.tokCount f) ∧
    (∀ p ∈ o.srcs, p.1.mode = .consume ∨ p.1.mode = .peek → (c.tile p.1.n.toNat).full = true) ∧
    (∀ d ∈ o.dsts, d.1.mode = .produce → (c.tile d.1.n.toNat).full = false ∨ ∃ p ∈ o.srcs, p.1.n = d.1.n ∧ p.1.mode = .consume)
/-- The scalar and special registers of a core that no engine lane writes. -/
def ScalarsKept (c d : Core) : Prop :=
  d.x = c.x ∧ d.p = c.p ∧ d.lc = c.lc ∧ d.trap = c.trap ∧ d.lpstat = c.lpstat ∧ d.livebk = c.livebk ∧ d.livetl = c.livetl ∧ d.gap = c.gap ∧
    d.cidx = c.cidx ∧ d.tlb = c.tlb ∧ d.task = c.task ∧ d.fetch = c.fetch
/-- The contents of a tile: rows, tag and poison. -/
def SameTile (a b : Tile) : Prop := (∀ i, a.row i = b.row i) ∧ a.tag = b.tag ∧ a.pois = b.pois
/-- The engine lane completes (R25, R29, R62): it has left its queue; its tokens are taken and sent; consumed tiles are empty and produced ones full;
tiles it does not name as destinations keep their contents, and the scalar registers stay; and `P` holds. -/
def LaneDone (i : Instr) (s : State) (k : Slot) (o : LaneOps) (P : State → Prop) : Prop :=
  ∃ t, exec i s = .next t ∧
    let c := s.core s.cur
    let d := t.core s.cur
    t.stalled = false ∧ d.queue k = dropCmd s.cmd.idx (c.queue k) ∧ d.mode = c.mode ∧ ScalarsKept c d ∧
      (∀ f < 8, d.tokCount f = if f ∈ tokTakes k o.tok then c.tokCount f - 1 else if f ∈ tokSends k o.tok then max (c.tokCount f) (min 16 (c.tokCount f + 1)) else c.tokCount f) ∧
      (∀ n < 64, (d.tile n).full = if ∃ q ∈ o.dsts, q.1.n.toNat = n ∧ q.1.mode = .produce then true
        else if ∃ q ∈ o.srcs, q.1.n.toNat = n ∧ q.1.mode = .consume then false else (c.tile n).full) ∧
      (∀ n < 64, (∀ q ∈ o.dsts, q.1.n.toNat ≠ n) → SameTile (d.tile n) (c.tile n)) ∧ P t
/-- Nothing outside the core's tiles and sticky bits changed: the module, the other cores, the scratchpad, the accumulators. -/
def OutsideKept (s t : State) : Prop :=
  ModuleKept s t ∧ OthersKept s t ∧ (t.core s.cur).sp = (s.core s.cur).sp ∧ (t.core s.cur).spPois = (s.core s.cur).spPois ∧
    (t.core s.cur).accs = (s.core s.cur).accs ∧ (t.core s.cur).banks = (s.core s.cur).banks

/-- Elements of a loaded or stored row, rows, and the size of an element. -/
def nels (n : BitVec 8) : Nat := n.toNat + 1
/-- The destination tile of a load (R218, R219): rows `8 TR` to `8 TR + NROW` have their low elements replaced by those of the source bytes `src`, `w` bits
each, converted by `conv` to the tag `ty`; the other bits and rows stay, but for the top four bits of a row of MXINT6 codes, which are zero (R20); and
the tag is `ty`. -/
def Filled (old new : Tile) (o : LdArgs) (ty : Fmt) (w : Nat) (conv : Nat → Nat) (src : Nat → List Byte) : Prop :=
  new.tag = ty ∧
    (∀ r ≤ o.nrow.toNat,
      let v : BitVec 1024 := setLow (old.row (8 * o.tr.toNat + r)) (nels o.nel * Fmt.size ty) (packEls (Fmt.size ty) ((unpackEls w (nels o.nel) (leNat (src r))).map conv))
      new.row (8 * o.tr.toNat + r) = if ty = .mx6 then BitVec.ofNat 1024 (v.toNat % 2 ^ 1020) else v) ∧
    ∀ r, r < 8 * o.tr.toNat ∨ 8 * o.tr.toNat + o.nrow.toNat < r →
      new.row r = if ty = .mx6 then BitVec.ofNat 1024 ((old.row r).toNat % 2 ^ 1020) else old.row r

/-- The row offsets of a load: the stride times the row number, or times the row's index in an index tile (R220), or none for a broadcast (R221). -/
def LdRows (i : Instr) (s : State) (o : LdArgs) (sp : Bool) (a b : Word) (srcs : List (TileRef × Nat)) (off : Nat → Int) (bits0 : Nat) : Prop :=
  ((i = (if sp then .ldS o else .ldT o) ∨ (∃ sc, i = .ldAcq o sp sc ∧ a.toNat % 8 = 0 ∧ 57 ≤ bits0)) ∧ srcs = [] ∧ ∀ r : Nat, off r = r * b.toInt) ∨
  (∃ ti, i = (if sp then .ldGs o ti else .ldG o ti) ∧ srcs = [(ti, 56)] ∧
    let x := (s.core s.cur).tile ti.n.toNat
    (x.tag = .s32 ∨ x.tag = .z32 ∨ x.tag = .s64 ∨ x.tag = .z64) ∧
      ∀ r ≤ o.nrow.toNat, x.elPoisoned x.tag r = false ∧ off r = intVal x.tag (x.el x.tag r) * b.toInt) ∨
  (i = .ldB o sp ∧ srcs = [] ∧ ∀ r, off r = 0)

end Sys2Proof.Claim

/-! ### The load engine -/

/-- R218-R221, R224: loads from device memory, rows each inside a page: every row's elements from the bytes at its address.
The model's choices in it: the order of rows: log 7; rows of a RAW tile: log 16. -/
def Sys2Proof.Claim.MemoryLoadResults : Prop :=
  ∀ (s : State) (i : Instr) (o : LdArgs) (a b : Word) (srcs : List (TileRef × Nat)) (off : Nat → Int) (pl : Nat → Place),
    let ops : LaneOps := ⟨o.tok, srcs, [(o.td, 12)]⟩
    let c := s.core s.cur
    let sz := Fmt.size o.ty
    let n := (nels o.nel * sz + 7) / 8
    LdRows i s o false a b srcs off (nels o.nel * sz) → Lane i s 1 ops → Has s 0 a → Has s 1 b → nels o.nel * sz ≤ rowLimit o.ty →
    8 * o.tr.toNat + o.nrow.toNat < 64 →
    (∀ r ≤ o.nrow.toNat, let va := a + BitVec.ofInt 64 (off r)
      va.toNat % fmtAlign o.ty = 0 ∧ va.toNat % 4096 + n ≤ 4096 ∧ Lands s .read va (pl r) ∧ Plain (pl r)) →
    LaneDone i s 1 ops (fun t => Filled (c.tile o.td.n.toNat) ((t.core s.cur).tile o.td.n.toNat) o o.ty sz id (fun r => (s.readPaP (pl r).pa n).bytes) ∧
      OutsideKept s t)

/-- R218-R222: loads from a scratchpad: the source format is that of row 0's bank, which every row's bank must have; a TYPE other than it converts,
and one that is RAW keeps it.
The model's choices in it: rows of a RAW tile: log 16. -/
def Sys2Proof.Claim.ScratchpadLoadResults : Prop :=
  ∀ (s : State) (i : Instr) (o : LdArgs) (a b : Word) (srcs : List (TileRef × Nat)) (off : Nat → Int) (k o0 : Nat) (pos : Nat → Nat) (f ty : Fmt),
    let ops : LaneOps := ⟨o.tok, srcs, [(o.td, 12)]⟩
    let c := s.core s.cur
    let w := if f = .raw then Fmt.size ty else Fmt.size f
    let n := (nels o.nel * w + 7) / 8
    LdRows i s o true a b srcs off (nels o.nel * w) → Lane i s 1 ops → Has s 0 a → Has s 1 b → SpLands s a k o0 →
    (o.ty = .raw ∧ ty = f ∨ o.ty ≠ .raw ∧ ty = o.ty ∧ (f = .raw ∨ f = ty ∨ Fmt.isBlock f = false ∧ Fmt.isBlock ty = false)) →
    nels o.nel * Fmt.size ty ≤ rowLimit ty → 8 * o.tr.toNat + o.nrow.toNat < 64 →
    (∀ r ≤ o.nrow.toNat, (pos r : Int) = (o0 : Int) + off r ∧ pos r + n ≤ 0x400000 ∧ pos r % fmtAlign f = 0 ∧ bankOf (pos r) = bankOf (pos r + n - 1) ∧
      ((s.core k).bank (bankOf (pos r))).fmt = f ∧ (s.core k).streams (pos r) n = false) →
    LaneDone i s 1 ops (fun t => Filled (c.tile o.td.n.toNat) ((t.core s.cur).tile o.td.n.toNat) o ty w
      (fun v => if f = ty ∨ f = .raw then v else implicitConv f ty v) (fun r => peekBytes (s.core k).sp (pos r) n) ∧ OutsideKept s t)

/-- R223, R49, Table 7.4: `ld.w` reads rows of W-space, a row of an invalid word arriving poisoned, and WREM counts on the words outside the core's slice.
R225: `pf` completes whatever its lines are, dropped whole where its register is poisoned; no byte of memory reads otherwise after it, and a line that may be
cached lies in an L2 then. R226: `pf.w` puts the words it names that are W-space of another core into the W buffer, nothing else.
The model's choices in it: the L2: log 36 and 45. -/
def Obligations.WeightLoadAndPrefetchResults : Prop :=
  ∀ (s : State) (o : LdArgs) (a b : Word) (tok : Tok) (nl : BitVec 8) (nw : BitVec 5) (xa : XReg),
    let c := s.core s.cur
    let p := s.corePart s.cur
    let sz := Fmt.size o.ty
    let n := (nels o.nel * sz + 7) / 8
    let at_ (r : Nat) : Nat := (a + BitVec.ofNat 64 r * b).toNat
    (Lane (.ldW o) s 1 ⟨o.tok, [], [(o.td, 12)]⟩ → Has s 0 a → Has s 1 b → a.toNat < 2 ^ 38 → nels o.nel * sz ≤ rowLimit o.ty →
      8 * o.tr.toNat + o.nrow.toNat < 64 →
      (∀ r ≤ o.nrow.toNat, at_ r % fmtAlign o.ty = 0 ∧ s.wOk p (at_ r) = true ∧ s.wOk p (at_ r + n - 1) = true ∧
        s.ringOk (coreDie s.cur) (bits (at_ r) 36 2) = true) →
      LaneDone (.ldW o) s 1 ⟨o.tok, [], [(o.td, 12)]⟩ (fun t =>
        let x := (t.core s.cur).tile o.td.n.toNat
        let good (i : Nat) : Prop := i / 2048 ∈ s.cist.valid ∧ i / 1024 ∉ s.cist.bad
        Filled (c.tile o.td.n.toNat) x o o.ty sz id (fun r => peekBytes s.cist.data (at_ r) n) ∧ OutsideKept s t ∧
        (∀ r ≤ o.nrow.toNat, ((∀ i < n, good (at_ r + i)) → (c.tile o.td.n.toNat).pois = [] →
            ∀ e < nels o.nel, x.bitsPoisoned (8 * o.tr.toNat + r) (e * sz) sz = false) ∧
          (∀ i < n, ¬ good (at_ r + i) → ∃ e < nels o.nel, x.bitsPoisoned (8 * o.tr.toNat + r) (e * sz) sz = true)) ∧
        ∃ ws : List Nat, ws.Nodup ∧ (∀ g, g ∈ ws ↔ ∃ r ≤ o.nrow.toNat, at_ r / 2048 ≤ g ∧ g ≤ (at_ r + n - 1) / 2048 ∧ wCore (g * 2048) ≠ s.cur) ∧
          (t.core s.cur).regs.wrem.toNat = min 65535 (c.regs.wrem.toNat + ws.length))) ∧
    (Lane (.pf tok nl xa) s 1 ⟨tok, [], []⟩ →
      ((s.cmd.vals.getD 0 Scalar.zero).poison = true → LaneDone (.pf tok nl xa) s 1 ⟨tok, [], []⟩ (fun t => OutsideKept s t)) ∧
      (Has s 0 a → let line (j : Nat) : Word := BitVec.ofNat 64 (a.toNat / 128 * 128 + 128 * j)
        (∀ j ≤ nl.toNat, ∀ va w mk, (translate .read (ldTrap s.cmd 1 0) (line j)).run s ≠ .error (.miss va w mk)) →
        LaneDone (.pf tok nl xa) s 1 ⟨tok, [], []⟩ (fun t => OthersKept s t ∧ t.cist = s.cist ∧ t.sync = s.sync ∧ t.parts = s.parts ∧
          (t.core s.cur).sp = c.sp ∧ (t.core s.cur).accs = c.accs ∧
          (Coherent s → (∀ q, ∀ e ∈ (s.getPart q).dies, e < 4) → (∀ q, t.readPa q 1 = s.readPa q 1) ∧
            ∀ q, Lands s .read (line nl.toNat) q → q.ent.nc = false → (q.reg = .host ∨ ∃ d, q.reg = .device d) → (t.lineDie (q.pa / 128)).isSome = true)))) ∧
    (Lane (.pfW tok nw xa) s 1 ⟨tok, [], []⟩ →
      ((s.cmd.vals.getD 0 Scalar.zero).poison = true → LaneDone (.pfW tok nw xa) s 1 ⟨tok, [], []⟩ (fun t => OutsideKept s t ∧ (t.core s.cur).wbuf = c.wbuf)) ∧
      (Has s 0 a → LaneDone (.pfW tok nw xa) s 1 ⟨tok, [], []⟩ (fun t => OutsideKept s t ∧
        let named (g : Nat) : Prop := a.toNat / 2048 ≤ g ∧ g ≤ a.toNat / 2048 + nw.toNat ∧ s.wOk p (g * 2048) = true ∧ wCore (g * 2048) ≠ s.cur
        ((t.core s.cur).wbuf.length ≤ max 32 c.wbuf.length) ∧ (∀ g ∈ (t.core s.cur).wbuf, g ∈ c.wbuf ∨ named g) ∧
          (named (a.toNat / 2048 + nw.toNat) → a.toNat / 2048 + nw.toNat ∈ (t.core s.cur).wbuf))))

/-! ### The store engine -/

namespace Sys2Proof.Claim

/-- The row offsets of a store: the stride times the row number, or times the row's index (R239). -/
def StRows (i : Instr) (s : State) (o : StArgs) (sp : Bool) (b : Word) (srcs : List (TileRef × Nat)) (off : Nat → Int) : Prop :=
  (i = (if sp then .stS o else .stT o) ∧ srcs = [] ∧ ∀ r : Nat, off r = r * b.toInt) ∨
  (∃ ti, i = (if sp then .stSs o ti else .stSc o ti) ∧ srcs = [(ti, 56)] ∧
    let x := (s.core s.cur).tile ti.n.toNat
    (x.tag = .s32 ∨ x.tag = .z32 ∨ x.tag = .s64 ∨ x.tag = .z64) ∧
      ∀ r ≤ o.nrow.toNat, x.elPoisoned x.tag r = false ∧ off r = intVal x.tag (x.el x.tag r) * b.toInt)
/-- The elements of a stored row in the destination format (R237): a RAW tile's bits above its row are free (log 16). -/
def stored (s : State) (o : StArgs) (d : Fmt) (r : Nat) : List (Nat × Bool) :=
  let ts := (s.core s.cur).tile o.ts.n.toNat
  stRowEls o ts d (if ts.tag = .raw ∧ 16 < nels o.nel then Config.oracle s.picks else 0) r
/-- The state as the rows of a store find it: a RAW row longer than its tile's has drawn a free value. -/
def drawn (s : State) (o : StArgs) : State :=
  if ((s.core s.cur).tile o.ts.n.toNat).tag = .raw ∧ 16 < nels o.nel then { s with picks := s.picks + 1 } else s
/-- Rows no two of which have a byte in common. -/
def Apart (nrow : Nat) (pos : Nat → Nat) (n : Nat) : Prop := ∀ r q, r < q → q ≤ nrow → pos r + n ≤ pos q ∨ pos q + n ≤ pos r

end Sys2Proof.Claim

/-- R236, R237, R239: stores to device memory, rows apart and each inside a page: the elements of each row, converted where TYPE asks for it, packed
at its address; nothing else is stored.
The model's choices in it: the order of rows: log 7. -/
def Sys2Proof.Claim.MemoryStoreResults : Prop :=
  ∀ (s : State) (i : Instr) (o : StArgs) (a b : Word) (srcs : List (TileRef × Nat)) (off : Nat → Int) (pl : Nat → Place) (d : Fmt),
    let ops : LaneOps := ⟨o.tok, (o.ts, 12) :: srcs, []⟩
    let ts := (s.core s.cur).tile o.ts.n.toNat
    let n := nels o.nel * Fmt.size d / 8
    StRows i s o false b srcs off → Lane i s 2 ops → Has s 0 a → Has s 1 b →
    (d = ts.tag ∧ (o.ty = .raw ∨ o.ty = ts.tag) ∨ d = o.ty ∧ o.ty ≠ .raw ∧ (ts.tag = .raw ∨ Fmt.isBlock o.ty = false ∧ Fmt.isBlock ts.tag = false)) →
    nels o.nel * Fmt.size d % 8 = 0 → nels o.nel * Fmt.size ts.tag ≤ rowLimit ts.tag → 8 * o.tr.toNat + o.nrow.toNat < 64 →
    (∀ r ≤ o.nrow.toNat, let va := a + BitVec.ofInt 64 (off r)
      va.toNat % fmtAlign d = 0 ∧ va.toNat % 4096 + n ≤ 4096 ∧ Lands s .write va (pl r) ∧ Plain (pl r) ∧ (pl r).ent.pub = false) →
    Apart o.nrow.toNat (fun r => (pl r).pa) n →
    LaneDone i s 2 ops (fun t =>
      let w := (List.range (o.nrow.toNat + 1)).foldl (fun (x : State) r => x.writePa (s.corePart s.cur) (pl r).pa
        (elBytes (Fmt.size d) ((stored s o d r).map (·.1))) (pl r).ent.nc (poisBytes (Fmt.size d) (stored s o d r))) (drawn s o)
      t.mem = w.mem ∧ t.dies = w.dies ∧ t.memPois = w.memPois ∧ OthersKept s t ∧ (t.core s.cur).sp = (s.core s.cur).sp ∧
        (t.core s.cur).accs = (s.core s.cur).accs ∧ t.cist = s.cist)

/-- R239-R241: stores to a scratchpad, to banks of one format whose ACT is off. -/
def Sys2Proof.Claim.ScratchpadStoreEngineResults : Prop :=
  ∀ (s : State) (i : Instr) (o : StArgs) (a b : Word) (srcs : List (TileRef × Nat)) (off : Nat → Int) (k o0 : Nat) (pos : Nat → Nat) (f d : Fmt),
    let ops : LaneOps := ⟨o.tok, (o.ts, 12) :: srcs, []⟩
    let ts := (s.core s.cur).tile o.ts.n.toNat
    let n := nels o.nel * Fmt.size d / 8
    StRows i s o true b srcs off → Lane i s 2 ops → Has s 0 a → Has s 1 b → SpLands s a k o0 →
    (o.ty = .raw ∨ o.ty = f) → (f = .raw ∧ d = ts.tag ∨ f ≠ .raw ∧ d = f ∧ (ts.tag = .raw ∨ ts.tag = f ∨ Fmt.isBlock ts.tag = false ∧ Fmt.isBlock f = false)) →
    nels o.nel * Fmt.size d % 8 = 0 → nels o.nel * Fmt.size ts.tag ≤ rowLimit ts.tag → 8 * o.tr.toNat + o.nrow.toNat < 64 →
    (∀ r ≤ o.nrow.toNat, (pos r : Int) = (o0 : Int) + off r ∧ pos r + n ≤ 0x400000 ∧ pos r % fmtAlign d = 0 ∧ bankOf (pos r) = bankOf (pos r + n - 1) ∧
      ((s.core k).bank (bankOf (pos r))).fmt = f ∧ ((s.core k).bank (bankOf (pos r))).act = 0 ∧ (s.core k).streams (pos r) n = false) →
    Apart o.nrow.toNat pos n →
    LaneDone i s 2 ops (fun t =>
      (t.core k).sp = (List.range (o.nrow.toNat + 1)).foldl (fun m r => pokeBytes m (pos r) (elBytes (Fmt.size d) ((stored s o d r).map (·.1)))) (s.core k).sp ∧
        ModuleKept s t ∧ ∀ j, j ≠ k → (t.core j).sp = (s.core j).sp)

/-- R242-R247: a release of one row of eight bytes, at recovery scope where there is no checkpoint domain, writes it; a reduce-store combines the tile's
elements with a bank's, and its signal adds 1 to a semaphore; `pubv` makes its window's bytes visible and counts.
The model's choices in it: an access is performed at once: log 6. -/
def Obligations.ReleaseReduceAndPublishResults : Prop :=
  ∀ (s : State) (o : StArgs) (a b : Word) (sc : Scope) (p : Place) (red : Red) (semen : Bool) (sem : BitVec 8) (k o0 : Nat) (tok : Tok) (win : BitVec 4),
    let ops : LaneOps := ⟨o.tok, [(o.ts, 12)], []⟩
    let c := s.core s.cur
    let q := s.corePart s.cur
    let ts := c.tile o.ts.n.toNat
    (Lane (.stRel o false sc) s 2 ops → Has s 0 a → Has s 1 b → o.ty = .raw → o.nrow = 0 → nels o.nel * Fmt.size ts.tag = 64 → ts.tag ≠ .mx6 →
      a.toNat % 8 = 0 → Lands s .write a p → Plain p → p.ent.pub = false → (s.getPart q).ck.regions = [] →
      LaneDone (.stRel o false sc) s 2 ops (fun t =>
        let w := s.writePa q p.pa (elBytes (Fmt.size ts.tag) ((stored s o ts.tag 0).map (·.1))) p.ent.nc (poisBytes (Fmt.size ts.tag) (stored s o ts.tag 0))
        t.mem = w.mem ∧ t.dies = w.dies ∧ OthersKept s t)) ∧
    (Lane (.stRed o red semen sem) s 2 ops → Has s 0 a → Has s 1 b → ts.tag = redFmt red → (semen = true → sem.toNat < 160 ∧ (sem.toNat < 64 → c.inGang = true)) →
      o.nrow = 0 → 8 * o.tr.toNat < 64 → nels o.nel ≤ 32 → SpLands s a k o0 → o0 + 4 * nels o.nel ≤ 0x400000 → o0 % 4 = 0 →
      bankOf o0 = bankOf (o0 + 4 * nels o.nel - 1) → ((s.core k).bank (bankOf o0)).fmt = redFmt red → ((s.core k).bank (bankOf o0)).act = 0 →
      (s.core k).streams o0 (4 * nels o.nel) = false →
      (∀ e ∈ stRowEls o ts (redFmt red) 0 0, e.2 = false) → (s.core k).spPoisoned o0 (4 * nels o.nel) = false →
      LaneDone (.stRed o red semen sem) s 2 ops (fun t =>
        (t.core k).sp = pokeBytes (s.core k).sp o0 (elBytes 32 (List.zipWith (redNew red)
          (unpackEls 32 (nels o.nel) (leNat (peekBytes (s.core k).sp o0 (4 * nels o.nel)))) ((stRowEls o ts (redFmt red) 0 0).map (fun e => e.1 % 2 ^ 32)))) ∧
        (semen = true → (t.sem (s.semKey s.cur sem.toNat)).value.toNat = min 0xFFFFFFFF ((s.sem (s.semKey s.cur sem.toNat)).value.toNat + 1)) ∧
        t.mem = s.mem)) ∧
    (Lane (.pubv tok win) s 2 ⟨tok, [], []⟩ → ((s.getPart q).pubw.getD win.toNat ⟨0, 0, 0⟩).len ≠ 0 →
      LaneDone (.pubv tok win) s 2 ⟨tok, [], []⟩ (fun t => (∀ e ∈ t.unpub, e.2.1 ≠ q * 16 + win.toNat) ∧
        (t.core s.cur).regs.pubn.toNat = min 0xFFFF (c.regs.pubn.toNat + 1) ∧ OthersKept s t))

/-- R26, R218, R220: an operand in a mode its place forbids, an index tile of another tag than S32, Z32, S64 or Z64, and rows past the tile raise ILLEGAL before
anything is consumed, read or written. -/
def Sys2Proof.Claim.EngineLaneTraps : Prop :=
  ∀ (s : State) (o : LdArgs) (q : StArgs) (ti : TileRef) (i : Instr), s.cmd.instr = i → s.cmd.spec = .none → s.cmd.started = false →
    (s.core s.cur).mode = .running → (s.core s.cur).loops = [] →
    let keeps (t : State) : Prop := (t.core s.cur).tiles = (s.core s.cur).tiles ∧ (t.core s.cur).toks = (s.core s.cur).toks ∧ SameBytes s t
    (s.slot = 1 → (i = .ldT o ∨ i = .ldS o ∨ i = .ldW o) → (o.td.mode = .consume ∨ o.td.mode = .peek) →
      ∃ t, exec i s = .next t ∧ Trapped s t 0x01 2 s.cmd.lane ∧ keeps t) ∧
    (s.slot = 2 → (i = .stT q ∨ i = .stS q) → q.ts.mode = .produce → ∃ t, exec i s = .next t ∧ Trapped s t 0x01 3 s.cmd.lane ∧ keeps t) ∧
    (s.slot = 1 → i = .ldG o ti → Lane i s 1 ⟨o.tok, [(ti, 56)], [(o.td, 12)]⟩ → nels o.nel * Fmt.size o.ty ≤ rowLimit o.ty → 8 * o.tr.toNat + o.nrow.toNat < 64 →
      ((s.core s.cur).tile ti.n.toNat).tag = .f32 → ∃ t, exec i s = .next t ∧ Trapped s t 0x01 2 s.cmd.lane ∧ keeps t) ∧
    (s.slot = 1 → i = .ldT o → 64 ≤ 8 * o.tr.toNat + o.nrow.toNat → nels o.nel * Fmt.size o.ty ≤ rowLimit o.ty → o.td.mode ≠ .consume → o.td.mode ≠ .peek →
      ∃ t, exec i s = .next t ∧ Trapped s t 0x01 2 s.cmd.lane ∧ keeps t)

namespace Sys2Proof.Claim

/-- The operand B of an elementwise lane at flat element `k`: the tile's element, or the captured scalar's low bits, repeated (R259). -/
def opEl (s : State) (b : VSrc) (t : Fmt) (k : Nat) : Nat :=
  match b with
  | .tile r => ((s.core s.cur).tile r.n.toNat).el t k
  | .scalar _ => (s.cmd.vals.getD 0 Scalar.zero).v.toNat % 2 ^ Fmt.size t
/-- Operand B is readable: a clean tile of tag `t`, or a clean scalar. -/
def opOk (s : State) (b : VSrc) (t : Fmt) : Prop :=
  match b with
  | .tile r => ((s.core s.cur).tile r.n.toNat).tag = t ∧ ((s.core s.cur).tile r.n.toNat).pois = []
  | .scalar _ => (s.cmd.vals.getD 0 Scalar.zero).poison = false
/-- An arithmetic tag that SAT and RM suit: no SAT with a floating tag, no RM but nearest-even with an integer one (R260). -/
def satRm (t : Fmt) (sat : Bool) (rm : Rm) : Prop := vNumber t = true ∧ (t.isFloat = true → sat = false) ∧ (t.isFloat = false → rm = .rne)
/-- The two-operand elementwise lanes (R260-R264): accepted tags, the result's tag and the result of one element. -/
def Elementwise (i : Instr) (tok : Tok) (td ta : TileRef) (b : VSrc) (t d : Fmt) (g : Nat → Nat → Nat) : Prop :=
  (∃ rm sat, i = .vadd tok td ta b rm sat ∧ satRm t sat rm ∧ d = t ∧ ∀ x y, g x y = (vAdd t rm sat false x y).1) ∨
  (∃ rm sat, i = .vsub tok td ta b rm sat ∧ satRm t sat rm ∧ d = t ∧ ∀ x y, g x y = (vAdd t rm sat true x y).1) ∨
  (∃ rm sat, i = .vmul tok td ta b rm sat ∧ satRm t sat rm ∧ d = t ∧ ∀ x y, g x y = (vMul t rm sat x y).1) ∨
  (i = .vmin tok td ta b ∧ vNumber t = true ∧ d = t ∧ ∀ x y, g x y = (vMinMax t false x y).1) ∨
  (i = .vmax tok td ta b ∧ vNumber t = true ∧ d = t ∧ ∀ x y, g x y = (vMinMax t true x y).1) ∨
  (∃ c, i = .vcmp tok td ta b c ∧ vNumber t = true ∧ d = maskTag t ∧ ∀ x y, g x y = if vCond t c x y = true then 2 ^ Fmt.size t - 1 else 0) ∨
  (i = .vand tok td ta b ∧ Fmt.isBlock t = false ∧ d = t ∧ ∀ x y, g x y = x &&& y) ∨
  (i = .vor tok td ta b ∧ Fmt.isBlock t = false ∧ d = t ∧ ∀ x y, g x y = x ||| y) ∨
  (i = .vxor tok td ta b ∧ Fmt.isBlock t = false ∧ d = t ∧ ∀ x y, g x y = x ^^^ y) ∨
  (i = .vshl tok td ta b ∧ vInt t = true ∧ d = t ∧ ∀ x y, g x y = (vShift t true false x y).1) ∨
  (∃ ari, i = .vshr tok td ta b ari ∧ vInt t = true ∧ d = t ∧ ∀ x y, g x y = (vShift t false ari x y).1)
/-- The one-operand elementwise lanes (R262, R268-R272). -/
def Unary (i : Instr) (tok : Tok) (td ta : TileRef) (t : Fmt) (g : Nat → Nat) : Prop :=
  (∃ sat, i = .vabs tok td ta sat ∧ (t.isFloat = true ∧ sat = false ∨ vInt t = true ∧ Fmt.signed t = true) ∧ ∀ x, g x = (vAbsNeg t false sat x).1) ∨
  (∃ sat, i = .vneg tok td ta sat ∧ (t.isFloat = true ∧ sat = false ∨ vInt t = true ∧ Fmt.signed t = true) ∧ ∀ x, g x = (vAbsNeg t true sat x).1) ∨
  (i = .vexp2 tok td ta ∧ t.isFloat = true ∧ ∀ x, g x = (vTrans exp2_32 t x).1) ∨
  (i = .vlog2 tok td ta ∧ t.isFloat = true ∧ ∀ x, g x = (vTrans log2_32 t x).1) ∨
  (i = .vrcp tok td ta ∧ t.isFloat = true ∧ ∀ x, g x = (vTrans rcp_32 t x).1) ∨
  (i = .vrsq tok td ta ∧ t.isFloat = true ∧ ∀ x, g x = (vTrans rsq_32 t x).1) ∨
  (i = .vtanh tok td ta ∧ t.isFloat = true ∧ ∀ x, g x = (vTrans tanh_32 t x).1)
/-- Operands of a VX lane. -/
def vops (tok : Tok) (srcs : List (TileRef × Nat)) (td : TileRef) : LaneOps := ⟨tok, srcs, [(td, 12)]⟩
/-- The destination tile has tag `d` and element `k` equal to `g k` (modulo its width) for every flat element; nothing outside tiles and
sticky bits changed. -/
def Elements (s t : State) (td : TileRef) (d : Fmt) (g : Nat → Nat) : Prop :=
  let r := (t.core s.cur).tile td.n.toNat
  r.tag = d ∧ (∀ k < perTile d, r.el d k = g k % 2 ^ Fmt.size d) ∧ OutsideKept s t

end Sys2Proof.Claim

/-! ### The vector engine -/

/-- R259-R264: elementwise lanes on clean operands of an accepted tag: each element of the result is the instruction's function of the elements of
A and B, with the result's tag; `vfma` and `vfms` of A, B and C. -/
def Obligations.ElementwiseResults : Prop :=
  ∀ (s : State) (i : Instr) (tok : Tok) (td ta tc : TileRef) (b : VSrc) (d : Fmt) (g : Nat → Nat → Nat) (rm : Rm),
    let a := (s.core s.cur).tile ta.n.toNat
    let c := (s.core s.cur).tile tc.n.toNat
    let t := a.tag
    a.pois = [] → opOk s b t →
    (Elementwise i tok td ta b t d g → Lane i s 3 (vops tok ((ta, 56) :: vsrcTile b 48) td) →
      LaneDone i s 3 (vops tok ((ta, 56) :: vsrcTile b 48) td) (fun t' => Elements s t' td d (fun k => g (a.el t k) (opEl s b t k)))) ∧
    (∀ neg, i = (if neg then .vfms tok td ta b tc rm else .vfma tok td ta b tc rm) → t.isFloat = true → c.tag = t → c.pois = [] →
      Lane i s 3 (vops tok ((ta, 56) :: vsrcTile b 48 ++ [(tc, 40)]) td) →
      LaneDone i s 3 (vops tok ((ta, 56) :: vsrcTile b 48 ++ [(tc, 40)]) td)
        (fun t' => Elements s t' td t (fun k => (vFma t rm neg (a.el t k) (opEl s b t k) (c.el t k)).1)))

/-- R262, R268-R272: the lanes of one operand.
The model's choices in it: vector lanes: log 38. -/
def Sys2Proof.Claim.UnaryResults : Prop :=
  ∀ (s : State) (i : Instr) (tok : Tok) (td ta : TileRef) (g : Nat → Nat),
    let a := (s.core s.cur).tile ta.n.toNat
    a.pois = [] → Unary i tok td ta a.tag g → Lane i s 3 (vops tok [(ta, 56)] td) →
    LaneDone i s 3 (vops tok [(ta, 56)] td) (fun t' => Elements s t' td a.tag (fun k => g (a.el a.tag k)))

/-- R88, R260, R262-R264: the integer element functions: sums, differences and products wrap at the element's width, or with SAT stop at the tag's least
and greatest values and say so; minimum and maximum, comparisons and shifts go by the tag's sign. -/
def Sys2Proof.Claim.IntegerElementFunctions : Prop :=
  ∀ (t : Fmt) (x y : Nat), vInt t = true →
    let n := Fmt.size t
    x < 2 ^ n → y < 2 ^ n →
    let lo : Int := if Fmt.signed t then -2 ^ (n - 1) else 0
    let hi : Int := if Fmt.signed t then 2 ^ (n - 1) - 1 else 2 ^ n - 1
    let val (v : Nat) : Int := if Fmt.signed t ∧ 2 ^ (n - 1) ≤ v then (v : Int) - 2 ^ n else v
    let wraps (r : VEl) (e : Int) : Prop := (r.1 : Int) = e % 2 ^ n ∧ r.2 = VFlags.none
    let stops (r : VEl) (e : Int) : Prop := r.1 < 2 ^ n ∧ val r.1 = max lo (min hi e) ∧ r.2.isat = decide (e < lo ∨ hi < e)
    wraps (vAdd t .rne false false x y) (val x + val y) ∧ wraps (vAdd t .rne false true x y) (val x - val y) ∧
    wraps (vMul t .rne false x y) (val x * val y) ∧ wraps (vAbsNeg t true false x) (-val x) ∧
    stops (vAdd t .rne true false x y) (val x + val y) ∧ stops (vAdd t .rne true true x y) (val x - val y) ∧
    stops (vMul t .rne true x y) (val x * val y) ∧ stops (vAbsNeg t true true x) (-val x) ∧
    val (vMinMax t false x y).1 = min (val x) (val y) ∧ val (vMinMax t true x y).1 = max (val x) (val y) ∧
    (vCond t .lt x y = decide (val x < val y)) ∧ (vCond t .eq x y = decide (x = y)) ∧ (vCond t .ge x y = decide (val y ≤ val x)) ∧
    (∀ c, c < n → c < 256 → (vShift t true false x c).1 = x * 2 ^ c % 2 ^ n ∧ (vShift t false false x c).1 = x / 2 ^ c) ∧
    (n ≤ y % 256 → (vShift t true false x y).1 = 0 ∧ (vShift t false false x y).1 = 0)

/-- R263, R275-R280: selections, moves and fills: which element of which source each element of the result is; the top four bits of a row of MXINT6 codes
stay zero (R20).
The model's choices in it: vector lanes: log 38. -/
def Sys2Proof.Claim.VectorMoveResults : Prop :=
  ∀ (s : State) (tok : Tok) (td ta tb tc : TileRef) (b : VSrc) (xa xb : XReg) (ty : Fmt) (iota : Bool) (x y : Word) (f : VRng),
    let c := s.core s.cur
    let a := c.tile ta.n.toNat
    let t := a.tag
    let e := perRow t
    let kept (k v : Nat) : Nat := if t = .mx6 ∧ k % 128 = 127 then v % 16 else v
    (Fmt.isBlock t = false → (c.tile tb.n.toNat).pois = [] → vMaskTag t (c.tile tb.n.toNat).tag = true → opOk s b t →
      Lane (.vsel tok td tb ta b) s 3 (vops tok ((tb, 56) :: (ta, 48) :: vsrcTile b 40) td) →
      LaneDone (.vsel tok td tb ta b) s 3 (vops tok ((tb, 56) :: (ta, 48) :: vsrcTile b 40) td) (fun t' =>
        Elements s t' td t (fun k => if (c.tile tb.n.toNat).el t k ≠ 0 then a.el t k else opEl s b t k))) ∧
    (Lane (.vmov tok td ta) s 3 (vops tok [(ta, 56)] td) → LaneDone (.vmov tok td ta) s 3 (vops tok [(ta, 56)] td) (fun t' =>
      SameTile ((t'.core s.cur).tile td.n.toNat) a ∧ OutsideKept s t')) ∧
    (Fmt.isBlock t = false → Lane (.vtr tok td ta) s 3 (vops tok [(ta, 56)] td) → LaneDone (.vtr tok td ta) s 3 (vops tok [(ta, 56)] td) (fun t' =>
      let n := min 64 e
      Elements s t' td t (fun k => let i := k / e
        let j := k % e
        a.el t ((i - i % n + j % n) * e + (j - j % n + i % n))))) ∧
    (Has s 0 x → Lane (.vbcr tok td ta xb) s 3 (vops tok [(ta, 56)] td) → LaneDone (.vbcr tok td ta xb) s 3 (vops tok [(ta, 56)] td) (fun t' =>
      (∀ i < 64, ((t'.core s.cur).tile td.n.toNat).row i = a.row (x.toNat % 64)) ∧ ((t'.core s.cur).tile td.n.toNat).tag = t ∧ OutsideKept s t')) ∧
    (Fmt.isBlock t = false → Has s 0 x → Lane (.vbcc tok td ta xb) s 3 (vops tok [(ta, 56)] td) →
      LaneDone (.vbcc tok td ta xb) s 3 (vops tok [(ta, 56)] td) (fun t' => Elements s t' td t (fun k => a.el t (k / e * e + x.toNat % e)))) ∧
    ((c.tile tc.n.toNat).pois = [] → Lane (.vpermB tok td ta tb tc false) s 3 (vops tok [(ta, 56), (tb, 48), (tc, 40)] td) →
      LaneDone (.vpermB tok td ta tb tc false) s 3 (vops tok [(ta, 56), (tb, 48), (tc, 40)] td) (fun t' =>
        let r := (t'.core s.cur).tile td.n.toNat
        r.tag = t ∧ OutsideKept s t' ∧ ∀ k < 8192, let j := (c.tile tc.n.toNat).el .raw k
          r.el .raw k = kept k (if j < 128 then a.el .raw (k / 128 * 128 + j) else (c.tile tb.n.toNat).el .raw (k / 128 * 128 + (j - 128))))) ∧
    ((c.tile tc.n.toNat).pois = [] → (c.tile tb.n.toNat).pois = [] → Lane (.vpermB tok td ta tb tc true) s 3 (vops tok [(ta, 56), (tb, 48), (tc, 40)] td) →
      LaneDone (.vpermB tok td ta tb tc true) s 3 (vops tok [(ta, 56), (tb, 48), (tc, 40)] td) (fun t' =>
        let r := (t'.core s.cur).tile td.n.toNat
        let nib (k j : Nat) : Nat := a.el .raw (k / 128 * 128 + j / 2) / 16 ^ (j % 2) % 16
        r.tag = t ∧ OutsideKept s t' ∧ ∀ k < 8192, r.el .raw k = kept k (nib k ((c.tile tc.n.toNat).el .raw k) + 16 * nib k ((c.tile tb.n.toNat).el .raw k)))) ∧
    (Has s 0 x → (iota = true → Has s 1 y ∧ vInt ty = true) → Fmt.isBlock ty = false → Lane (.vfill tok td ty xa iota xb) s 3 (vops tok [] td) →
      LaneDone (.vfill tok td ty xa iota xb) s 3 (vops tok [] td) (fun t' => Elements s t' td ty (fun k => x.toNat + k * (if iota then y.toNat else 0)))) ∧
    (Has s 0 x → Has s 1 y → Lane (.vrng tok td xa xb f) s 3 (vops tok [] td) → LaneDone (.vrng tok td xa xb f) s 3 (vops tok [] td) (fun t' =>
      Elements s t' td (if f = .bits then .z32 else .f32) (fun k => rngOut f (rngMix x.toNat ((y.toNat + k) % 2 ^ 64)))))

/-- R265, R266, R273, R274, R282: conversions between formats of elements, to and from block formats; row and column reductions; segmented scans; and
the bounds check of a tile against a bank's descriptor, which raises BOUND where the bank traps.
The model's choices in it: conversions: log 38. -/
def Obligations.VectorConversionAndReductionResults : Prop :=
  ∀ (s : State) (tok : Tok) (td ta tb tc : TileRef) (ty : Fmt) (rm : Rm) (sat exc row : Bool) (part : BitVec 3) (f : VRed) (g : VScan) (bank : BitVec 4),
    let c := s.core s.cur
    let a := c.tile ta.n.toNat
    let z := c.tile tb.n.toNat
    let t := a.tag
    let n := min (perTile t) (perTile ty)
    let so := if perTile ty < perTile t then part.toNat * n else 0
    let dof := if perTile t < perTile ty then part.toNat * n else 0
    let fits : Prop := (part ≠ 0 → perTile t ≠ perTile ty ∧ (part.toNat + 1) * n ≤ max (perTile t) (perTile ty)) ∧ (sat = true → ty.isFloat = true)
    let seg (t' : State) (v : Nat → Nat) : Prop :=
      let r := (t'.core s.cur).tile td.n.toNat
      r.tag = ty ∧ OutsideKept s t' ∧ (∀ k < n, r.el ty (dof + k) = v k % 2 ^ Fmt.size ty) ∧
        ∀ k < perTile ty, k < dof ∨ dof + n ≤ k → r.el ty k = (c.tile td.n.toNat).el ty k
    a.pois = [] →
    (t ≠ .raw → ty ≠ .raw → Fmt.isBlock t = false → Fmt.isBlock ty = false → fits →
      Lane (.vcvt tok td ta tb tc false false ty rm sat part) s 3 (vops tok [(ta, 56)] td) →
      LaneDone (.vcvt tok td ta tb tc false false ty rm sat part) s 3 (vops tok [(ta, 56)] td) (fun t' => seg t' (fun k => (vConv t ty rm sat (a.el t (so + k))).1))) ∧
    (Fmt.isBlock t = true → ty ≠ .raw → Fmt.isBlock ty = false → fits → z.pois = [] → (z.tag = .z32 ∨ z.tag = .raw) →
      Lane (.vcvt tok td ta tb tc true false ty rm sat part) s 3 (vops tok [(ta, 56), (tb, 48)] td) →
      LaneDone (.vcvt tok td ta tb tc true false ty rm sat part) s 3 (vops tok [(ta, 56), (tb, 48)] td) (fun t' =>
        seg t' (fun k => (vFromBlock t ty rm sat (z.el .z32 ((so + k) / 64)) (a.el t (so + k))).1))) ∧
    (t ≠ .raw → Fmt.isBlock t = false → Fmt.isBlock ty = true → (part ≠ 0 → perTile t ≠ perTile ty ∧ (part.toNat + 1) * n ≤ max (perTile t) (perTile ty)) →
      sat = false → rm = .rne → td.n ≠ tc.n →
      Lane (.vcvt tok td ta tb tc false true ty rm sat part) s 3 ⟨tok, [(ta, 56)], [(td, 12), (tc, 40)]⟩ →
      LaneDone (.vcvt tok td ta tb tc false true ty rm sat part) s 3 ⟨tok, [(ta, 56)], [(td, 12), (tc, 40)]⟩ (fun t' =>
        let q (j : Nat) := quantBlock t ty ((List.range 64).map (fun m => a.el t (so + 64 * j + m)))
        let r := (t'.core s.cur).tile td.n.toNat
        r.tag = ty ∧ ((t'.core s.cur).tile tc.n.toNat).tag = .z32 ∧ OutsideKept s t' ∧
          ∀ j, 64 * j < n → ((t'.core s.cur).tile tc.n.toNat).el .z32 (dof / 64 + j) = (q j).1 % 2 ^ 32 ∧
            ∀ m < 64, r.el ty (dof + 64 * j + m) = (q j).2.getD m 0 % 2 ^ Fmt.size ty)) ∧
    (vNumber t = true → (t.isFloat = true → sat = false) → Lane (.vredr tok td ta f sat) s 3 (vops tok [(ta, 56)] td) →
      LaneDone (.vredr tok td ta f sat) s 3 (vops tok [(ta, 56)] td) (fun t' =>
        let r := (t'.core s.cur).tile td.n.toNat
        r.tag = redTag t ∧ OutsideKept s t' ∧ ∀ i < 64, r.el (redTag t) (i * perRow (redTag t)) =
          (vReduce f t sat ((List.range (perRow t)).map (fun j => a.el t (i * perRow t + j)))).1 % 2 ^ Fmt.size (redTag t))) ∧
    (vNumber t = true → (t.isFloat = true → sat = false) → Lane (.vredc tok td ta f sat) s 3 (vops tok [(ta, 56)] td) →
      LaneDone (.vredc tok td ta f sat) s 3 (vops tok [(ta, 56)] td) (fun t' =>
        let r := (t'.core s.cur).tile td.n.toNat
        r.tag = redTag t ∧ OutsideKept s t' ∧ ∀ j < perRow t, r.el (redTag t) j =
          (vReduce f t sat ((List.range 64).map (fun i => a.el t (i * perRow t + j)))).1 % 2 ^ Fmt.size (redTag t))) ∧
    (vNumber t = true → (t.isFloat = true → sat = false) → vMaskTag t z.tag = true → z.pois = [] →
      Lane (.vscan tok td ta tb g sat exc row) s 3 (vops tok [(ta, 56), (tb, 48)] td) →
      LaneDone (.vscan tok td ta tb g sat exc row) s 3 (vops tok [(ta, 56), (tb, 48)] td) (fun t' =>
        let heads := (List.range (perTile t)).map (fun k => (a.el t k, k == 0 || z.el t k != 0 || (row && k % perRow t == 0)))
        Elements s t' td t (fun k => ((scanGo g t sat exc 0 heads).getD k (0, VFlags.none)).1))) ∧
    (vNumber t = true → t = (c.bank bank.toNat).fmt →
      let b := c.bank bank.toNat
      let bad (k : Nat) : Bool := violates b.fmt b.lo.toNat b.hi.toNat (a.el t k)
      let ops := vops tok [(ta, 56)] td
      Lane (.vbnd tok td ta bank) s 3 ops →
      (b.act ≠ 3 → LaneDone (.vbnd tok td ta bank) s 3 ops (fun t' =>
        let r := (t'.core s.cur).tile td.n.toNat
        r.tag = t ∧ (∀ k < perTile t, r.el t k = if b.act = 2 ∧ bad k = true then
          clampValue b.fmt (if clampsLow b.fmt b.lo.toNat (a.el t k) then b.lo.toNat else b.hi.toNat) % 2 ^ Fmt.size t else a.el t k) ∧
        ModuleKept s t' ∧ (t'.core s.cur).sp = c.sp ∧
        (b.act ≠ 0 → (∃ k < perTile t, bad k = true) → (t'.core s.cur).regs.vxBflag = true ∧ ((t'.core s.cur).bank bank.toNat).viol = true))) ∧
      (b.act = 3 → (∃ k < perTile t, bad k = true) → c.mode = .running → ∃ t', exec (.vbnd tok td ta bank) s = .next t' ∧
        Trapped s t' 0x11 4 (BitVec.ofNat 64 (bank.toNat * 0x40000)) ∧ (t'.core s.cur).tiles = c.tiles ∧ SameBytes s t'))

/-- R278, R281: `vmov` between a tile and a bank: the bank's bytes packed as elements under its FMT; the tile's elements, in the bank's format, packed at
the offset. -/
def Sys2Proof.Claim.VectorBankMoveResults : Prop :=
  ∀ (s : State) (tok : Tok) (td : TileRef) (xa : XReg) (x : Word) (k off : Nat),
    let c := s.core s.cur
    let b := (s.core k).bank (bankOf off)
    Has s 0 x → SpLands s x k off → off % 128 = 0 →
    (let t := b.fmt
      let n := perTile t * Fmt.size t / 8
      bankOf off = bankOf (off + n - 1) → (s.core k).streams off n = false → Lane (.vmovLoad tok td xa) s 3 (vops tok [] td) → LaneDone (.vmovLoad tok td xa) s 3 (vops tok [] td) (fun t' =>
        Elements s t' td t (fun j => leNat (peekBytes (s.core k).sp off n) / 2 ^ (Fmt.size t * j)))) ∧
    (let a := c.tile td.n.toNat
      let t := a.tag
      let n := perTile t * Fmt.size t / 8
      b.act = 0 → bankOf off = bankOf (off + n - 1) → (b.fmt = t ∨ b.fmt = .raw ∧ Fmt.isBlock t = false) → (s.core k).streams off n = false →
      Lane (.vmovStore tok td xa) s 3 ⟨tok, [(td, 12)], []⟩ → LaneDone (.vmovStore tok td xa) s 3 ⟨tok, [(td, 12)], []⟩ (fun t' =>
        (t'.core k).sp = pokeBytes (s.core k).sp off (elBytes (Fmt.size t) ((List.range (perTile t)).map (fun j => a.el t j))) ∧ ModuleKept s t' ∧
          ∀ j, j ≠ k → (t'.core j).sp = (s.core j).sp)) ∧
    (let a := c.tile td.n.toNat
      let t := a.tag
      let d := b.fmt
      b.act = 0 → t ≠ .raw → d ≠ .raw → t ≠ d → Fmt.isBlock t = false → Fmt.isBlock d = false → bankOf off = bankOf (off + perTile t * Fmt.size t / 8 - 1) →
      bankOf off = bankOf (off + perTile t * Fmt.size d / 8 - 1) → (s.core k).streams off (perTile t * Fmt.size d / 8) = false →
      Lane (.vmovStore tok td xa) s 3 ⟨tok, [(td, 12)], []⟩ → LaneDone (.vmovStore tok td xa) s 3 ⟨tok, [(td, 12)], []⟩ (fun t' =>
        (t'.core k).sp = pokeBytes (s.core k).sp off (elBytes (Fmt.size d) ((List.range (perTile t)).map (fun j => (vConv t d .rne true (a.el t j)).1))) ∧
          ModuleKept s t'))

/-- R259, R26, R283: a VX lane whose operands it does not accept takes nothing: a tag it does not accept and a second tile of another tag raise ILLEGAL,
a poisoned element POISON with CAUSE 3 and the lowest element. -/
def Sys2Proof.Claim.VectorTraps : Prop :=
  ∀ (s : State) (tok : Tok) (td ta tb : TileRef),
    let c := s.core s.cur
    let a := c.tile ta.n.toNat
    let keeps (t : State) : Prop := (t.core s.cur).tiles = c.tiles ∧ (t.core s.cur).toks = c.toks ∧ SameBytes s t
    c.mode = .running →
    (Lane (.vexp2 tok td ta) s 3 (vops tok [(ta, 56)] td) → a.tag.isFloat = false →
      ∃ t, exec (.vexp2 tok td ta) s = .next t ∧ Trapped s t 0x01 4 s.cmd.lane ∧ keeps t) ∧
    (Lane (.vadd tok td ta (.tile tb) .rne false) s 3 (vops tok [(ta, 56), (tb, 48)] td) → vNumber a.tag = true → (c.tile tb.n.toNat).tag ≠ a.tag →
      ∃ t, exec (.vadd tok td ta (.tile tb) .rne false) s = .next t ∧ Trapped s t 0x01 4 s.cmd.lane ∧ keeps t) ∧
    (Lane (.vexp2 tok td ta) s 3 (vops tok [(ta, 56)] td) → a.tag.isFloat = true → ∀ k < perTile a.tag, a.elPoisoned a.tag k = true →
      (∀ j < k, a.elPoisoned a.tag j = false) →
      ∃ t, exec (.vexp2 tok td ta) s = .next t ∧ Trapped s t 0x18 4 0 ∧ keeps t ∧
        bits (t.core s.cur).trap.stat.toNat 0 4 = 3 ∧ bits (t.core s.cur).trap.stat.toNat 32 14 = k)

/-! ### The matrix engine -/

namespace Sys2Proof.Claim

/-- An accumulator of a core. -/
def accOf (c : Core) (k : Nat) : Acc := c.accs.getD k Acc.zero
/-- Every accumulator but `k` stays. -/
def OtherAccs (c d : Core) (k : Nat) : Prop := ∀ j, j ≠ k → accOf d j = accOf c j
/-- Where part `p` of an accumulator lies against a tile of `cap` elements: elements moved, place in the tile, place in the accumulator; the parts that fit
(R306, R307). -/
def partN (cap : Nat) : Nat := min 4096 cap
def partTile (cap p : Nat) : Nat := if 4096 < cap then p * partN cap else 0
def partAcc (cap p : Nat) : Nat := if cap < 4096 then p * partN cap else 0
def partOk (cap p : Nat) : Prop := p = 0 ∨ cap ≠ 4096 ∧ (p + 1) * partN cap ≤ max 4096 cap

end Sys2Proof.Claim

/-- R304-R307, R309: `mxclr` clears the accumulators it names; `mxld` loads a part from a tile, in FP32; `mxdr` drains a part into a tile, sets the
accumulator's NAN and INF bits and, asked to, clears the part; the scale cache loses the words it is told to.
The model's choices in it: the matrix engine: log 40. -/
def Sys2Proof.Claim.AccumulatorResults : Prop :=
  ∀ (s : State) (tok : Tok) (td : TileRef) (k : BitVec 3) (ty : Fmt) (clr : Bool) (part : BitVec 2) (mask : BitVec 8),
    let c := s.core s.cur
    let a := accOf c k.toNat
    let x := c.tile td.n.toNat
    let f : Fmt := if x.tag = .raw then .f32 else x.tag
    let d : Fmt := if ty = .raw then .f32 else ty
    let still (t : State) : Prop := ModuleKept s t ∧ OthersKept s t ∧ (t.core s.cur).sp = c.sp ∧ (t.core s.cur).banks = c.banks
    (mask ≠ 0 → Lane (.mxclr tok mask) s 4 ⟨tok, [], []⟩ → LaneDone (.mxclr tok mask) s 4 ⟨tok, [], []⟩ (fun t =>
      (∀ j < 8, accOf (t.core s.cur) j = if mask.getLsbD j then Acc.zero else accOf c j) ∧ still t)) ∧
    (Fmt.isBlock x.tag = false → partOk (perTile f) part.toNat → x.pois = [] → Lane (.mxld tok td k part) s 4 ⟨tok, [(td, 12)], []⟩ →
      LaneDone (.mxld tok td k part) s 4 ⟨tok, [(td, 12)], []⟩ (fun t =>
        (∀ j < partN (perTile f), (accOf (t.core s.cur) k.toNat).get (partAcc (perTile f) part.toNat + j) =
          convElem f .f32 .rne false (x.el f (partTile (perTile f) part.toNat + j)) % 2 ^ 32) ∧
        (∀ j < 4096, j < partAcc (perTile f) part.toNat ∨ partAcc (perTile f) part.toNat + partN (perTile f) ≤ j →
          (accOf (t.core s.cur) k.toNat).get j = a.get j) ∧ OtherAccs c (t.core s.cur) k.toNat ∧ still t)) ∧
    (Fmt.isBlock ty = false → partOk (perTile d) part.toNat → Lane (.mxdr tok td k ty clr part) s 4 ⟨tok, [], [(td, 12)]⟩ →
      LaneDone (.mxdr tok td k ty clr part) s 4 ⟨tok, [], [(td, 12)]⟩ (fun t =>
        let r := (t.core s.cur).tile td.n.toNat
        let lo := partAcc (perTile d) part.toNat
        let n := partN (perTile d)
        r.tag = d ∧ (∀ j < n, r.el d (partTile (perTile d) part.toNat + j) = implicitConv .f32 d (a.get (lo + j)) % 2 ^ Fmt.size d) ∧
        (∀ j < 4096, (accOf (t.core s.cur) k.toNat).get j = if clr = true ∧ lo ≤ j ∧ j < lo + n then 0 else a.get j) ∧
        OtherAccs c (t.core s.cur) k.toNat ∧ still t ∧
        (∀ b < 32, (t.core s.cur).mx.stat.getLsbD b = (c.mx.stat.getLsbD b ||
          (b == 4 * k.toNat && (List.range n).any (fun j => fNan 23 (a.get (lo + j)))) || (b == 4 * k.toNat + 1 && (List.range n).any (fun j => fInf 23 (a.get (lo + j))))))) ) ∧
    (∀ i p, (i = .mxsc tok ∧ p = (fun _ => false) ∨ i = .mxscSp tok ∧ p = (fun x : ScaleWord => x.wsp) ∨ i = .mxscW tok ∧ p = (fun x : ScaleWord => !x.wsp)) →
      Lane i s 4 ⟨tok, [], []⟩ → LaneDone i s 4 ⟨tok, [], []⟩ (fun t => (t.core s.cur).mx = { c.mx with cache := c.mx.cache.filter p } ∧
        (t.core s.cur).accs = c.accs ∧ still t))

/-- R308: `mxdrb` writes the rows of an accumulator, converted to the format of banks whose ACT is off, at the base plus the row's stride. -/
def Sys2Proof.Claim.AccumulatorBankDrain : Prop :=
  ∀ (s : State) (tok : Tok) (k : BitVec 3) (sh : Shape) (xa xb : XReg) (nrow : BitVec 6) (clr : Bool) (x y : Word) (o0 : Nat) (pos : Nat → Nat) (f d : Fmt),
    let c := s.core s.cur
    let a := accOf c k.toNat
    let n := match sh with | .w64 => 64 | .w256 => 256 | .w1024 => 1024
    let m := match sh with | .w64 => 64 | .w256 => 16 | .w1024 => 4
    let bytes := n * (Fmt.size d / 8)
    let i : Instr := .mxdrb tok k sh xa xb nrow clr
    Has s 0 x → Has s 1 y → SpLands s x s.cur o0 → f = ((s.core s.cur).bank (bankOf o0)).fmt → Fmt.isBlock f = false → d = (if f = .raw then .f32 else f) →
    nrow.toNat < m → (∀ r ≤ nrow.toNat, (pos r : Int) = (o0 : Int) + r * y.toInt ∧ pos r + bytes ≤ 0x400000 ∧ pos r % (Fmt.size d / 8) = 0 ∧
      bankOf (pos r) = bankOf (pos r + bytes - 1) ∧ (c.bank (bankOf (pos r))).fmt = f ∧ (c.bank (bankOf (pos r))).act = 0) →
    Lane i s 4 ⟨tok, [], []⟩ → LaneDone i s 4 ⟨tok, [], []⟩ (fun t =>
      (t.core s.cur).sp = (List.range (nrow.toNat + 1)).foldl (fun z r => pokeBytes z (pos r) (elBytes (Fmt.size d)
        ((List.range n).map (fun j => implicitConv .f32 d (a.get (n * r + j)))))) c.sp ∧
      (∀ j < 4096, (accOf (t.core s.cur) k.toNat).get j = if clr = true ∧ j < n * (nrow.toNat + 1) then 0 else a.get j) ∧
      OtherAccs c (t.core s.cur) k.toNat ∧ ModuleKept s t ∧ OthersKept s t)

/-- R297-R302, R313, R315: an `mxgo` whose table passes its checks starts its nest; each RUN_RETIREMENT without auto-drain puts a run's sums into its
accumulator, and the last completes the command, a nest of a core that comes to rest resting at its next run; a table with a reserved level count raises ILLEGAL and names its register.
The model's choices in it: the matrix engine: log 40. -/
def Obligations.MatrixNestResults : Prop :=
  ∀ (s : State) (tok : Tok) (fa fb : Fmt),
    let c := s.core s.cur
    let w := s.cmd.table
    (Lane (.mxgo tok) s 4 ⟨tok, [], []⟩ → (mxChecks w).run s = .ok ((fa, fb), s) → Happens (.mxgo tok) s (fun t =>
      let d := t.core s.cur
      (∃ n, d.mx.nest = some n ∧ n.cmd.idx = s.cmd.idx ∧ n.run = 0 ∧ n.runs = nestRuns w ∧ n.drain = false ∧ n.rested = false ∧ n.groups = nestGroups w fa fb) ∧ d.mx.runs = 0 ∧
        (∀ j : Fin 32, d.mx.active[j] = w.getD j.val 0) ∧ d.accs = c.accs ∧ d.mode = c.mode ∧ SameBytes s t)) ∧
    (Lane (.mxgo tok) s 4 ⟨tok, [], []⟩ → c.mode = .running →
      (∀ p ∈ reservedBits w, if p.1 < 13 ∨ p.2.1 = 17 then tFld w p.1 p.2.1 p.2.2 = 0 else tReg w p.1 = 0) → 6 ≤ tFld w 0 0 3 →
      ∃ t, exec (.mxgo tok) s = .next t ∧ Trapped s t 0x01 5 s.cmd.lane ∧ (t.core s.cur).mx.tv = true ∧ (t.core s.cur).mx.treg = 0 ∧ SameBytes s t) ∧
    (∀ n r, c.mx.nest = some n → n.cmd.instr = .mxgo tok → n.cmd.spec = .none → n.cmd.iter = [] → n.drain = false → Calm s → c.sh = Shadow.nil →
      let v := n.cmd.table
      let acc := tFld v 0 14 3 + n.run % (tFld v 0 17 3 + 1)
      tFld v 0 21 1 = 0 → tFld v 0 20 1 = 1 → nestFmts c v = (fa, fb) → acc < 8 →
      runAll { s with slot := 4, cmd := n.cmd } c v fa fb n.run ⟨List.replicate 4096 0, false, c.mx.cache⟩ = .ok r →
      Happens .runRetirement s (fun t =>
        let d := t.core s.cur
        (∀ j < 4096, (accOf d acc).get j = r.el.getD j 0 % 2 ^ 32) ∧ OtherAccs c d acc ∧ d.mx.runs = c.mx.runs + 1 ∧
          (n.run + 1 < n.runs → ∃ n', d.mx.nest = some n' ∧ n'.run = n.run + 1 ∧ n'.runs = n.runs ∧ (n'.rested = true ↔ c.mode ≠ .running ∨ c.dbg.halted = true)) ∧
          (n.runs ≤ n.run + 1 → d.mx.nest = none ∧ ∀ m ∈ cmdsOf (d.queue 4), m.idx ≠ n.cmd.idx) ∧ SameBytes s t))

/-! ### The copy engine -/

namespace Sys2Proof.Claim

/-- No tokens, no tiles. -/
def noOps : LaneOps := ⟨Tok.none, [], []⟩
/-- The CP lane `i` of channel `ch` is at the head of its channel's order, every copy-aperture store before it past (R320). -/
def CpAt (i : Instr) (s : State) (ch : BitVec 3) : Prop := Lane i s (6 + ch.toNat) noOps ∧ (s.core s.cur).cstBefore s.cmd.pos = false
/-- It completes, and `P` holds. -/
def CpDone (i : Instr) (s : State) (ch : BitVec 3) (P : State → Prop) : Prop := LaneDone i s (6 + ch.toNat) noOps P
/-- The command in hand stays where it is, with a wait of a kind recorded (R363). -/
def Waits (i : Instr) (s : State) (kind : Nat) : Prop :=
  ∃ t w, exec i s = .next t ∧ amFind s.slot (t.core s.cur).waits = some w ∧ w.kind = kind ∧ SameBytes s t ∧ (t.core s.cur).x = (s.core s.cur).x
/-- The word in hand of a unit or of the copy engine in a scratchpad: core, offset, aligned, in a bank without an action, from which no nest streams. -/
def SpWord (s : State) (xa : Word) (align k o : Nat) : Prop :=
  SpLands s xa k o ∧ o % align = 0 ∧ ((s.core k).bank (bankOf o)).act = 0 ∧ (s.core k).streams o align = false
/-- Rows `ps` of a copy stand at `pd`, and every other byte of device memory reads as before (R327). -/
def RowsMoved (s t : State) (nrow n : Nat) (ps pd : Nat → Place) : Prop :=
  (∀ r < nrow, t.readPa (pd r).pa n = s.readPa (ps r).pa n) ∧
    ∀ a, (∀ r < nrow, a < (pd r).pa ∨ (pd r).pa + n ≤ a) → t.readPa a 1 = s.readPa a 1
/-- A copy from device memory to device memory, row by row (R326, R327): no conversion, no index list, no sync word; each row inside a page, the
destination rows apart from each other and from every source row. -/
def PlainCopy (s : State) (p : Plan) (ps pd : Nat → Place) : Prop :=
  p.ssp = .dv ∧ p.dsp = .dv ∧ p.f = .raw ∧ p.d = .raw ∧ p.idx = none ∧ p.sw = none ∧ p.nrow ≠ 0 ∧ 0 < p.nel ∧ Coherent s ∧
    (∀ q, ∀ e ∈ (s.getPart q).dies, e < 4) ∧
    (∀ r < p.nrow, let a := p.src + BitVec.ofInt 64 (r * p.spitch); let b := p.dst + BitVec.ofInt 64 (r * p.dpitch)
      a.toNat % 4096 + p.nel ≤ 4096 ∧ b.toNat % 4096 + p.nel ≤ 4096 ∧ Lands s .read a (ps r) ∧ Plain (ps r) ∧ Lands s .write b (pd r) ∧ Plain (pd r) ∧
        (pd r).ent.pub = false) ∧
    (∀ r q, r < q → q < p.nrow → (pd r).pa + p.nel ≤ (pd q).pa ∨ (pd q).pa + p.nel ≤ (pd r).pa) ∧
    ∀ r < p.nrow, ∀ q < p.nrow, (ps r).pa + p.nel ≤ (pd q).pa ∨ (pd q).pa + p.nel ≤ (ps r).pa
/-- The doublewords of template entry `j` among bytes. -/
def entryOf (bs : List Byte) (j : Nat) : List Nat := (List.range 8).map (fun w => leNat ((bs.drop (64 * j + 8 * w)).take 8))

end Sys2Proof.Claim

/-- R330-R333: `cp.wait` completes once CHDONE has reached the ID, in serial comparison; `cp.tw` writes template entries that no started transfer uses;
`cp.cancel` takes every incomplete transfer of its channel out of its journal and its queue.
The model's choices in it: copies: log 39. -/
def Sys2Proof.Claim.CopyLaneResults : Prop :=
  ∀ (s : State) (ch : BitVec 3) (xa : XReg) (a : Word) (sp : Bool) (tn cnt : BitVec 6) (k o : Nat) (p : Place),
    let c := s.core s.cur
    let id : BitVec 32 := c.cp.done.getD ch.toNat 0 - a.setWidth 32
    (CpAt (.cpWait ch xa) s ch → Has s 0 a →
      (id.toNat < 2 ^ 31 → CpDone (.cpWait ch xa) s ch (fun t => OutsideKept s t ∧ (t.core s.cur).cp = c.cp)) ∧
      (2 ^ 31 ≤ id.toNat → Waits (.cpWait ch xa) s 7)) ∧
    (CpAt (.cpTw sp ch tn xa cnt) s ch → Has s 0 a → a.toNat % 64 = 0 → tn.toNat + cnt.toNat ≤ 63 →
      let n := 64 * (cnt.toNat + 1)
      let bs := if sp then peekBytes (s.core k).sp o n else (s.readPaP p.pa n).bytes
      (if sp then SpLands s a k o ∧ o + n ≤ 0x400000 ∧ (∀ i < n, (s.core k).spPois.contains ((o + i) / 32) = false) ∧ (s.core k).streams o n = false
        else Lands s .read a p ∧ Plain p ∧ a.toNat % 4096 + n ≤ 4096 ∧ (s.readPaP p.pa n).poisoned = false) →
      (∀ h < 8, ∀ x ∈ c.journal h, tn.toNat ≤ x.tn → x.tn ≤ tn.toNat + cnt.toNat → x.place = .waiting) →
      (∀ j ≤ cnt.toNat, tmplRefused (entryOf bs j) = none) →
      CpDone (.cpTw sp ch tn xa cnt) s ch (fun t => OutsideKept s t ∧
        ∀ m, (t.core s.cur).template m = if tn.toNat ≤ m ∧ m ≤ tn.toNat + cnt.toNat then entryOf bs (m - tn.toNat) else c.template m)) ∧
    (CpAt (.cpCancel ch) s ch → Happens (.cpCancel ch) s (fun t =>
      let d := t.core s.cur
      let js := c.journal ch.toNat
      t.stalled = false ∧ t.mem = s.mem ∧ d.x = c.x ∧ d.mode = c.mode ∧ d.journal ch.toNat = [] ∧
        d.queue (6 + ch.toNat) = (dropCmd s.cmd.idx (c.queue (6 + ch.toNat))).filter (fun e => !js.any (fun x => e == QEntry.xfer x.id)) ∧
        (js ≠ [] → d.cp.done.getD ch.toNat 0 = c.cp.next.getD ch.toNat 0 - 1) ∧ ∀ h < 8, h ≠ ch.toNat → d.journal h = c.journal h))

/-- R325-R329: a plain transfer between places of device memory, its checks passed, starts, and its rows move at once or later; an arrival is counted
at its sync word under R335; a transfer with no row and no arrival left completes, and CHDONE follows.
The model's choices in it: copies: log 39 and 51. -/
def Sys2Proof.Claim.CopyTransferResults : Prop :=
  ∀ (s : State) (ch : BitVec 3) (k : BitVec 8) (x : Xfer) (p : Plan) (ps pd : Nat → Place) (kk off n j chn : Nat),
    let c := s.core s.cur
    let h := ch.toNat
    let s1 := s.updCore s.cur (fun c => c.setQueue (6 + h) ((c.queue (6 + h)).drop 1))
    let only (t : State) (y : Xfer) : Prop := OthersKept s t ∧ (t.core s.cur).sp = c.sp ∧ (t.core s.cur).x = c.x ∧
      (t.core s.cur).journal h = (c.journal h).map (fun z => if z.id = x.id then y else z)
    (c.startable h = some x → c.movable h = [] → Calm s → (planXfer h x).run s1 = .ok (p, s1) → PlainCopy s1 p ps pd →
      let y (todo : Bool) : Xfer :=
        { x with sw := none, counted := 0, gen := 0, scope := p.scope, place := .moving, arr := [], f := .raw, d := .raw, todo := todo, ix := List.range p.nrow }
      Happens (.copyTransferStart ch) s (fun t => only t (y true) ∧ t.mem = s.mem ∧ t.dies = s.dies ∨ only t (y false) ∧ RowsMoved s t p.nrow p.nel ps pd)) ∧
    (c.startable h = none → c.movable h = [x] → Calm s → p = x.plan c h x.f x.d → x.ix = List.range p.nrow → PlainCopy s p ps pd →
      Happens (.copyTransferStart ch) s (fun t => only t { x with todo := false, arr := [] } ∧ RowsMoved s t p.nrow p.nel ps pd)) ∧
    (c.arrivalList[k.toNat]? = some (chn, x, n, j) → x.sw = some (kk, off) → (s.core kk).streams off 16 = false → Happens (.syncWordArrival k) s (fun t =>
      let w := (s.core kk).syncWord off
      let m := (w.count + n) % 2 ^ 32
      (t.core kk).syncWord off = (if m = w.target ∧ w.flags % 2 = 0 then { w with gen := (w.gen + 1) % 2 ^ 16, count := 0 }
        else if w.target < m then { w with count := m, flags := w.flags ||| 1 } else { w with count := m }) ∧ t.mem = s.mem)) ∧
    ((∃ y ∈ c.journal h, y.place = .moving ∧ y.todo = false ∧ y.arr = []) → Happens (.copyTransferComplete ch) s (fun t =>
      let d := t.core s.cur
      (∃ y ∈ c.journal h, y.place = .moving ∧ y.todo = false ∧ y.arr = [] ∧ d.journal h = (c.journal h).filter (fun z => z.id != y.id)) ∧
      d.cp.done.getD h 0 = (match d.journal h with | z :: _ => BitVec.ofNat 32 z.id | [] => c.cp.next.getD h 0) - 1 ∧
      (∀ g < 8, g ≠ h → d.journal g = c.journal g) ∧ OutsideKept s t))

/-- R334-R338: `sw.init` writes TARGET with COUNT and FLAGS zero and GEN kept; `sw.wait` completes at its generation, and raises SYNCFAULT or SYNCOVER
where the word's flags say so; `sw.wait.st` writes what it found into its own scratchpad.
The model's choices in it: sync words: log 8 and 39. -/
def Obligations.SyncWordLaneResults : Prop :=
  ∀ (s : State) (ch : BitVec 3) (xa xb xr : XReg) (a b r : Word) (k o k2 o2 : Nat),
    let c := s.core s.cur
    let w := (s.core k).syncWord o
    let met : Bool := decide ((BitVec.ofNat 16 w.gen - b.setWidth 16).toNat < 2 ^ 15)
    let eng := 6 + ch.toNat * 16
    let others (t : State) (n : Nat) : Prop := ModuleKept s t ∧ ∀ j, j ≠ n → (t.core j).sp = (s.core j).sp
    Has s 0 a → Has s 1 b → SpWord s a 16 k o →
    (CpAt (.swInit ch xa xb) s ch → CpDone (.swInit ch xa xb) s ch (fun t =>
      (t.core k).sp = pokeBytes (s.core k).sp o (leBytes 16 (b.toNat % 2 ^ 32 + w.gen * 2 ^ 64)) ∧ others t k)) ∧
    (CpAt (.swWait ch xa xb) s ch → (s.core k).spPoisoned o 16 = false →
      (w.flags % 4 = 0 → met = true → CpDone (.swWait ch xa xb) s ch (fun t => OutsideKept s t)) ∧
      (w.flags % 4 = 0 → met = false → Waits (.swWait ch xa xb) s 6) ∧
      (w.flags / 2 % 2 = 1 → c.mode = .running → ∃ t, exec (.swWait ch xa xb) s = .next t ∧ Trapped s t 0x21 eng a ∧
        bits (t.core s.cur).trap.stat.toNat 32 32 = w.ftid) ∧
      (w.flags % 4 = 1 → c.mode = .running → ∃ t, exec (.swWait ch xa xb) s = .next t ∧ Trapped s t 0x20 eng a)) ∧
    (CpAt (.swWaitSt ch xa xb xr) s ch → (s.core k).spPoisoned o 16 = false → Has s 2 r → SpWord s r 8 k2 o2 → k2 = s.cur →
      (met = true ∨ w.flags % 4 ≠ 0 → CpDone (.swWaitSt ch xa xb xr) s ch (fun t =>
        (t.core k2).sp = pokeBytes (s.core k2).sp o2 (leBytes 8
          (w.gen + w.flags % 2 * 2 ^ 16 + w.flags / 2 % 2 * 2 ^ 17 + met.toNat * 2 ^ 18 + w.count * 2 ^ 32)) ∧ others t k2)) ∧
      (met = false → w.flags % 4 = 0 → Waits (.swWaitSt ch xa xb xr) s 6))

/-! ### The synchronisation unit -/

namespace Sys2Proof.Claim

/-- What a barrier holds after an arrival (R353). -/
def arrivedAt (s : State) (b : BarState) : BarState :=
  if b.arrived + 1 = b.expect then { b with arrived := 0, phase := (b.phase + 1) % 2 ^ 16, tcomp := s.cycle (s.corePart s.cur) % 2 ^ 64 }
  else { b with arrived := (b.arrived + 1) % 2 ^ 32 }
/-- The command in hand is forgotten among the waits. -/
def NotWaiting (t : State) (k slot idx : Nat) : Prop := ∀ w ∈ t.sync.waits, ¬ (w.2.core = k ∧ w.2.slot = slot ∧ w.2.idx = idx)
/-- A release time that the command in hand has been given has come; with `late` it has been given none (R359). -/
def Released (s : State) (late : Bool) : Prop :=
  ∀ w ∈ s.sync.waits, w.2.core = s.cur → w.2.slot = s.slot → w.2.idx = s.cmd.idx → ∀ t, w.2.due = some t → late = false ∧ t ≤ s.now

end Sys2Proof.Claim

/-- R346-R359: barriers at the port. `bar.alloc` takes the lowest free slot, under its next tag, and answers the handle, or 1; `bar.init` and `bar.init.m`
set EXPECT; an arrival at a slot or a scratchpad word counts, and the last one ends the phase; `bar.wait`, and a `bar.arw` that has arrived,
complete when the phase is over and its notification is in; `bar.free` frees the slot.
The model's choices in it: barrier words: log 17; arrivals: log 55; commands behind a loop body: log 29. -/
def Obligations.BarrierResults : Prop :=
  ∀ (s : State) (sc : SlotScope) (ms : MbScope) (xa xn : XReg) (a b : Word) (n key scope k o g : Nat) (sp : Bool) (p : Place) (r : BarRef) (x : BarState),
    let c := s.core s.cur
    let kept (t : State) : Prop := t.mem = s.mem ∧ (t.core s.cur).x = c.x ∧ (t.core s.cur).tiles = c.tiles ∧ t.parts = s.parts
    let slots (t : State) (key : Nat) : Prop := ∀ j, j ≠ key → t.barSlot j = s.barSlot j
    let noted : Prop := (∀ key, (barKey r).run s = .ok (key, s) → ∀ ph, (key, coreDie s.cur, ph) ∉ s.sync.pend) ∧ s.sync.notes = []
    Has s 0 a →
    (Xq (.barAlloc sc xa) s → ResultOk s a 16 16 → (sc = .cluster → c.inGang = true) →
      let key := slotKey s.cur sc.code n
      let tag := (s.barSlot key).tag + 1
      (n < slotCount sc.code → (s.barSlot key).alloc = false → (∀ m < n, (s.barSlot (slotKey s.cur sc.code m)).alloc = true) →
        Completes (.barAlloc sc xa) s (fun t => (t.barSlot key).alloc = true ∧ (t.barSlot key).tag = tag ∧ (t.barSlot key).init = false ∧ slots t key ∧ kept t ∧
          SpBytes s t a.toNat (leBytes 8 0 ++ leBytes 8 (n + (if sc = .die then coreDie s.cur * 2 ^ 16 else 0) + tag.toNat * 2 ^ 32 + sc.code * 2 ^ 48)))) ∧
      ((∀ m < slotCount sc.code, (s.barSlot (slotKey s.cur sc.code m)).alloc = true) →
        Completes (.barAlloc sc xa) s (fun t => t.sync = s.sync ∧ kept t ∧ SpBytes s t a.toNat (leBytes 16 1)))) ∧
    (Xq (.barInit xa xn) s → Has s 1 b → (barRef a).run s = .ok (.slot key scope, s) → Completes (.barInit xa xn) s (fun t =>
      t.barSlot key = { s.barSlot key with expect := if b.toNat % 2 ^ 16 = 0 then 65536 else b.toNat % 2 ^ 16, arrived := 0, phase := 0, init := true } ∧
        slots t key ∧ kept t)) ∧
    (Xq (.barInitM sp ms xa xn) s → Has s 1 b → a.toNat % 64 = 0 →
      let head := leBytes 12 ((if b.toNat % 2 ^ 16 = 0 then 65536 else b.toNat % 2 ^ 16) + ms.code * 2 ^ 80 + 2 ^ 88)
      (sp = true → SpWord s a 64 k o → Completes (.barInitM sp ms xa xn) s (fun t =>
        ∃ own, own.length = 52 ∧ (t.core k).sp = pokeBytes (s.core k).sp o (head ++ own))) ∧
      (sp = false → Lands s .write a p → Plain p → p.ent.pub = false → (p.reg = .host → p.ent.sysat = true) → Completes (.barInitM sp ms xa xn) s (fun t =>
        ∃ own, own.length = 52 ∧ let w := s.writePa (s.corePart s.cur) p.pa (head ++ own) p.ent.nc []; t.mem = w.mem ∧ t.dies = w.dies))) ∧
    (Xq (.barArr .xq xa) s → (barRef a).run s = .ok (r, s) → (readBar r).run s = .ok (x, s) → x.init = true → (∀ va, r ≠ .mem va) →
      Completes (.barArr .xq xa) s (fun t => (readBar r).run t = .ok (arrivedAt s x, t) ∧ t.mem = s.mem ∧
        (x.arrived + 1 ≠ x.expect → t.sync.pend = s.sync.pend))) ∧
    (∀ i, (i = .barWait .xq xa xn ∧ Has s 1 b ∧ g = b.toNat % 2 ^ 16 ∨ i = .barArw .xq xa ∧ s.cmd.joined = some g) → Xq i s →
      (barRef a).run s = .ok (r, s) → (readBar r).run s = .ok (x, s) → (∀ va, r ≠ .mem va) →
      ((BitVec.ofNat 16 x.phase - BitVec.ofNat 16 (g + 1)).toNat < 2 ^ 15 → Released s false → noted → Completes i s (fun t =>
        (readBar r).run t = .ok (x, t) ∧ NotWaiting t s.cur 5 s.cmd.idx ∧ kept t)) ∧
      (2 ^ 15 ≤ (BitVec.ofNat 16 x.phase - BitVec.ofNat 16 (g + 1)).toNat → Released s true → Waits i s 4)) ∧
    (Xq (.barArw .xq xa) s → s.cmd.joined = none → (barRef a).run s = .ok (.slot key scope, s) → (s.barSlot key).init = true → NotWaiting s s.cur 5 s.cmd.idx →
      let y := s.barSlot key
      QEntry.cmd s.cmd ∈ c.queue 5 → Happens (.barArw .xq xa) s (fun t => (∃ m ∈ cmdsOf ((t.core s.cur).queue 5), m.joined = some y.phase.toNat) ∧
        (y.arrived + 1 ≠ y.expect → t.barSlot key = { y with arrived := (y.arrived + 1) % 2 ^ 32 }) ∧
        (y.arrived + 1 = y.expect → (t.barSlot key).arrived = 0 ∧ (t.barSlot key).phase = y.phase + 1 ∧ (key, coreDie s.cur, (y.phase + 1).toNat) ∈ t.sync.pend))) ∧
    (Xq (.barFree xa) s → (barRef a).run s = .ok (.slot key scope, s) → Completes (.barFree xa) s (fun t =>
      t.barSlot key = { s.barSlot key with alloc := false } ∧ slots t key ∧ kept t))

/-- R360: semaphores. A signal saturates; a wait is served in its turn when the value suffices, and else queues.
The model's choices in it: commands behind a loop body: log 29. -/
def Sys2Proof.Claim.SemaphoreResults : Prop :=
  ∀ (s : State) (sem : BitVec 8) (cnt : BitVec 7) (xa : XReg) (a : Word) (n : Nat) (i : Instr),
    let c := s.core s.cur
    let key := s.semKey s.cur sem.toNat
    let m := s.sem key
    let kept (t : State) : Prop := t.mem = s.mem ∧ t.sync.bars = s.sync.bars ∧ t.parts = s.parts ∧ (t.core s.cur).x = c.x ∧ (t.core s.cur).sp = c.sp ∧
      ∀ j, j ≠ key → t.sem j = s.sem j
    sem.toNat < 160 → (sem.toNat < 64 → c.inGang = true) → Has s 0 a → Xq i s →
    (i = .semInit sem xa → Completes i s (fun t => t.sem key = { m with value := a.setWidth 32, sat := false } ∧ kept t)) ∧
    ((i = .semSigImm .xq sem cnt ∧ n = cnt.toNat + 1 ∨ i = .semSigReg .xq sem xa ∧ n = a.toNat % 2 ^ 32) → Completes i s (fun t =>
      (t.sem key).value.toNat = min 0xFFFFFFFF (m.value.toNat + n) ∧ (t.sem key).waits = m.waits ∧
        (t.sem key).sat = (m.sat || decide (0xFFFFFFFF < m.value.toNat + n)) ∧ kept t)) ∧
    ((i = .semWaitImm .xq sem cnt ∧ n = cnt.toNat + 1 ∨ i = .semWaitReg .xq sem xa ∧ n = a.toNat % 2 ^ 32) → m.waits = [] →
      (n ≤ m.value.toNat → Completes i s (fun t => (t.sem key).value = m.value - BitVec.ofNat 32 n ∧ (t.sem key).sat = m.sat ∧ (t.sem key).waits = [] ∧ kept t)) ∧
      (m.value.toNat < n → Waits i s 3 ∧ Happens i s (fun t => t.sem key = { m with waits := [⟨s.cur, 5, s.cmd.idx, n, none⟩] })))

/-- R349, R359, R365: the wait snapshots write the records of Tables 12.8 to 12.10; a gated command acts at its gate as it would at the port, and leaves
it; a notification starts its die's release, and a waiting core resumes at its release time.
The model's choices in it: waits: log 37. -/
def Sys2Proof.Claim.SyncSnapshotAndGateResults : Prop :=
  ∀ (s : State) (xa xg : XReg) (a b : Word) (key scope : Nat) (k : BitVec 8) (slot : BitVec 4) (m : Cmd) (n : Note) (d ph : Nat),
    let c := s.core s.cur
    let p := s.corePart s.cur
    let o := c.waits
    (Has s 0 a → Has s 1 b →
      (Xq (.wsRdCore xa xg) s → ResultOk s a 512 64 →
        let k := b.toNat % 512
        let e := s.core k
        s.disabled.contains k = false → (s.getPart p).dies.contains (coreDie k) = true → Completes (.wsRdCore xa xg) s (fun t =>
          ∃ bs, bs.length = 512 ∧ SpBytes s t a.toNat bs ∧ leNat (bs.take 8) = (match e.task with | some x => x.id | none => 0) % 2 ^ 64 ∧
            leNat ((bs.drop 16).take 8) = (s.now - (s.getPart p).base) % 2 ^ 64 ∧
            ∀ q < 14, ∀ w, amFind q e.waits = some w → leNat ((bs.drop (64 + 32 * q)).take 8) = (w.kind + w.sub * 2 ^ 4 + w.arg * 2 ^ 32) % 2 ^ 64 ∧
              leNat ((bs.drop (72 + 32 * q)).take 8) = w.wsa.toNat)) ∧
      (Xq (.wsRdBar xa xg) s → ResultOk s a 32 32 → (barRef b).run s = .ok (.slot key scope, s) → Completes (.wsRdBar xa xg) s (fun t =>
        let x := s.barSlot key
        SpBytes s t a.toNat (leBytes 4 x.expect ++ leBytes 4 x.arrived ++ leBytes 2 x.phase.toNat ++ leBytes 1 scope ++ leBytes 1 (x.init.toNat + 2) ++
          leBytes 4 (s.sync.waits.countP (fun w => w.1 == key)) ++ leBytes 8 x.tcomp.toNat ++ leBytes 8 x.tag.toNat))) ∧
      (Xq (.wsRdSem xa xg) s → ResultOk s a 16 16 → b.toNat % 256 < 160 → (b.toNat % 256 < 64 → c.inGang = true) → Completes (.wsRdSem xa xg) s (fun t =>
        let x := s.sem (s.semKey s.cur (b.toNat % 256))
        SpBytes s t a.toNat (leBytes 4 x.value.toNat ++ leBytes 4 x.waits.length ++ leBytes 1 x.sat.toNat ++ leBytes 7 0)))) ∧
    (c.headEntry slot.toNat = some (.gate m) → 1 ≤ slot.toNat → slot.toNat ≤ 4 → m.spec = .none → (∀ x ∈ cmdsOf (c.queue 5), x.idx ≠ m.idx) →
      (gateOf m.instr = some slot.toNat → exec (.gateReached slot) s = exec m.instr { s with slot := slot.toNat, cmd := m }) ∧
      (∀ e sem cnt, m.instr = .semSigImm e sem cnt → m.accepted = false → Calm s → 64 ≤ sem.toNat → sem.toNat < 160 →
        Happens (.gateReached slot) s (fun t => (∀ x, QEntry.gate x ∈ (t.core s.cur).queue slot.toNat → x.idx ≠ m.idx) ∧
          (t.sem (s.semKey s.cur sem.toNat)).value.toNat = min 0xFFFFFFFF ((s.sem (s.semKey s.cur sem.toNat)).value.toNat + (cnt.toNat + 1))))) ∧
    (s.sync.pend[k.toNat]? = some (key, d, ph) → Happens (.barrierNotification k) s (fun t => t.sync.pend = s.sync.pend.eraseIdx k.toNat ∧
      (⟨key, d, s.now, (s.die d).gm1, (s.die d).delta⟩ : Note) ∈ t.sync.notes ∧
      (∀ w ∈ s.sync.waits, w.1 = key → coreDie w.2.core = d → w.2.due = none → (BitVec.ofNat 16 ph - BitVec.ofNat 16 (w.2.arg + 1)).toNat < 2 ^ 15 →
        (key, { w.2 with due := some (s.now + (w.2.core % 128 % ((s.die d).gm1.toNat + 1)) * (s.die d).delta.toNat) }) ∈ t.sync.waits) ∧ t.cores = s.cores ∧ t.mem = s.mem)) ∧
    (∀ h g x, slot = 5 → c.headEntry 5 = some (.cmd m) → (amGet ⟨0, 0, 0, 0, 0⟩ o 5).kind = 5 → m.instr = .barWait .xq xa xg → m.spec = .none → m.iter = [] → m.accepted = false →
      m.vals = [⟨h, false⟩, ⟨g, false⟩] → Calm s → (barRef h).run { s with slot := 5, cmd := m } = .ok (.slot key scope, { s with slot := 5, cmd := m }) → x = s.barSlot key →
      (x.phase - (g.setWidth 16 + 1)).toNat < 2 ^ 15 → (∀ q, (key, coreDie s.cur, q) ∉ s.sync.pend) → s.sync.notes = [n] →
      Released { s with slot := 5, cmd := m } false → n.key = key → n.die = coreDie s.cur →
      n.at_ + (s.cur % 128 % (n.gm1.toNat + 1)) * n.delta.toNat ≤ s.now →
      Happens (.staggeredRelease slot) s (fun t => (∀ y ∈ cmdsOf ((t.core s.cur).queue 5), y.idx ≠ m.idx) ∧ NotWaiting t s.cur 5 m.idx ∧ t.barSlot key = x))

/-! ### The Cistern -/

namespace Sys2Proof.Claim

/-- The PM command `i` with its registers' values: the job block's address, and the second operand, 0 where it has none. -/
def PmCmd (i : Instr) (s : State) (a b : Word) : Prop :=
  Has s 0 a ∧ ((∃ m xa xb, i = .pmProg m xa xb ∨ i = .pmVer m xa xb ∨ i = .pmOpen m xa xb ∨ i = .pmSeal m xa xb) ∧ Has s 1 b ∨
    (∃ m xa, i = .pmWear m xa ∨ i = .pmRemap m xa ∨ i = .pmClr m xa ∨ i = .pmClrR m xa ∨ i = .pmAct m xa ∨ i = .pmStat m xa) ∧ b = 0)

end Sys2Proof.Claim

/-- R381, R382: a PM command reads its job block and takes the next place in a Pump's queue; what the block held then is what the job works on.
The model's choices in it: the Pump: log 30. -/
def Sys2Proof.Claim.PumpCommandResults : Prop :=
  ∀ (s : State) (i : Instr) (a b : Word) (p : Place) (tk : Task), PmCmd i s a b → Xq i s → a.toNat % 64 = 0 → Lands s .read a p → Plain p →
    (s.readPaP p.pa 64).poisoned = false → (s.core s.cur).task = some tk →
    let q := s.corePart s.cur
    let u := (s.getPart q).pump
    (∀ d, u.jobs.countP (fun x => x.die == d) < 64) →
    Completes i s (fun t =>
      let v := (t.getPart q).pump
      let f := fldAt (s.readPaP p.pa 64).bytes
      (∃ j : Job, v.jobs = u.jobs ++ [j] ∧ j.order = u.cnt + 1 ∧ j.core = s.cur ∧ j.task = tk.id ∧ j.instr = i ∧ j.xa = a ∧ j.xb = b ∧
        j.handle = BitVec.ofNat 64 (f 8 8) ∧ j.waddr = BitVec.ofNat 64 (f 0x10 8) ∧ j.count = f 0x18 4 ∧ j.arg = BitVec.ofNat 64 (f 0x20 8)) ∧
      v.cnt = u.cnt + 1 ∧ v.sets = u.sets ∧ t.cist = s.cist ∧ t.mem = s.mem ∧ OthersKept s t ∧ (t.core s.cur).x = (s.core s.cur).x ∧
        (t.core s.cur).tiles = (s.core s.cur).tiles ∧ (t.core s.cur).sp = (s.core s.cur).sp)

/-- R383-R391: the only job of its die's Pump is performed and leaves its queue: a block with a misplaced field changes nothing; `pm.act` makes a SEALED
set, or none, the active one; `pm.seal` gives SEALED or PARTIAL; `pm.clr.r` erases its words; `pm.prog` of an image with another leaf
unmarks its chunk and makes its words invalid.
The model's choices in it: the Pump: log 30. -/
def Sys2Proof.Claim.PumpJobResults : Prop :=
  ∀ (s : State) (d : BitVec 2) (j : Job) (m : PmSem) (xa xb : XReg) (e : Nat) (img leaf : List Byte) (s1 : State) (w0 : Nat),
    let p := s.dieOwner d.toNat
    let q := s.getPart p
    let u := q.pump
    let x := u.set e
    q.pump.jobs = [j] → j.die = d.toNat → (s.die d.toNat).up = true →
    (j.bad = true → Happens (.pumpJob d) s (fun t => (t.getPart p).pump.jobs = [] ∧ (t.getPart p).pump.sets = u.sets ∧ (t.getPart p).handle = q.handle ∧ t.cist = s.cist)) ∧
    (j.bad = false → j.instr = .pmAct m xa →
      (j.handle = 0 → Happens (.pumpJob d) s (fun t => (t.getPart p).handle = 0 ∧ (t.getPart p).pump.jobs = [] ∧ (t.getPart p).pump.sets = u.sets)) ∧
      (j.handle ≠ 0 → j.handle ≠ handleLast → u.entryOf j.handle = some e → Happens (.pumpJob d) s (fun t =>
        (t.getPart p).handle = (if x.st = .sealed then BitVec.ofNat 64 (e + x.gen.toNat * 2 ^ 16) else q.handle) ∧ (t.getPart p).pump.jobs = [] ∧
          (t.getPart p).pump.sets = u.sets ∧ t.cist = s.cist))) ∧
    (j.bad = false → j.instr = .pmSeal m xa xb → j.handle ≠ handleLast → u.entryOf j.handle = some e → x.st = .opened → Happens (.pumpJob d) s (fun t =>
      (t.getPart p).pump.set e = { x with st := if x.prog.length = x.chunks.length then .sealed else .part } ∧ (t.getPart p).pump.jobs = [] ∧
        (∀ f, f ≠ e → (t.getPart p).pump.set f = u.set f) ∧ t.cist = s.cist)) ∧
    (j.bad = false → j.instr = .pmClrR m xa →
      let ws := nsRange (j.waddr.toNat / 2048) j.count
      (∀ w ∈ ws, s.wordOk p w = true ∧ s.owned w = false) → Happens (.pumpJob d) s (fun t =>
        (∀ w, w ∈ t.cist.valid ↔ w ∈ s.cist.valid ∧ w ∉ ws) ∧ (∀ w ∈ ws, ∀ i < 2048, peekByte t.cist.data (2048 * w + i) = 0) ∧
        (∀ w, w ∉ ws → ∀ i < 2048, peekByte t.cist.data (2048 * w + i) = peekByte s.cist.data (2048 * w + i)) ∧ (t.getPart p).pump.jobs = [])) ∧
    (j.bad = false → j.instr = .pmProg m xa xb → j.handle ≠ handleLast → u.entryOf j.handle = some e → x.st = .opened → x.chunks[j.count]? = some (w0, leaf) →
      s.partRead p j.xb.toNat 0x100000 = .ok (s1, img) → leafOf img ≠ leaf → Happens (.pumpJob d) s (fun t =>
        j.count ∉ ((t.getPart p).pump.set e).prog ∧ ((t.getPart p).pump.set e).st = .opened ∧ t.cist.data = s.cist.data ∧
          ∀ w, w ∈ t.cist.valid ↔ w ∈ s.cist.valid ∧ ¬ (w0 ≤ w ∧ w < w0 + 512)))

/-! ### Attention -/

namespace Sys2Proof.Claim

/-- The AT command `i` at its port with all its scalars clean, the first of them `w`, its status address `o` where it has one, and fewer than 16
`aq.send`s outstanding (R420, R421). -/
def At (i : Instr) (s : State) (st : StatReg) (w o : Word) : Prop :=
  Xq i s ∧ Has s 0 w ∧ (∀ j < (scalarsOf i).length, (s.cmd.vals.getD j Scalar.zero).poison = false) ∧
    (st ≠ .none → Has s ((scalarsOf i).length - 1) o ∧ ResultOk s o 8 8) ∧ (s.core s.cur).atq.length < 16
/-- A source tile of an XQ command: in a mode that may read it, full where it asks for that, with a tag and no poison. -/
def Source (s : State) (r : TileRef) (f : Fmt) : Prop :=
  let x := (s.core s.cur).tile r.n.toNat
  r.mode ≠ .produce ∧ (r.mode = .consume ∨ r.mode = .peek → x.full = true) ∧ x.tag = f ∧ x.pois = [] ∧ (s.core s.cur).sh = Shadow.nil
/-- It completes with a status and a VALUE in its status word, memory and the scalar registers as before (Table 14.4). -/
def AtDone (i : Instr) (s : State) (st : StatReg) (o : Word) (status value : Nat) (P : State → Prop) : Prop :=
  Completes i s (fun t => (if st = .none then (t.core s.cur).sp = (s.core s.cur).sp else SpBytes s t o.toNat (leBytes 8 (status + value % 2 ^ 32 * 2 ^ 32))) ∧
    t.mem = s.mem ∧ (t.core s.cur).x = (s.core s.cur).x ∧ (t.core s.cur).atq = (s.core s.cur).atq ∧ OthersKept s t ∧ P t)
/-- The AT word of its fields (Table 14.3). -/
def atWord (sid layer hg n : Nat) (tree : Bool) (pos : Nat) : Word :=
  BitVec.ofNat 64 (sid + layer * 2 ^ 24 + hg * 2 ^ 32 + n * 2 ^ 36 + tree.toNat * 2 ^ 41 + pos * 2 ^ 44)
/-- Only one sequence changed, to `x`. -/
def SeqSet (s t : State) (p sid : Nat) (x : Seq) : Prop := t.seq p sid = x ∧ ∀ j, j ≠ sid → t.seq p j = s.seq p j
/-- A partition's attention state is unchanged. -/
def KvKept (s t : State) (p : Nat) : Prop := t.kv p = s.kv p

end Sys2Proof.Claim

/-- R409-R413, R420, R426-R429: the commands on sequences, prefixes and trees, at their place in sequence order, with their status word.
The model's choices in it: attention: log 19. -/
def Sys2Proof.Claim.SequenceCommandResults : Prop :=
  ∀ (s : State) (xa xp : XReg) (st : StatReg) (o h : Word) (sid pos pid : Nat),
    let p := s.corePart s.cur
    let x := s.seq p sid
    let w := atWord sid 0 0 0 false 0
    let wp := atWord sid 0 0 0 false pos
    let f := s.prefix_ p pid
    sid < bits (s.getPart p).regs.atgeo.toNat 32 16 + 1 → pos < 2 ^ 20 →
    (At (.aqSeqOpen xa st) s st w o →
      (x.st = .free → AtDone (.aqSeqOpen xa st) s st o 0 0 (fun t => SeqSet s t p sid { Seq.free with st := .live })) ∧
      (x.st ≠ .free → ∃ v, AtDone (.aqSeqOpen xa st) s st o 5 v (fun t => KvKept s t p))) ∧
    (At (.aqSeqClose xa st) s st w o → x.st ≠ .free → AtDone (.aqSeqClose xa st) s st o 0 0 (fun t =>
      SeqSet s t p sid Seq.free ∧ ∀ j < s.kvC p, ∀ b ∈ t.kvBlocks p j, b.owner ≠ sid)) ∧
    (At (.aqDet xa st) s st w o → x.st ≠ .free → AtDone (.aqDet xa st) s st o 0 0 (fun t => SeqSet s t p sid { Seq.free with st := .live })) ∧
    (At (.aqSeqGrow xa st) s st wp o → x.st = .live →
      (x.len + pos ≤ 2 ^ 20 → AtDone (.aqSeqGrow xa st) s st o 0 (x.len + pos) (fun t => SeqSet s t p sid { x with len := x.len + pos })) ∧
      (2 ^ 20 < x.len + pos → ∃ v, AtDone (.aqSeqGrow xa st) s st o 6 v (fun t => KvKept s t p))) ∧
    (At (.aqSeqTrunc xa st) s st wp o → x.st = .live → x.plen ≤ pos → pos ≤ x.len → x.pend = [] → pos % 64 = 0 →
      AtDone (.aqSeqTrunc xa st) s st o 0 pos (fun t => SeqSet s t p sid { x with len := pos })) ∧
    (At (.aqSeqTclr xa st) s st w o → x.st = .live → AtDone (.aqSeqTclr xa st) s st o 0 0 (fun t =>
      (t.seq p sid).nodes = x.nodes.filter (fun e => x.pend.contains e.1) ∧ (t.seq p sid).len = x.len ∧ (t.seq p sid).pend = x.pend)) ∧
    (At (.aqAtt xa xp st) s st w o → Has s 1 h → pid = h.toNat % 4096 → x.st = .live → x.len = 0 → x.pfx = 0 → x.pend = [] →
      (f.st = .live → h.toNat / 4096 = f.gen.toNat → AtDone (.aqAtt xa xp st) s st o 0 f.plen (fun t =>
        SeqSet s t p sid { x with pfx := h.toNat, plen := f.plen, len := f.plen } ∧ t.prefix_ p pid = { f with ref := f.ref + 1 })) ∧
      (f.st ≠ .live → ∃ v, AtDone (.aqAtt xa xp st) s st o 3 v (fun t => KvKept s t p))) ∧
    (At (.aqSeqPub xa st) s st wp o → x.st = .live → pos % 64 = 0 → 64 ≤ pos → pos ≤ x.len → x.pfx = 0 → x.pend = [] →
      let g : BitVec 12 := if f.gen + 1 = 0 then 1 else f.gen + 1
      (pid < 4096 → f.st = .free → (∀ i < pid, (s.prefix_ p i).st ≠ .free) → (∀ j < s.kvC p, (s.kvBlocks p j).length ≤ 65536) →
        (∀ k, ∀ q ∈ (s.core k).atq, ∀ r ∈ q.reads, r.1 ≠ sid) → AtDone (.aqSeqPub xa st) s st o 0 (g.toNat * 4096 + pid) (fun t =>
          SeqSet s t p sid { x with pfx := g.toNat * 4096 + pid, plen := pos } ∧ t.prefix_ p pid = ⟨.live, g, pos, 1⟩)) ∧
      ((∀ i < 4096, (s.prefix_ p i).st ≠ .free) → ∃ v, AtDone (.aqSeqPub xa st) s st o 7 v (fun t => KvKept s t p))) ∧
    (∀ g, At (.aqSeqEvict xa st) s st (atWord (g * 4096 + pid) 0 0 0 false 0) o → pid < 4096 → f.st = .live → f.gen.toNat = g →
      (f.ref = 0 → AtDone (.aqSeqEvict xa st) s st o 0 0 (fun t => (t.prefix_ p pid).st = .evicting ∨ (t.prefix_ p pid).st = .free)) ∧
      (f.ref ≠ 0 → ∃ v, AtDone (.aqSeqEvict xa st) s st o 4 v (fun t => KvKept s t p))) ∧
    (At (.aqComp xa st) s st w o → x.st ≠ .free →
      (x.pend = [] → AtDone (.aqComp xa st) s st o 0 0 (fun t => KvKept s t p)) ∧
      (x.pend ≠ [] → ∃ e v, AtDone (.aqComp xa st) s st o e v (fun t => let y := t.seq p sid
        (e = 0 ∧ v = x.pend.length - x.ncomp ∧ y.pend = [] ∧ y.ncomp = 0 ∧ y.st = .live ∨ (e = 7 ∨ e = 8) ∧ y.st = .stopped ∧ y.pend = x.pend ∧ v = y.ncomp) ∧
          y.len = x.len)))

/-- R411, R424, R425: tokens appended to a block that exists or has room; nodes inserted under their parents; a path accepted.
The model's choices in it: attention: log 19. -/
def Sys2Proof.Claim.TokenAndTreeResults : Prop :=
  ∀ (s : State) (tk tv : TileRef) (xa : XReg) (st : StatReg) (o : Word) (sid layer hg n pos : Nat),
    let c := s.core s.cur
    let p := s.corePart s.cur
    let x := s.seq p sid
    let g := (s.getPart p).regs.atgeo.toNat
    let k := c.tile tk.n.toNat
    let v := c.tile tv.n.toNat
    let wt := atWord sid layer hg n false pos
    let node (t : Tile) (i : Nat) : Nat := t.el .z8 i
    sid < bits g 32 16 + 1 → layer < bits g 0 8 + 1 → hg < bits g 8 4 + 1 → n < 32 → x.st = .live →
    (At (.aqKvapp tk tv xa st) s st wt o → Source s tk .bf16 → Source s tv .bf16 → x.plen ≤ pos → pos + n < 2 ^ 20 → pos % 64 + n < 64 → x.pend = [] →
      ((s.kvFind p sid layer (pos / 64)).all (fun b => !b.absent)) = true → (s.kvAlloc p sid layer (pos / 64)).isSome = true →
      AtDone (.aqKvapp tk tv xa st) s st o 0 0 (fun t => (∀ i ≤ n, t.tokAt p sid layer hg (pos + i) =
        some ⟨k.row (2 * i + 1) ++ k.row (2 * i), v.row (2 * i + 1) ++ v.row (2 * i), false⟩) ∧ t.seq p sid = x)) ∧
    (At (.aqTins tk xa st) s st (atWord sid 0 0 n false pos) o → Source s tk .z8 → pos + n < 64 →
      (∀ i ≤ n, amFind (pos + i) x.nodes = none ∧ (node k i = 0xFF ∨ node k i < pos + i ∧ (pos ≤ node k i ∨ (amFind (node k i) x.nodes).isSome = true))) →
      AtDone (.aqTins tk xa st) s st o 0 0 (fun t => (∀ i ≤ n, amFind (pos + i) (t.seq p sid).nodes = some (node k i)) ∧
        (∀ j, (j < pos ∨ pos + n < j) → amFind j (t.seq p sid).nodes = amFind j x.nodes) ∧ (t.seq p sid).len = x.len)) ∧
    (At (.aqTacc tk xa st) s st (atWord sid 0 0 n false 0) o → Source s tk .z8 → x.pend = [] → x.len + n + 1 ≤ 2 ^ 20 →
      (∀ i ≤ n, amFind (node k i) x.nodes = some (if i = 0 then 0xFF else node k (i - 1))) →
      AtDone (.aqTacc tk xa st) s st o 0 (x.len + n + 1) (fun t => let y := t.seq p sid
        y.len = x.len + n + 1 ∧ y.pend = (List.range (n + 1)).map (node k) ∧ y.ncomp = 0 ∧ ∀ j, amFind j y.nodes = if j ∈ y.pend then amFind j x.nodes else none))

/-- R408, R417, R421-R423, R439: `aq.send` leaves the port with a snapshot outstanding under the next QTAG; merge points emit, after FXTMO without a
lost contribution and with LINK; the result fills its tile once that is empty; a freed block returns when no snapshot reads it.
The model's choices in it: attention: log 19. -/
def Obligations.AttentionQueryResults : Prop :=
  ∀ (s : State) (td tq : TileRef) (xa : XReg) (st : StatReg) (o : Word) (sid layer hg n : Nat) (k : BitVec 4) (q : AtOp) (a b : List (Option Tri)) (dy : Dying) (j : Nat),
    let c := s.core s.cur
    let p := s.corePart s.cur
    let x := s.seq p sid
    let g := (s.getPart p).regs.atgeo.toNat
    (At (.aqSend td tq xa st) s st (atWord sid layer hg n false 0) o → td.mode = .produce → Source s tq .bf16 → sid < bits g 32 16 + 1 → layer < bits g 0 8 + 1 →
      hg < bits g 8 4 + 1 → n < 32 → (x.st = .free ∨ x.st = .live ∧ x.len = 0) →
      Completes (.aqSend td tq xa st) s (fun t => let d := t.core s.cur
        (∃ r : AtOp, d.atq = c.atq ++ [r] ∧ r.idx = s.cmd.idx ∧ r.td = td.n.toNat ∧ r.tag = c.regs.qtag.toNat ∧ r.done = [] ∧
          (x.st = .free → r.status = 1) ∧ (x.st = .live → r.status = 0 ∧ r.value = 0)) ∧ d.regs.qtag = c.regs.qtag + 1 ∧ KvKept s t p ∧ t.mem = s.mem ∧
          d.sp = c.sp ∧ d.x = c.x)) ∧
    (c.atq[k.toNat]? = some q → q.status = 0 → q.done = [] → c.atq.Pairwise (fun u v => u.idx ≠ v.idx) →
      (q.trip = [some a, some b] → Happens (.merge k) s (fun t => ∃ r, (t.core s.cur).atq[k.toNat]? = some r ∧ r = { q with done := [2] })) ∧
      (q.trip = [some a, none] → c.mode = .running → q.since + 2000 * max 1 (bits (s.getPart p).regs.fxtmo.toNat 0 16) ≤ s.now →
        Happens (.mergeTimeout k) s (fun t => (t.core s.cur).mode = .stopped ∧ (t.core s.cur).trap.cls = 0x29 ∧ (t.core s.cur).trap.eng = 11 ∧
          ∃ r, (t.core s.cur).atq[k.toNat]? = some r ∧ r = { q with done := [2] }))) ∧
    (c.atq[k.toNat]? = some q → q.ready = true → q.td < 64 → (c.tile q.td).full = false → c.sh = Shadow.nil → (∀ n, q.stat = some n → c.streams n 8 = false) → Happens (.aqSendResultArrival k) s (fun t =>
      let d := t.core s.cur
      let mask := if q.status ≠ 0 then 0 else ((List.range q.trip.length).map (fun j => if (q.trip.getD j none).isSome then 2 ^ j else 0)).sum
      d.tile q.td = q.tile ∧ (d.tile q.td).full = true ∧ (d.tile q.td).tag = .bf16 ∧ d.atq = c.atq.filter (fun r => r.idx != q.idx) ∧
        (∀ n, q.stat = some n → d.sp = pokeBytes c.sp n (leBytes 8 (q.status + mask * 2 ^ 16 + q.value % 2 ^ 32 * 2 ^ 32))) ∧ d.x = c.x ∧ OthersKept s t ∧
        ∀ m < 64, m ≠ q.td → d.tile m = c.tile m)) ∧
    ((s.kv s.part).dying = [(j, [dy])] → dy.users = [] → s.part < 4 → Happens .deferredBlockFree s (fun t =>
      amGet [] (t.kv s.part).dying j = [] ∧ (t.kv s.part).blocks = (s.kv s.part).blocks ∧ (t.kv s.part).seqs = (s.kv s.part).seqs ∧ t.mem = s.mem))

/-! ### The fabric -/

namespace Sys2Proof.Claim

/-- The collective word of its fields (Table 15.2): NP and NEL as numbers. -/
def collWord (cid seq np rank root nel : Nat) (dom : Bool) : Word :=
  BitVec.ofNat 64 (cid * 2 ^ 58 + seq * 2 ^ 48 + (np - 1) * 2 ^ 42 + rank * 2 ^ 36 + root * 2 ^ 30 + dom.toNat * 2 ^ 29 + (nel - 1))
/-- Fields within their widths and the limits of R441 and R452. -/
def collOk (cid seq np rank root nel : Nat) : Prop := cid < 64 ∧ seq < 1024 ∧ 1 ≤ np ∧ np ≤ 64 ∧ rank < np ∧ root < np ∧ 1 ≤ nel ∧ nel ≤ 4096
/-- An FX command at its port: scalars clean, the word first, the status block where it has one, fewer than eight commands outstanding, and room for its
round (R443, R453). -/
def Fx (i : Instr) (s : State) (st : StatReg) (w o : Word) (cid seq : Nat) (dom : Bool) : Prop :=
  Xq i s ∧ Has s 0 w ∧ (∀ j < (scalarsOf i).length, (s.cmd.vals.getD j Scalar.zero).poison = false) ∧
    (st ≠ .none → Has s ((scalarsOf i).length - 1) o ∧ ResultOk s o 16 16) ∧ (s.core s.cur).fxq.length < 8 ∧
    s.noRoom (s.corePart s.cur) dom cid seq = false ∧ (dom = true → bits (s.getPart (s.corePart s.cur)).regs.fxdom.toNat 8 6 ≠ 0)
/-- It leaves the port with its contribution on its way: `o` says what it carries, and the next FTAG is taken. -/
def FxSent (i : Instr) (s : State) (P : FxOp → Prop) : Prop :=
  Completes i s (fun t => let c := s.core s.cur
    let d := t.core s.cur
    (∃ o : FxOp, d.fxq = c.fxq ++ [o] ∧ o.idx = s.cmd.idx ∧ o.ftag = c.regs.ftag.toNat ∧ o.place = .flying ∧ P o) ∧ d.regs.ftag = c.regs.ftag + 1 ∧
      t.mem = s.mem ∧ d.x = c.x ∧ d.sp = c.sp ∧ OthersKept s t)

end Sys2Proof.Claim

/-- R443-R450: a collective command sends its contribution: of `fx.bc` the root's elements, of the reductions every rank's, of `fx.amax` the best of its
values with their numbers; `fx.wait` completes when nothing up to its tag is outstanding; `fx.stat` writes a link's record.
The model's choices in it: collectives: log 28 and 31. -/
def Sys2Proof.Claim.CollectiveCommandResults : Prop :=
  ∀ (s : State) (red : Red) (td ts : TileRef) (xa xb : XReg) (st : StatReg) (o a : Word) (cid seq np rank root nel : Nat) (dom : Bool) (f : Fmt) (lnk : BitVec 8),
    let c := s.core s.cur
    let x := c.tile ts.n.toNat
    let w := collWord cid seq np rank root nel dom
    let own (t : Tile) : List Nat := (List.range nel).map (fun j => t.el f j)
    let key (q : FxOp) : Prop := q.cid = cid ∧ q.seq = seq ∧ q.np = np ∧ q.rank = rank ∧ q.root = root ∧ q.nel = nel ∧ q.dom = dom
    (collOk cid seq np rank root nel → nel ≤ perTile f →
      (Fx (.fxBc td ts xa st) s st w o cid seq dom → td.mode = .produce →
        (rank = root → Source s ts f → FxSent (.fxBc td ts xa st) s (fun q => key q ∧ q.op = 0 ∧ q.els = own x ∧ q.td = some td.n.toNat)) ∧
        (rank ≠ root → ts.n = 0 → ts.mode = .plain → FxSent (.fxBc td ts xa st) s (fun q => key q ∧ q.op = 0 ∧ q.els = [] ∧ q.td = some td.n.toNat))) ∧
      (Fx (.fxAr red td ts xa st) s st w o cid seq dom → td.mode = .produce → root = 0 → f = (if red = .addS32 then .s32 else .f32) → Source s ts f →
        FxSent (.fxAr red td ts xa st) s (fun q => key q ∧ q.op = 1 ∧ q.red = red ∧ q.tag = f ∧ q.els = own x ∧ q.td = some td.n.toNat)) ∧
      (Fx (.fxRd red td ts xa st) s st w o cid seq dom → f = (if red = .addS32 then .s32 else .f32) → Source s ts f →
        (rank = root → td.mode = .produce → FxSent (.fxRd red td ts xa st) s (fun q => key q ∧ q.op = 2 ∧ q.red = red ∧ q.els = own x ∧ q.td = some td.n.toNat)) ∧
        (rank ≠ root → td.n = 0 → td.mode = .plain → FxSent (.fxRd red td ts xa st) s (fun q => key q ∧ q.op = 2 ∧ q.red = red ∧ q.els = own x ∧ q.td = none))) ∧
      (Fx (.fxAmax td ts xa xb st) s st w o cid seq dom → td.mode = .produce → root = 0 → f = .f32 → Has s 1 a → Source s ts f →
        let at_ (j : Nat) : Nat × Nat := (x.el .f32 j, (a.toNat + j) % 2 ^ 32)
        FxSent (.fxAmax td ts xa xb st) s (fun q => key q ∧ q.op = 3 ∧ ∃ j < nel, q.els = [(at_ j).1, (at_ j).2] ∧ ∀ i < nel, pairAbove (at_ i) (at_ j) = false))) ∧
    (Xq (.fxWait xa) s → Has s 0 a →
      ((∀ q ∈ c.fxq, (BitVec.ofNat 16 q.ftag) ≠ a.setWidth 16 ∧ (BitVec.ofNat 16 q.ftag - a.setWidth 16).toNat < 2 ^ 15 ∧ q.ftag < 2 ^ 16) →
        Completes (.fxWait xa) s (fun t => t.mem = s.mem ∧ (t.core s.cur).fxq = c.fxq ∧ (t.core s.cur).x = c.x)) ∧
      (∀ q ∈ c.fxq, q.ftag = a.toNat % 2 ^ 16 → Waits (.fxWait xa) s 10)) ∧
    (Xq (.fxStat lnk xa) s → Has s 0 a → lnk.toNat < 7 → ResultOk s a 32 32 → Completes (.fxStat lnk xa) s (fun t =>
      let l := s.link (coreDie s.cur) lnk.toNat
      SpBytes s t a.toNat (leBytes 1 l.st.code ++ leBytes 1 l.mods ++ leBytes 2 0 ++ leBytes 4 l.replays ++ leBytes 4 l.retrains ++ leBytes 4 l.lost ++
        leBytes 8 l.at_ ++ leBytes 8 0) ∧ t.links = s.links ∧ t.mem = s.mem))

/-- R436, R441-R445, R450: a contribution opens its round or, the last of it, completes it; a round times out after FXTMO; a result is delivered when its
tile is empty; replays, retrains and lost modules of a link.
The model's choices in it: the fabric: log 31. -/
def Sys2Proof.Claim.CollectiveAndLinkEvents : Prop :=
  ∀ (s : State) (k : BitVec 8) (k4 : BitVec 4) (bad up : Bool) (q : FxOp) (r : Round) (core : Nat) (d : BitVec 2) (lnk : BitVec 3) (left : BitVec 4),
    let p := s.part
    let c := s.core s.cur
    let l := s.link d.toNat lnk.toNat
    let full := (Link.fresh d.toNat lnk.toNat).mods
    (p < 4 → (s.flying p)[k.toNat]? = some (core, q) → q.dom = false → q ∈ (s.core core).fxq →
      s.ringOk (coreDie core) ((s.getPart p).dies.headD 0) = true →
      let rs := (s.getPart p).rounds
      rs.late q.cid q.seq = false →
      (rs.open_ = [] → 1 < q.np → Happens (.collectiveContribution k bad) s (fun t =>
        (∃ x, (t.getPart p).rounds.open_ = [x] ∧ x.cid = q.cid ∧ x.seq = q.seq ∧ x.np = q.np ∧ x.ranks = [(q.rank, !bad, core, q.idx, q.els)] ∧ x.opened = s.now) ∧
          (t.getPart p).rounds.done = rs.done ∧ ∃ y ∈ (t.core core).fxq, y.idx = q.idx ∧ y.place = .counted)) ∧
      (rs.open_ = [r] → r.cid = q.cid → r.seq = q.seq → r.dom = false → r.agrees q = true → (∀ x ∈ r.ranks, x.1 ≠ q.rank) → r.ranks.length + 1 = r.np →
        Happens (.collectiveContribution k bad) s (fun t => (t.getPart p).rounds.open_ = [] ∧ amFind q.cid (t.getPart p).rounds.done = some q.seq ∧
          ∃ y ∈ (t.core core).fxq, y.idx = q.idx ∧ y.place = .answered))) ∧
    (p < 4 → (s.getPart p).rounds.open_ = [r] → k = 0 → r.dom = false → r.opened + 2000 * max 1 (bits (s.getPart p).regs.fxtmo.toNat 0 16) ≤ s.now →
      Happens (.roundTimeout k) s (fun t => (t.getPart p).rounds.open_ = [] ∧ amFind r.cid (t.getPart p).rounds.done = some r.seq ∧ t.mem = s.mem)) ∧
    (c.fxq[k4.toNat]? = some q → q.place = .answered → (∀ n, q.td = some n → n < 64 ∧ (c.tile n).full = false) → c.sh = Shadow.nil →
      (∀ n, q.stat = some n → c.streams n 16 = false) →
      Happens (.collectiveDelivery k4) s (fun t =>
        let e := t.core s.cur
        (∀ n, q.td = some n → (e.tile n).full = true ∧ (e.tile n).tag = q.rtag ∧ (e.tile n).rows = q.tile.rows) ∧ e.fxq = c.fxq.filter (fun y => y.idx != q.idx) ∧
          (∀ n, q.stat = some n → e.sp = pokeBytes c.sp n (leBytes 4 q.status ++ leBytes 4 q.value ++ leBytes 8 q.mask)) ∧ e.x = c.x ∧ OthersKept s t ∧
          ∀ m < 64, q.td ≠ some m → e.tile m = c.tile m)) ∧
    (lnk.toNat < 6 → (l.st = .up ∨ l.st = .degraded) → Happens (.flitReplay d lnk) s (fun t =>
      let m := t.link d.toNat lnk.toNat
      m.replays = min (2 ^ 32 - 1) (l.replays + 1) ∧ m.mods = l.mods ∧ m.lost = l.lost ∧ (m.st = l.st ∧ m.run ≤ 7 ∨ 7 ≤ l.run ∧ m.st = .retrain ∧ m.run = 0) ∧ t.mem = s.mem)) ∧
    (l.st = .retrain → Happens (.retrainComplete d lnk up) s (fun t =>
      (t.link d.toNat lnk.toNat).st = (if up = false then .down else if l.mods < full then .degraded else .up) ∧ (t.link d.toNat lnk.toNat).mods = l.mods)) ∧
    (lnk.toNat < 4 → left ≠ 0 → left.toNat < l.mods → (l.st = .up ∨ l.st = .degraded) → Happens (.linkModuleLoss d lnk left) s (fun t =>
      (t.link d.toNat lnk.toNat).st = .degraded ∧ (t.link d.toNat lnk.toNat).mods = left.toNat ∧ t.cores = s.cores))

/-! ### The Wellhead -/

/-- R469, R471-R476: the CK instructions with a domain that is not lost, and PERM where there is none.
The model's choices in it: the Wellhead: log 42. -/
def Sys2Proof.Claim.CheckpointCommandResults : Prop :=
  ∀ (s : State) (i : Instr) (xa xb : XReg) (line : BitVec 6) (st : StatReg) (a b : Word),
    let c := s.core s.cur
    let p := s.corePart s.cur
    let k := (s.getPart p).ck
    let kept (t : State) : Prop := t.mem = s.mem ∧ (t.core s.cur).x = c.x ∧ (t.core s.cur).tiles = c.tiles ∧ OthersKept s t
    let same (t : State) : Prop := (t.getPart p).ck = k
    (k.regions ≠ [] → k.st ≠ 2 →
      (Xq .ckOpen s → Completes .ckOpen s (fun t => (t.core s.cur).member = true ∧ same t ∧ kept t ∧ (t.core s.cur).sp = c.sp)) ∧
      (Xq (.ckRp line xa xb) s → Has s 0 a → Has s 1 b → c.member = true → Completes (.ckRp line xa xb) s (fun t =>
        (t.getPart p).ck = { k with pendLn := amSet k.pendLn line.toNat (a, b) } ∧ kept t)) ∧
      (Xq (.ckSeal st) s → (st ≠ .none → Has s 0 a ∧ ResultOk s a 8 8) → Completes (.ckSeal st) s (fun t =>
        (∃ r : RcRelease, (t.getPart p).ck = { k with ticket := k.ticket + 1, asks := k.asks ++ [r] } ∧ r.n = k.ticket ∧ r.core = s.cur ∧ r.own = []) ∧ kept t ∧
          ∃ u ∈ (t.core s.cur).xq, u.unit = 13 ∧ u.cmd.idx = s.cmd.idx)) ∧
      (Xq (.ckRead xa) s → Has s 0 a → ResultOk s a 1088 64 → a.toNat % 2 ^ 18 + 1088 ≤ 2 ^ 18 → Completes (.ckRead xa) s (fun t =>
        ∃ bs, bs.length = 1088 ∧ SpBytes s t a.toNat bs ∧ leNat (bs.take 8) = k.epoch.toNat ∧
          (k.epoch ≠ 0 → leNat ((bs.drop 16).take 8) = k.tseal.toNat) ∧ leNat ((bs.drop 24).take 40) = 0 ∧
          (∀ n < 64, ∀ u v, amFind n k.sealedLn = some (u, v) → leNat ((bs.drop (64 + 16 * n)).take 8) = u.toNat ∧ leNat ((bs.drop (72 + 16 * n)).take 8) = v.toNat) ∧
          same t ∧ kept t))) ∧
    (Xq .ckOpenLv s → k.regions ≠ [] → Completes .ckOpenLv s (fun t => (t.core s.cur).member = false ∧ same t ∧ kept t ∧ (t.core s.cur).sp = c.sp)) ∧
    (k.regions = [] → (i = .ckOpen ∨ i = .ckOpenLv ∨ i = .ckSeal st ∨ i = .ckRead xa ∨ i = .ckRp line xa xb) → Xq i s → c.mode = .running →
      Faults i s 0x0A 13 0) ∧
    (k.regions ≠ [] → k.st = 2 → (i = .ckOpen ∨ i = .ckSeal st ∨ i = .ckRead xa ∨ i = .ckRp line xa xb) → Xq i s → c.mode = .running →
      ∃ va, Faults i s 0x28 13 va)

/-- R459-R461: a seal takes its snapshot; durable on both mirrors it makes the epoch and answers `ck.seal`; failed, it leaves the epoch and raises LINK.
The model's choices in it: the Wellhead: log 11 and 42. -/
def Sys2Proof.Claim.SealEvents : Prop :=
  ∀ (s : State) (r : SealRun) (q : RcRelease) (o : Word),
    let p := s.part
    let k := (s.getPart p).ck
    p < 4 →
    (k.asks ≠ [] → k.run = none → (k.dirty ≠ [] ∨ k.pendLn ≠ []) → (∀ a ∈ k.asks, a.own = []) → Happens .seal s (fun t =>
      let j := (t.getPart p).ck
      (∃ x, j.run = some x ∧ x.at_ = BitVec.ofNat 64 (s.cycle p) ∧ x.gran = k.dirty.map (fun g => (g, peekBytes s.mem (256 * g) 256)) ∧ x.lines = k.pendLn ∧
        x.serves = k.asks) ∧ j.asks = [] ∧ j.dirty = [] ∧ j.pendLn = [] ∧ j.epoch = k.epoch ∧ t.mem = s.mem)) ∧
    (k.run = some r → s.mirrorsOk p = true → r.serves = [q] → q.gone = false → q.slot = 5 → q.own = [] → (s.core q.core).askedHold q.n = none →
      (∀ m ∈ cmdsOf ((s.core q.core).queue 5), m.idx ≠ q.cmd.idx) → (∃ xr, q.cmd.instr = .ckSeal (.at xr)) → q.cmd.vals = [⟨o, false⟩] → o.toNat + 8 ≤ 0x400000 → Happens .sealCompletion s (fun t =>
        let j := (t.getPart p).ck
        j.epoch = k.epoch + 1 ∧ j.tseal = r.at_ ∧ j.run = none ∧ (∀ n ∈ r.lines.map (·.1), ∃ v, (n, v) ∈ r.lines ∧ amFind n j.sealedLn = some v) ∧
          (t.core q.core).sp = pokeBytes (s.core q.core).sp o.toNat (leBytes 8 (k.epoch + 1).toNat) ∧ (t.core q.core).x = (s.core q.core).x ∧ t.mem = s.mem)) ∧
    (k.run = some r → (s.fxtmo p : Int) ≤ s.cycle p - r.at_.toNat → s.mirrorsOk p = false → r.serves = [q] → q.gone = false → q.slot = 5 → q.own = [] →
      (s.core q.core).askedHold q.n = none → (∀ m ∈ cmdsOf ((s.core q.core).queue 5), m.idx ≠ q.cmd.idx) →
      (s.core q.core).mode = .running → Happens .sealFailure s (fun t =>
        let j := (t.getPart p).ck
        j.epoch = k.epoch ∧ j.run = none ∧ (∀ g ∈ r.gran.map (·.1), g ∈ j.dirty) ∧ (∀ g ∈ k.dirty, g ∈ j.dirty) ∧ (t.core q.core).mode = .stopped ∧
          (t.core q.core).trap.cls = 0x29 ∧ (t.core q.core).trap.eng = 13 ∧ t.mem = s.mem))

/-! ### Power -/

/-- R465-R467, R485-R491: the resets of a die, its return, a reset of a chiplet; temperature readings, the decay of a level, the end of a current cause;
clusters gated and woken.
The model's choices in it: power and reset: log 43. -/
def Sys2Proof.Claim.PowerEvents : Prop :=
  ∀ (s : State) (d q : BitVec 2) (cause : DieCause) (v : BitVec 8) (g : BitVec 7) (since : Nat),
    let n := d.toNat
    let p := s.dieOwner n
    let x := s.quad n q.toNat
    let cs := nsRange (4 * g.toNat) 4
    let ctl := (s.getPart (s.dieOwner (g.toNat / 32))).regs.gatectl.toNat
    let spill := ((cs.filter (fun k => !s.disabled.contains k)).map (fun k => (s.core k).spill)).sum
    (s.phase ≠ 0 → (s.die n).up = true → (cause = .temperature → ∃ r : Fin 4, 110 ≤ (s.quad n r).temp.toNat) → Happens (.dieReset d cause) s (fun t =>
      (t.die n).up = false ∧ (∀ k, coreDie k = n → (t.core k).mode = .idle ∧ (t.core k).task = none) ∧
        amGet 0 t.life.resets (8 * n + dieCauseCode cause) = min (2 ^ 32 - 1) (amGet 0 s.life.resets (8 * n + dieCauseCode cause) + 1))) ∧
    ((s.die n).up = false → Happens (.dieRejoin d) s (fun t => (t.die n).up = true ∧ t.cores = s.cores)) ∧
    (s.phase ≠ 0 → let ck := (s.getPart p).ck
      ((∀ r ∈ ck.regions, r.mira / chipBytes ≠ n ∧ r.mirb / chipBytes ≠ n) → exec (.chipletReset d) s = .next s) ∧
      ((∃ r ∈ ck.regions, 0 < r.len ∧ r.mira / chipBytes = n) → Happens (.chipletReset d) s (fun t =>
        let j := (t.getPart p).ck
        j.run = none ∧ j.dirty = [] ∧ j.pendLn = [] ∧ j.epoch = ck.epoch))) ∧
    (s.phase ≠ 0 → (s.die n).up = true →
      (v.toNat < 110 → Happens (.temperatureReading d q v) s (fun t => (t.quad n q.toNat).temp = v ∧ (t.die n).up = true ∧ t.cores = s.cores ∧
        (t.quad n q.toNat).lvl = max x.lvl (if 105 ≤ v.toNat then 3 else if 100 ≤ v.toNat then 2 else if 95 ≤ v.toNat then 1 else 0))) ∧
      (110 ≤ v.toNat → Happens (.temperatureReading d q v) s (fun t => (t.die n).up = false))) ∧
    (x.below = some since → x.lvl ≠ 0 → since + 200000 ≤ s.now → Happens (.throttleDecay d q) s (fun t => (t.quad n q.toNat).lvl = x.lvl - 1 ∧ t.cores = s.cores)) ∧
    (x.cur = some since → since + 8000 ≤ s.now → Happens (.currentThrottleExpiry d q) s (fun t => (t.quad n q.toNat).lvl = x.lvl ∧
      ((t.quad n q.toNat).cur = none ∨ (t.quad n q.toNat).cur = some s.now) ∧ t.mem = s.mem)) ∧
    (s.phase = 1 → (s.die (g.toNat / 32)).up = true → (∃ k ∈ cs, s.disabled.contains k = false) → bits ctl 16 1 = 1 → g.toNat ∉ s.gated →
      (∀ k ∈ cs, s.disabled.contains k = false → s.gateable k = true) → amGet 0 s.busyAt g.toNat + 64 * max 1 (bits ctl 0 16) ≤ s.now →
      spill ≤ 0x400000 → (spill + 127) / 128 + s.slotsUsed (g.toNat / 32) ≤ 1048576 →
      Happens (.clusterGating g) s (fun t => g.toNat ∈ t.gated ∧ (∀ c, c ≠ g.toNat → (c ∈ t.gated ↔ c ∈ s.gated)) ∧ t.cores = s.cores)) ∧
    (∀ k, (s.core k).mode = .idle → (s.gateable k = true ↔ (s.core k).staged = none)) ∧
    (g.toNat ∈ s.gated → Happens (.clusterWake g) s (fun t => (∀ c, c ∈ t.gated ↔ c ∈ s.gated ∧ c ≠ g.toNat) ∧ t.cores = s.cores))

/-- R370, R507-R509, R512, R513, R516: a start leaves its journal and a phase; power loss leaves what is not volatile; the lifetime records are written to the
rows; a latched snapshot is written out.
The model's choices in it: start-up: log 26 and 53; records: log 21 and 44. -/
def Sys2Proof.Claim.StartAndRecordEvents : Prop :=
  ∀ (s : State) (cyc : Word) (cs : AMap Core),
    (s.phase = 0 → Happens .powerOn s (fun t => (∃ js, t.rows.journals = (js :: s.rows.journals).take 8) ∧
      (t.phase = 0 → t.cores = s.cores ∧ t.parts = s.parts) ∧ (t.phase = 1 → t.rows.scrub = false) ∧ t.phase.toNat ≤ 3 ∧
      (t.phase = 1 ∨ t.phase = 3 → (t.phase = 3 ↔ s.rows.scrub = true) ∧ t.mode = s.rows.settle.mode ∧
        ∀ q : Fin 4, (t.getPart q).dies = (modeDies t.mode).getD q []))) ∧
    Happens .powerLoss s (fun t => t.phase = 0 ∧ t.cores = [] ∧ t.cist = s.cist ∧ t.rows = s.rows ∧ t.life = s.rows.life ∧ t.wins = State.reset.wins ∧
      t.dies = State.reset.dies ∧ ∀ a, peekByte t.mem a = if 4 * chipBytes ≤ a then peekByte s.mem a else 0) ∧
    Happens .lifetimeRecordWrite s (fun t => t.rows.life = t.life ∧ t.life.temps = s.life.temps ∧ t.life.corr = s.life.corr ∧ t.life.uncorr = s.life.uncorr ∧
      t.life.resets = s.life.resets ∧ t.life.ignored = s.life.ignored ∧ t.cores = s.cores ∧ t.mem = s.mem) ∧
    (s.snap.latch = some (cyc, cs) → Happens .snapshotWriteOut s (fun t => t.snap.latch = none ∧ t.snap.armed = s.snap.armed ∧ t.cores = s.cores))

/-! ### The host interface -/

/-- R6, R128, R129, R494-R496, R503: the window registers, as the host writes and reads them, the host's accesses to memory, and a peer's.
The model's choices in it: host and peer memory: log 25. -/
def Sys2Proof.Claim.HostAccessResults : Prop :=
  ∀ (s : State) (v cmp : Word) (m : Bool) (j : Fin 4) (pa : BitVec 52) (n : BitVec 7) (bs : List Byte) (e : Event) (op : AmoOp) (sz : Bool) (off : BitVec 16),
    let w := if m then 4 else s.part
    let x := s.win w
    let a := pa.toNat
    let k := if sz then 8 else 4
    let open_ (n : Nat) : Prop := a < 4 * chipBytes ∧ s.hostReaches a = true ∧ s.hostExcluded a n = false
    (∀ (j : Fin 5) (i : Fin 4), let b := if j = 4 then 0 else 0x10000 * (j.val + 1)
      let y := s.win j
      s.barRead b = y.cmd.setWidth 64 ∧ s.barRead (b + 8 * i.val + 8) = y.args[i] ∧
        s.barRead (b + 0x28) = BitVec.ofNat 64 (y.run.isSome.toNat + y.status.toNat * 2 ^ 8 + y.value.toNat * 2 ^ 32) ∧
        s.barRead (b + 0x30) = y.evbase ∧ s.barRead (b + 0x38) = BitVec.ofNat 64 y.entries ∧ s.barRead (b + 0x40) = y.evhead ∧
        s.barRead (b + 0x48) = y.evtail ∧ s.barRead (b + 0x50) = BitVec.ofNat 64 (y.dropCmd.toNat + y.dropEv.toNat * 2 ^ 32)) ∧
    s.barRead 0x100 = BitVec.ofNat 64 (s.phase.toNat + s.alts.toNat * 2 ^ 8 + s.hxerr.toNat * 2 ^ 32) ∧
    (s.part < 5 → let y := s.win s.part
      let set : Window := { y with evbase := v &&& ~~~0xFFF, evhead := 0, evtail := 0, isSet := true, kept := [] }
      (y.kept = [] → exec (.evbaseWrite v) s = .next (s.setWin s.part set)) ∧
      (y.kept = [e] → Happens (.evbaseWrite v) s (fun t => (t.win s.part).kept = [] ∧ (t.win s.part).isSet = true ∧ (t.win s.part).evhead = 1 ∧
        t.msix = s.msix ++ [eventVector s.part e.code]))) ∧
    (s.part < 5 → exec (.evsizeWrite v) s = .next (s.setWin s.part { s.win s.part with evsize := v, evhead := 0, evtail := 0 })) ∧
    (w < 5 → exec (.hostWindowRegisterWrite m (BitVec.ofNat 16 (8 * j.val + 8)) v) s = .next (s.setWin w { x with args := x.args.set j v })) ∧
    (w < 5 → exec (.hostWindowRegisterWrite m 0x48 v) s = .next (s.setWin w { x with evtail := v })) ∧
    ((off.toNat = 0x28 ∨ off.toNat = 0x40 ∨ 0x50 ≤ off.toNat) → exec (.hostWindowRegisterWrite m off v) s = .next s) ∧
    (s.region a = .host → exec (.hostMemRead pa n) s = .next { s with seen := s.readPa a n.toNat } ∧
      exec (.hostMemWrite pa bs) s = .next (s.writePa 0 a bs true [])) ∧
    (open_ n.toNat → Happens (.hostMemRead pa n) s (fun t => t = { s with seen := t.seen } ∧ t.seen.length = n.toNat ∧
      ∀ i < n.toNat, t.seen.getD i 0 = match amFind (a + i) s.unpub with | some b => b.2 | none => (s.readPa a n.toNat).getD i 0)) ∧
    (open_ bs.length → Happens (.hostMemWrite pa bs) s (fun t => t.cores = s.cores ∧ (∀ b ∈ t.unpub, ¬ (a ≤ b.1 ∧ b.1 < a + bs.length)) ∧
      t.mem = (s.writePa (s.paOwner a) a bs (s.bypasses a) []).mem ∧ t.dies = (s.writePa (s.paOwner a) a bs (s.bypasses a) []).dies)) ∧
    (a < 4 * chipBytes → s.hostReaches a = true →
      (s.hostExcluded a n.toNat = true → exec (.hostMemRead pa n) s = .next { s with hxerr := s.hxerr + 1, seen := List.replicate n.toNat 255 }) ∧
      (s.hostExcluded a bs.length = true → exec (.hostMemWrite pa bs) s = .next { s with hxerr := s.hxerr + 1 })) ∧
    (open_ k → a % k = 0 →
      Happens (.peerPackageAccess pa .load sz v cmp) s (fun t => t.seen.length = k ∧ t.mem = s.mem ∧ t.cores = s.cores) ∧
      Happens (.peerPackageAccess pa .store sz v cmp) s (fun t => let z := s.writePa (s.paOwner a) a (leBytes k v.toNat) (s.bypasses a) []
        t.mem = z.mem ∧ t.dies = z.dies ∧ t.cores = s.cores) ∧
      Happens (.peerPackageAccess pa (.amo op) sz v cmp) s (fun t =>
        let old := BitVec.ofNat (8 * k) (leNat (s.readPa a k))
        let z := s.writePa (s.paOwner a) a (leBytes k (amo op old (v.setWidth (8 * k)) (cmp.setWidth (8 * k))).toNat) (s.bypasses a) []
        t.mem = z.mem ∧ t.dies = z.dies ∧ t.cores = s.cores ∧ t.seen = s.readPa a k))

namespace Sys2Proof.Claim

/-- Argument register `i` of a window. -/
def arg (s : State) (w i : Nat) : Word := (s.win w).args.toList.getD i 0
/-- The command of code `code` written into window `w` and captured (R496, R497). -/
def entered (s : State) (w code : Nat) : State :=
  s.setWin w { s.win w with cmd := BitVec.ofNat 9 (code + (if s.irq then 256 else 0)), run := some ⟨code, s.irq, (s.win w).args.toList, s.now, none⟩ }
/-- A window that takes a command: the module RUNNING, the window's partition there, no command in progress. -/
def Free (s : State) (w : Nat) : Prop := s.phase = 1 ∧ (s.win w).run = none ∧ (w = 4 ∨ w < 4 ∧ (s.getPart w).dies ≠ [])
/-- The command ends at once with a status and a VALUE, and `P` holds. -/
def Answers (i : Instr) (s : State) (w status value : Nat) (P : State → Prop) : Prop :=
  ∃ t, exec i s = .next t ∧ (t.win w).status = BitVec.ofNat 8 status ∧ (t.win w).value = BitVec.ofNat 32 value ∧ (t.win w).run = none ∧ P t
/-- The command stays in progress, and `P` holds. -/
def Begins (i : Instr) (s : State) (w code : Nat) (P : State → Prop) : Prop :=
  ∃ t, exec i s = .next t ∧ (∃ r, (t.win w).run = some r ∧ r.code = code ∧ r.args = (s.win w).args.toList) ∧ P t
/-- Cores are unchanged. -/
def CoresKept (s t : State) : Prop := t.cores = s.cores

end Sys2Proof.Claim

/-- R185, R197-R203, R497, R498: the host's commands to the scheduler, with their statuses and values.
The model's choices in it: host commands: log 24; the scheduler: log 41 and 52. -/
def Sys2Proof.Claim.SchedulerCommandResults : Prop :=
  ∀ (s s1 : State) (bs : List Byte) (r : Record) (rs : List Record) (k : Nat) (tk : Task) (x : Ctx),
    let p := s.part
    let d := s.sched p
    let a (i : Nat) : Nat := (arg s p i).toNat
    let none_ (t : State) : Prop := CoresKept s t ∧ t.sched p = d
    p < 4 → Free s p →
    (a 0 % 128 = 0 → (entered s p 1).partRead p (a 0) 128 = .ok (s1, bs) → r = Record.parse bs →
      (r.ok bs none = true → d.hasRoom r.cls = true → r.total (r.n.getD 0 0) ≠ 0 → (∀ e ∈ d.recs, e.2.place = .queued → e.2.empty = false) → Answers .submit s p 0 (0x8000 + d.subIdx % 0x8000) (fun t =>
        (t.sched p).queue r.cls = d.queue r.cls ++ [d.serial] ∧ (t.sched p).subIdx = d.subIdx + 1)) ∧
      (r.ok bs none = true → d.hasRoom r.cls = false → Answers .submit s p 7 0 (fun t => t.sched p = d)) ∧
      (r.ok bs none = false → Answers .submit s p 4 0 (fun t => t.sched p = d))) ∧
    (a 0 % 128 ≠ 0 → Answers .submit s p 2 0 none_) ∧
    (a 1 ≤ d.latest → Answers .replay s p 5 0 none_) ∧ (d.latest + 1 < a 1 → Answers .replay s p 6 0 none_) ∧
    (a 1 = d.latest + 1 →
      (d.olderLive = true → d.heldReplay = none → Answers .replay s p 7 0 (fun t => t.sched p = { d with heldReplay := some (a 0, a 1) } ∧ CoresKept s t)) ∧
      (d.olderLive = false → (entered s p 2).readAlmanac p (a 0) = .ok (s1, rs) → Answers .replay s p 0 0 (fun t => (t.sched p).latest = a 1))) ∧
    (64 ≤ a 0 → Answers .patch s p 8 0 none_) ∧
    (a 0 < 64 → (a 1 ≤ d.latest → Answers .patch s p 5 0 none_) ∧ (d.latest + 1 < a 1 → Answers .patch s p 6 0 none_) ∧
      (a 1 = d.latest + 1 → d.olderLive = true → Answers .patch s p 7 0 none_) ∧
      (a 1 = d.latest + 1 → d.olderLive = false → Answers .patch s p 0 0 (fun t =>
        amGet 0 (t.sched p).gp (a 1 % 2 * 64 + a 0) = arg s p 2 ∧ a 0 ∈ (t.sched p).patched ∧ CoresKept s t))) ∧
    ((∀ j : Fin 3, a 0 = j → Answers .accw s p 0 0 (fun t => (t.sched p).ac = d.ac.set j ((arg s p 1).setWidth 16) ∧ CoresKept s t)) ∧
      (3 ≤ a 0 → Answers .accw s p 2 0 none_)) ∧
    (s.runningTasks p = [(k, tk)] → s.corePart k = p → (s.core k).mode = .running → (s.core k).task.isSome = true →
      (tk.id = a 0 → (s.core k).inGang = false → d.preempts = [] → Begins .preempt s p 5 (fun t => (t.sched p).preempts = [(k, false)] ∧ CoresKept s t)) ∧
      (tk.id ≠ a 0 → Answers .preempt s p 8 0 none_)) ∧
    (d.ctxs = [] → Answers .release s p 8 0 none_) ∧
    (d.ctxs = [x] → x.area = a 0 → (x.place ≠ .trapped → Answers .release s p 3 0 none_) ∧
      (x.place = .trapped → (entered s p 6).partRead p (a 0) 0x10000 = .ok (s1, bs) → fldAt bs 0xFC 4 = 0 →
        crc32c (bs.take 0xF8 ++ leBytes 8 0 ++ bs.drop 0x100) = fldAt bs 0xF8 4 → Answers .release s p 0 0 (fun t =>
          ∃ y, (t.sched p).ctxs = [y] ∧ y = { x with place := .resume, since := s.now }))) ∧
    (s.taskCores p (fun _ c => c.task.any (fun t => t.id == a 0)) = [] →
      (d.ctxs = [] → Answers .abort s p 8 0 none_) ∧
      (∀ tk, d.ctxs = [x] → x.core.task = some tk → tk.id = a 0 → Answers .abort s p 0 0 (fun t => (t.sched p).ctxs = [] ∧ x.area ∉ (t.sched p).poolBusy))) ∧
    (s.taskCores p (fun _ c => c.task.any (fun t => t.id == a 0)) = [k] → Answers .abort s p 0 0 (fun t => (t.core k).task = none)) ∧
    ((a 0 % 2 ^ 21 ≠ 0 → Answers .pooladd s p 2 0 none_) ∧
      (a 0 % 2 ^ 21 = 0 → d.pool.length < 4096 → Answers .pooladd s p 0 0 (fun t => t.sched p = { d with pool := nsAdd (a 0) d.pool } ∧ CoresKept s t))) ∧
    ((a 0 ∈ d.poolBusy → Answers .pooldel s p 3 0 none_) ∧
      (a 0 ∉ d.poolBusy → a 0 ∈ d.pool → Answers .pooldel s p 0 0 (fun t => t.sched p = { d with pool := nsDel (a 0) d.pool } ∧ CoresKept s t)))

/-- R7, R499, Table 18.7: SETREG of each field that ARG0 names: within its limits it is written, reserved bits discarded, past them the answer is BADARG and
nothing changes.
The model's choices in it: host commands: log 24. -/
def Sys2Proof.Claim.SetregResults : Prop :=
  ∀ (s : State),
    let p := s.part
    let x := s.getPart p
    let v := arg s p 1
    let n := v.toNat
    let e := (arg s p 2).toNat
    let field (i : Instr) (code : Nat) (ok : Prop) (f : PartRegs → PartRegs) : Prop := arg s p 0 = BitVec.ofNat 64 code →
      (ok → Answers i s p 0 0 (fun t => t.getPart p = { x with regs := f x.regs } ∧ CoresKept s t ∧ t.dies = s.dies)) ∧
      (¬ ok → Answers i s p 2 0 (fun t => t.parts = s.parts ∧ CoresKept s t ∧ t.dies = s.dies))
    p < 4 → Free s p → s.irq = false →
    (12 < (arg s p 0).toNat → Answers .setregMxkmax s p 2 0 (fun t => t.parts = s.parts)) ∧
    field .setregMxkmax 0 (n < 65536) (fun r => { r with mxkmax := v.setWidth 16 }) ∧ field .setregActhr 1 (n < 2 ^ 48) (fun r => { r with acthr := v.setWidth 48 }) ∧
    field .setregPrewait 2 (n < 65536) (fun r => { r with prewait := v.setWidth 16 }) ∧ field .setregWtmo 3 (n < 2 ^ 32) (fun r => { r with wtmo := v.setWidth 32 }) ∧
    (arg s p 0 = 4 →
      (e < 4 → e ∈ x.dies → Answers .setregStagger s p 0 0 (fun t =>
        t.die e = { s.die e with gm1 := BitVec.ofNat 4 (n / 256), delta := v.setWidth 8 } ∧ t.parts = s.parts ∧ CoresKept s t)) ∧
      (e ∉ x.dies → Answers .setregStagger s p 2 0 (fun t => t.dies = s.dies ∧ t.parts = s.parts))) ∧
    field .setregPaceFloor 5 (n < 256 ∧ e < 6) (fun r => { r with floors := if h : e < 6 then r.floors.set e (v.setWidth 8) h else r.floors }) ∧
    field .setregGatectl 6 True (fun r => { r with gatectl := v &&& 0x1FFFF }) ∧ field .setregFxtmo 7 (n < 65536) (fun r => { r with fxtmo := v }) ∧
    (s.domain.open_ = [] → field .setregFxdom 8 True (fun r => { r with fxdom := v &&& 0x3F3F })) ∧
    (s.domain.open_ ≠ [] → arg s p 0 = 8 → Answers .setregFxdom s p 3 0 (fun t => t.parts = s.parts)) ∧
    (x.kv.allFree = true → field .setregAtgeo 9 True (fun r => { r with atgeo := v &&& 0xFFFF00000FFF })) ∧
    (x.kv.allFree = false → arg s p 0 = 9 → Answers .setregAtgeo s p 3 0 (fun t => t.parts = s.parts)) ∧
    (arg s p 0 = 10 →
      (n < 4 → Answers .setregThrottle s p 0 0 (fun t => t.getPart p = { x with regs := { x.regs with throttle := v.setWidth 8 } } ∧ CoresKept s t)) ∧
      (4 ≤ n → Answers .setregThrottle s p 2 0 (fun t => t.parts = s.parts))) ∧
    field .setregQosShare 11 (1 ≤ n ∧ n < 256) (fun r => { r with qos := v.setWidth 8 }) ∧ field .setregDomainCollectives 12 (n < 2) (fun r => { r with domColl := v != 0 })

/-- R246, R403, R436, R437, R456, R465, R500, R501, R506, R514: the launch window's other commands.
The model's choices in it: host commands: log 24; the route table: log 18; links: log 31; the domain: log 42. -/
def Sys2Proof.Claim.LaunchCommandResults : Prop :=
  ∀ (s : State) (base len cnt : Nat) (b : KvBlock),
    let p := s.part
    let x := s.getPart p
    let a (i : Nat) : Nat := (arg s p i).toNat
    let kept (t : State) : Prop := t.parts = s.parts ∧ CoresKept s t
    let key := kvKey (arg s p 0)
    p < 4 → Free s p →
    ((∀ e ∈ s.cores, e.2.task = none ∧ e.2.staged = none) → Answers .ptroot s p 0 0 (fun t =>
      (t.getPart p).root = some (bits (a 0) 12 40 * 2 ^ 12) ∧ (t.getPart p).regs = x.regs ∧ CoresKept s t)) ∧
    (s.anyTask p = true → Answers .ptroot s p 3 0 kept) ∧
    (exec .tlbinv s = .next (entered s p 0x12)) ∧
    (∀ rest : List Byte, rest.length = 8 → s.hostBytes (arg s p 1) 32 = leBytes 8 base ++ leBytes 8 len ++ leBytes 8 cnt ++ rest → base < 2 ^ 64 → cnt < 2 ^ 64 → a 0 < 16 → s.anyTask p = false →
      base % 2 ^ 16 = 0 → len ≤ 2 ^ 32 → (len ≠ 0 → hostBase ≤ cnt ∧ cnt < 2 * hostBase ∧ cnt % 8 = 0) → Answers .pubwin s p 0 0 (fun t =>
        (t.getPart p).pubw.getD (a 0) ⟨0, 0, 0⟩ = ⟨BitVec.ofNat 64 base, len, BitVec.ofNat 64 cnt⟩ ∧ CoresKept s t)) ∧
    (16 ≤ a 0 → Answers .pubwin s p 2 0 kept) ∧
    (∀ c : Fin 4, x.dies.getD (a 0) 4 = c → a 1 % 2 ^ 21 = 0 → c * chipBytes ≤ a 1 → a 1 + a 2 * 2 ^ 21 ≤ (c + 1) * chipBytes → x.ck.regions = [] → x.kv.allFree = true →
      Answers .kvreg s p 0 0 (fun t => t.chips = s.chips.set c { s.chips[c] with kvBase := a 1, kvLen := a 2 * 2 ^ 21 } ∧ kept t)) ∧
    (a 1 % 4096 = 0 → s.kvFind p key.1 key.2.1 key.2.2 = some b →
      (b.absent = false → Begins .kvout s p 0x15 (fun t => (∃ y, t.kvFind p key.1 key.2.1 key.2.2 = some y ∧ y = { b with absent := true }) ∧ CoresKept s t)) ∧
      (b.absent = true → Answers .kvout s p 3 0 kept) ∧
      (b.absent = true → s.poolUsed p (key.2.2 % s.kvC p) < s.pool p (key.2.2 % s.kvC p) → Begins .kvin s p 0x16 (fun t =>
        (∃ y, t.kvFind p key.1 key.2.1 key.2.2 = some y ∧ y.absent = false ∧ y.bucket = b.bucket) ∧ CoresKept s t)) ∧
      (b.absent = false → Answers .kvin s p 3 0 kept)) ∧
    (s.kvFind p key.1 key.2.1 key.2.2 = none → a 1 % 4096 = 0 → Answers .kvout s p 8 0 kept ∧ Answers .kvin s p 8 0 kept) ∧
    ((s.taskCores p (fun _ c => c.member) ≠ [] → Answers .ckdom s p 3 0 kept) ∧
      (s.hostBytes (arg s p 0) 256 = List.replicate 256 0 → s.taskCores p (fun _ c => c.member) = [] → x.sched.ctxs = [] → x.ck.asks = [] → x.ck.run = none →
        Answers .ckdom s p 0 0 (fun t => (t.getPart p).ck.regions = [] ∧ (t.getPart p).ck.epoch = 0 ∧ (t.getPart p).ck.sealedLn = []))) ∧
    ((s.domain.open_ = [] → Answers .route s p 0 0 (fun t => (t.getPart p).route.isSome = true ∧ (t.getPart p).regs = x.regs ∧ CoresKept s t)) ∧
      (s.domain.open_ ≠ [] → Answers .route s p 3 0 kept)) ∧
    (a 0 ∈ x.dies → a 1 < 7 → ((s.link (a 0) (a 1)).st = .down → (s.die (a 0)).up = true → Begins .linkup s p 0x19 (fun t => (t.link (a 0) (a 1)).st = .retrain)) ∧
      ((s.link (a 0) (a 1)).st ≠ .down → Answers .linkup s p 3 0 kept)) ∧
    (a 0 ∈ x.dies → a 0 < 4 → ((s.die (a 0)).up = true → s.dieOwner (a 0) = p → Begins .dieresetCmd s p 0x1A (fun t => (t.die (a 0)).up = false ∧
        ∀ k, coreDie k = a 0 → (t.core k).task = none)) ∧ ((s.die (a 0)).up = false → Answers .dieresetCmd s p 3 0 kept)) ∧
    (a 0 ∉ x.dies → Answers .dieresetCmd s p 2 0 kept ∧ Answers .linkup s p 2 0 kept) ∧
    (Answers .preset s p 0 0 (fun t => (t.getPart p).regs = PartRegs.reset ∧ (t.getPart p).root = none ∧ (t.getPart p).base = s.now ∧ (t.getPart p).dies = x.dies ∧
      (t.getPart p).sched = Sched.reset ∧ ∀ k, coreDie k ∈ x.dies → (t.core k).task = none)) ∧
    ((s.rows.debugen = true → a 0 < 512 → s.disabled.contains (a 0) = false → s.corePart (a 0) = p → Answers .dbgsel s p 0 0 (fun t =>
        (t.getPart p).dbgsel = some (a 0) ∧ (t.getPart p).regs = x.regs ∧ CoresKept s t)) ∧
      (s.rows.debugen = false → Answers .dbgsel s p 3 0 kept))

/-- R497, R498, R504, R509, R512-R517: the module window's commands, unknown codes, a write while a command runs, CMDDONE, and the ends of commands in
progress. Whether a configuration group is signed rests on the free functions of log 13.
The model's choices in it: host commands: log 24; records: log 21 and 44. -/
def Sys2Proof.Claim.ModuleCommandResults : Prop :=
  ∀ (s : State) (i : Instr) (m : Bool) (code : BitVec 8) (r : Running),
    let a (i : Nat) : Word := arg s 4 i
    let w := if m then 4 else s.part
    let idle : Prop := ∀ e ∈ s.cores, e.2.task = none ∧ e.2.staged = none
    (Free s 4 →
      ((a 0).toNat < 3 → idle → (∀ q < 4, (s.sched q).ctxs = []) → Answers .partcfg s 4 0 0 (fun t => t.mode = (a 0).toNat ∧
        ∀ q < 4, (t.getPart q).dies = (if a 0 = 0 then [[0, 1, 2, 3]] else if a 0 = 1 then [[0, 1], [2, 3]] else [[0], [1], [2], [3]]).getD q [])) ∧
      (3 ≤ (a 0).toNat → Answers .partcfg s 4 2 0 (fun t => t.parts = s.parts ∧ t.mode = s.mode)) ∧
      (let img := s.hostBytes (a 0) (a 1).toNat
        let vendor := Config.rowField img 0 % 2 = 0
        let signed := (if vendor then Config.vendorData 0 else s.rows.vendor.image) ++ img
        let g := if vendor then s.rows.vendor else s.rows.owner
        let good := Config.rowField signed 4 ≠ 0 ∧ Config.rowField signed 5 ≠ 0
        Answers .cfgupd s 4 (if good then (if Config.rowField img 1 < g.version then 10 else 0) else 9) 0 (fun t =>
          (good → g.version ≤ Config.rowField img 1 → (if vendor then t.rows.vendor else t.rows.owner) = { g with version := Config.rowField img 1, next := some img }) ∧
          (¬ good ∨ Config.rowField img 1 < g.version → t.rows = s.rows) ∧ CoresKept s t)) ∧
      (Begins .scrub s 4 0x42 (fun t => t.phase = 3 ∧ t.rows.scrub = true ∧ t.rows.life = s.life)) ∧
      (idle → (∀ q < 4, (s.sched q).ctxs = [] ∧ (s.sched q).waiting = 0) → Begins .health s 4 0x43 (fun t => t.phase = 4 ∧ CoresKept s t)) ∧ (s.anyTask 0 = true → Answers .health s 4 3 0 (fun t => t.phase = 1)) ∧
      (Answers .liferd s 4 0 0 (fun t => t.life = s.life ∧ CoresKept s t)) ∧
      (Answers .snapset s 4 0 0 (fun t => t.snap = ⟨true, a 0, a 1, none⟩ ∧ CoresKept s t)) ∧
      ((s.snap.armed = true → Answers .snap s 4 0 0 (fun t => t.snap = { s.snap with armed := false, latch := some (s.cycle 0, s.cores) })) ∧
        (s.snap.armed = false → Answers .snap s 4 0 0 (fun t => t.snap = s.snap ∧ t.life.ignored = lifeAdd s.life.ignored 0))) ∧
      (s.irq = true → (s.win 4).isSet = false → (s.win 4).kept = [] → ∃ t e, exec .snapset s = .next t ∧ (t.win 4).kept = [e] ∧ e.code = 1 ∧ e.arg0 = 0x45)) ∧
    (Free s w → (m = false → s.part < 4) → knownCode m code.toNat = false → Answers (.reservedCommandCode m code) s w 2 0 (fun t => t.parts = s.parts ∧ CoresKept s t)) ∧
    (s.phase ≠ 0 → (s.win w).run.isSome = true → (m = false → s.part < 4 ∧ (s.getPart s.part).dies ≠ []) →
      (m = true ∧ (i = .partcfg ∨ i = .cfgupd ∨ i = .scrub ∨ i = .health ∨ i = .liferd ∨ i = .snapset ∨ i = .snap) ∨
        m = false ∧ (i = .submit ∨ i = .replay ∨ i = .patch ∨ i = .accw ∨ i = .preempt ∨ i = .release ∨ i = .abort ∨ i = .pooladd ∨ i = .pooldel ∨ i = .ptroot ∨ i = .tlbinv ∨
          i = .pubwin ∨ i = .kvreg ∨ i = .kvout ∨ i = .kvin ∨ i = .ckdom ∨ i = .route ∨ i = .linkup ∨ i = .dieresetCmd ∨ i = .preset ∨ i = .dbgsel)) →
      exec i s = .next (s.setWin w { s.win w with dropCmd := (s.win w).dropCmd + 1 })) ∧
    (s.part < 4 → (s.win s.part).run = some r →
      (r.code = 0x12 → (∀ e ∈ s.cores, e.2.holds = []) → Answers (.commandCompletion false) s s.part 0 0 (fun t =>
        ∀ e ∈ t.cores, s.corePart e.1 = s.part → ∀ y ∈ e.2.tlb, tlbMeets y.va y.size (r.args.getD 0 0).toNat (r.args.getD 1 0).toNat = false)) ∧
      (r.code = 0x1A → (s.die (r.args.getD 0 0).toNat).up = true → Answers (.commandCompletion false) s s.part 0 0 (CoresKept s)) ∧
      (r.code = 0x19 → (s.link (r.args.getD 0 0).toNat (r.args.getD 1 0).toNat).st ≠ .retrain →
        Answers (.commandCompletion false) s s.part 0 (s.link (r.args.getD 0 0).toNat (r.args.getD 1 0).toNat).st.code (CoresKept s))) ∧
    (s.phase = 3 → Happens (.commandCompletion true) s (fun t => t.phase = 4 ∧ t.cores = [] ∧ t.cist.data = [] ∧ t.cist.valid = [] ∧
      ∀ b, b < 4 * chipBytes → peekByte t.mem b = 0)) ∧
    (s.phase = 4 → Happens (.commandCompletion true) s (fun t => t.phase = 1 ∧ t.rows.scrub = false ∧ (t.win 4).run = none))

/-- R510, R511, R516: the responder's answers; while a scrub runs, Busy.
The model's choices in it: the messages: log 20. -/
def Sys2Proof.Claim.SpdmResults : Prop :=
  ∀ (s : State) (offer : BitVec 32) (off len : BitVec 16) (nonce : BitVec 256) (idx code : BitVec 8) (i : Instr),
    let kept (t : State) : Prop := t = { s with doe := t.doe, talk := t.talk }
    let gives (i : Instr) (x : SpdmResp → Prop) : Prop := Happens i s (fun t => (∃ y, t.doe = some y ∧ x y) ∧ kept t)
    let chain := Config.vendorData 1
    (s.phase ≠ 0 → s.phase ≠ 3 →
      gives .getVersion (fun y => y = .version [0x12, 0x13]) ∧ gives .getCapabilities (fun y => y = .capabilities) ∧
      gives (.negotiateAlgorithms offer) (fun y => y = .algorithms (offer.toNat % 4)) ∧ gives .getDigests (fun y => y = .digests (sha384 chain)) ∧
      gives (.getCertificate off len) (fun y => y = .certificate ((chain.drop off.toNat).take len.toNat) (chain.length - off.toNat - len.toNat)) ∧
      gives (.challenge nonce) (fun y => ∃ a b, y = .challenge nonce (sha384 chain) a b) ∧
      gives (.getMeasurements nonce idx) (fun y => ∃ a b, y = .measurements nonce
        ((if idx.toNat = 255 then [1, 2, 3, 4, 5, 6, 7, 8] else if 1 ≤ idx.toNat ∧ idx.toNat ≤ 8 then [idx.toNat] else []).map (fun n => (n, s.measurement n))) a b) ∧
      (spdmSupported.contains code.toNat = false → gives (.unsupportedSpdmRequest code) (fun y => y = .unsupported code.toNat))) ∧
    (s.phase = 3 → (i = .getVersion ∨ i = .getCapabilities ∨ i = .negotiateAlgorithms offer ∨ i = .getDigests ∨ i = .getCertificate off len ∨ i = .challenge nonce ∨
      i = .getMeasurements nonce idx) → exec i s = .next { s with doe := some .busy })

/-! ### The machine as a whole -/

/-- R50, R59-R72, Tables 2.7-2.9 and the encodings of each chapter: encoding a well-formed lane or prefix gives a word of its length that decodes to it
again, every operand with every value that its field admits; no event has an encoding. -/
def Obligations.EveryLaneReadsBack : Prop :=
  ∀ (i : Instr) (w : Nat), i.wf = true → encode i = some w →
    w < 2 ^ 64 ∧ ((∀ cls p n pat, i ≠ .pblk cls p n pat) → decodeWord w = i) ∧ (∀ cls p n pat, i = .pblk cls p n pat → decodePrefix w = some i) ∧
    ((∀ v, i ≠ .reservedOpcode v ∧ i ≠ .reservedFieldValue v) → longOp (bits w 24 8) = false → w < 2 ^ 32)

/-- R65: every word that fits its opcode's length decodes to a well-formed instruction whose encoding is that word: no bit of it is dropped, and a
reserved opcode or field value keeps its name. -/
def Obligations.EveryWordIsKept : Prop :=
  ∀ w : Nat, w < 2 ^ 64 → (longOp (bits w 24 8) = false → w < 2 ^ 32) → (decodeWord w).wf = true ∧ encode (decodeWord w) = some w

/-- Words that the spec works out: one of each class of lane, a prefix, a reserved opcode and a `nop` with a reserved bit set (Tables 2.12 and 12.3,
R75, and the worked encodings of each chapter). -/
def Obligations.WordsOfEachClass : Prop :=
  decodeTableWord 32 0x1039FFC0 = some (.addi 7 7 (-64)) ∧
  decodeTableWord 32 0x18115064 = some (.cmpi 2 5 .lt 100) ∧
  decodeTableWord 64 0x8005000628000204 = some (.loopi 0 2 ⟨0, 2, 0, 1, 0, 0⟩ 20 6) ∧
  decodeTableWord 64 0x00FCFC30409842C8 =
    some (.ldT ⟨⟨true, false, false, true⟩, ⟨4, .produce⟩, 5, .bf16, 63, 63, 6, 0⟩) ∧
  decodeTableWord 64 0x09047C6859246630 =
    some (.stRed ⟨⟨false, false, true, false⟩, ⟨6, .consume⟩, 12, .raw, 1, 31, 13, 0⟩ .addS32 true 9) ∧
  decodeTableWord 64 0x41C203006B285020 =
    some (.vfma ⟨false, false, true, false⟩ ⟨5, .produce⟩ ⟨1, .consume⟩ (.tile ⟨2, .peek⟩) ⟨3, .plain⟩ .rtz) ∧
  decodeTableWord 64 0x00000000A108A050 = some (.mxdr ⟨false, false, false, false⟩ ⟨10, .produce⟩ 0 .f32 false 0) ∧
  decodeTableWord 32 0xA3003000 = some (.mxclr ⟨false, false, false, false⟩ 3) ∧
  decodeTableWord 32 0xB4300480 = some (.cpWait 3 9) ∧
  decodeTableWord 32 0xCA119A00 = some (.barWait .ld 20 25) ∧
  decodeTableWord 64 0x461800A8F1087B00 = some (.fxAmax ⟨7, .produce⟩ ⟨6, .consume⟩ 22 21 (.at 24)) ∧
  decodePrefix 0x8C808000 = some (.pblk .vx 3 1 1) ∧
  decodeWord 0x38000000 = .reservedOpcode 0x38000000 ∧ decodeWord 0x01000001 = .reservedFieldValue 0x01000001

/-- A turn of an engine is `exec` of the command at the head of its queue; a step that the agenda gives to it is that, and a clock cycle (R17: the
model's turns, log 3). -/
def Obligations.TurnRunsTheHead : Prop :=
  ∀ (s : State) (k slot : Nat) (ts : List Turn) (m : Cmd), s.agenda = .run k slot :: ts →
    let u := { s with agenda := ts, stalled := false, starting := false, cur := k, slot := slot }
    u.mayRun k slot = true → u.paced k slot = true → (s.core k).matches slot = false → (slot = 4 → (s.core k).mx.nest = none) → (s.core k).headEntry slot = some (.cmd m) →
    (∀ t, exec m.instr { u with cmd := m } = .next t → step s = .next (tick s t)) ∧
    (∀ f, exec m.instr { u with cmd := m } = .fault f → step s = .fault f) ∧
    (∀ r, exec m.instr { u with cmd := m } = .refused r → step s = .refused r)

/-- When the line at the path position of a core with empty queues decodes to a well-formed lane at its first place, a turn of that core's fetch routes
it and is `exec` of it, its scalars captured (R23, R50, R54, R67). A lane of the sync unit that has a gate acts at its gate (R349), and a prefix in fetch.
The model's choices in it: the model's turns: log 3; fetch: log 33. -/
def Obligations.StepRunsTheDecodedLane : Prop :=
  ∀ (s : State) (k : Nat) (ts : List Turn) (p : Place) (w : Nat) (i : Instr), s.agenda = .fetch k :: ts →
    let c := s.core k
    let n := if longOp (bits w 24 8) then 64 else 32
    let u := { s with agenda := ts, stalled := false, starting := false, cur := k, slot := 0 }
    let slot := laneSlot (clsOfNibble (opClass (bits w 24 8))) i
    (s.die (coreDie k)).up = true → s.gated.contains (k / 4) = false → c.fetching = true → c.dbg.stepping = false → c.dbg.cmpen = false → c.dbg.lbrken = false →
    s.fetchPaced k = true → c.replaying = false → s.gapOver k slot (c.cidx[slotCtr 0]) = true → c.fetch.line = none →
    c.loops = [] → c.mx.nest = none → c.fetch.buf = [] → c.fetch.pfx = [] → c.fetch.spec = none → (∀ j < 14, c.queue j = []) → c.fetch.pc.toNat % 32 = 4 →
    (∀ mk, (translate .fetch mk c.fetch.pc).run u = .ok (p, u)) → Plain p → p.pa % 32 = 4 → s.readPa (p.pa / 32 * 32) 32 = lineFor n w →
    s.paPoisoned (p.pa / 32 * 32) 32 = false →
    w < 2 ^ n → decodeTableWord n w = some i → i.wf = true → (∀ cls q cnt pat, i ≠ .pblk cls q cnt pat) → gateOf i = none →
    (∀ r ∈ scalarsOf i, c.xPending r = false) →
    ∃ (t : State) (m : Cmd), m.instr = i ∧ m.raw = BitVec.ofNat 64 w ∧ m.lane = c.fetch.pc ∧ m.vals = (scalarsOf i).map c.rdX ∧
      m.idx = c.cidx[slotCtr slot] ∧ m.spec = .none ∧ m.iter = [] ∧ (t.core k).headEntry slot = some (.cmd m) ∧ (t.core k).x = c.x ∧ (t.core k).p = c.p ∧
      (∀ j, j ≠ k → t.core j = s.core j) ∧ t.mem = s.mem ∧ t.cur = k ∧ t.slot = slot ∧ t.cmd = m ∧
      ∀ v, exec i t = .next v → step s = .next (tick s { v with stalled := false })

/-- R29, R364: whatever a step does, it leaves no token waiting while its FIFO has room on a running core, and no halt without its beginning.
The model's choices in it: an invariant of the model's turns, log 3. -/
def Obligations.EveryStepSettles : Prop := ∀ s t : State, s.settled → step s = .next t → t.settled

/-- The state after reset is settled, its memories canonical, its L2s in agreement with memory.
The model's choices in it: values that no rule gives for reset: log 5. -/
def Obligations.ResetIsSettled : Prop := State.reset.settled ∧ State.reset.memoriesWf = true ∧ Coherent State.reset

/-- R38, R203, R358, R364, R406, R503, Tables 6.6, 10.8, 14.7, 15.5, 17.3, 17.4 and 18.7: the values that the spec gives for reset, in every partition,
die and window. -/
def Obligations.ResetValues : Prop :=
  (∀ p < 4, let x := State.reset.getPart p
    x.root = none ∧ x.regs.mxkmax = 512 ∧ x.regs.acthr = 0 ∧ x.regs.prewait = 32 ∧ x.regs.wtmo = 0x10000 ∧ x.regs.qos = 64 ∧ x.regs.domColl = false ∧
      x.regs.fxtmo = 1000 ∧ (∀ k : Fin 3, x.sched.ac[k] = 0x8000) ∧ (∀ n, amGet 0 x.sched.gp n = 0) ∧ x.kv.seqs = [] ∧ x.handle = 0) ∧
  (∀ d < 4, (State.reset.die d).gm1 = 7 ∧ (State.reset.die d).delta = 64) ∧
  (∀ p : Fin 5, let w := State.reset.wins[p]
    w.evbase = 0 ∧ w.evsize = 64 ∧ w.evhead = 0 ∧ w.evtail = 0 ∧ w.isSet = false)

/-- The laws of memory over any state whose partitions name dies 0-3 and whose L2s agree with memory: a written byte reads back, every other byte reads as
before, the L2s stay in agreement and the canonical forms are kept, whether the write goes to an L2 or past it (R40, R41, R113); the same of a scratchpad.
The model's choices in it: the L2: log 36; what an unwritten byte reads: log 4. -/
def Obligations.MemoryLaws : Prop :=
  (∀ (s : State) (p pa : Nat) (bs : List Byte) (nc : Bool) (pois : NSet), (∀ q, ∀ d ∈ (s.getPart q).dies, d < 4) → Coherent s →
    let t := s.writePa p pa bs nc pois
    Coherent t ∧
    (∀ j, j < bs.length → t.readPa (pa + j) 1 = [bs.getD j 0]) ∧
    (∀ b, b < pa ∨ pa + bs.length ≤ b → t.readPa b 1 = s.readPa b 1) ∧
    (s.memoriesWf = true → t.memoriesWf = true) ∧ (∀ k, t.core k = s.core k) ∧ t.cist = s.cist ∧ t.sync = s.sync) ∧
  (∀ (c : Core) (o : Nat) (bs : List Byte) (pois : NSet),
    (∀ j, j < bs.length → peekByte (c.writeSp o bs pois).sp (o + j) = bs.getD j 0) ∧
    (∀ q, q < o ∨ o + bs.length ≤ q → peekByte (c.writeSp o bs pois).sp q = peekByte c.sp q) ∧
    (Memory.wf c.sp = true → Memory.wf (c.writeSp o bs pois).sp = true) ∧ { c.writeSp o bs pois with sp := c.sp, spPois := c.spPois } = c)

/-! ### The statements that join several of these -/

/-- Results of the immediate, constant and address instructions: `Sys2Proof.Claim.AluImmediateResults`, `Sys2Proof.Claim.ConstantResults` together. -/
def Obligations.ImmediateAndConstantResults : Prop := Sys2Proof.Claim.AluImmediateResults ∧ Sys2Proof.Claim.ConstantResults

/-- Poisoned operands and misaligned scalar accesses trap: `Sys2Proof.Claim.PoisonedOperandTraps`, `Sys2Proof.Claim.ScalarAccessTraps` together. -/
def Obligations.ScalarTraps : Prop := Sys2Proof.Claim.PoisonedOperandTraps ∧ Sys2Proof.Claim.ScalarAccessTraps

/-- Results of the scalar stores: `Sys2Proof.Claim.ScalarStoreResults`, `Sys2Proof.Claim.ScratchpadStoreResults` together. -/
def Obligations.ScalarStores : Prop := Sys2Proof.Claim.ScalarStoreResults ∧ Sys2Proof.Claim.ScratchpadStoreResults

/-- Branches, calls and register jumps: `Sys2Proof.Claim.BranchResults`, `Sys2Proof.Claim.BranchNotTakenAndTargetTraps`, `Sys2Proof.Claim.RegisterJumpResults` together. -/
def Obligations.TransferResults : Prop := Sys2Proof.Claim.BranchResults ∧ Sys2Proof.Claim.BranchNotTakenAndTargetTraps ∧ Sys2Proof.Claim.RegisterJumpResults

/-- Writes of system registers and bank descriptors: `Sys2Proof.Claim.SystemRegisterWrites`, `Sys2Proof.Claim.BankDescriptorWrites` together. -/
def Obligations.SystemRegisterChanges : Prop := Sys2Proof.Claim.SystemRegisterWrites ∧ Sys2Proof.Claim.BankDescriptorWrites

/-- Taking a fault: the trap record, TRAPPEND and trap.z: `Sys2Proof.Claim.TrapZResult`, `Sys2Proof.Claim.FaultTaking` together. -/
def Obligations.TrapRecord : Prop := Sys2Proof.Claim.TrapZResult ∧ Sys2Proof.Claim.FaultTaking

/-- Translation, its faults, and the page walk: `Sys2Proof.Claim.TranslationResults`, `Sys2Proof.Claim.PageWalkResults` together. -/
def Obligations.AddressTranslation : Prop := Sys2Proof.Claim.TranslationResults ∧ Sys2Proof.Claim.PageWalkResults

/-- Routing a lane, prefixes, and the outcomes of a prediction: `Sys2Proof.Claim.RoutedLane`, `Sys2Proof.Claim.PrefixResults`, `Sys2Proof.Claim.PredictionOutcomes` together. -/
def Obligations.FetchAndPrediction : Prop := Sys2Proof.Claim.RoutedLane ∧ Sys2Proof.Claim.PrefixResults ∧ Sys2Proof.Claim.PredictionOutcomes

/-- End of a task, TOKEN, and the time-out of a wait: `Sys2Proof.Claim.TaskEndAndTokenCheck`, `Sys2Proof.Claim.WaitTimeout` together. -/
def Obligations.TaskEndAndWaits : Prop := Sys2Proof.Claim.TaskEndAndTokenCheck ∧ Sys2Proof.Claim.WaitTimeout

/-- Memory errors, reserved opcodes and reserved fields: `Sys2Proof.Claim.ErrorEvents`, `Sys2Proof.Claim.ReservedLanes` together. -/
def Obligations.ErrorsAndReservedLanes : Prop := Sys2Proof.Claim.ErrorEvents ∧ Sys2Proof.Claim.ReservedLanes

/-- Dispatch of a task and the scheduler's own events: `Sys2Proof.Claim.TaskDispatchResult`, `Sys2Proof.Claim.SchedulerEvents` together. -/
def Obligations.DispatchAndSchedulerEvents : Prop := Sys2Proof.Claim.TaskDispatchResult ∧ Sys2Proof.Claim.SchedulerEvents

/-- Results of the tile loads: `Sys2Proof.Claim.MemoryLoadResults`, `Sys2Proof.Claim.ScratchpadLoadResults` together. -/
def Obligations.TileLoadResults : Prop := Sys2Proof.Claim.MemoryLoadResults ∧ Sys2Proof.Claim.ScratchpadLoadResults

/-- Results of the tile stores: `Sys2Proof.Claim.MemoryStoreResults`, `Sys2Proof.Claim.ScratchpadStoreEngineResults` together. -/
def Obligations.TileStoreResults : Prop := Sys2Proof.Claim.MemoryStoreResults ∧ Sys2Proof.Claim.ScratchpadStoreEngineResults

/-- Engine lanes with forbidden operands trap and take nothing: `Sys2Proof.Claim.EngineLaneTraps`, `Sys2Proof.Claim.VectorTraps` together. -/
def Obligations.EngineTraps : Prop := Sys2Proof.Claim.EngineLaneTraps ∧ Sys2Proof.Claim.VectorTraps

/-- Results of the one-operand lanes; the integer element functions: `Sys2Proof.Claim.UnaryResults`, `Sys2Proof.Claim.IntegerElementFunctions` together. -/
def Obligations.UnaryAndIntegerResults : Prop := Sys2Proof.Claim.UnaryResults ∧ Sys2Proof.Claim.IntegerElementFunctions

/-- Vector selections, moves, permutes and fills; moves to and from a bank: `Sys2Proof.Claim.VectorMoveResults`, `Sys2Proof.Claim.VectorBankMoveResults` together. -/
def Obligations.VectorMoveResultsAndBanks : Prop := Sys2Proof.Claim.VectorMoveResults ∧ Sys2Proof.Claim.VectorBankMoveResults

/-- Clearing, loading and draining accumulators: `Sys2Proof.Claim.AccumulatorResults`, `Sys2Proof.Claim.AccumulatorBankDrain` together. -/
def Obligations.AccumulatorLanes : Prop := Sys2Proof.Claim.AccumulatorResults ∧ Sys2Proof.Claim.AccumulatorBankDrain

/-- Copy lanes, and the progress of a transfer: `Sys2Proof.Claim.CopyLaneResults`, `Sys2Proof.Claim.CopyTransferResults` together. -/
def Obligations.CopyResults : Prop := Sys2Proof.Claim.CopyLaneResults ∧ Sys2Proof.Claim.CopyTransferResults

/-- Semaphores, wait snapshots, gates and releases: `Sys2Proof.Claim.SemaphoreResults`, `Sys2Proof.Claim.SyncSnapshotAndGateResults` together. -/
def Obligations.SemaphoresAndSnapshots : Prop := Sys2Proof.Claim.SemaphoreResults ∧ Sys2Proof.Claim.SyncSnapshotAndGateResults

/-- Pump commands are queued and their jobs performed: `Sys2Proof.Claim.PumpCommandResults`, `Sys2Proof.Claim.PumpJobResults` together. -/
def Obligations.PumpResults : Prop := Sys2Proof.Claim.PumpCommandResults ∧ Sys2Proof.Claim.PumpJobResults

/-- Attention: sequences, prefixes, tokens and trees: `Sys2Proof.Claim.SequenceCommandResults`, `Sys2Proof.Claim.TokenAndTreeResults` together. -/
def Obligations.AttentionStateResults : Prop := Sys2Proof.Claim.SequenceCommandResults ∧ Sys2Proof.Claim.TokenAndTreeResults

/-- Collectives and links: `Sys2Proof.Claim.CollectiveCommandResults`, `Sys2Proof.Claim.CollectiveAndLinkEvents` together. -/
def Obligations.CollectiveResults : Prop := Sys2Proof.Claim.CollectiveCommandResults ∧ Sys2Proof.Claim.CollectiveAndLinkEvents

/-- Checkpoint commands and seals: `Sys2Proof.Claim.CheckpointCommandResults`, `Sys2Proof.Claim.SealEvents` together. -/
def Obligations.CheckpointResults : Prop := Sys2Proof.Claim.CheckpointCommandResults ∧ Sys2Proof.Claim.SealEvents

/-- Resets, temperatures, gating, start, power loss and records: `Sys2Proof.Claim.PowerEvents`, `Sys2Proof.Claim.StartAndRecordEvents` together. -/
def Obligations.PowerStartAndRecordEvents : Prop := Sys2Proof.Claim.PowerEvents ∧ Sys2Proof.Claim.StartAndRecordEvents

/-- Host and peer accesses; the SPDM responder: `Sys2Proof.Claim.HostAccessResults`, `Sys2Proof.Claim.SpdmResults` together. -/
def Obligations.HostAccesses : Prop := Sys2Proof.Claim.HostAccessResults ∧ Sys2Proof.Claim.SpdmResults

/-- Launch-window commands to the scheduler, and SETREG: `Sys2Proof.Claim.SchedulerCommandResults`, `Sys2Proof.Claim.SetregResults` together. -/
def Obligations.SchedulerAndSetregCommands : Prop := Sys2Proof.Claim.SchedulerCommandResults ∧ Sys2Proof.Claim.SetregResults

/-- The other launch-window commands, and the module window: `Sys2Proof.Claim.LaunchCommandResults`, `Sys2Proof.Claim.ModuleCommandResults` together. -/
def Obligations.LaunchAndModuleCommands : Prop := Sys2Proof.Claim.LaunchCommandResults ∧ Sys2Proof.Claim.ModuleCommandResults
end

