-- ==== Sys2Proof/Laws/Maps.lean ====
section
/-! SUPPORT. Laws of the sparse tables: what a key reads as after each operation, and that byte memories keep their canonical form. -/

namespace Sys2Proof.Machine

/-! ### Tables -/

theorem amFind_amIns_self {α : Type} (k : Nat) (v : α) (m : AMap α) (h : ∀ e ∈ m, e.1 ≠ k) : amFind k (amIns k v m) = some v := by
  induction m with
  | nil => simp [amIns, amFind]
  | cons e m ih =>
    have he := h e (by simp)
    unfold amIns
    split
    · simp [amFind]
    · simp only [amFind, he, if_false]; exact ih (fun f hf => h f (by simp [hf]))

theorem amFind_amIns_other {α : Type} {j k : Nat} (v : α) (m : AMap α) (h : j ≠ k) : amFind j (amIns k v m) = amFind j m := by
  induction m with
  | nil => simp [amIns, amFind, h.symm]
  | cons e m ih =>
    unfold amIns
    split
    · simp [amFind, h.symm]
    · simp only [amFind]; split <;> simp_all

theorem ne_of_mem_amDel {α : Type} {k : Nat} {m : AMap α} {e : Nat × α} (h : e ∈ amDel k m) : e.1 ≠ k := by
  induction m with
  | nil => simp [amDel] at h
  | cons f m ih =>
    unfold amDel at h
    split at h
    · exact ih h
    · rcases List.mem_cons.mp h with rfl | h
      · assumption
      · exact ih h

theorem mem_of_mem_amDel {α : Type} {k : Nat} {m : AMap α} {e : Nat × α} (h : e ∈ amDel k m) : e ∈ m := by
  induction m with
  | nil => simp [amDel] at h
  | cons f m ih =>
    unfold amDel at h
    split at h
    · exact List.mem_cons_of_mem _ (ih h)
    · rcases List.mem_cons.mp h with rfl | h
      · simp
      · exact List.mem_cons_of_mem _ (ih h)

theorem amFind_amDel_self {α : Type} (k : Nat) (m : AMap α) : amFind k (amDel k m) = none := by
  induction m with
  | nil => rfl
  | cons e m ih =>
    unfold amDel
    split
    · exact ih
    · simp_all [amFind]

theorem amFind_amDel_other {α : Type} {j k : Nat} (m : AMap α) (h : j ≠ k) : amFind j (amDel k m) = amFind j m := by
  induction m with
  | nil => rfl
  | cons e m ih =>
    unfold amDel
    split
    · rename_i hk; rw [ih]; simp [amFind, hk, h.symm]
    · simp only [amFind]; split <;> simp_all

/-- A replaced key reads as its new value. -/
@[simp] theorem amFind_amSet_self {α : Type} (k : Nat) (v : α) (m : AMap α) : amFind k (amSet m k v) = some v :=
  amFind_amIns_self k v _ (fun _ h => ne_of_mem_amDel h)

/-- Another key reads as before. -/
theorem amFind_amSet_other {α : Type} {j k : Nat} (v : α) (m : AMap α) (h : j ≠ k) : amFind j (amSet m k v) = amFind j m := by
  rw [amSet, amFind_amIns_other v _ h, amFind_amDel_other m h]

@[simp] theorem amGet_amSet_self {α : Type} (d : α) (k : Nat) (v : α) (m : AMap α) : amGet d (amSet m k v) k = v := by simp [amGet]
theorem amGet_amSet_other {α : Type} {j k : Nat} (d v : α) (m : AMap α) (h : j ≠ k) : amGet d (amSet m k v) j = amGet d m j := by
  simp [amGet, amFind_amSet_other v m h]

theorem amDel_amIns {α : Type} (k : Nat) (v : α) (m : AMap α) (h : ∀ e ∈ m, e.1 ≠ k) : amDel k (amIns k v m) = m := by
  induction m with
  | nil => simp [amIns, amDel]
  | cons e m ih =>
    have he := h e (by simp)
    have ht : ∀ f ∈ m, f.1 ≠ k := fun f hf => h f (by simp [hf])
    have hd : amDel k m = m := by
      clear ih he h
      induction m with
      | nil => rfl
      | cons f m ih => simp only [amDel]; rw [if_neg (ht f (by simp)), ih (fun g hg => ht g (by simp [hg]))]
    unfold amIns
    split
    · simp [amDel, he, hd]
    · simp [amDel, he, ih ht]

/-- The last of two replacements of a key stands. -/
@[simp] theorem amSet_amSet {α : Type} (k : Nat) (u v : α) (m : AMap α) : amSet (amSet m k u) k v = amSet m k v := by
  unfold amSet; rw [amDel_amIns k u _ (fun _ h => ne_of_mem_amDel h)]

theorem lt_of_mem_amIns {α : Type} {b k : Nat} {v : α} {m : AMap α} (hm : ∀ e ∈ m, b < e.1) (hk : b < k) :
    ∀ e ∈ amIns k v m, b < e.1 := by
  induction m with
  | nil => simpa [amIns] using hk
  | cons f m ih =>
    unfold amIns
    split
    · simpa using ⟨hk, hm f (by simp), fun a c h => hm (a, c) (by simp [h])⟩
    · intro e he
      rcases List.mem_cons.mp he with rfl | he
      · exact hm _ (by simp)
      · exact ih (fun g hg => hm g (by simp [hg])) e he

theorem amSorted_amIns {α : Type} (k : Nat) (v : α) (m : AMap α) (h : amSorted m = true) (hk : ∀ e ∈ m, e.1 ≠ k) :
    amSorted (amIns k v m) = true := by
  induction m with
  | nil => rfl
  | cons e m ih =>
    simp only [amSorted, Bool.and_eq_true, List.all_eq_true, decide_eq_true_eq] at h
    unfold amIns
    split
    · rename_i hlt
      simp only [amSorted, Bool.and_eq_true, List.all_eq_true, decide_eq_true_eq]
      refine ⟨fun f hf => ?_, h⟩
      rcases List.mem_cons.mp hf with rfl | hf
      · exact hlt
      · exact lt_trans hlt (h.1 f hf)
    · rename_i hlt
      have he := hk e (by simp)
      simp only [amSorted, Bool.and_eq_true, List.all_eq_true, decide_eq_true_eq]
      exact ⟨lt_of_mem_amIns h.1 (by omega), ih h.2 (fun f hf => hk f (by simp [hf]))⟩

theorem amSorted_amDel {α : Type} (k : Nat) (m : AMap α) (h : amSorted m = true) : amSorted (amDel k m) = true := by
  induction m with
  | nil => rfl
  | cons e m ih =>
    simp only [amSorted, Bool.and_eq_true, List.all_eq_true, decide_eq_true_eq] at h
    unfold amDel
    split
    · exact ih h.2
    · simp only [amSorted, Bool.and_eq_true, List.all_eq_true, decide_eq_true_eq]
      exact ⟨fun f hf => h.1 f (mem_of_mem_amDel hf), ih h.2⟩

/-- A replacement keeps the keys rising. -/
theorem amSorted_amSet {α : Type} (k : Nat) (v : α) (m : AMap α) (h : amSorted m = true) : amSorted (amSet m k v) = true :=
  amSorted_amIns k v _ (amSorted_amDel k m h) (fun _ hf => ne_of_mem_amDel hf)

/-! ### Byte memories -/

/-- The canonical form by its parts. -/
theorem bytesWf_iff (m : Bytes) : bytesWf m = true ↔ m.Pairwise (fun e f => e.1 < f.1) ∧ ∀ e ∈ m, e.2 ≠ 0 := by
  induction m with
  | nil => simp [bytesWf]
  | cons e m ih =>
    simp only [bytesWf, Bool.and_eq_true, bne_iff_ne, ne_eq, List.all_eq_true, decide_eq_true_eq, ih, List.pairwise_cons,
      List.mem_cons, forall_eq_or_imp]
    tauto

theorem mem_cellsOf {a : Nat} {bs : List Byte} {e : Host.Cell} (h : e ∈ cellsOf a bs) : a ≤ e.1 ∧ e.1 < a + bs.length ∧ e.2 ≠ 0 := by
  induction bs generalizing a with
  | nil => simp [cellsOf] at h
  | cons b bs ih =>
    unfold cellsOf at h
    split at h
    · have := ih h; exact ⟨by omega, by simp only [List.length_cons]; omega, this.2.2⟩
    · rename_i hb
      rcases List.mem_cons.mp h with rfl | h
      · exact ⟨le_refl _, by simp, hb⟩
      · have := ih h; exact ⟨by omega, by simp only [List.length_cons]; omega, this.2.2⟩

theorem pairwise_cellsOf (a : Nat) (bs : List Byte) : (cellsOf a bs).Pairwise (fun e f => e.1 < f.1) := by
  induction bs generalizing a with
  | nil => simp [cellsOf]
  | cons b bs ih =>
    unfold cellsOf
    split
    · exact ih _
    · exact List.pairwise_cons.mpr ⟨fun e he => by have := mem_cellsOf he; simp only; omega, ih _⟩

/-- A write keeps the canonical form. -/
theorem bytesWf_pokeBytes (m : Bytes) (a : Nat) (bs : List Byte) (h : bytesWf m = true) : bytesWf (pokeBytes m a bs) = true := by
  rw [bytesWf_iff] at h ⊢
  unfold pokeBytes
  refine ⟨?_, ?_⟩
  · rw [List.pairwise_append, List.pairwise_append]
    refine ⟨⟨h.1.filter _, pairwise_cellsOf a bs, ?_⟩, h.1.filter _, ?_⟩
    · intro e he f hf
      have := mem_cellsOf hf
      simp only [List.mem_filter, decide_eq_true_eq] at he
      omega
    · intro e he f hf
      simp only [List.mem_filter, decide_eq_true_eq] at hf
      rcases List.mem_append.mp he with he | he
      · simp only [List.mem_filter, decide_eq_true_eq] at he; omega
      · have := mem_cellsOf he; omega
  · intro e he
    rcases List.mem_append.mp he with he | he
    · rcases List.mem_append.mp he with he | he
      · exact h.2 e (List.mem_filter.mp he).1
      · exact (mem_cellsOf he).2.2
    · exact h.2 e (List.mem_filter.mp he).1

theorem amFind_append {α : Type} (k : Nat) (m n : AMap α) :
    amFind k (m ++ n) = (match amFind k m with | some v => some v | none => amFind k n) := by
  induction m with
  | nil => rfl
  | cons e m ih => simp only [List.cons_append, amFind]; split <;> simp_all

theorem amFind_eq_none {α : Type} (k : Nat) (m : AMap α) (h : ∀ e ∈ m, e.1 ≠ k) : amFind k m = none := by
  induction m with
  | nil => rfl
  | cons e m ih => simp only [amFind]; rw [if_neg (h e (by simp))]; exact ih (fun f hf => h f (by simp [hf]))

theorem amFind_filter {α : Type} (k : Nat) (m : AMap α) (p : Nat → Bool) :
    amFind k (m.filter (fun e => p e.1)) = if p k then amFind k m else none := by
  induction m with
  | nil => simp [amFind]
  | cons e m ih =>
    rw [List.filter_cons]
    by_cases hp : p e.1 = true
    · rw [if_pos hp]; simp only [amFind, ih]; split
      · rename_i he; subst he; simp [hp]
      · rfl
    · rw [if_neg hp, ih]; simp only [amFind]
      by_cases he : e.1 = k
      · subst he; simp [hp]
      · rw [if_neg he]

theorem amFind_cellsOf (a : Nat) (bs : List Byte) (i : Nat) (h : i < bs.length) :
    amGet 0 (cellsOf a bs) (a + i) = bs[i] := by
  induction bs generalizing a i with
  | nil => simp at h
  | cons b bs ih =>
    unfold cellsOf
    split
    · rename_i hb
      cases i with
      | zero =>
        simp only [Nat.add_zero, List.getElem_cons_zero, hb, amGet]
        rw [amFind_eq_none]
        · rfl
        · intro e he; have := mem_cellsOf he; omega
      | succ i => simpa [Nat.add_assoc, Nat.add_comm 1 i] using ih (a + 1) i (by simpa using h)
    · cases i with
      | zero => simp [amGet, amFind]
      | succ i =>
        have : amGet 0 ((a, b) :: cellsOf (a + 1) bs) (a + (i + 1)) = amGet 0 (cellsOf (a + 1) bs) (a + 1 + i) := by
          simp only [amGet, amFind]; rw [if_neg (by omega)]; congr 2; omega
        rw [this]; simpa using ih (a + 1) i (by simpa using h)

/-- A written byte reads as written. -/
theorem peekByte_pokeBytes_in (m : Bytes) (a : Nat) (bs : List Byte) (i : Nat) (h : i < bs.length) :
    peekByte (pokeBytes m a bs) (a + i) = bs[i] := by
  unfold peekByte
  rw [← amFind_cellsOf a bs i h]
  unfold pokeBytes amGet
  rw [amFind_append, amFind_append, amFind_filter _ _ (fun e => decide (e < a)), amFind_filter _ _ (fun e => decide (a + bs.length ≤ e))]
  simp only [show ¬ (a + i < a) by omega, show ¬ (a + bs.length ≤ a + i) by omega, decide_false, Bool.false_eq_true, if_false]
  cases amFind (a + i) (cellsOf a bs) <;> rfl

/-- Every byte outside the written ones reads as before. -/
theorem peekByte_pokeBytes_out (m : Bytes) (a : Nat) (bs : List Byte) (b : Nat) (h : b < a ∨ a + bs.length ≤ b) :
    peekByte (pokeBytes m a bs) b = peekByte m b := by
  unfold peekByte amGet pokeBytes
  rw [amFind_append, amFind_append, amFind_filter _ _ (fun e => decide (e < a)), amFind_filter _ _ (fun e => decide (a + bs.length ≤ e)),
    amFind_eq_none b (cellsOf a bs) (fun e he => by have := mem_cellsOf he; omega)]
  rcases h with h | h
  · simp only [h, show ¬ (a + bs.length ≤ b) by omega, decide_true, decide_false, if_true, Bool.false_eq_true, if_false]
    cases amFind b m <;> rfl
  · simp only [show ¬ (b < a) by omega, h, decide_true, decide_false, if_true, Bool.false_eq_true, if_false]

end Sys2Proof.Machine
end

