-- ==== Sys2Proof/Laws/State.lean ====
section
/-! SUPPORT. Laws of the state: what each field reads as after each update. -/

namespace Sys2Proof.Machine

/-! ### A core of the module -/

@[simp] theorem State.core_setCore_self (s : State) (k : Nat) (c : Core) : (s.setCore k c).core k = c := by
  simp [State.core, State.setCore]
theorem State.core_setCore_other {j k : Nat} (s : State) (c : Core) (h : j ≠ k) : (s.setCore k c).core j = s.core j := by
  simp [State.core, State.setCore, amGet_amSet_other _ _ _ h]
@[simp] theorem State.setCore_setCore (s : State) (k : Nat) (c d : Core) : (s.setCore k c).setCore k d = s.setCore k d := by
  simp [State.setCore]
@[simp] theorem State.core_updCore_self (s : State) (k : Nat) (f : Core → Core) : (s.updCore k f).core k = f (s.core k) := by
  simp [State.updCore]
theorem State.core_updCore_other {j k : Nat} (s : State) (f : Core → Core) (h : j ≠ k) : (s.updCore k f).core j = s.core j :=
  s.core_setCore_other _ h
@[simp] theorem State.updCore_updCore (s : State) (k : Nat) (f g : Core → Core) : (s.updCore k f).updCore k g = s.updCore k (fun c => g (f c)) := by
  simp [State.updCore]
@[simp] theorem State.setCore_updCore (s : State) (k : Nat) (c : Core) (f : Core → Core) : (s.setCore k c).updCore k f = s.setCore k (f c) := by
  simp [State.updCore]

@[simp] theorem State.setCore_now (s : State) (k : Nat) (c : Core) : (s.setCore k c).now = s.now := rfl
@[simp] theorem State.setCore_picks (s : State) (k : Nat) (c : Core) : (s.setCore k c).picks = s.picks := rfl
@[simp] theorem State.setCore_cur (s : State) (k : Nat) (c : Core) : (s.setCore k c).cur = s.cur := rfl
@[simp] theorem State.setCore_slot (s : State) (k : Nat) (c : Core) : (s.setCore k c).slot = s.slot := rfl
@[simp] theorem State.setCore_cmd (s : State) (k : Nat) (c : Core) : (s.setCore k c).cmd = s.cmd := rfl
@[simp] theorem State.setCore_part (s : State) (k : Nat) (c : Core) : (s.setCore k c).part = s.part := rfl
@[simp] theorem State.setCore_irq (s : State) (k : Nat) (c : Core) : (s.setCore k c).irq = s.irq := rfl
@[simp] theorem State.setCore_stalled (s : State) (k : Nat) (c : Core) : (s.setCore k c).stalled = s.stalled := rfl
@[simp] theorem State.setCore_starting (s : State) (k : Nat) (c : Core) : (s.setCore k c).starting = s.starting := rfl
@[simp] theorem State.setCore_agenda (s : State) (k : Nat) (c : Core) : (s.setCore k c).agenda = s.agenda := rfl
@[simp] theorem State.setCore_mem (s : State) (k : Nat) (c : Core) : (s.setCore k c).mem = s.mem := rfl
@[simp] theorem State.setCore_memPois (s : State) (k : Nat) (c : Core) : (s.setCore k c).memPois = s.memPois := rfl
@[simp] theorem State.setCore_unpub (s : State) (k : Nat) (c : Core) : (s.setCore k c).unpub = s.unpub := rfl
@[simp] theorem State.setCore_sync (s : State) (k : Nat) (c : Core) : (s.setCore k c).sync = s.sync := rfl
@[simp] theorem State.setCore_cist (s : State) (k : Nat) (c : Core) : (s.setCore k c).cist = s.cist := rfl
@[simp] theorem State.setCore_disabled (s : State) (k : Nat) (c : Core) : (s.setCore k c).disabled = s.disabled := rfl
@[simp] theorem State.setCore_sites (s : State) (k : Nat) (c : Core) : (s.setCore k c).sites = s.sites := rfl
@[simp] theorem State.setCore_parts (s : State) (k : Nat) (c : Core) : (s.setCore k c).parts = s.parts := rfl
@[simp] theorem State.setCore_dies (s : State) (k : Nat) (c : Core) : (s.setCore k c).dies = s.dies := rfl
@[simp] theorem State.setCore_chips (s : State) (k : Nat) (c : Core) : (s.setCore k c).chips = s.chips := rfl
@[simp] theorem State.setCore_links (s : State) (k : Nat) (c : Core) : (s.setCore k c).links = s.links := rfl
@[simp] theorem State.setCore_domain (s : State) (k : Nat) (c : Core) : (s.setCore k c).domain = s.domain := rfl
@[simp] theorem State.setCore_wins (s : State) (k : Nat) (c : Core) : (s.setCore k c).wins = s.wins := rfl
@[simp] theorem State.setCore_msix (s : State) (k : Nat) (c : Core) : (s.setCore k c).msix = s.msix := rfl
@[simp] theorem State.setCore_gated (s : State) (k : Nat) (c : Core) : (s.setCore k c).gated = s.gated := rfl
@[simp] theorem State.setCore_spills (s : State) (k : Nat) (c : Core) : (s.setCore k c).spills = s.spills := rfl
@[simp] theorem State.setCore_busyAt (s : State) (k : Nat) (c : Core) : (s.setCore k c).busyAt = s.busyAt := rfl
@[simp] theorem State.setCore_phase (s : State) (k : Nat) (c : Core) : (s.setCore k c).phase = s.phase := rfl
@[simp] theorem State.setCore_alts (s : State) (k : Nat) (c : Core) : (s.setCore k c).alts = s.alts := rfl
@[simp] theorem State.setCore_hxerr (s : State) (k : Nat) (c : Core) : (s.setCore k c).hxerr = s.hxerr := rfl
@[simp] theorem State.setCore_seen (s : State) (k : Nat) (c : Core) : (s.setCore k c).seen = s.seen := rfl
@[simp] theorem State.setCore_rows (s : State) (k : Nat) (c : Core) : (s.setCore k c).rows = s.rows := rfl
@[simp] theorem State.setCore_life (s : State) (k : Nat) (c : Core) : (s.setCore k c).life = s.life := rfl
@[simp] theorem State.setCore_snap (s : State) (k : Nat) (c : Core) : (s.setCore k c).snap = s.snap := rfl
@[simp] theorem State.setCore_doe (s : State) (k : Nat) (c : Core) : (s.setCore k c).doe = s.doe := rfl
@[simp] theorem State.setCore_talk (s : State) (k : Nat) (c : Core) : (s.setCore k c).talk = s.talk := rfl
@[simp] theorem State.setCore_mode (s : State) (k : Nat) (c : Core) : (s.setCore k c).mode = s.mode := rfl
@[simp] theorem State.setCore_health (s : State) (k : Nat) (c : Core) : (s.setCore k c).health = s.health := rfl
@[simp] theorem State.updCore_now (s : State) (k : Nat) (f : Core → Core) : (s.updCore k f).now = s.now := rfl
@[simp] theorem State.updCore_picks (s : State) (k : Nat) (f : Core → Core) : (s.updCore k f).picks = s.picks := rfl
@[simp] theorem State.updCore_cur (s : State) (k : Nat) (f : Core → Core) : (s.updCore k f).cur = s.cur := rfl
@[simp] theorem State.updCore_slot (s : State) (k : Nat) (f : Core → Core) : (s.updCore k f).slot = s.slot := rfl
@[simp] theorem State.updCore_cmd (s : State) (k : Nat) (f : Core → Core) : (s.updCore k f).cmd = s.cmd := rfl
@[simp] theorem State.updCore_part (s : State) (k : Nat) (f : Core → Core) : (s.updCore k f).part = s.part := rfl
@[simp] theorem State.updCore_irq (s : State) (k : Nat) (f : Core → Core) : (s.updCore k f).irq = s.irq := rfl
@[simp] theorem State.updCore_stalled (s : State) (k : Nat) (f : Core → Core) : (s.updCore k f).stalled = s.stalled := rfl
@[simp] theorem State.updCore_starting (s : State) (k : Nat) (f : Core → Core) : (s.updCore k f).starting = s.starting := rfl
@[simp] theorem State.updCore_agenda (s : State) (k : Nat) (f : Core → Core) : (s.updCore k f).agenda = s.agenda := rfl
@[simp] theorem State.updCore_mem (s : State) (k : Nat) (f : Core → Core) : (s.updCore k f).mem = s.mem := rfl
@[simp] theorem State.updCore_memPois (s : State) (k : Nat) (f : Core → Core) : (s.updCore k f).memPois = s.memPois := rfl
@[simp] theorem State.updCore_unpub (s : State) (k : Nat) (f : Core → Core) : (s.updCore k f).unpub = s.unpub := rfl
@[simp] theorem State.updCore_sync (s : State) (k : Nat) (f : Core → Core) : (s.updCore k f).sync = s.sync := rfl
@[simp] theorem State.updCore_cist (s : State) (k : Nat) (f : Core → Core) : (s.updCore k f).cist = s.cist := rfl
@[simp] theorem State.updCore_disabled (s : State) (k : Nat) (f : Core → Core) : (s.updCore k f).disabled = s.disabled := rfl
@[simp] theorem State.updCore_sites (s : State) (k : Nat) (f : Core → Core) : (s.updCore k f).sites = s.sites := rfl
@[simp] theorem State.updCore_parts (s : State) (k : Nat) (f : Core → Core) : (s.updCore k f).parts = s.parts := rfl
@[simp] theorem State.updCore_dies (s : State) (k : Nat) (f : Core → Core) : (s.updCore k f).dies = s.dies := rfl
@[simp] theorem State.updCore_chips (s : State) (k : Nat) (f : Core → Core) : (s.updCore k f).chips = s.chips := rfl
@[simp] theorem State.updCore_links (s : State) (k : Nat) (f : Core → Core) : (s.updCore k f).links = s.links := rfl
@[simp] theorem State.updCore_domain (s : State) (k : Nat) (f : Core → Core) : (s.updCore k f).domain = s.domain := rfl
@[simp] theorem State.updCore_wins (s : State) (k : Nat) (f : Core → Core) : (s.updCore k f).wins = s.wins := rfl
@[simp] theorem State.updCore_msix (s : State) (k : Nat) (f : Core → Core) : (s.updCore k f).msix = s.msix := rfl
@[simp] theorem State.updCore_gated (s : State) (k : Nat) (f : Core → Core) : (s.updCore k f).gated = s.gated := rfl
@[simp] theorem State.updCore_spills (s : State) (k : Nat) (f : Core → Core) : (s.updCore k f).spills = s.spills := rfl
@[simp] theorem State.updCore_busyAt (s : State) (k : Nat) (f : Core → Core) : (s.updCore k f).busyAt = s.busyAt := rfl
@[simp] theorem State.updCore_phase (s : State) (k : Nat) (f : Core → Core) : (s.updCore k f).phase = s.phase := rfl
@[simp] theorem State.updCore_alts (s : State) (k : Nat) (f : Core → Core) : (s.updCore k f).alts = s.alts := rfl
@[simp] theorem State.updCore_hxerr (s : State) (k : Nat) (f : Core → Core) : (s.updCore k f).hxerr = s.hxerr := rfl
@[simp] theorem State.updCore_seen (s : State) (k : Nat) (f : Core → Core) : (s.updCore k f).seen = s.seen := rfl
@[simp] theorem State.updCore_rows (s : State) (k : Nat) (f : Core → Core) : (s.updCore k f).rows = s.rows := rfl
@[simp] theorem State.updCore_life (s : State) (k : Nat) (f : Core → Core) : (s.updCore k f).life = s.life := rfl
@[simp] theorem State.updCore_snap (s : State) (k : Nat) (f : Core → Core) : (s.updCore k f).snap = s.snap := rfl
@[simp] theorem State.updCore_doe (s : State) (k : Nat) (f : Core → Core) : (s.updCore k f).doe = s.doe := rfl
@[simp] theorem State.updCore_talk (s : State) (k : Nat) (f : Core → Core) : (s.updCore k f).talk = s.talk := rfl
@[simp] theorem State.updCore_mode (s : State) (k : Nat) (f : Core → Core) : (s.updCore k f).mode = s.mode := rfl
@[simp] theorem State.updCore_health (s : State) (k : Nat) (f : Core → Core) : (s.updCore k f).health = s.health := rfl

/-- Marking a step as held up or not touches no core. -/
@[simp] theorem State.core_stalled (s : State) (b : Bool) (k : Nat) : State.core { s with stalled := b } k = s.core k := rfl

/-! ### Registers of a core -/

@[simp] theorem Core.wrX_mode (c : Core) (r : XReg) (v : Scalar) : (c.wrX r v).mode = c.mode := by unfold Core.wrX; split <;> rfl
@[simp] theorem Core.wrX_task (c : Core) (r : XReg) (v : Scalar) : (c.wrX r v).task = c.task := by unfold Core.wrX; split <;> rfl
@[simp] theorem Core.wrX_fetch (c : Core) (r : XReg) (v : Scalar) : (c.wrX r v).fetch = c.fetch := by unfold Core.wrX; split <;> rfl
@[simp] theorem Core.wrX_qs (c : Core) (r : XReg) (v : Scalar) : (c.wrX r v).qs = c.qs := by unfold Core.wrX; split <;> rfl
@[simp] theorem Core.wrX_cidx (c : Core) (r : XReg) (v : Scalar) : (c.wrX r v).cidx = c.cidx := by unfold Core.wrX; split <;> rfl
@[simp] theorem Core.wrX_p (c : Core) (r : XReg) (v : Scalar) : (c.wrX r v).p = c.p := by unfold Core.wrX; split <;> rfl
@[simp] theorem Core.wrX_lc (c : Core) (r : XReg) (v : Scalar) : (c.wrX r v).lc = c.lc := by unfold Core.wrX; split <;> rfl
@[simp] theorem Core.wrX_trap (c : Core) (r : XReg) (v : Scalar) : (c.wrX r v).trap = c.trap := by unfold Core.wrX; split <;> rfl
@[simp] theorem Core.wrX_lpstat (c : Core) (r : XReg) (v : Scalar) : (c.wrX r v).lpstat = c.lpstat := by unfold Core.wrX; split <;> rfl
@[simp] theorem Core.wrX_livebk (c : Core) (r : XReg) (v : Scalar) : (c.wrX r v).livebk = c.livebk := by unfold Core.wrX; split <;> rfl
@[simp] theorem Core.wrX_livetl (c : Core) (r : XReg) (v : Scalar) : (c.wrX r v).livetl = c.livetl := by unfold Core.wrX; split <;> rfl
@[simp] theorem Core.wrX_dbg (c : Core) (r : XReg) (v : Scalar) : (c.wrX r v).dbg = c.dbg := by unfold Core.wrX; split <;> rfl
@[simp] theorem Core.wrX_tiles (c : Core) (r : XReg) (v : Scalar) : (c.wrX r v).tiles = c.tiles := by unfold Core.wrX; split <;> rfl
@[simp] theorem Core.wrX_toks (c : Core) (r : XReg) (v : Scalar) : (c.wrX r v).toks = c.toks := by unfold Core.wrX; split <;> rfl
@[simp] theorem Core.wrX_unsent (c : Core) (r : XReg) (v : Scalar) : (c.wrX r v).unsent = c.unsent := by unfold Core.wrX; split <;> rfl
@[simp] theorem Core.wrX_accs (c : Core) (r : XReg) (v : Scalar) : (c.wrX r v).accs = c.accs := by unfold Core.wrX; split <;> rfl
@[simp] theorem Core.wrX_sh (c : Core) (r : XReg) (v : Scalar) : (c.wrX r v).sh = c.sh := by unfold Core.wrX; split <;> rfl
@[simp] theorem Core.wrX_sp (c : Core) (r : XReg) (v : Scalar) : (c.wrX r v).sp = c.sp := by unfold Core.wrX; split <;> rfl
@[simp] theorem Core.wrX_spPois (c : Core) (r : XReg) (v : Scalar) : (c.wrX r v).spPois = c.spPois := by unfold Core.wrX; split <;> rfl
@[simp] theorem Core.wrX_banks (c : Core) (r : XReg) (v : Scalar) : (c.wrX r v).banks = c.banks := by unfold Core.wrX; split <;> rfl
@[simp] theorem Core.wrX_loops (c : Core) (r : XReg) (v : Scalar) : (c.wrX r v).loops = c.loops := by unfold Core.wrX; split <;> rfl
@[simp] theorem Core.wrX_serial (c : Core) (r : XReg) (v : Scalar) : (c.wrX r v).serial = c.serial := by unfold Core.wrX; split <;> rfl
@[simp] theorem Core.wrX_holds (c : Core) (r : XReg) (v : Scalar) : (c.wrX r v).holds = c.holds := by unfold Core.wrX; split <;> rfl
@[simp] theorem Core.wrX_waits (c : Core) (r : XReg) (v : Scalar) : (c.wrX r v).waits = c.waits := by unfold Core.wrX; split <;> rfl
@[simp] theorem Core.wrX_tlb (c : Core) (r : XReg) (v : Scalar) : (c.wrX r v).tlb = c.tlb := by unfold Core.wrX; split <;> rfl
@[simp] theorem Core.wrX_regs (c : Core) (r : XReg) (v : Scalar) : (c.wrX r v).regs = c.regs := by unfold Core.wrX; split <;> rfl
@[simp] theorem Core.wrX_wbuf (c : Core) (r : XReg) (v : Scalar) : (c.wrX r v).wbuf = c.wbuf := by unfold Core.wrX; split <;> rfl
@[simp] theorem Core.wrX_gap (c : Core) (r : XReg) (v : Scalar) : (c.wrX r v).gap = c.gap := by unfold Core.wrX; split <;> rfl
@[simp] theorem Core.wrX_gapWas (c : Core) (r : XReg) (v : Scalar) : (c.wrX r v).gapWas = c.gapWas := by unfold Core.wrX; split <;> rfl
@[simp] theorem Core.wrX_paceAt (c : Core) (r : XReg) (v : Scalar) : (c.wrX r v).paceAt = c.paceAt := by unfold Core.wrX; split <;> rfl
@[simp] theorem Core.wrX_member (c : Core) (r : XReg) (v : Scalar) : (c.wrX r v).member = c.member := by unfold Core.wrX; split <;> rfl
@[simp] theorem Core.wrX_staged (c : Core) (r : XReg) (v : Scalar) : (c.wrX r v).staged = c.staged := by unfold Core.wrX; split <;> rfl
@[simp] theorem Core.wrX_exiting (c : Core) (r : XReg) (v : Scalar) : (c.wrX r v).exiting = c.exiting := by unfold Core.wrX; split <;> rfl
@[simp] theorem Core.wrX_rcNext (c : Core) (r : XReg) (v : Scalar) : (c.wrX r v).rcNext = c.rcNext := by unfold Core.wrX; split <;> rfl
@[simp] theorem Core.wrX_rcMore (c : Core) (r : XReg) (v : Scalar) : (c.wrX r v).rcMore = c.rcMore := by unfold Core.wrX; split <;> rfl
@[simp] theorem Core.wrX_fence (c : Core) (r : XReg) (v : Scalar) : (c.wrX r v).fence = c.fence := by unfold Core.wrX; split <;> rfl
@[simp] theorem Core.wrX_trapAt (c : Core) (r : XReg) (v : Scalar) : (c.wrX r v).trapAt = c.trapAt := by unfold Core.wrX; split <;> rfl
@[simp] theorem Core.wrX_stallAt (c : Core) (r : XReg) (v : Scalar) : (c.wrX r v).stallAt = c.stallAt := by unfold Core.wrX; split <;> rfl
@[simp] theorem Core.wrX_replays (c : Core) (r : XReg) (v : Scalar) : (c.wrX r v).replays = c.replays := by unfold Core.wrX; split <;> rfl
@[simp] theorem Core.wrX_xq (c : Core) (r : XReg) (v : Scalar) : (c.wrX r v).xq = c.xq := by unfold Core.wrX; split <;> rfl
@[simp] theorem Core.wrX_atq (c : Core) (r : XReg) (v : Scalar) : (c.wrX r v).atq = c.atq := by unfold Core.wrX; split <;> rfl
@[simp] theorem Core.wrX_fxq (c : Core) (r : XReg) (v : Scalar) : (c.wrX r v).fxq = c.fxq := by unfold Core.wrX; split <;> rfl
@[simp] theorem Core.wrX_mx (c : Core) (r : XReg) (v : Scalar) : (c.wrX r v).mx = c.mx := by unfold Core.wrX; split <;> rfl
@[simp] theorem Core.wrX_cp (c : Core) (r : XReg) (v : Scalar) : (c.wrX r v).cp = c.cp := by unfold Core.wrX; split <;> rfl

@[simp] theorem Core.wrP_mode (c : Core) (r : PReg) (v : Bool) : (c.wrP r v).mode = c.mode := by unfold Core.wrP; split <;> rfl
@[simp] theorem Core.wrP_task (c : Core) (r : PReg) (v : Bool) : (c.wrP r v).task = c.task := by unfold Core.wrP; split <;> rfl
@[simp] theorem Core.wrP_fetch (c : Core) (r : PReg) (v : Bool) : (c.wrP r v).fetch = c.fetch := by unfold Core.wrP; split <;> rfl
@[simp] theorem Core.wrP_qs (c : Core) (r : PReg) (v : Bool) : (c.wrP r v).qs = c.qs := by unfold Core.wrP; split <;> rfl
@[simp] theorem Core.wrP_cidx (c : Core) (r : PReg) (v : Bool) : (c.wrP r v).cidx = c.cidx := by unfold Core.wrP; split <;> rfl
@[simp] theorem Core.wrP_x (c : Core) (r : PReg) (v : Bool) : (c.wrP r v).x = c.x := by unfold Core.wrP; split <;> rfl
@[simp] theorem Core.wrP_lc (c : Core) (r : PReg) (v : Bool) : (c.wrP r v).lc = c.lc := by unfold Core.wrP; split <;> rfl
@[simp] theorem Core.wrP_trap (c : Core) (r : PReg) (v : Bool) : (c.wrP r v).trap = c.trap := by unfold Core.wrP; split <;> rfl
@[simp] theorem Core.wrP_lpstat (c : Core) (r : PReg) (v : Bool) : (c.wrP r v).lpstat = c.lpstat := by unfold Core.wrP; split <;> rfl
@[simp] theorem Core.wrP_livebk (c : Core) (r : PReg) (v : Bool) : (c.wrP r v).livebk = c.livebk := by unfold Core.wrP; split <;> rfl
@[simp] theorem Core.wrP_livetl (c : Core) (r : PReg) (v : Bool) : (c.wrP r v).livetl = c.livetl := by unfold Core.wrP; split <;> rfl
@[simp] theorem Core.wrP_dbg (c : Core) (r : PReg) (v : Bool) : (c.wrP r v).dbg = c.dbg := by unfold Core.wrP; split <;> rfl
@[simp] theorem Core.wrP_tiles (c : Core) (r : PReg) (v : Bool) : (c.wrP r v).tiles = c.tiles := by unfold Core.wrP; split <;> rfl
@[simp] theorem Core.wrP_toks (c : Core) (r : PReg) (v : Bool) : (c.wrP r v).toks = c.toks := by unfold Core.wrP; split <;> rfl
@[simp] theorem Core.wrP_unsent (c : Core) (r : PReg) (v : Bool) : (c.wrP r v).unsent = c.unsent := by unfold Core.wrP; split <;> rfl
@[simp] theorem Core.wrP_accs (c : Core) (r : PReg) (v : Bool) : (c.wrP r v).accs = c.accs := by unfold Core.wrP; split <;> rfl
@[simp] theorem Core.wrP_sh (c : Core) (r : PReg) (v : Bool) : (c.wrP r v).sh = c.sh := by unfold Core.wrP; split <;> rfl
@[simp] theorem Core.wrP_sp (c : Core) (r : PReg) (v : Bool) : (c.wrP r v).sp = c.sp := by unfold Core.wrP; split <;> rfl
@[simp] theorem Core.wrP_spPois (c : Core) (r : PReg) (v : Bool) : (c.wrP r v).spPois = c.spPois := by unfold Core.wrP; split <;> rfl
@[simp] theorem Core.wrP_banks (c : Core) (r : PReg) (v : Bool) : (c.wrP r v).banks = c.banks := by unfold Core.wrP; split <;> rfl
@[simp] theorem Core.wrP_loops (c : Core) (r : PReg) (v : Bool) : (c.wrP r v).loops = c.loops := by unfold Core.wrP; split <;> rfl
@[simp] theorem Core.wrP_serial (c : Core) (r : PReg) (v : Bool) : (c.wrP r v).serial = c.serial := by unfold Core.wrP; split <;> rfl
@[simp] theorem Core.wrP_holds (c : Core) (r : PReg) (v : Bool) : (c.wrP r v).holds = c.holds := by unfold Core.wrP; split <;> rfl
@[simp] theorem Core.wrP_waits (c : Core) (r : PReg) (v : Bool) : (c.wrP r v).waits = c.waits := by unfold Core.wrP; split <;> rfl
@[simp] theorem Core.wrP_tlb (c : Core) (r : PReg) (v : Bool) : (c.wrP r v).tlb = c.tlb := by unfold Core.wrP; split <;> rfl
@[simp] theorem Core.wrP_regs (c : Core) (r : PReg) (v : Bool) : (c.wrP r v).regs = c.regs := by unfold Core.wrP; split <;> rfl
@[simp] theorem Core.wrP_wbuf (c : Core) (r : PReg) (v : Bool) : (c.wrP r v).wbuf = c.wbuf := by unfold Core.wrP; split <;> rfl
@[simp] theorem Core.wrP_gap (c : Core) (r : PReg) (v : Bool) : (c.wrP r v).gap = c.gap := by unfold Core.wrP; split <;> rfl
@[simp] theorem Core.wrP_gapWas (c : Core) (r : PReg) (v : Bool) : (c.wrP r v).gapWas = c.gapWas := by unfold Core.wrP; split <;> rfl
@[simp] theorem Core.wrP_paceAt (c : Core) (r : PReg) (v : Bool) : (c.wrP r v).paceAt = c.paceAt := by unfold Core.wrP; split <;> rfl
@[simp] theorem Core.wrP_member (c : Core) (r : PReg) (v : Bool) : (c.wrP r v).member = c.member := by unfold Core.wrP; split <;> rfl
@[simp] theorem Core.wrP_staged (c : Core) (r : PReg) (v : Bool) : (c.wrP r v).staged = c.staged := by unfold Core.wrP; split <;> rfl
@[simp] theorem Core.wrP_exiting (c : Core) (r : PReg) (v : Bool) : (c.wrP r v).exiting = c.exiting := by unfold Core.wrP; split <;> rfl
@[simp] theorem Core.wrP_rcNext (c : Core) (r : PReg) (v : Bool) : (c.wrP r v).rcNext = c.rcNext := by unfold Core.wrP; split <;> rfl
@[simp] theorem Core.wrP_rcMore (c : Core) (r : PReg) (v : Bool) : (c.wrP r v).rcMore = c.rcMore := by unfold Core.wrP; split <;> rfl
@[simp] theorem Core.wrP_fence (c : Core) (r : PReg) (v : Bool) : (c.wrP r v).fence = c.fence := by unfold Core.wrP; split <;> rfl
@[simp] theorem Core.wrP_trapAt (c : Core) (r : PReg) (v : Bool) : (c.wrP r v).trapAt = c.trapAt := by unfold Core.wrP; split <;> rfl
@[simp] theorem Core.wrP_stallAt (c : Core) (r : PReg) (v : Bool) : (c.wrP r v).stallAt = c.stallAt := by unfold Core.wrP; split <;> rfl
@[simp] theorem Core.wrP_replays (c : Core) (r : PReg) (v : Bool) : (c.wrP r v).replays = c.replays := by unfold Core.wrP; split <;> rfl
@[simp] theorem Core.wrP_xq (c : Core) (r : PReg) (v : Bool) : (c.wrP r v).xq = c.xq := by unfold Core.wrP; split <;> rfl
@[simp] theorem Core.wrP_atq (c : Core) (r : PReg) (v : Bool) : (c.wrP r v).atq = c.atq := by unfold Core.wrP; split <;> rfl
@[simp] theorem Core.wrP_fxq (c : Core) (r : PReg) (v : Bool) : (c.wrP r v).fxq = c.fxq := by unfold Core.wrP; split <;> rfl
@[simp] theorem Core.wrP_mx (c : Core) (r : PReg) (v : Bool) : (c.wrP r v).mx = c.mx := by unfold Core.wrP; split <;> rfl
@[simp] theorem Core.wrP_cp (c : Core) (r : PReg) (v : Bool) : (c.wrP r v).cp = c.cp := by unfold Core.wrP; split <;> rfl

@[simp] theorem Core.wrLc_mode (c : Core) (n : BitVec 2) (v : BitVec 32) : (c.wrLc n v).mode = c.mode := rfl
@[simp] theorem Core.wrLc_task (c : Core) (n : BitVec 2) (v : BitVec 32) : (c.wrLc n v).task = c.task := rfl
@[simp] theorem Core.wrLc_fetch (c : Core) (n : BitVec 2) (v : BitVec 32) : (c.wrLc n v).fetch = c.fetch := rfl
@[simp] theorem Core.wrLc_qs (c : Core) (n : BitVec 2) (v : BitVec 32) : (c.wrLc n v).qs = c.qs := rfl
@[simp] theorem Core.wrLc_cidx (c : Core) (n : BitVec 2) (v : BitVec 32) : (c.wrLc n v).cidx = c.cidx := rfl
@[simp] theorem Core.wrLc_x (c : Core) (n : BitVec 2) (v : BitVec 32) : (c.wrLc n v).x = c.x := rfl
@[simp] theorem Core.wrLc_p (c : Core) (n : BitVec 2) (v : BitVec 32) : (c.wrLc n v).p = c.p := rfl
@[simp] theorem Core.wrLc_trap (c : Core) (n : BitVec 2) (v : BitVec 32) : (c.wrLc n v).trap = c.trap := rfl
@[simp] theorem Core.wrLc_lpstat (c : Core) (n : BitVec 2) (v : BitVec 32) : (c.wrLc n v).lpstat = c.lpstat := rfl
@[simp] theorem Core.wrLc_livebk (c : Core) (n : BitVec 2) (v : BitVec 32) : (c.wrLc n v).livebk = c.livebk := rfl
@[simp] theorem Core.wrLc_livetl (c : Core) (n : BitVec 2) (v : BitVec 32) : (c.wrLc n v).livetl = c.livetl := rfl
@[simp] theorem Core.wrLc_dbg (c : Core) (n : BitVec 2) (v : BitVec 32) : (c.wrLc n v).dbg = c.dbg := rfl
@[simp] theorem Core.wrLc_tiles (c : Core) (n : BitVec 2) (v : BitVec 32) : (c.wrLc n v).tiles = c.tiles := rfl
@[simp] theorem Core.wrLc_toks (c : Core) (n : BitVec 2) (v : BitVec 32) : (c.wrLc n v).toks = c.toks := rfl
@[simp] theorem Core.wrLc_unsent (c : Core) (n : BitVec 2) (v : BitVec 32) : (c.wrLc n v).unsent = c.unsent := rfl
@[simp] theorem Core.wrLc_accs (c : Core) (n : BitVec 2) (v : BitVec 32) : (c.wrLc n v).accs = c.accs := rfl
@[simp] theorem Core.wrLc_sh (c : Core) (n : BitVec 2) (v : BitVec 32) : (c.wrLc n v).sh = c.sh := rfl
@[simp] theorem Core.wrLc_sp (c : Core) (n : BitVec 2) (v : BitVec 32) : (c.wrLc n v).sp = c.sp := rfl
@[simp] theorem Core.wrLc_spPois (c : Core) (n : BitVec 2) (v : BitVec 32) : (c.wrLc n v).spPois = c.spPois := rfl
@[simp] theorem Core.wrLc_banks (c : Core) (n : BitVec 2) (v : BitVec 32) : (c.wrLc n v).banks = c.banks := rfl
@[simp] theorem Core.wrLc_loops (c : Core) (n : BitVec 2) (v : BitVec 32) : (c.wrLc n v).loops = c.loops := rfl
@[simp] theorem Core.wrLc_serial (c : Core) (n : BitVec 2) (v : BitVec 32) : (c.wrLc n v).serial = c.serial := rfl
@[simp] theorem Core.wrLc_holds (c : Core) (n : BitVec 2) (v : BitVec 32) : (c.wrLc n v).holds = c.holds := rfl
@[simp] theorem Core.wrLc_waits (c : Core) (n : BitVec 2) (v : BitVec 32) : (c.wrLc n v).waits = c.waits := rfl
@[simp] theorem Core.wrLc_tlb (c : Core) (n : BitVec 2) (v : BitVec 32) : (c.wrLc n v).tlb = c.tlb := rfl
@[simp] theorem Core.wrLc_regs (c : Core) (n : BitVec 2) (v : BitVec 32) : (c.wrLc n v).regs = c.regs := rfl
@[simp] theorem Core.wrLc_wbuf (c : Core) (n : BitVec 2) (v : BitVec 32) : (c.wrLc n v).wbuf = c.wbuf := rfl
@[simp] theorem Core.wrLc_gap (c : Core) (n : BitVec 2) (v : BitVec 32) : (c.wrLc n v).gap = c.gap := rfl
@[simp] theorem Core.wrLc_gapWas (c : Core) (n : BitVec 2) (v : BitVec 32) : (c.wrLc n v).gapWas = c.gapWas := rfl
@[simp] theorem Core.wrLc_paceAt (c : Core) (n : BitVec 2) (v : BitVec 32) : (c.wrLc n v).paceAt = c.paceAt := rfl
@[simp] theorem Core.wrLc_member (c : Core) (n : BitVec 2) (v : BitVec 32) : (c.wrLc n v).member = c.member := rfl
@[simp] theorem Core.wrLc_staged (c : Core) (n : BitVec 2) (v : BitVec 32) : (c.wrLc n v).staged = c.staged := rfl
@[simp] theorem Core.wrLc_exiting (c : Core) (n : BitVec 2) (v : BitVec 32) : (c.wrLc n v).exiting = c.exiting := rfl
@[simp] theorem Core.wrLc_rcNext (c : Core) (n : BitVec 2) (v : BitVec 32) : (c.wrLc n v).rcNext = c.rcNext := rfl
@[simp] theorem Core.wrLc_rcMore (c : Core) (n : BitVec 2) (v : BitVec 32) : (c.wrLc n v).rcMore = c.rcMore := rfl
@[simp] theorem Core.wrLc_fence (c : Core) (n : BitVec 2) (v : BitVec 32) : (c.wrLc n v).fence = c.fence := rfl
@[simp] theorem Core.wrLc_trapAt (c : Core) (n : BitVec 2) (v : BitVec 32) : (c.wrLc n v).trapAt = c.trapAt := rfl
@[simp] theorem Core.wrLc_stallAt (c : Core) (n : BitVec 2) (v : BitVec 32) : (c.wrLc n v).stallAt = c.stallAt := rfl
@[simp] theorem Core.wrLc_replays (c : Core) (n : BitVec 2) (v : BitVec 32) : (c.wrLc n v).replays = c.replays := rfl
@[simp] theorem Core.wrLc_xq (c : Core) (n : BitVec 2) (v : BitVec 32) : (c.wrLc n v).xq = c.xq := rfl
@[simp] theorem Core.wrLc_atq (c : Core) (n : BitVec 2) (v : BitVec 32) : (c.wrLc n v).atq = c.atq := rfl
@[simp] theorem Core.wrLc_fxq (c : Core) (n : BitVec 2) (v : BitVec 32) : (c.wrLc n v).fxq = c.fxq := rfl
@[simp] theorem Core.wrLc_mx (c : Core) (n : BitVec 2) (v : BitVec 32) : (c.wrLc n v).mx = c.mx := rfl
@[simp] theorem Core.wrLc_cp (c : Core) (n : BitVec 2) (v : BitVec 32) : (c.wrLc n v).cp = c.cp := rfl

@[simp] theorem Core.setQueue_mode (c : Core) (k : Slot) (q : List QEntry) : (c.setQueue k q).mode = c.mode := by unfold Core.setQueue; split <;> rfl
@[simp] theorem Core.setQueue_task (c : Core) (k : Slot) (q : List QEntry) : (c.setQueue k q).task = c.task := by unfold Core.setQueue; split <;> rfl
@[simp] theorem Core.setQueue_fetch (c : Core) (k : Slot) (q : List QEntry) : (c.setQueue k q).fetch = c.fetch := by unfold Core.setQueue; split <;> rfl
@[simp] theorem Core.setQueue_cidx (c : Core) (k : Slot) (q : List QEntry) : (c.setQueue k q).cidx = c.cidx := by unfold Core.setQueue; split <;> rfl
@[simp] theorem Core.setQueue_x (c : Core) (k : Slot) (q : List QEntry) : (c.setQueue k q).x = c.x := by unfold Core.setQueue; split <;> rfl
@[simp] theorem Core.setQueue_p (c : Core) (k : Slot) (q : List QEntry) : (c.setQueue k q).p = c.p := by unfold Core.setQueue; split <;> rfl
@[simp] theorem Core.setQueue_lc (c : Core) (k : Slot) (q : List QEntry) : (c.setQueue k q).lc = c.lc := by unfold Core.setQueue; split <;> rfl
@[simp] theorem Core.setQueue_trap (c : Core) (k : Slot) (q : List QEntry) : (c.setQueue k q).trap = c.trap := by unfold Core.setQueue; split <;> rfl
@[simp] theorem Core.setQueue_lpstat (c : Core) (k : Slot) (q : List QEntry) : (c.setQueue k q).lpstat = c.lpstat := by unfold Core.setQueue; split <;> rfl
@[simp] theorem Core.setQueue_livebk (c : Core) (k : Slot) (q : List QEntry) : (c.setQueue k q).livebk = c.livebk := by unfold Core.setQueue; split <;> rfl
@[simp] theorem Core.setQueue_livetl (c : Core) (k : Slot) (q : List QEntry) : (c.setQueue k q).livetl = c.livetl := by unfold Core.setQueue; split <;> rfl
@[simp] theorem Core.setQueue_dbg (c : Core) (k : Slot) (q : List QEntry) : (c.setQueue k q).dbg = c.dbg := by unfold Core.setQueue; split <;> rfl
@[simp] theorem Core.setQueue_tiles (c : Core) (k : Slot) (q : List QEntry) : (c.setQueue k q).tiles = c.tiles := by unfold Core.setQueue; split <;> rfl
@[simp] theorem Core.setQueue_toks (c : Core) (k : Slot) (q : List QEntry) : (c.setQueue k q).toks = c.toks := by unfold Core.setQueue; split <;> rfl
@[simp] theorem Core.setQueue_unsent (c : Core) (k : Slot) (q : List QEntry) : (c.setQueue k q).unsent = c.unsent := by unfold Core.setQueue; split <;> rfl
@[simp] theorem Core.setQueue_accs (c : Core) (k : Slot) (q : List QEntry) : (c.setQueue k q).accs = c.accs := by unfold Core.setQueue; split <;> rfl
@[simp] theorem Core.setQueue_sh (c : Core) (k : Slot) (q : List QEntry) : (c.setQueue k q).sh = c.sh := by unfold Core.setQueue; split <;> rfl
@[simp] theorem Core.setQueue_sp (c : Core) (k : Slot) (q : List QEntry) : (c.setQueue k q).sp = c.sp := by unfold Core.setQueue; split <;> rfl
@[simp] theorem Core.setQueue_spPois (c : Core) (k : Slot) (q : List QEntry) : (c.setQueue k q).spPois = c.spPois := by unfold Core.setQueue; split <;> rfl
@[simp] theorem Core.setQueue_banks (c : Core) (k : Slot) (q : List QEntry) : (c.setQueue k q).banks = c.banks := by unfold Core.setQueue; split <;> rfl
@[simp] theorem Core.setQueue_loops (c : Core) (k : Slot) (q : List QEntry) : (c.setQueue k q).loops = c.loops := by unfold Core.setQueue; split <;> rfl
@[simp] theorem Core.setQueue_serial (c : Core) (k : Slot) (q : List QEntry) : (c.setQueue k q).serial = c.serial := by unfold Core.setQueue; split <;> rfl
@[simp] theorem Core.setQueue_holds (c : Core) (k : Slot) (q : List QEntry) : (c.setQueue k q).holds = c.holds := by unfold Core.setQueue; split <;> rfl
@[simp] theorem Core.setQueue_waits (c : Core) (k : Slot) (q : List QEntry) : (c.setQueue k q).waits = c.waits := by unfold Core.setQueue; split <;> rfl
@[simp] theorem Core.setQueue_tlb (c : Core) (k : Slot) (q : List QEntry) : (c.setQueue k q).tlb = c.tlb := by unfold Core.setQueue; split <;> rfl
@[simp] theorem Core.setQueue_regs (c : Core) (k : Slot) (q : List QEntry) : (c.setQueue k q).regs = c.regs := by unfold Core.setQueue; split <;> rfl
@[simp] theorem Core.setQueue_wbuf (c : Core) (k : Slot) (q : List QEntry) : (c.setQueue k q).wbuf = c.wbuf := by unfold Core.setQueue; split <;> rfl
@[simp] theorem Core.setQueue_gap (c : Core) (k : Slot) (q : List QEntry) : (c.setQueue k q).gap = c.gap := by unfold Core.setQueue; split <;> rfl
@[simp] theorem Core.setQueue_gapWas (c : Core) (k : Slot) (q : List QEntry) : (c.setQueue k q).gapWas = c.gapWas := by unfold Core.setQueue; split <;> rfl
@[simp] theorem Core.setQueue_paceAt (c : Core) (k : Slot) (q : List QEntry) : (c.setQueue k q).paceAt = c.paceAt := by unfold Core.setQueue; split <;> rfl
@[simp] theorem Core.setQueue_member (c : Core) (k : Slot) (q : List QEntry) : (c.setQueue k q).member = c.member := by unfold Core.setQueue; split <;> rfl
@[simp] theorem Core.setQueue_staged (c : Core) (k : Slot) (q : List QEntry) : (c.setQueue k q).staged = c.staged := by unfold Core.setQueue; split <;> rfl
@[simp] theorem Core.setQueue_exiting (c : Core) (k : Slot) (q : List QEntry) : (c.setQueue k q).exiting = c.exiting := by unfold Core.setQueue; split <;> rfl
@[simp] theorem Core.setQueue_rcNext (c : Core) (k : Slot) (q : List QEntry) : (c.setQueue k q).rcNext = c.rcNext := by unfold Core.setQueue; split <;> rfl
@[simp] theorem Core.setQueue_rcMore (c : Core) (k : Slot) (q : List QEntry) : (c.setQueue k q).rcMore = c.rcMore := by unfold Core.setQueue; split <;> rfl
@[simp] theorem Core.setQueue_fence (c : Core) (k : Slot) (q : List QEntry) : (c.setQueue k q).fence = c.fence := by unfold Core.setQueue; split <;> rfl
@[simp] theorem Core.setQueue_trapAt (c : Core) (k : Slot) (q : List QEntry) : (c.setQueue k q).trapAt = c.trapAt := by unfold Core.setQueue; split <;> rfl
@[simp] theorem Core.setQueue_stallAt (c : Core) (k : Slot) (q : List QEntry) : (c.setQueue k q).stallAt = c.stallAt := by unfold Core.setQueue; split <;> rfl
@[simp] theorem Core.setQueue_replays (c : Core) (k : Slot) (q : List QEntry) : (c.setQueue k q).replays = c.replays := by unfold Core.setQueue; split <;> rfl
@[simp] theorem Core.setQueue_xq (c : Core) (k : Slot) (q : List QEntry) : (c.setQueue k q).xq = c.xq := by unfold Core.setQueue; split <;> rfl
@[simp] theorem Core.setQueue_atq (c : Core) (k : Slot) (q : List QEntry) : (c.setQueue k q).atq = c.atq := by unfold Core.setQueue; split <;> rfl
@[simp] theorem Core.setQueue_fxq (c : Core) (k : Slot) (q : List QEntry) : (c.setQueue k q).fxq = c.fxq := by unfold Core.setQueue; split <;> rfl
@[simp] theorem Core.setQueue_mx (c : Core) (k : Slot) (q : List QEntry) : (c.setQueue k q).mx = c.mx := by unfold Core.setQueue; split <;> rfl
@[simp] theorem Core.setQueue_cp (c : Core) (k : Slot) (q : List QEntry) : (c.setQueue k q).cp = c.cp := by unfold Core.setQueue; split <;> rfl

@[simp] theorem Core.setTile_mode (c : Core) (n : Nat) (t : Tile) : (c.setTile n t).mode = c.mode := by unfold Core.setTile; split <;> rfl
@[simp] theorem Core.setTile_task (c : Core) (n : Nat) (t : Tile) : (c.setTile n t).task = c.task := by unfold Core.setTile; split <;> rfl
@[simp] theorem Core.setTile_fetch (c : Core) (n : Nat) (t : Tile) : (c.setTile n t).fetch = c.fetch := by unfold Core.setTile; split <;> rfl
@[simp] theorem Core.setTile_qs (c : Core) (n : Nat) (t : Tile) : (c.setTile n t).qs = c.qs := by unfold Core.setTile; split <;> rfl
@[simp] theorem Core.setTile_cidx (c : Core) (n : Nat) (t : Tile) : (c.setTile n t).cidx = c.cidx := by unfold Core.setTile; split <;> rfl
@[simp] theorem Core.setTile_x (c : Core) (n : Nat) (t : Tile) : (c.setTile n t).x = c.x := by unfold Core.setTile; split <;> rfl
@[simp] theorem Core.setTile_p (c : Core) (n : Nat) (t : Tile) : (c.setTile n t).p = c.p := by unfold Core.setTile; split <;> rfl
@[simp] theorem Core.setTile_lc (c : Core) (n : Nat) (t : Tile) : (c.setTile n t).lc = c.lc := by unfold Core.setTile; split <;> rfl
@[simp] theorem Core.setTile_trap (c : Core) (n : Nat) (t : Tile) : (c.setTile n t).trap = c.trap := by unfold Core.setTile; split <;> rfl
@[simp] theorem Core.setTile_lpstat (c : Core) (n : Nat) (t : Tile) : (c.setTile n t).lpstat = c.lpstat := by unfold Core.setTile; split <;> rfl
@[simp] theorem Core.setTile_livebk (c : Core) (n : Nat) (t : Tile) : (c.setTile n t).livebk = c.livebk := by unfold Core.setTile; split <;> rfl
@[simp] theorem Core.setTile_livetl (c : Core) (n : Nat) (t : Tile) : (c.setTile n t).livetl = c.livetl := by unfold Core.setTile; split <;> rfl
@[simp] theorem Core.setTile_dbg (c : Core) (n : Nat) (t : Tile) : (c.setTile n t).dbg = c.dbg := by unfold Core.setTile; split <;> rfl
@[simp] theorem Core.setTile_toks (c : Core) (n : Nat) (t : Tile) : (c.setTile n t).toks = c.toks := by unfold Core.setTile; split <;> rfl
@[simp] theorem Core.setTile_unsent (c : Core) (n : Nat) (t : Tile) : (c.setTile n t).unsent = c.unsent := by unfold Core.setTile; split <;> rfl
@[simp] theorem Core.setTile_accs (c : Core) (n : Nat) (t : Tile) : (c.setTile n t).accs = c.accs := by unfold Core.setTile; split <;> rfl
@[simp] theorem Core.setTile_sh (c : Core) (n : Nat) (t : Tile) : (c.setTile n t).sh = c.sh := by unfold Core.setTile; split <;> rfl
@[simp] theorem Core.setTile_sp (c : Core) (n : Nat) (t : Tile) : (c.setTile n t).sp = c.sp := by unfold Core.setTile; split <;> rfl
@[simp] theorem Core.setTile_spPois (c : Core) (n : Nat) (t : Tile) : (c.setTile n t).spPois = c.spPois := by unfold Core.setTile; split <;> rfl
@[simp] theorem Core.setTile_banks (c : Core) (n : Nat) (t : Tile) : (c.setTile n t).banks = c.banks := by unfold Core.setTile; split <;> rfl
@[simp] theorem Core.setTile_loops (c : Core) (n : Nat) (t : Tile) : (c.setTile n t).loops = c.loops := by unfold Core.setTile; split <;> rfl
@[simp] theorem Core.setTile_serial (c : Core) (n : Nat) (t : Tile) : (c.setTile n t).serial = c.serial := by unfold Core.setTile; split <;> rfl
@[simp] theorem Core.setTile_holds (c : Core) (n : Nat) (t : Tile) : (c.setTile n t).holds = c.holds := by unfold Core.setTile; split <;> rfl
@[simp] theorem Core.setTile_waits (c : Core) (n : Nat) (t : Tile) : (c.setTile n t).waits = c.waits := by unfold Core.setTile; split <;> rfl
@[simp] theorem Core.setTile_tlb (c : Core) (n : Nat) (t : Tile) : (c.setTile n t).tlb = c.tlb := by unfold Core.setTile; split <;> rfl
@[simp] theorem Core.setTile_regs (c : Core) (n : Nat) (t : Tile) : (c.setTile n t).regs = c.regs := by unfold Core.setTile; split <;> rfl
@[simp] theorem Core.setTile_wbuf (c : Core) (n : Nat) (t : Tile) : (c.setTile n t).wbuf = c.wbuf := by unfold Core.setTile; split <;> rfl
@[simp] theorem Core.setTile_gap (c : Core) (n : Nat) (t : Tile) : (c.setTile n t).gap = c.gap := by unfold Core.setTile; split <;> rfl
@[simp] theorem Core.setTile_gapWas (c : Core) (n : Nat) (t : Tile) : (c.setTile n t).gapWas = c.gapWas := by unfold Core.setTile; split <;> rfl
@[simp] theorem Core.setTile_paceAt (c : Core) (n : Nat) (t : Tile) : (c.setTile n t).paceAt = c.paceAt := by unfold Core.setTile; split <;> rfl
@[simp] theorem Core.setTile_member (c : Core) (n : Nat) (t : Tile) : (c.setTile n t).member = c.member := by unfold Core.setTile; split <;> rfl
@[simp] theorem Core.setTile_staged (c : Core) (n : Nat) (t : Tile) : (c.setTile n t).staged = c.staged := by unfold Core.setTile; split <;> rfl
@[simp] theorem Core.setTile_exiting (c : Core) (n : Nat) (t : Tile) : (c.setTile n t).exiting = c.exiting := by unfold Core.setTile; split <;> rfl
@[simp] theorem Core.setTile_rcNext (c : Core) (n : Nat) (t : Tile) : (c.setTile n t).rcNext = c.rcNext := by unfold Core.setTile; split <;> rfl
@[simp] theorem Core.setTile_rcMore (c : Core) (n : Nat) (t : Tile) : (c.setTile n t).rcMore = c.rcMore := by unfold Core.setTile; split <;> rfl
@[simp] theorem Core.setTile_fence (c : Core) (n : Nat) (t : Tile) : (c.setTile n t).fence = c.fence := by unfold Core.setTile; split <;> rfl
@[simp] theorem Core.setTile_trapAt (c : Core) (n : Nat) (t : Tile) : (c.setTile n t).trapAt = c.trapAt := by unfold Core.setTile; split <;> rfl
@[simp] theorem Core.setTile_stallAt (c : Core) (n : Nat) (t : Tile) : (c.setTile n t).stallAt = c.stallAt := by unfold Core.setTile; split <;> rfl
@[simp] theorem Core.setTile_replays (c : Core) (n : Nat) (t : Tile) : (c.setTile n t).replays = c.replays := by unfold Core.setTile; split <;> rfl
@[simp] theorem Core.setTile_xq (c : Core) (n : Nat) (t : Tile) : (c.setTile n t).xq = c.xq := by unfold Core.setTile; split <;> rfl
@[simp] theorem Core.setTile_atq (c : Core) (n : Nat) (t : Tile) : (c.setTile n t).atq = c.atq := by unfold Core.setTile; split <;> rfl
@[simp] theorem Core.setTile_fxq (c : Core) (n : Nat) (t : Tile) : (c.setTile n t).fxq = c.fxq := by unfold Core.setTile; split <;> rfl
@[simp] theorem Core.setTile_mx (c : Core) (n : Nat) (t : Tile) : (c.setTile n t).mx = c.mx := by unfold Core.setTile; split <;> rfl
@[simp] theorem Core.setTile_cp (c : Core) (n : Nat) (t : Tile) : (c.setTile n t).cp = c.cp := by unfold Core.setTile; split <;> rfl

@[simp] theorem Core.setTok_mode (c : Core) (f n : Nat) : (c.setTok f n).mode = c.mode := by unfold Core.setTok; split <;> rfl
@[simp] theorem Core.setTok_task (c : Core) (f n : Nat) : (c.setTok f n).task = c.task := by unfold Core.setTok; split <;> rfl
@[simp] theorem Core.setTok_fetch (c : Core) (f n : Nat) : (c.setTok f n).fetch = c.fetch := by unfold Core.setTok; split <;> rfl
@[simp] theorem Core.setTok_qs (c : Core) (f n : Nat) : (c.setTok f n).qs = c.qs := by unfold Core.setTok; split <;> rfl
@[simp] theorem Core.setTok_cidx (c : Core) (f n : Nat) : (c.setTok f n).cidx = c.cidx := by unfold Core.setTok; split <;> rfl
@[simp] theorem Core.setTok_x (c : Core) (f n : Nat) : (c.setTok f n).x = c.x := by unfold Core.setTok; split <;> rfl
@[simp] theorem Core.setTok_p (c : Core) (f n : Nat) : (c.setTok f n).p = c.p := by unfold Core.setTok; split <;> rfl
@[simp] theorem Core.setTok_lc (c : Core) (f n : Nat) : (c.setTok f n).lc = c.lc := by unfold Core.setTok; split <;> rfl
@[simp] theorem Core.setTok_trap (c : Core) (f n : Nat) : (c.setTok f n).trap = c.trap := by unfold Core.setTok; split <;> rfl
@[simp] theorem Core.setTok_lpstat (c : Core) (f n : Nat) : (c.setTok f n).lpstat = c.lpstat := by unfold Core.setTok; split <;> rfl
@[simp] theorem Core.setTok_livebk (c : Core) (f n : Nat) : (c.setTok f n).livebk = c.livebk := by unfold Core.setTok; split <;> rfl
@[simp] theorem Core.setTok_livetl (c : Core) (f n : Nat) : (c.setTok f n).livetl = c.livetl := by unfold Core.setTok; split <;> rfl
@[simp] theorem Core.setTok_dbg (c : Core) (f n : Nat) : (c.setTok f n).dbg = c.dbg := by unfold Core.setTok; split <;> rfl
@[simp] theorem Core.setTok_tiles (c : Core) (f n : Nat) : (c.setTok f n).tiles = c.tiles := by unfold Core.setTok; split <;> rfl
@[simp] theorem Core.setTok_unsent (c : Core) (f n : Nat) : (c.setTok f n).unsent = c.unsent := by unfold Core.setTok; split <;> rfl
@[simp] theorem Core.setTok_accs (c : Core) (f n : Nat) : (c.setTok f n).accs = c.accs := by unfold Core.setTok; split <;> rfl
@[simp] theorem Core.setTok_sh (c : Core) (f n : Nat) : (c.setTok f n).sh = c.sh := by unfold Core.setTok; split <;> rfl
@[simp] theorem Core.setTok_sp (c : Core) (f n : Nat) : (c.setTok f n).sp = c.sp := by unfold Core.setTok; split <;> rfl
@[simp] theorem Core.setTok_spPois (c : Core) (f n : Nat) : (c.setTok f n).spPois = c.spPois := by unfold Core.setTok; split <;> rfl
@[simp] theorem Core.setTok_banks (c : Core) (f n : Nat) : (c.setTok f n).banks = c.banks := by unfold Core.setTok; split <;> rfl
@[simp] theorem Core.setTok_loops (c : Core) (f n : Nat) : (c.setTok f n).loops = c.loops := by unfold Core.setTok; split <;> rfl
@[simp] theorem Core.setTok_serial (c : Core) (f n : Nat) : (c.setTok f n).serial = c.serial := by unfold Core.setTok; split <;> rfl
@[simp] theorem Core.setTok_holds (c : Core) (f n : Nat) : (c.setTok f n).holds = c.holds := by unfold Core.setTok; split <;> rfl
@[simp] theorem Core.setTok_waits (c : Core) (f n : Nat) : (c.setTok f n).waits = c.waits := by unfold Core.setTok; split <;> rfl
@[simp] theorem Core.setTok_tlb (c : Core) (f n : Nat) : (c.setTok f n).tlb = c.tlb := by unfold Core.setTok; split <;> rfl
@[simp] theorem Core.setTok_regs (c : Core) (f n : Nat) : (c.setTok f n).regs = c.regs := by unfold Core.setTok; split <;> rfl
@[simp] theorem Core.setTok_wbuf (c : Core) (f n : Nat) : (c.setTok f n).wbuf = c.wbuf := by unfold Core.setTok; split <;> rfl
@[simp] theorem Core.setTok_gap (c : Core) (f n : Nat) : (c.setTok f n).gap = c.gap := by unfold Core.setTok; split <;> rfl
@[simp] theorem Core.setTok_gapWas (c : Core) (f n : Nat) : (c.setTok f n).gapWas = c.gapWas := by unfold Core.setTok; split <;> rfl
@[simp] theorem Core.setTok_paceAt (c : Core) (f n : Nat) : (c.setTok f n).paceAt = c.paceAt := by unfold Core.setTok; split <;> rfl
@[simp] theorem Core.setTok_member (c : Core) (f n : Nat) : (c.setTok f n).member = c.member := by unfold Core.setTok; split <;> rfl
@[simp] theorem Core.setTok_staged (c : Core) (f n : Nat) : (c.setTok f n).staged = c.staged := by unfold Core.setTok; split <;> rfl
@[simp] theorem Core.setTok_exiting (c : Core) (f n : Nat) : (c.setTok f n).exiting = c.exiting := by unfold Core.setTok; split <;> rfl
@[simp] theorem Core.setTok_rcNext (c : Core) (f n : Nat) : (c.setTok f n).rcNext = c.rcNext := by unfold Core.setTok; split <;> rfl
@[simp] theorem Core.setTok_rcMore (c : Core) (f n : Nat) : (c.setTok f n).rcMore = c.rcMore := by unfold Core.setTok; split <;> rfl
@[simp] theorem Core.setTok_fence (c : Core) (f n : Nat) : (c.setTok f n).fence = c.fence := by unfold Core.setTok; split <;> rfl
@[simp] theorem Core.setTok_trapAt (c : Core) (f n : Nat) : (c.setTok f n).trapAt = c.trapAt := by unfold Core.setTok; split <;> rfl
@[simp] theorem Core.setTok_stallAt (c : Core) (f n : Nat) : (c.setTok f n).stallAt = c.stallAt := by unfold Core.setTok; split <;> rfl
@[simp] theorem Core.setTok_replays (c : Core) (f n : Nat) : (c.setTok f n).replays = c.replays := by unfold Core.setTok; split <;> rfl
@[simp] theorem Core.setTok_xq (c : Core) (f n : Nat) : (c.setTok f n).xq = c.xq := by unfold Core.setTok; split <;> rfl
@[simp] theorem Core.setTok_atq (c : Core) (f n : Nat) : (c.setTok f n).atq = c.atq := by unfold Core.setTok; split <;> rfl
@[simp] theorem Core.setTok_fxq (c : Core) (f n : Nat) : (c.setTok f n).fxq = c.fxq := by unfold Core.setTok; split <;> rfl
@[simp] theorem Core.setTok_mx (c : Core) (f n : Nat) : (c.setTok f n).mx = c.mx := by unfold Core.setTok; split <;> rfl
@[simp] theorem Core.setTok_cp (c : Core) (f n : Nat) : (c.setTok f n).cp = c.cp := by unfold Core.setTok; split <;> rfl

@[simp] theorem Core.clearWait_mode (c : Core) (k : Slot) : (c.clearWait k).mode = c.mode := rfl
@[simp] theorem Core.clearWait_task (c : Core) (k : Slot) : (c.clearWait k).task = c.task := rfl
@[simp] theorem Core.clearWait_fetch (c : Core) (k : Slot) : (c.clearWait k).fetch = c.fetch := rfl
@[simp] theorem Core.clearWait_qs (c : Core) (k : Slot) : (c.clearWait k).qs = c.qs := rfl
@[simp] theorem Core.clearWait_cidx (c : Core) (k : Slot) : (c.clearWait k).cidx = c.cidx := rfl
@[simp] theorem Core.clearWait_x (c : Core) (k : Slot) : (c.clearWait k).x = c.x := rfl
@[simp] theorem Core.clearWait_p (c : Core) (k : Slot) : (c.clearWait k).p = c.p := rfl
@[simp] theorem Core.clearWait_lc (c : Core) (k : Slot) : (c.clearWait k).lc = c.lc := rfl
@[simp] theorem Core.clearWait_trap (c : Core) (k : Slot) : (c.clearWait k).trap = c.trap := rfl
@[simp] theorem Core.clearWait_lpstat (c : Core) (k : Slot) : (c.clearWait k).lpstat = c.lpstat := rfl
@[simp] theorem Core.clearWait_livebk (c : Core) (k : Slot) : (c.clearWait k).livebk = c.livebk := rfl
@[simp] theorem Core.clearWait_livetl (c : Core) (k : Slot) : (c.clearWait k).livetl = c.livetl := rfl
@[simp] theorem Core.clearWait_dbg (c : Core) (k : Slot) : (c.clearWait k).dbg = c.dbg := rfl
@[simp] theorem Core.clearWait_tiles (c : Core) (k : Slot) : (c.clearWait k).tiles = c.tiles := rfl
@[simp] theorem Core.clearWait_toks (c : Core) (k : Slot) : (c.clearWait k).toks = c.toks := rfl
@[simp] theorem Core.clearWait_unsent (c : Core) (k : Slot) : (c.clearWait k).unsent = c.unsent := rfl
@[simp] theorem Core.clearWait_accs (c : Core) (k : Slot) : (c.clearWait k).accs = c.accs := rfl
@[simp] theorem Core.clearWait_sh (c : Core) (k : Slot) : (c.clearWait k).sh = c.sh := rfl
@[simp] theorem Core.clearWait_sp (c : Core) (k : Slot) : (c.clearWait k).sp = c.sp := rfl
@[simp] theorem Core.clearWait_spPois (c : Core) (k : Slot) : (c.clearWait k).spPois = c.spPois := rfl
@[simp] theorem Core.clearWait_banks (c : Core) (k : Slot) : (c.clearWait k).banks = c.banks := rfl
@[simp] theorem Core.clearWait_loops (c : Core) (k : Slot) : (c.clearWait k).loops = c.loops := rfl
@[simp] theorem Core.clearWait_serial (c : Core) (k : Slot) : (c.clearWait k).serial = c.serial := rfl
@[simp] theorem Core.clearWait_holds (c : Core) (k : Slot) : (c.clearWait k).holds = c.holds := rfl
@[simp] theorem Core.clearWait_tlb (c : Core) (k : Slot) : (c.clearWait k).tlb = c.tlb := rfl
@[simp] theorem Core.clearWait_regs (c : Core) (k : Slot) : (c.clearWait k).regs = c.regs := rfl
@[simp] theorem Core.clearWait_wbuf (c : Core) (k : Slot) : (c.clearWait k).wbuf = c.wbuf := rfl
@[simp] theorem Core.clearWait_gap (c : Core) (k : Slot) : (c.clearWait k).gap = c.gap := rfl
@[simp] theorem Core.clearWait_gapWas (c : Core) (k : Slot) : (c.clearWait k).gapWas = c.gapWas := rfl
@[simp] theorem Core.clearWait_paceAt (c : Core) (k : Slot) : (c.clearWait k).paceAt = c.paceAt := rfl
@[simp] theorem Core.clearWait_member (c : Core) (k : Slot) : (c.clearWait k).member = c.member := rfl
@[simp] theorem Core.clearWait_staged (c : Core) (k : Slot) : (c.clearWait k).staged = c.staged := rfl
@[simp] theorem Core.clearWait_exiting (c : Core) (k : Slot) : (c.clearWait k).exiting = c.exiting := rfl
@[simp] theorem Core.clearWait_rcNext (c : Core) (k : Slot) : (c.clearWait k).rcNext = c.rcNext := rfl
@[simp] theorem Core.clearWait_rcMore (c : Core) (k : Slot) : (c.clearWait k).rcMore = c.rcMore := rfl
@[simp] theorem Core.clearWait_fence (c : Core) (k : Slot) : (c.clearWait k).fence = c.fence := rfl
@[simp] theorem Core.clearWait_trapAt (c : Core) (k : Slot) : (c.clearWait k).trapAt = c.trapAt := rfl
@[simp] theorem Core.clearWait_stallAt (c : Core) (k : Slot) : (c.clearWait k).stallAt = c.stallAt := rfl
@[simp] theorem Core.clearWait_replays (c : Core) (k : Slot) : (c.clearWait k).replays = c.replays := rfl
@[simp] theorem Core.clearWait_xq (c : Core) (k : Slot) : (c.clearWait k).xq = c.xq := rfl
@[simp] theorem Core.clearWait_atq (c : Core) (k : Slot) : (c.clearWait k).atq = c.atq := rfl
@[simp] theorem Core.clearWait_fxq (c : Core) (k : Slot) : (c.clearWait k).fxq = c.fxq := rfl
@[simp] theorem Core.clearWait_mx (c : Core) (k : Slot) : (c.clearWait k).mx = c.mx := rfl
@[simp] theorem Core.clearWait_cp (c : Core) (k : Slot) : (c.clearWait k).cp = c.cp := rfl

@[simp] theorem Core.setWait_mode (c : Core) (k : Slot) (now : Nat) (w : Wait) : (c.setWait k now w).mode = c.mode := by unfold Core.setWait; split <;> rfl
@[simp] theorem Core.setWait_task (c : Core) (k : Slot) (now : Nat) (w : Wait) : (c.setWait k now w).task = c.task := by unfold Core.setWait; split <;> rfl
@[simp] theorem Core.setWait_fetch (c : Core) (k : Slot) (now : Nat) (w : Wait) : (c.setWait k now w).fetch = c.fetch := by unfold Core.setWait; split <;> rfl
@[simp] theorem Core.setWait_qs (c : Core) (k : Slot) (now : Nat) (w : Wait) : (c.setWait k now w).qs = c.qs := by unfold Core.setWait; split <;> rfl
@[simp] theorem Core.setWait_cidx (c : Core) (k : Slot) (now : Nat) (w : Wait) : (c.setWait k now w).cidx = c.cidx := by unfold Core.setWait; split <;> rfl
@[simp] theorem Core.setWait_x (c : Core) (k : Slot) (now : Nat) (w : Wait) : (c.setWait k now w).x = c.x := by unfold Core.setWait; split <;> rfl
@[simp] theorem Core.setWait_p (c : Core) (k : Slot) (now : Nat) (w : Wait) : (c.setWait k now w).p = c.p := by unfold Core.setWait; split <;> rfl
@[simp] theorem Core.setWait_lc (c : Core) (k : Slot) (now : Nat) (w : Wait) : (c.setWait k now w).lc = c.lc := by unfold Core.setWait; split <;> rfl
@[simp] theorem Core.setWait_trap (c : Core) (k : Slot) (now : Nat) (w : Wait) : (c.setWait k now w).trap = c.trap := by unfold Core.setWait; split <;> rfl
@[simp] theorem Core.setWait_lpstat (c : Core) (k : Slot) (now : Nat) (w : Wait) : (c.setWait k now w).lpstat = c.lpstat := by unfold Core.setWait; split <;> rfl
@[simp] theorem Core.setWait_livebk (c : Core) (k : Slot) (now : Nat) (w : Wait) : (c.setWait k now w).livebk = c.livebk := by unfold Core.setWait; split <;> rfl
@[simp] theorem Core.setWait_livetl (c : Core) (k : Slot) (now : Nat) (w : Wait) : (c.setWait k now w).livetl = c.livetl := by unfold Core.setWait; split <;> rfl
@[simp] theorem Core.setWait_dbg (c : Core) (k : Slot) (now : Nat) (w : Wait) : (c.setWait k now w).dbg = c.dbg := by unfold Core.setWait; split <;> rfl
@[simp] theorem Core.setWait_tiles (c : Core) (k : Slot) (now : Nat) (w : Wait) : (c.setWait k now w).tiles = c.tiles := by unfold Core.setWait; split <;> rfl
@[simp] theorem Core.setWait_toks (c : Core) (k : Slot) (now : Nat) (w : Wait) : (c.setWait k now w).toks = c.toks := by unfold Core.setWait; split <;> rfl
@[simp] theorem Core.setWait_unsent (c : Core) (k : Slot) (now : Nat) (w : Wait) : (c.setWait k now w).unsent = c.unsent := by unfold Core.setWait; split <;> rfl
@[simp] theorem Core.setWait_accs (c : Core) (k : Slot) (now : Nat) (w : Wait) : (c.setWait k now w).accs = c.accs := by unfold Core.setWait; split <;> rfl
@[simp] theorem Core.setWait_sh (c : Core) (k : Slot) (now : Nat) (w : Wait) : (c.setWait k now w).sh = c.sh := by unfold Core.setWait; split <;> rfl
@[simp] theorem Core.setWait_sp (c : Core) (k : Slot) (now : Nat) (w : Wait) : (c.setWait k now w).sp = c.sp := by unfold Core.setWait; split <;> rfl
@[simp] theorem Core.setWait_spPois (c : Core) (k : Slot) (now : Nat) (w : Wait) : (c.setWait k now w).spPois = c.spPois := by unfold Core.setWait; split <;> rfl
@[simp] theorem Core.setWait_banks (c : Core) (k : Slot) (now : Nat) (w : Wait) : (c.setWait k now w).banks = c.banks := by unfold Core.setWait; split <;> rfl
@[simp] theorem Core.setWait_loops (c : Core) (k : Slot) (now : Nat) (w : Wait) : (c.setWait k now w).loops = c.loops := by unfold Core.setWait; split <;> rfl
@[simp] theorem Core.setWait_serial (c : Core) (k : Slot) (now : Nat) (w : Wait) : (c.setWait k now w).serial = c.serial := by unfold Core.setWait; split <;> rfl
@[simp] theorem Core.setWait_holds (c : Core) (k : Slot) (now : Nat) (w : Wait) : (c.setWait k now w).holds = c.holds := by unfold Core.setWait; split <;> rfl
@[simp] theorem Core.setWait_tlb (c : Core) (k : Slot) (now : Nat) (w : Wait) : (c.setWait k now w).tlb = c.tlb := by unfold Core.setWait; split <;> rfl
@[simp] theorem Core.setWait_regs (c : Core) (k : Slot) (now : Nat) (w : Wait) : (c.setWait k now w).regs = c.regs := by unfold Core.setWait; split <;> rfl
@[simp] theorem Core.setWait_wbuf (c : Core) (k : Slot) (now : Nat) (w : Wait) : (c.setWait k now w).wbuf = c.wbuf := by unfold Core.setWait; split <;> rfl
@[simp] theorem Core.setWait_gap (c : Core) (k : Slot) (now : Nat) (w : Wait) : (c.setWait k now w).gap = c.gap := by unfold Core.setWait; split <;> rfl
@[simp] theorem Core.setWait_gapWas (c : Core) (k : Slot) (now : Nat) (w : Wait) : (c.setWait k now w).gapWas = c.gapWas := by unfold Core.setWait; split <;> rfl
@[simp] theorem Core.setWait_paceAt (c : Core) (k : Slot) (now : Nat) (w : Wait) : (c.setWait k now w).paceAt = c.paceAt := by unfold Core.setWait; split <;> rfl
@[simp] theorem Core.setWait_member (c : Core) (k : Slot) (now : Nat) (w : Wait) : (c.setWait k now w).member = c.member := by unfold Core.setWait; split <;> rfl
@[simp] theorem Core.setWait_staged (c : Core) (k : Slot) (now : Nat) (w : Wait) : (c.setWait k now w).staged = c.staged := by unfold Core.setWait; split <;> rfl
@[simp] theorem Core.setWait_exiting (c : Core) (k : Slot) (now : Nat) (w : Wait) : (c.setWait k now w).exiting = c.exiting := by unfold Core.setWait; split <;> rfl
@[simp] theorem Core.setWait_rcNext (c : Core) (k : Slot) (now : Nat) (w : Wait) : (c.setWait k now w).rcNext = c.rcNext := by unfold Core.setWait; split <;> rfl
@[simp] theorem Core.setWait_rcMore (c : Core) (k : Slot) (now : Nat) (w : Wait) : (c.setWait k now w).rcMore = c.rcMore := by unfold Core.setWait; split <;> rfl
@[simp] theorem Core.setWait_fence (c : Core) (k : Slot) (now : Nat) (w : Wait) : (c.setWait k now w).fence = c.fence := by unfold Core.setWait; split <;> rfl
@[simp] theorem Core.setWait_trapAt (c : Core) (k : Slot) (now : Nat) (w : Wait) : (c.setWait k now w).trapAt = c.trapAt := by unfold Core.setWait; split <;> rfl
@[simp] theorem Core.setWait_stallAt (c : Core) (k : Slot) (now : Nat) (w : Wait) : (c.setWait k now w).stallAt = c.stallAt := by unfold Core.setWait; split <;> rfl
@[simp] theorem Core.setWait_replays (c : Core) (k : Slot) (now : Nat) (w : Wait) : (c.setWait k now w).replays = c.replays := by unfold Core.setWait; split <;> rfl
@[simp] theorem Core.setWait_xq (c : Core) (k : Slot) (now : Nat) (w : Wait) : (c.setWait k now w).xq = c.xq := by unfold Core.setWait; split <;> rfl
@[simp] theorem Core.setWait_atq (c : Core) (k : Slot) (now : Nat) (w : Wait) : (c.setWait k now w).atq = c.atq := by unfold Core.setWait; split <;> rfl
@[simp] theorem Core.setWait_fxq (c : Core) (k : Slot) (now : Nat) (w : Wait) : (c.setWait k now w).fxq = c.fxq := by unfold Core.setWait; split <;> rfl
@[simp] theorem Core.setWait_mx (c : Core) (k : Slot) (now : Nat) (w : Wait) : (c.setWait k now w).mx = c.mx := by unfold Core.setWait; split <;> rfl
@[simp] theorem Core.setWait_cp (c : Core) (k : Slot) (now : Nat) (w : Wait) : (c.setWait k now w).cp = c.cp := by unfold Core.setWait; split <;> rfl

@[simp] theorem Core.endStep_mode (c : Core) (k : Slot) : (c.endStep k).mode = c.mode := by unfold Core.endStep; split <;> rfl
@[simp] theorem Core.endStep_task (c : Core) (k : Slot) : (c.endStep k).task = c.task := by unfold Core.endStep; split <;> rfl
@[simp] theorem Core.endStep_fetch (c : Core) (k : Slot) : (c.endStep k).fetch = c.fetch := by unfold Core.endStep; split <;> rfl
@[simp] theorem Core.endStep_qs (c : Core) (k : Slot) : (c.endStep k).qs = c.qs := by unfold Core.endStep; split <;> rfl
@[simp] theorem Core.endStep_cidx (c : Core) (k : Slot) : (c.endStep k).cidx = c.cidx := by unfold Core.endStep; split <;> rfl
@[simp] theorem Core.endStep_x (c : Core) (k : Slot) : (c.endStep k).x = c.x := by unfold Core.endStep; split <;> rfl
@[simp] theorem Core.endStep_p (c : Core) (k : Slot) : (c.endStep k).p = c.p := by unfold Core.endStep; split <;> rfl
@[simp] theorem Core.endStep_lc (c : Core) (k : Slot) : (c.endStep k).lc = c.lc := by unfold Core.endStep; split <;> rfl
@[simp] theorem Core.endStep_trap (c : Core) (k : Slot) : (c.endStep k).trap = c.trap := by unfold Core.endStep; split <;> rfl
@[simp] theorem Core.endStep_lpstat (c : Core) (k : Slot) : (c.endStep k).lpstat = c.lpstat := by unfold Core.endStep; split <;> rfl
@[simp] theorem Core.endStep_livebk (c : Core) (k : Slot) : (c.endStep k).livebk = c.livebk := by unfold Core.endStep; split <;> rfl
@[simp] theorem Core.endStep_livetl (c : Core) (k : Slot) : (c.endStep k).livetl = c.livetl := by unfold Core.endStep; split <;> rfl
@[simp] theorem Core.endStep_tiles (c : Core) (k : Slot) : (c.endStep k).tiles = c.tiles := by unfold Core.endStep; split <;> rfl
@[simp] theorem Core.endStep_toks (c : Core) (k : Slot) : (c.endStep k).toks = c.toks := by unfold Core.endStep; split <;> rfl
@[simp] theorem Core.endStep_unsent (c : Core) (k : Slot) : (c.endStep k).unsent = c.unsent := by unfold Core.endStep; split <;> rfl
@[simp] theorem Core.endStep_accs (c : Core) (k : Slot) : (c.endStep k).accs = c.accs := by unfold Core.endStep; split <;> rfl
@[simp] theorem Core.endStep_sh (c : Core) (k : Slot) : (c.endStep k).sh = c.sh := by unfold Core.endStep; split <;> rfl
@[simp] theorem Core.endStep_sp (c : Core) (k : Slot) : (c.endStep k).sp = c.sp := by unfold Core.endStep; split <;> rfl
@[simp] theorem Core.endStep_spPois (c : Core) (k : Slot) : (c.endStep k).spPois = c.spPois := by unfold Core.endStep; split <;> rfl
@[simp] theorem Core.endStep_banks (c : Core) (k : Slot) : (c.endStep k).banks = c.banks := by unfold Core.endStep; split <;> rfl
@[simp] theorem Core.endStep_loops (c : Core) (k : Slot) : (c.endStep k).loops = c.loops := by unfold Core.endStep; split <;> rfl
@[simp] theorem Core.endStep_serial (c : Core) (k : Slot) : (c.endStep k).serial = c.serial := by unfold Core.endStep; split <;> rfl
@[simp] theorem Core.endStep_holds (c : Core) (k : Slot) : (c.endStep k).holds = c.holds := by unfold Core.endStep; split <;> rfl
@[simp] theorem Core.endStep_waits (c : Core) (k : Slot) : (c.endStep k).waits = c.waits := by unfold Core.endStep; split <;> rfl
@[simp] theorem Core.endStep_tlb (c : Core) (k : Slot) : (c.endStep k).tlb = c.tlb := by unfold Core.endStep; split <;> rfl
@[simp] theorem Core.endStep_regs (c : Core) (k : Slot) : (c.endStep k).regs = c.regs := by unfold Core.endStep; split <;> rfl
@[simp] theorem Core.endStep_wbuf (c : Core) (k : Slot) : (c.endStep k).wbuf = c.wbuf := by unfold Core.endStep; split <;> rfl
@[simp] theorem Core.endStep_gap (c : Core) (k : Slot) : (c.endStep k).gap = c.gap := by unfold Core.endStep; split <;> rfl
@[simp] theorem Core.endStep_gapWas (c : Core) (k : Slot) : (c.endStep k).gapWas = c.gapWas := by unfold Core.endStep; split <;> rfl
@[simp] theorem Core.endStep_paceAt (c : Core) (k : Slot) : (c.endStep k).paceAt = c.paceAt := by unfold Core.endStep; split <;> rfl
@[simp] theorem Core.endStep_member (c : Core) (k : Slot) : (c.endStep k).member = c.member := by unfold Core.endStep; split <;> rfl
@[simp] theorem Core.endStep_staged (c : Core) (k : Slot) : (c.endStep k).staged = c.staged := by unfold Core.endStep; split <;> rfl
@[simp] theorem Core.endStep_exiting (c : Core) (k : Slot) : (c.endStep k).exiting = c.exiting := by unfold Core.endStep; split <;> rfl
@[simp] theorem Core.endStep_rcNext (c : Core) (k : Slot) : (c.endStep k).rcNext = c.rcNext := by unfold Core.endStep; split <;> rfl
@[simp] theorem Core.endStep_rcMore (c : Core) (k : Slot) : (c.endStep k).rcMore = c.rcMore := by unfold Core.endStep; split <;> rfl
@[simp] theorem Core.endStep_fence (c : Core) (k : Slot) : (c.endStep k).fence = c.fence := by unfold Core.endStep; split <;> rfl
@[simp] theorem Core.endStep_trapAt (c : Core) (k : Slot) : (c.endStep k).trapAt = c.trapAt := by unfold Core.endStep; split <;> rfl
@[simp] theorem Core.endStep_stallAt (c : Core) (k : Slot) : (c.endStep k).stallAt = c.stallAt := by unfold Core.endStep; split <;> rfl
@[simp] theorem Core.endStep_replays (c : Core) (k : Slot) : (c.endStep k).replays = c.replays := by unfold Core.endStep; split <;> rfl
@[simp] theorem Core.endStep_xq (c : Core) (k : Slot) : (c.endStep k).xq = c.xq := by unfold Core.endStep; split <;> rfl
@[simp] theorem Core.endStep_atq (c : Core) (k : Slot) : (c.endStep k).atq = c.atq := by unfold Core.endStep; split <;> rfl
@[simp] theorem Core.endStep_fxq (c : Core) (k : Slot) : (c.endStep k).fxq = c.fxq := by unfold Core.endStep; split <;> rfl
@[simp] theorem Core.endStep_mx (c : Core) (k : Slot) : (c.endStep k).mx = c.mx := by unfold Core.endStep; split <;> rfl
@[simp] theorem Core.endStep_cp (c : Core) (k : Slot) : (c.endStep k).cp = c.cp := by unfold Core.endStep; split <;> rfl

@[simp] theorem Core.resolve_mode (c : Core) (i : Nat) : (c.resolve i).mode = c.mode := by unfold Core.resolve; split <;> (try split) <;> rfl
@[simp] theorem Core.resolve_task (c : Core) (i : Nat) : (c.resolve i).task = c.task := by unfold Core.resolve; split <;> (try split) <;> rfl
@[simp] theorem Core.resolve_qs (c : Core) (i : Nat) : (c.resolve i).qs = c.qs := by unfold Core.resolve; split <;> (try split) <;> rfl
@[simp] theorem Core.resolve_cidx (c : Core) (i : Nat) : (c.resolve i).cidx = c.cidx := by unfold Core.resolve; split <;> (try split) <;> rfl
@[simp] theorem Core.resolve_x (c : Core) (i : Nat) : (c.resolve i).x = c.x := by unfold Core.resolve; split <;> (try split) <;> rfl
@[simp] theorem Core.resolve_p (c : Core) (i : Nat) : (c.resolve i).p = c.p := by unfold Core.resolve; split <;> (try split) <;> rfl
@[simp] theorem Core.resolve_lc (c : Core) (i : Nat) : (c.resolve i).lc = c.lc := by unfold Core.resolve; split <;> (try split) <;> rfl
@[simp] theorem Core.resolve_trap (c : Core) (i : Nat) : (c.resolve i).trap = c.trap := by unfold Core.resolve; split <;> (try split) <;> rfl
@[simp] theorem Core.resolve_lpstat (c : Core) (i : Nat) : (c.resolve i).lpstat = c.lpstat := by unfold Core.resolve; split <;> (try split) <;> rfl
@[simp] theorem Core.resolve_livebk (c : Core) (i : Nat) : (c.resolve i).livebk = c.livebk := by unfold Core.resolve; split <;> (try split) <;> rfl
@[simp] theorem Core.resolve_livetl (c : Core) (i : Nat) : (c.resolve i).livetl = c.livetl := by unfold Core.resolve; split <;> (try split) <;> rfl
@[simp] theorem Core.resolve_dbg (c : Core) (i : Nat) : (c.resolve i).dbg = c.dbg := by unfold Core.resolve; split <;> (try split) <;> rfl
@[simp] theorem Core.resolve_tiles (c : Core) (i : Nat) : (c.resolve i).tiles = c.tiles := by unfold Core.resolve; split <;> (try split) <;> rfl
@[simp] theorem Core.resolve_toks (c : Core) (i : Nat) : (c.resolve i).toks = c.toks := by unfold Core.resolve; split <;> (try split) <;> rfl
@[simp] theorem Core.resolve_unsent (c : Core) (i : Nat) : (c.resolve i).unsent = c.unsent := by unfold Core.resolve; split <;> (try split) <;> rfl
@[simp] theorem Core.resolve_accs (c : Core) (i : Nat) : (c.resolve i).accs = c.accs := by unfold Core.resolve; split <;> (try split) <;> rfl
@[simp] theorem Core.resolve_sh (c : Core) (i : Nat) : (c.resolve i).sh = c.sh := by unfold Core.resolve; split <;> (try split) <;> rfl
@[simp] theorem Core.resolve_sp (c : Core) (i : Nat) : (c.resolve i).sp = c.sp := by unfold Core.resolve; split <;> (try split) <;> rfl
@[simp] theorem Core.resolve_spPois (c : Core) (i : Nat) : (c.resolve i).spPois = c.spPois := by unfold Core.resolve; split <;> (try split) <;> rfl
@[simp] theorem Core.resolve_banks (c : Core) (i : Nat) : (c.resolve i).banks = c.banks := by unfold Core.resolve; split <;> (try split) <;> rfl
@[simp] theorem Core.resolve_loops (c : Core) (i : Nat) : (c.resolve i).loops = c.loops := by unfold Core.resolve; split <;> (try split) <;> rfl
@[simp] theorem Core.resolve_serial (c : Core) (i : Nat) : (c.resolve i).serial = c.serial := by unfold Core.resolve; split <;> (try split) <;> rfl
@[simp] theorem Core.resolve_holds (c : Core) (i : Nat) : (c.resolve i).holds = c.holds := by unfold Core.resolve; split <;> (try split) <;> rfl
@[simp] theorem Core.resolve_waits (c : Core) (i : Nat) : (c.resolve i).waits = c.waits := by unfold Core.resolve; split <;> (try split) <;> rfl
@[simp] theorem Core.resolve_tlb (c : Core) (i : Nat) : (c.resolve i).tlb = c.tlb := by unfold Core.resolve; split <;> (try split) <;> rfl
@[simp] theorem Core.resolve_regs (c : Core) (i : Nat) : (c.resolve i).regs = c.regs := by unfold Core.resolve; split <;> (try split) <;> rfl
@[simp] theorem Core.resolve_wbuf (c : Core) (i : Nat) : (c.resolve i).wbuf = c.wbuf := by unfold Core.resolve; split <;> (try split) <;> rfl
@[simp] theorem Core.resolve_gap (c : Core) (i : Nat) : (c.resolve i).gap = c.gap := by unfold Core.resolve; split <;> (try split) <;> rfl
@[simp] theorem Core.resolve_gapWas (c : Core) (i : Nat) : (c.resolve i).gapWas = c.gapWas := by unfold Core.resolve; split <;> (try split) <;> rfl
@[simp] theorem Core.resolve_paceAt (c : Core) (i : Nat) : (c.resolve i).paceAt = c.paceAt := by unfold Core.resolve; split <;> (try split) <;> rfl
@[simp] theorem Core.resolve_member (c : Core) (i : Nat) : (c.resolve i).member = c.member := by unfold Core.resolve; split <;> (try split) <;> rfl
@[simp] theorem Core.resolve_staged (c : Core) (i : Nat) : (c.resolve i).staged = c.staged := by unfold Core.resolve; split <;> (try split) <;> rfl
@[simp] theorem Core.resolve_exiting (c : Core) (i : Nat) : (c.resolve i).exiting = c.exiting := by unfold Core.resolve; split <;> (try split) <;> rfl
@[simp] theorem Core.resolve_rcNext (c : Core) (i : Nat) : (c.resolve i).rcNext = c.rcNext := by unfold Core.resolve; split <;> (try split) <;> rfl
@[simp] theorem Core.resolve_rcMore (c : Core) (i : Nat) : (c.resolve i).rcMore = c.rcMore := by unfold Core.resolve; split <;> (try split) <;> rfl
@[simp] theorem Core.resolve_fence (c : Core) (i : Nat) : (c.resolve i).fence = c.fence := by unfold Core.resolve; split <;> (try split) <;> rfl
@[simp] theorem Core.resolve_trapAt (c : Core) (i : Nat) : (c.resolve i).trapAt = c.trapAt := by unfold Core.resolve; split <;> (try split) <;> rfl
@[simp] theorem Core.resolve_stallAt (c : Core) (i : Nat) : (c.resolve i).stallAt = c.stallAt := by unfold Core.resolve; split <;> (try split) <;> rfl
@[simp] theorem Core.resolve_replays (c : Core) (i : Nat) : (c.resolve i).replays = c.replays := by unfold Core.resolve; split <;> (try split) <;> rfl
@[simp] theorem Core.resolve_xq (c : Core) (i : Nat) : (c.resolve i).xq = c.xq := by unfold Core.resolve; split <;> (try split) <;> rfl
@[simp] theorem Core.resolve_atq (c : Core) (i : Nat) : (c.resolve i).atq = c.atq := by unfold Core.resolve; split <;> (try split) <;> rfl
@[simp] theorem Core.resolve_fxq (c : Core) (i : Nat) : (c.resolve i).fxq = c.fxq := by unfold Core.resolve; split <;> (try split) <;> rfl
@[simp] theorem Core.resolve_mx (c : Core) (i : Nat) : (c.resolve i).mx = c.mx := by unfold Core.resolve; split <;> (try split) <;> rfl
@[simp] theorem Core.resolve_cp (c : Core) (i : Nat) : (c.resolve i).cp = c.cp := by unfold Core.resolve; split <;> (try split) <;> rfl

@[simp] theorem Core.retire_mode (c : Core) (k : Slot) (m : Cmd) : (c.retire k m).mode = c.mode := by unfold Core.retire; split <;> simp
@[simp] theorem Core.retire_task (c : Core) (k : Slot) (m : Cmd) : (c.retire k m).task = c.task := by unfold Core.retire; split <;> simp
@[simp] theorem Core.retire_fetch (c : Core) (k : Slot) (m : Cmd) : (c.retire k m).fetch = c.fetch := by unfold Core.retire; split <;> simp
@[simp] theorem Core.retire_cidx (c : Core) (k : Slot) (m : Cmd) : (c.retire k m).cidx = c.cidx := by unfold Core.retire; split <;> simp
@[simp] theorem Core.retire_x (c : Core) (k : Slot) (m : Cmd) : (c.retire k m).x = c.x := by unfold Core.retire; split <;> simp
@[simp] theorem Core.retire_p (c : Core) (k : Slot) (m : Cmd) : (c.retire k m).p = c.p := by unfold Core.retire; split <;> simp
@[simp] theorem Core.retire_lc (c : Core) (k : Slot) (m : Cmd) : (c.retire k m).lc = c.lc := by unfold Core.retire; split <;> simp
@[simp] theorem Core.retire_trap (c : Core) (k : Slot) (m : Cmd) : (c.retire k m).trap = c.trap := by unfold Core.retire; split <;> simp
@[simp] theorem Core.retire_lpstat (c : Core) (k : Slot) (m : Cmd) : (c.retire k m).lpstat = c.lpstat := by unfold Core.retire; split <;> simp
@[simp] theorem Core.retire_livebk (c : Core) (k : Slot) (m : Cmd) : (c.retire k m).livebk = c.livebk := by unfold Core.retire; split <;> simp
@[simp] theorem Core.retire_livetl (c : Core) (k : Slot) (m : Cmd) : (c.retire k m).livetl = c.livetl := by unfold Core.retire; split <;> simp
@[simp] theorem Core.retire_tiles (c : Core) (k : Slot) (m : Cmd) : (c.retire k m).tiles = c.tiles := by unfold Core.retire; split <;> simp
@[simp] theorem Core.retire_toks (c : Core) (k : Slot) (m : Cmd) : (c.retire k m).toks = c.toks := by unfold Core.retire; split <;> simp
@[simp] theorem Core.retire_unsent (c : Core) (k : Slot) (m : Cmd) : (c.retire k m).unsent = c.unsent := by unfold Core.retire; split <;> simp
@[simp] theorem Core.retire_accs (c : Core) (k : Slot) (m : Cmd) : (c.retire k m).accs = c.accs := by unfold Core.retire; split <;> simp
@[simp] theorem Core.retire_sp (c : Core) (k : Slot) (m : Cmd) : (c.retire k m).sp = c.sp := by unfold Core.retire; split <;> simp
@[simp] theorem Core.retire_spPois (c : Core) (k : Slot) (m : Cmd) : (c.retire k m).spPois = c.spPois := by unfold Core.retire; split <;> simp
@[simp] theorem Core.retire_banks (c : Core) (k : Slot) (m : Cmd) : (c.retire k m).banks = c.banks := by unfold Core.retire; split <;> simp
@[simp] theorem Core.retire_loops (c : Core) (k : Slot) (m : Cmd) : (c.retire k m).loops = c.loops := by unfold Core.retire; split <;> simp
@[simp] theorem Core.retire_serial (c : Core) (k : Slot) (m : Cmd) : (c.retire k m).serial = c.serial := by unfold Core.retire; split <;> simp
@[simp] theorem Core.retire_holds (c : Core) (k : Slot) (m : Cmd) : (c.retire k m).holds = c.holds := by unfold Core.retire; split <;> simp
@[simp] theorem Core.retire_tlb (c : Core) (k : Slot) (m : Cmd) : (c.retire k m).tlb = c.tlb := by unfold Core.retire; split <;> simp
@[simp] theorem Core.retire_regs (c : Core) (k : Slot) (m : Cmd) : (c.retire k m).regs = c.regs := by unfold Core.retire; split <;> simp
@[simp] theorem Core.retire_wbuf (c : Core) (k : Slot) (m : Cmd) : (c.retire k m).wbuf = c.wbuf := by unfold Core.retire; split <;> simp
@[simp] theorem Core.retire_gap (c : Core) (k : Slot) (m : Cmd) : (c.retire k m).gap = c.gap := by unfold Core.retire; split <;> simp
@[simp] theorem Core.retire_gapWas (c : Core) (k : Slot) (m : Cmd) : (c.retire k m).gapWas = c.gapWas := by unfold Core.retire; split <;> simp
@[simp] theorem Core.retire_paceAt (c : Core) (k : Slot) (m : Cmd) : (c.retire k m).paceAt = c.paceAt := by unfold Core.retire; split <;> simp
@[simp] theorem Core.retire_member (c : Core) (k : Slot) (m : Cmd) : (c.retire k m).member = c.member := by unfold Core.retire; split <;> simp
@[simp] theorem Core.retire_staged (c : Core) (k : Slot) (m : Cmd) : (c.retire k m).staged = c.staged := by unfold Core.retire; split <;> simp
@[simp] theorem Core.retire_exiting (c : Core) (k : Slot) (m : Cmd) : (c.retire k m).exiting = c.exiting := by unfold Core.retire; split <;> simp
@[simp] theorem Core.retire_rcNext (c : Core) (k : Slot) (m : Cmd) : (c.retire k m).rcNext = c.rcNext := by unfold Core.retire; split <;> simp
@[simp] theorem Core.retire_rcMore (c : Core) (k : Slot) (m : Cmd) : (c.retire k m).rcMore = c.rcMore := by unfold Core.retire; split <;> simp
@[simp] theorem Core.retire_fence (c : Core) (k : Slot) (m : Cmd) : (c.retire k m).fence = c.fence := by unfold Core.retire; split <;> simp
@[simp] theorem Core.retire_trapAt (c : Core) (k : Slot) (m : Cmd) : (c.retire k m).trapAt = c.trapAt := by unfold Core.retire; split <;> simp
@[simp] theorem Core.retire_stallAt (c : Core) (k : Slot) (m : Cmd) : (c.retire k m).stallAt = c.stallAt := by unfold Core.retire; split <;> simp
@[simp] theorem Core.retire_replays (c : Core) (k : Slot) (m : Cmd) : (c.retire k m).replays = c.replays := by unfold Core.retire; split <;> simp
@[simp] theorem Core.retire_xq (c : Core) (k : Slot) (m : Cmd) : (c.retire k m).xq = c.xq := by unfold Core.retire; split <;> simp
@[simp] theorem Core.retire_atq (c : Core) (k : Slot) (m : Cmd) : (c.retire k m).atq = c.atq := by unfold Core.retire; split <;> simp
@[simp] theorem Core.retire_fxq (c : Core) (k : Slot) (m : Cmd) : (c.retire k m).fxq = c.fxq := by unfold Core.retire; split <;> simp
@[simp] theorem Core.retire_mx (c : Core) (k : Slot) (m : Cmd) : (c.retire k m).mx = c.mx := by unfold Core.retire; split <;> simp
@[simp] theorem Core.retire_cp (c : Core) (k : Slot) (m : Cmd) : (c.retire k m).cp = c.cp := by unfold Core.retire; split <;> simp

/-- A register reads as it was last written; x0 discards the write. -/
theorem Core.rdX_wrX (c : Core) (r q : XReg) (v : Scalar) : (c.wrX r v).rdX q = if q = r ∧ r ≠ 0 then v else c.rdX q := by
  unfold Core.wrX Core.rdX
  by_cases hr : r = 0
  · simp [hr]
  · rw [if_neg hr]
    by_cases hq : q = 0
    · have h0 : ¬(q = r ∧ r ≠ 0) := fun h => hr (h.1 ▸ hq)
      rw [if_neg h0]; simp [hq]
    · simp only [if_neg hq]
      by_cases h : q = r
      · subst h; rw [if_pos ⟨rfl, hr⟩]; exact Vector.getElem_set_self _
      · simp only [h, false_and, if_false]
        exact Vector.getElem_set_ne _ _ (fun he => h (BitVec.eq_of_toNat_eq he.symm))
/-- A predicate reads as it was last written; p0 discards the write. -/
theorem Core.rdP_wrP (c : Core) (r q : PReg) (v : Bool) : (c.wrP r v).rdP q = if q = r ∧ r ≠ 0 then v else c.rdP q := by
  unfold Core.wrP Core.rdP
  by_cases hr : r = 0
  · simp [hr]
  · rw [if_neg hr]
    by_cases hq : q = 0
    · have h0 : ¬(q = r ∧ r ≠ 0) := fun h => hr (h.1 ▸ hq)
      rw [if_neg h0]; simp [hq]
    · simp only [if_neg hq]
      by_cases h : q = r
      · subst h; rw [if_pos ⟨rfl, hr⟩]; exact Vector.getElem_set_self _
      · simp only [h, false_and, if_false]
        exact Vector.getElem_set_ne _ _ (fun he => h (BitVec.eq_of_toNat_eq he.symm))
/-- Registers of a core read by their field alone. -/
theorem Core.rdX_congr {c d : Core} (h : c.x = d.x) (r : XReg) : c.rdX r = d.rdX r := by simp [Core.rdX, h]
theorem Core.rdP_congr {c d : Core} (h : c.p = d.p) (r : PReg) : c.rdP r = d.rdP r := by simp [Core.rdP, h]

end Sys2Proof.Machine
end

