-- ==== Sys2Proof/Laws/Memory.lean ====
section
/-! SUPPORT. Laws of memory: which part of the state each memory operation touches, that each keeps the canonical form, and how many bytes a read
gives. -/

namespace Sys2Proof.Machine

/-! ### Partitions and dies -/

@[simp] theorem State.updPart_cores (s : State) (p : Nat) (f : Part → Part) : (s.updPart p f).cores = s.cores := by unfold State.updPart; split <;> rfl
@[simp] theorem State.updPart_mem (s : State) (p : Nat) (f : Part → Part) : (s.updPart p f).mem = s.mem := by unfold State.updPart; split <;> rfl
@[simp] theorem State.updPart_dies (s : State) (p : Nat) (f : Part → Part) : (s.updPart p f).dies = s.dies := by unfold State.updPart; split <;> rfl
@[simp] theorem State.updPart_cist (s : State) (p : Nat) (f : Part → Part) : (s.updPart p f).cist = s.cist := by unfold State.updPart; split <;> rfl
@[simp] theorem State.updPart_sync (s : State) (p : Nat) (f : Part → Part) : (s.updPart p f).sync = s.sync := by unfold State.updPart; split <;> rfl
@[simp] theorem State.updPart_cmd (s : State) (p : Nat) (f : Part → Part) : (s.updPart p f).cmd = s.cmd := by unfold State.updPart; split <;> rfl
@[simp] theorem State.updPart_cur (s : State) (p : Nat) (f : Part → Part) : (s.updPart p f).cur = s.cur := by unfold State.updPart; split <;> rfl
@[simp] theorem State.updPart_slot (s : State) (p : Nat) (f : Part → Part) : (s.updPart p f).slot = s.slot := by unfold State.updPart; split <;> rfl
@[simp] theorem State.updDie_cores (s : State) (d : Nat) (f : Die → Die) : (s.updDie d f).cores = s.cores := by unfold State.updDie; split <;> rfl
@[simp] theorem State.updDie_mem (s : State) (d : Nat) (f : Die → Die) : (s.updDie d f).mem = s.mem := by unfold State.updDie; split <;> rfl
@[simp] theorem State.updDie_parts (s : State) (d : Nat) (f : Die → Die) : (s.updDie d f).parts = s.parts := by unfold State.updDie; split <;> rfl
@[simp] theorem State.updDie_cist (s : State) (d : Nat) (f : Die → Die) : (s.updDie d f).cist = s.cist := by unfold State.updDie; split <;> rfl
@[simp] theorem State.updDie_sync (s : State) (d : Nat) (f : Die → Die) : (s.updDie d f).sync = s.sync := by unfold State.updDie; split <;> rfl
@[simp] theorem State.updDie_cmd (s : State) (d : Nat) (f : Die → Die) : (s.updDie d f).cmd = s.cmd := by unfold State.updDie; split <;> rfl
@[simp] theorem State.updDie_cur (s : State) (d : Nat) (f : Die → Die) : (s.updDie d f).cur = s.cur := by unfold State.updDie; split <;> rfl
@[simp] theorem State.updDie_slot (s : State) (d : Nat) (f : Die → Die) : (s.updDie d f).slot = s.slot := by unfold State.updDie; split <;> rfl

theorem vector_getD {α : Type} {n : Nat} (v : Vector α n) (i : Nat) (d : α) : v.getD i d = if h : i < n then v[i] else d := by
  rcases v with ⟨a, rfl⟩
  simp only [Vector.getD, Array.getD, Vector.getElem_mk]; rfl

/-- A changed partition reads as changed. -/
theorem State.getPart_updPart_self (s : State) {p : Nat} (h : p < 4) (f : Part → Part) : (s.updPart p f).getPart p = f (s.getPart p) := by
  simp [State.updPart, State.getPart, vector_getD, h]
/-- Another partition reads as before. -/
theorem State.getPart_updPart_other (s : State) {p q : Nat} (h : q ≠ p) (f : Part → Part) : (s.updPart p f).getPart q = s.getPart q := by
  unfold State.updPart State.getPart
  split
  · by_cases hq : q < 4
    · simp [vector_getD, hq, Vector.getElem_set_ne _ _ h.symm]
    · simp [vector_getD, hq]
  · rfl
/-- A changed die reads as changed. -/
theorem State.die_updDie_self (s : State) {d : Nat} (h : d < 4) (f : Die → Die) : (s.updDie d f).die d = f (s.die d) := by
  simp [State.updDie, State.die, vector_getD, h]
/-- Another die reads as before. -/
theorem State.die_updDie_other (s : State) {d e : Nat} (h : e ≠ d) (f : Die → Die) : (s.updDie d f).die e = s.die e := by
  unfold State.updDie State.die
  split
  · by_cases he : e < 4
    · simp [vector_getD, he, Vector.getElem_set_ne _ _ h.symm]
    · simp [vector_getD, he]
  · rfl

/-! ### What a write touches -/

/-- What holds of a state, and of it after a change of any partition, holds after the checkpoint domain has noted a write. -/
theorem State.ckNote_induct {P : State → Prop} {s : State} (h0 : P s) (h : ∀ t p f, P t → P (t.updPart p f)) (pa n : Nat) : P (s.ckNote pa n) := by
  unfold State.ckNote
  split
  · exact h0
  · simp only
    split
    · exact h0
    · refine List.foldlRecOn (motive := P) _ _ h0 (fun t ht g _ => ?_)
      split
      · exact h _ _ _ ht
      · exact ht

/-- What every piece keeps, a write keeps, but for the set of poisoned granules. -/
theorem State.writePa_induct {P : State → Prop} {s : State} (h0 : P s) (hp : ∀ t p f, P t → P (t.updPart p f))
    (hw : ∀ t pa bs, P t → P (t.writePiece p pa bs nc)) (hm : ∀ t v, P t → P { t with memPois := v }) (pa : Nat) (bs : List Byte) (pois : NSet) :
    P (s.writePa p pa bs nc pois) := by
  unfold State.writePa
  exact hm _ _ (List.foldlRecOn (motive := P) _ _ (State.ckNote_induct h0 hp pa bs.length) (fun t ht q _ => hw t _ _ ht))

/-- What holds of a state, and of it after a change of memory, of a die, or of the count of free values, holds after a line is put into an L2. -/
theorem State.putLine_induct {P : State → Prop} {s : State} (h0 : P s) (hd : ∀ t d f, P t → P (t.updDie d f)) (hm : ∀ t m, P t → P { t with mem := m })
    (hp : ∀ t n, P t → P { t with picks := n }) (d line : Nat) (l : L2Line) : P (s.putLine d line l) := by
  have he : ∀ v, P (s.evictLine d v) := fun v => by
    unfold State.evictLine
    split
    · exact h0
    · dsimp only
      split
      · exact hd _ _ _ (hm _ _ h0)
      · exact hd _ _ _ h0
  unfold State.putLine State.l2Room
  dsimp only
  refine hd _ _ _ ?_
  split
  · exact hp _ _ (he _)
  · exact h0

/-- The frame of one piece of a write. -/
theorem State.writePiece_frame (s : State) (p pa : Nat) (bs : List Byte) (nc : Bool) :
    (s.writePiece p pa bs nc).cores = s.cores ∧ (s.writePiece p pa bs nc).cist = s.cist ∧ (s.writePiece p pa bs nc).sync = s.sync ∧
      (s.writePiece p pa bs nc).parts = s.parts ∧ (s.writePiece p pa bs nc).cmd = s.cmd ∧ (s.writePiece p pa bs nc).cur = s.cur ∧
      (s.writePiece p pa bs nc).slot = s.slot := by
  unfold State.writePiece
  simp only
  split
  · exact State.putLine_induct (P := fun t => t.cores = s.cores ∧ t.cist = s.cist ∧ t.sync = s.sync ∧ t.parts = s.parts ∧ t.cmd = s.cmd ∧ t.cur = s.cur ∧
      t.slot = s.slot) ⟨rfl, rfl, rfl, rfl, rfl, rfl, rfl⟩ (fun t d f h => by simpa using h) (fun _ _ h => h) (fun _ _ h => h) _ _ _
  · split <;> simp

/-- The frame of a write to memory: cores, W-space and the sync units stay, and the command in hand. -/
theorem State.writePa_frame (s : State) (p pa : Nat) (bs : List Byte) (nc : Bool) (pois : NSet) :
    let t := s.writePa p pa bs nc pois
    t.cores = s.cores ∧ t.cist = s.cist ∧ t.sync = s.sync ∧ t.cmd = s.cmd ∧ t.cur = s.cur ∧ t.slot = s.slot := by
  refine State.writePa_induct (P := fun t => t.cores = s.cores ∧ t.cist = s.cist ∧ t.sync = s.sync ∧ t.cmd = s.cmd ∧ t.cur = s.cur ∧ t.slot = s.slot)
    ⟨rfl, rfl, rfl, rfl, rfl, rfl⟩ (fun t q f h => by simpa only [State.updPart_cores, State.updPart_cist, State.updPart_sync, State.updPart_cmd, State.updPart_cur, State.updPart_slot] using h) (fun t a b h => ?_) (fun t v h => h) pa bs pois
  obtain ⟨h1, h2, h3, _, h5, h6, h7⟩ := State.writePiece_frame t p a b nc
  obtain ⟨g1, g2, g3, g4, g5, g6⟩ := h
  exact ⟨h1.trans g1, h2.trans g2, h3.trans g3, h5.trans g4, h6.trans g5, h7.trans g6⟩

/-- A write to memory leaves every core. -/
@[simp] theorem State.core_writePa (s : State) (p pa : Nat) (bs : List Byte) (nc : Bool) (pois : NSet) (k : Nat) :
    (s.writePa p pa bs nc pois).core k = s.core k := by
  simp [State.core, (State.writePa_frame s p pa bs nc pois).1]

/-! ### Canonical forms -/

/-- The canonical form of the module's memories by its parts. -/
theorem memoriesWf_iff (s : State) : s.memoriesWf = true ↔ bytesWf s.mem = true ∧ bytesWf s.cist.data = true ∧
    (∀ d ∈ s.dies.toList, ∀ e ∈ d.l2, bytesWf e.2.data = true) ∧ ∀ e ∈ s.cores, bytesWf e.2.sp = true := by
  simp only [State.memoriesWf, Memory.wf, Bool.and_eq_true, List.all_eq_true, and_assoc]

theorem bytesWf_line (m : Bytes) (b n : Nat) (h : bytesWf m = true) :
    bytesWf ((windowCells m b n).map (fun e => (e.1 - b, e.2))) = true := by
  rw [bytesWf_iff] at h ⊢
  refine ⟨?_, ?_⟩
  · rw [List.pairwise_map]
    refine (h.1.filter _).imp_of_mem (fun {e f} he hf hlt => ?_)
    simp only [windowCells, List.mem_filter, Bool.and_eq_true, decide_eq_true_eq] at he hf
    omega
  · intro e he
    obtain ⟨f, hf, rfl⟩ := List.mem_map.mp he
    exact h.2 f (List.mem_filter.mp hf).1

theorem amFind_mem {α : Type} {k : Nat} {m : AMap α} {v : α} (h : amFind k m = some v) : (k, v) ∈ m := by
  induction m with
  | nil => simp [amFind] at h
  | cons e m ih =>
    simp only [amFind] at h
    split at h
    · rename_i he; subst he; cases h; simp
    · exact List.mem_cons_of_mem _ (ih h)

theorem mem_amIns {α : Type} {k : Nat} {v : α} {m : AMap α} {e : Nat × α} (h : e ∈ amIns k v m) : e = (k, v) ∨ e ∈ m := by
  induction m with
  | nil => simpa [amIns] using h
  | cons f m ih =>
    unfold amIns at h
    split at h
    · rcases List.mem_cons.mp h with rfl | h
      · exact .inl rfl
      · exact .inr h
    · rcases List.mem_cons.mp h with rfl | h
      · exact .inr (by simp)
      · rcases ih h with h | h
        · exact .inl h
        · exact .inr (List.mem_cons_of_mem _ h)

theorem mem_amSet {α : Type} {k : Nat} {v : α} {m : AMap α} {e : Nat × α} (h : e ∈ amSet m k v) : e = (k, v) ∨ e ∈ m :=
  (mem_amIns h).imp_right mem_of_mem_amDel

/-- The bytes of a line are canonical. -/
theorem bytesWf_lineBytes {s : State} (h : s.memoriesWf = true) (line : Nat) : bytesWf (s.lineBytes line) = true := by
  obtain ⟨hm, -, hd, -⟩ := (memoriesWf_iff s).mp h
  unfold State.lineBytes
  split
  · rename_i d hf
    split
    · rename_i l hl
      have hlt : d < 4 := by simpa using List.mem_of_find?_eq_some hf
      refine hd (s.die d) ?_ _ (amFind_mem hl)
      simp [State.die, vector_getD, hlt]
    · rfl
  · exact bytesWf_line _ _ _ hm

/-- A change of a die that keeps its lines canonical keeps the module's memories so. -/
theorem memoriesWf_updDie {s : State} (h : s.memoriesWf = true) (d : Nat) (f : Die → Die)
    (hf : ∀ x : Die, (∀ e ∈ x.l2, bytesWf e.2.data = true) → ∀ e ∈ (f x).l2, bytesWf e.2.data = true) : (s.updDie d f).memoriesWf = true := by
  obtain ⟨hm, hc, hd, hs⟩ := (memoriesWf_iff s).mp h
  refine (memoriesWf_iff _).mpr ⟨by rwa [State.updDie_mem], by rwa [State.updDie_cist], ?_, by rwa [State.updDie_cores]⟩
  unfold State.updDie
  split
  · rename_i hlt
    intro x hx
    rw [Vector.mem_toList_iff] at hx
    rcases Vector.mem_or_eq_of_mem_set (hi := hlt) hx with hx | rfl
    · exact hd x (Vector.mem_toList_iff.mpr hx)
    · exact hf _ (hd _ (by simp))
  · exact hd

/-- A canonical line put into an L2 keeps the canonical forms: what it replaces is written back. -/
theorem memoriesWf_putLine {s : State} (h : s.memoriesWf = true) (d line : Nat) (l : L2Line) (hl : bytesWf l.data = true) :
    (s.putLine d line l).memoriesWf = true := by
  have he : ∀ v, (s.evictLine d v).memoriesWf = true := fun v => by
    have hdel : ∀ t : State, t.memoriesWf = true → (t.updDie d (fun x => { x with l2 := amDel v x.l2 })).memoriesWf = true := fun t ht =>
      memoriesWf_updDie ht _ _ (fun x hx e hm => hx e (mem_of_mem_amDel hm))
    unfold State.evictLine
    split
    · exact h
    · dsimp only
      split
      · obtain ⟨hm, hc, hd, hs⟩ := (memoriesWf_iff s).mp h
        exact hdel _ ((memoriesWf_iff _).mpr ⟨bytesWf_pokeBytes _ _ _ hm, hc, hd, hs⟩)
      · exact hdel _ h
  have hput : ∀ t : State, t.memoriesWf = true → (t.updDie d (fun x => { x with l2 := amSet x.l2 line l })).memoriesWf = true := fun t ht =>
    memoriesWf_updDie ht _ _ (fun x hx e hm => by
      rcases mem_amSet hm with rfl | hm
      · exact hl
      · exact hx e hm)
  unfold State.putLine State.l2Room
  dsimp only
  split
  · exact hput _ (he _)
  · exact hput _ h

/-- A write of one piece keeps the canonical forms. -/
theorem memoriesWf_writePiece {s : State} (h : s.memoriesWf = true) (p pa : Nat) (bs : List Byte) (nc : Bool) :
    (s.writePiece p pa bs nc).memoriesWf = true := by
  have hl := bytesWf_lineBytes h (pa / 128)
  unfold State.writePiece
  simp only
  split
  · exact memoriesWf_putLine h _ _ _ (bytesWf_pokeBytes _ _ _ hl)
  · have key : ∀ t : State, t.memoriesWf = true → State.memoriesWf { t with mem := pokeBytes t.mem pa bs } = true := fun t ht => by
      obtain ⟨hm, hc, hd, hs⟩ := (memoriesWf_iff t).mp ht
      exact (memoriesWf_iff _).mpr ⟨bytesWf_pokeBytes _ _ _ hm, hc, hd, hs⟩
    split
    · refine key _ (memoriesWf_updDie h _ _ (fun x hx e he => ?_))
      obtain ⟨f, hf, rfl⟩ := List.mem_map.mp he
      split
      · exact bytesWf_pokeBytes _ _ _ (hx f hf)
      · exact hx f hf
    · exact key _ h

/-- A write to memory keeps the canonical forms. -/
theorem memoriesWf_writePa {s : State} (h : s.memoriesWf = true) (p pa : Nat) (bs : List Byte) (nc : Bool) (pois : NSet) :
    (s.writePa p pa bs nc pois).memoriesWf = true := by
  refine State.writePa_induct (P := fun t => t.memoriesWf = true) h (fun t q f ht => ?_) (fun t a b ht => memoriesWf_writePiece ht p a b nc)
    (fun t v ht => ht) pa bs pois
  obtain ⟨hm, hc, hd, hs⟩ := (memoriesWf_iff t).mp ht
  exact (memoriesWf_iff _).mpr ⟨by rwa [State.updPart_mem], by rwa [State.updPart_cist], by rwa [State.updPart_dies], by rwa [State.updPart_cores]⟩

/-- A page-table update keeps the canonical forms. -/
theorem memoriesWf_orEntry {s : State} (h : s.memoriesWf = true) (p ea m : Nat) : (s.orEntry p ea m).memoriesWf = true := by
  unfold State.orEntry
  simp only
  split
  · exact h
  · exact memoriesWf_writePa h _ _ _ _ _

/-- A write to a scratchpad keeps its canonical form, and changes nothing else of its core. -/
theorem writeSp_spec (c : Core) (o : Nat) (bs : List Byte) (pois : NSet) :
    (bytesWf c.sp = true → bytesWf (c.writeSp o bs pois).sp = true) ∧
      c.writeSp o bs pois = { c with sp := pokeBytes c.sp o bs, spPois := (c.writeSp o bs pois).spPois } :=
  ⟨bytesWf_pokeBytes _ _ _, rfl⟩

/-- A core put back with a canonical scratchpad keeps the module's memories canonical. -/
theorem memoriesWf_setCore {s : State} (h : s.memoriesWf = true) (k : Nat) (c : Core) (hc : bytesWf c.sp = true) : (s.setCore k c).memoriesWf = true := by
  obtain ⟨hm, hw, hd, hs⟩ := (memoriesWf_iff s).mp h
  refine (memoriesWf_iff _).mpr ⟨hm, hw, hd, fun e he => ?_⟩
  rcases mem_amSet he with rfl | he
  · exact hc
  · exact hs e he

/-- Reset lists nothing. -/
theorem memoriesWf_reset : State.reset.memoriesWf = true := rfl

/-! ### Reads -/

@[simp] theorem length_peekBytes (m : Bytes) (a n : Nat) : (peekBytes m a n).length = n := by simp [peekBytes]
@[simp] theorem length_leBytes (n v : Nat) : (leBytes n v).length = n := by
  induction n generalizing v with
  | zero => rfl
  | succ n ih => simp [leBytes, ih]

/-- One byte of memory is a byte of its line. -/
theorem readPa_one (s : State) (pa : Nat) : s.readPa pa 1 = [peekByte (s.lineBytes (pa / 128)) (pa % 128)] := by
  have h : piecesOf 128 pa 1 = [(pa, 1)] := by
    unfold piecesOf
    rw [show (pa % 128 + 1 + 128 - 1) / 128 = 1 by omega, show List.range 1 = [0] from rfl]
    have h1 : min (pa + 1) ((pa / 128 + 0 + 1) * 128) = pa + 1 := by omega
    simp only [List.filterMap_cons, if_true, h1, List.filterMap_nil, show pa < pa + 1 by omega, show pa + 1 - pa = 1 by omega]
  simp [State.readPa, h]

end Sys2Proof.Machine
end

