-- ==== Sys2Proof/Laws/Step.lean ====
section
/-! SUPPORT. Laws of the step monad: what each basic computation answers, and how a lane's computation settles. -/

namespace Sys2Proof.Machine

@[simp] theorem M.run_pure {α : Type} (a : α) (s : State) : (pure a : M α).run s = .ok (a, s) := rfl
@[simp] theorem Except.bind_ok' {ε α β : Type} (a : α) (f : α → Except ε β) : (Except.ok a >>= f) = f a := rfl
@[simp] theorem Except.bind_error' {ε α β : Type} (e : ε) (f : α → Except ε β) : ((Except.error e : Except ε α) >>= f) = Except.error e := rfl
@[simp] theorem M.run_get (s : State) : (get : M State).run s = .ok (s, s) := rfl
@[simp] theorem M.run_set (t s : State) : (set t : M PUnit).run s = .ok (⟨⟩, t) := rfl
@[simp] theorem M.run_modify (f : State → State) (s : State) : (modify f : M PUnit).run s = .ok (⟨⟩, f s) := rfl
@[simp] theorem M.run_throw {α : Type} (e : Stop) (s : State) : (throw e : M α).run s = .error e := rfl
@[simp] theorem M.run_ite {α : Type} (p : Prop) [Decidable p] (m n : M α) (s : State) : (if p then m else n).run s = if p then m.run s else n.run s := by
  split <;> rfl

@[simp] theorem run_core (s : State) : core.run s = .ok (s.core s.cur, s) := rfl
@[simp] theorem run_modCore (f : Core → Core) (s : State) : (modCore f).run s = .ok ((), s.updCore s.cur f) := rfl
@[simp] theorem run_partNo (s : State) : partNo.run s = .ok (s.corePart s.cur, s) := rfl
@[simp] theorem run_pick (s : State) : pick.run s = .ok (Config.oracle s.picks, { s with picks := s.picks + 1 }) := rfl
@[simp] theorem run_raise {α : Type} (t : Trap) (s : State) : (raise t : M α).run s = .error (.trap t) := rfl
@[simp] theorem run_waitFor {α : Type} (k : Nat) (a : Word) (b c : Nat) (s : State) :
    (waitFor k a b c : M α).run s = .error (.wait ⟨k, b, c, a, 0⟩) := rfl
@[simp] theorem run_ccRaise {α : Type} (cls : FaultClass) (va : Word) (s : State) :
    (ccRaise cls va : M α).run s = .error (.trap (ccTrap s.cmd cls va)) := rfl
@[simp] theorem run_writeX (r : XReg) (v : Word) (s : State) : (writeX r v).run s = .ok ((), s.updCore s.cur (·.wrX r ⟨v, false⟩)) := rfl

/-- A clean register gives its value; a poisoned one raises POISON (R138). -/
theorem run_readX (r : XReg) (s : State) :
    (readX r).run s = if ((s.core s.cur).rdX r).poison then .error (.trap (ccTrap s.cmd .poison 0)) else .ok (((s.core s.cur).rdX r).v, s) := by
  simp only [readX, StateT.run_bind, run_core, Except.bind_ok']; split <;> rfl
theorem run_readX_clean {r : XReg} {s : State} {v : Word} (h : (s.core s.cur).rdX r = ⟨v, false⟩) : (readX r).run s = .ok (v, s) := by
  simp [run_readX, h]

/-- A scalar captured at routing. -/
theorem run_captured {i : Nat} {s : State} {v : Word} (mk : FaultClass → Word → Trap) (h : s.cmd.vals.getD i Scalar.zero = ⟨v, false⟩) :
    (captured i mk).run s = .ok (v, s) := by
  simp only [captured, StateT.run_bind, M.run_get, Except.bind_ok', h]; rfl

/-- A computation that comes to its end gives the next state. -/
theorem runM_ok {s t : State} {m : M Unit} (h : m.run s = .ok ((), t)) : runM s m = .next { t with stalled := false } := by
  simp [runM, settle, h]
/-- A computation that faults takes the fault, unless its command is speculative. -/
theorem runM_trap {s : State} {m : M Unit} {t : Trap} (h : m.run s = .error (.trap t)) (hs : isSpec s.cmd = false) :
    runM s m = .next { cmdFault s s.cur t s.cmd with stalled := false } := by
  simp [runM, settle, h, hs]
/-- A computation that waits leaves the state, its wait recorded. -/
theorem runM_wait {s : State} {m : M Unit} {w : Wait} (h : m.run s = .error (.wait w)) :
    runM s m = .next { s.updCore s.cur (fun c => c.setWait s.slot s.now w) with stalled := true } := by
  simp [runM, settle, h]

/-- Whatever a computation comes to, there is a next state. -/
theorem settle_next (s : State) (r : Except Stop (Unit × State)) : ∃ t, settle s r = .next t := by
  unfold settle
  split <;> (try split) <;> exact ⟨_, rfl⟩
/-- A control-core lane always has a next state. -/
theorem ccLane_next (s : State) (m : M Unit) : ∃ t, ccLane s m = .next t := by
  unfold ccLane
  split
  · exact settle_next _ _
  · split
    · exact settle_next _ _
    · exact settle_next _ _

/-- A core whose control core neither a held `camo` nor a full fence holds up at a lane (R150, R151). -/
def Core.ccFree (c : Core) (m : Cmd) : Prop := c.awaitsAmo m.instr = false ∧ c.fence = false ∧ c.overwrites m = false
/-- A core that holds no write and has no full fence behind it is such a core for every lane. -/
theorem Core.ccFree_calm {c : Core} (hh : c.holds = []) (hf : c.fence = false) (m : Cmd) : c.ccFree m := by
  refine ⟨by simp [Core.awaitsAmo, Core.xHeld, hh], hf, ?_⟩
  unfold Core.overwrites
  cases ccDst m.instr <;> simp [Core.xHeld, hh]

/-- A control-core lane that may start performs its body and leaves its queue. -/
theorem ccLane_ready {s : State} (m : M Unit) (hs : s.cmd.spec = .none) (ha : (s.core s.cur).ccFree s.cmd) :
    ccLane s m = runM s (do m; modCore (fun c => (c.retire 0 s.cmd).resolve s.cmd.idx)) := by
  simp [ccLane, ccReady, hs, ha.1, Core.awaitsFence, ha.2.1, ha.2.2]

/-- What a control-core lane comes to whose body only changes its core. -/
theorem ccLane_done {s : State} {m : M Unit} (hs : s.cmd.spec = .none) (ha : (s.core s.cur).ccFree s.cmd) (c : Core)
    (hm : m.run s = .ok ((), s.setCore s.cur c)) :
    ccLane s m = .next { s.setCore s.cur ((c.retire 0 s.cmd).resolve s.cmd.idx) with stalled := false } := by
  rw [ccLane_ready _ hs ha]
  simp only [runM, settle, StateT.run_bind, hm, Except.bind_ok', run_modCore, State.setCore_cur, State.setCore_updCore]

end Sys2Proof.Machine
end

