-- ==== Sys2Proof/Laws/Ops.lean ====
section
/-! SUPPORT. Laws of the shared operations: that every kind of lane comes to a next state, how an engine lane starts and completes, what taking a fault
changes, and what leaves a queue. -/

namespace Sys2Proof.Machine

/-! ### Every lane comes to a next state -/

theorem runM_next (s : State) (m : M Unit) : ∃ t, runM s m = .next t := settle_next _ _

/-- An engine lane always has a next state. -/
theorem engineCalc_next {α : Type} (s : State) (o : LaneOps) (pre : M Unit) (comp : List Tile → M α) (body : α → M Unit) :
    ∃ t, engineCalc s o pre comp body = .next t := by
  unfold engineCalc
  split
  · exact settle_next _ _
  · split
    · exact settle_next _ _
    · split
      · exact runM_next _ _
      · split
        · exact settle_next _ _
        · split
          · exact ⟨_, rfl⟩
          · exact runM_next _ _
theorem engineLane_next (s : State) (o : LaneOps) (pre : M Unit) (body chk : List Tile → M Unit) : ∃ t, engineLane s o pre body chk = .next t :=
  engineCalc_next _ _ _ _ _
/-- An XQ lane always has a next state. -/
theorem xqLane_next (s : State) (o : LaneOps) (inLoop : Bool) (pre : M Unit) (act chk : List Tile → M Unit) :
    ∃ t, xqLane s o inLoop pre act chk = .next t := by
  unfold xqLane
  simp only
  split
  · exact settle_next _ _
  · repeat' split
    all_goals exact settle_next _ _

/-! ### An engine lane that starts and completes -/

/-- A loop of checks that all pass leaves the state. -/
theorem forIn_pass {α : Type} (l : List α) (f : α → PUnit → M (ForInStep PUnit)) (s : State)
    (h : ∀ x ∈ l, (f x ⟨⟩).run s = .ok (.yield ⟨⟩, s)) : (forIn l PUnit.unit f).run s = .ok (⟨⟩, s) := by
  induction l with
  | nil => rfl
  | cons x l ih =>
    simp only [List.forIn_cons, StateT.run_bind, h x (by simp), Except.bind_ok']
    exact ih (fun y hy => h y (by simp [hy]))

/-- What the start of a lane leaves that is not speculative: its tokens taken, its consumed tiles empty, the command started with its sources read. -/
def startedCore (s : State) (o : LaneOps) : Core :=
  let c := s.core s.cur
  let c' := (tokTakes s.slot o.tok).foldl (fun c f => c.takeTok s.cmd f) c
  o.srcs.foldl (fun c p => if strongMode o.srcs p.1.n = .consume ∧ c.tileFull false p.1.n.toNat then c.setFull s.cmd p.1.n.toNat false else c) c'

/-- The start of a lane that is not speculative and waits for nothing (R25, R26, R29). -/
theorem startLane_ok {α : Type} {s : State} {o : LaneOps} {chk : List Tile → M α} {a : α} (hs : isSpec s.cmd = false)
    (hu : (s.core s.cur).unsent = []) (hsh : (s.core s.cur).sh = Shadow.nil)
    (ht : ∀ f ∈ tokTakes s.slot o.tok, 0 < (s.core s.cur).tokCount f)
    (hsrc : ∀ p ∈ o.srcs, strongMode o.srcs p.1.n = .consume ∨ strongMode o.srcs p.1.n = .peek → ((s.core s.cur).tile p.1.n.toNat).full = true)
    (hb : s.slot ≠ 2 ∨ (s.core s.cur).holdUsed 2 + (s.core s.cur).begun 2 < holdLimit 2)
    (hd : ∀ d ∈ o.dsts, d.1.mode = .produce → (startedCore s o).tilePending false d.1.n.toNat = false ∧ (startedCore s o).tileFull false d.1.n.toNat = false)
    (hc : (chk (o.srcs.map (fun p => (s.core s.cur).tile p.1.n.toNat))).run s = .ok (a, s)) :
    (startLane o chk).run s = .ok (a,
      let cmd := { s.cmd with started := true, srcs := o.srcs.map (fun p => (s.core s.cur).tile p.1.n.toNat) }
      { (s.setCore s.cur ((startedCore s o).setQueue s.slot (replCmd cmd ((startedCore s o).queue s.slot)))) with cmd := cmd }) := by
  unfold startLane
  simp only [StateT.run_bind, M.run_get, run_core, Except.bind_ok', hu, List.any_nil, hs, Core.seenTile, Bool.false_eq_true, if_false]
  rw [forIn_pass _ _ s (fun f hf => by
    have := ht f hf
    simp only [hsh, Shadow.nil, amGet, amFind, Option.getD_none]
    rw [if_neg (by omega)]; rfl)]
  rw [Except.bind_ok', forIn_pass _ _ s (fun p hp => by
    have hf := hsrc p hp
    simp only [Core.tilePending, Core.tileFull, hsh, Shadow.nil, Bool.not_false, Bool.true_and, Bool.false_eq_true, if_false, List.contains_nil,
      Bool.or_false, and_false]
    rw [if_neg (by tauto)]; rfl)]
  rw [Except.bind_ok', hc, Except.bind_ok', M.run_ite, if_neg (by rintro ⟨h1, h2⟩; exact hb.elim (fun h => h h1) (fun h => absurd h (by omega))), StateT.run_bind,
    forIn_pass _ _ s (fun d hm => by
    have h1 := fun h => (hd d hm h).1
    have h2 := fun h => (hd d hm h).2
    simp only [startedCore] at h1 h2
    rw [if_neg (by rintro ⟨ha, hb⟩; rw [h1 ha] at hb; exact Bool.false_ne_true hb),
      if_neg (by rintro ⟨ha, hb⟩; rw [h2 ha] at hb; exact Bool.false_ne_true hb)]
    rfl)]
  rfl

/-- A lane that has not started, whose checks pass, whose start succeeds with `a` and whose body and completion come to their end. -/
theorem engineCalc_done {α : Type} {s s1 t : State} {o : LaneOps} {pre : M Unit} {comp : List Tile → M α} {body : α → M Unit} {a : α}
    (hi : o.illegal = none) (hc : isSpec s.cmd = false) (hn : s.cmd.started = false) (hst : s.starting = false)
    (hp : pre.run s = .ok ((), s)) (hs : (startLane o comp).run s = .ok (a, s1))
    (hb : (do body a; finishLane o).run s1 = .ok ((), t)) :
    engineCalc s o pre comp body = .next { t with stalled := false } := by
  have h1 : (do pre; startLane o comp).run s = .ok (a, s1) := by
    simp only [StateT.run_bind, hp, Except.bind_ok', hs]
  unfold engineCalc
  simp only [hi, hc, hn, h1, hst, Bool.false_eq_true, false_and, if_false]
  exact runM_ok hb

/-- A lane whose checks fault before anything is consumed takes that fault (R65). -/
theorem engineCalc_trap {α : Type} {s : State} {o : LaneOps} {pre : M Unit} {comp : List Tile → M α} {body : α → M Unit} {x : Trap}
    (hi : o.illegal = none) (hc : isSpec s.cmd = false) (hn : s.cmd.started = false)
    (hp : (do pre; startLane o comp).run s = .error (.trap x)) :
    engineCalc s o pre comp body = .next { cmdFault s s.cur x s.cmd with stalled := false } := by
  unfold engineCalc
  simp only [hi, hc, hn, hp, Bool.false_eq_true, false_and, if_false, settle]

/-! ### Taking a fault -/

/-- What a fault of a running core, without a mark of its own, changes: the mode, the trap record and when it was reported (R168-R170); a nest rests at
a fault of the matrix engine. -/
theorem takeFault_eq {s : State} {k : Nat} {t : Trap} (idx : Nat) (lane : Word) (hr : (s.core k).mode = .running) (ha : t.aux = none) (hv : t.viol = none)
    (hl : t.cls ≠ .link) (he : t.eng ≠ 5) :
    takeFault s k t idx lane = s.updCore k (fun c => { c with mode := .stopped, trap := trapRecord t idx lane, trapAt := s.now }) := by
  have hm : applyTrapMarks s k t = s := by
    unfold applyTrapMarks
    simp only [hv, ha, hl, he, false_and, if_false]
  unfold takeFault
  simp only [hm, he, if_false]
  unfold State.updCore
  simp only [hr]

/-- A fault other than POISON is taken. -/
theorem cmdFault_take {s : State} {k : Nat} {t : Trap} {c : Cmd} (h : t.cls ≠ .poison) : cmdFault s k t c = takeFault s k t c.idx c.lane := by
  simp [cmdFault, h]
/-- Outside hardware loops POISON too is taken (R49). -/
theorem cmdFault_flat {s : State} {k : Nat} {t : Trap} {c : Cmd} (h : (s.core k).loops = []) : cmdFault s k t c = takeFault s k t c.idx c.lane := by
  unfold cmdFault takePoison
  simp [h]

/-! ### Queues -/

/-- The commands that stay when one leaves. -/
theorem mem_cmdsOf_dropCmd {idx : Nat} {q : List QEntry} {m : Cmd} (h : m ∈ cmdsOf (dropCmd idx q)) : m ∈ cmdsOf q ∧ m.idx ≠ idx := by
  simp only [cmdsOf, dropCmd, List.mem_filterMap, List.mem_filter] at h ⊢
  obtain ⟨e, ⟨he, hp⟩, hm⟩ := h
  cases e with
  | cmd c =>
    cases hm
    exact ⟨⟨_, he, rfl⟩, by simpa using hp⟩
  | _ => cases hm

/-- A replaced queue reads as replaced. -/
@[simp] theorem Core.queue_setQueue_self (c : Core) {k : Slot} (h : k < 14) (q : List QEntry) : (c.setQueue k q).queue k = q := by
  simp only [Core.setQueue, Core.queue, dif_pos h]
  rcases hq : c.qs with ⟨a, ha⟩
  simp [Vector.getD, ha, h]

/-! ### The control core -/

/-- A control-core lane that raises a fault outside loops takes it. -/
theorem ccLane_trap {s : State} {m : M Unit} {x : Trap} (hs : s.cmd.spec = .none) (ha : (s.core s.cur).ccFree s.cmd)
    (hm : m.run s = .error (.trap x)) : ccLane s m = .next { cmdFault s s.cur x s.cmd with stalled := false } := by
  rw [ccLane_ready _ hs ha]
  exact runM_trap (by simp only [StateT.run_bind, hm, Except.bind_error']) (by simp [isSpec, hs])

end Sys2Proof.Machine
end

