-- ==== Sys2Proof/Laws/PerInstr.lean ====
section
/-! SUPPORT. A law of every instruction: its encoding fits in 64 bits. -/

namespace Sys2Proof.Laws

/-! ### Bounds of the coded fields -/

theorem TileMode_code_lt (x : TileMode) : x.code < 4 := by cases x <;> decide
theorem Scope_code_lt (x : Scope) : x.code < 8 := by cases x <;> decide
theorem Fmt_code_lt (x : Fmt) : x.code < 16 := by cases x <;> decide
theorem Rm_code_lt (x : Rm) : x.code < 4 := by cases x <;> decide
theorem Cond_code_lt (x : Cond) : x.code < 8 := by cases x <;> decide
theorem Comb_code_lt (x : Comb) : x.code < 4 := by cases x <;> decide
theorem MemSz_code_lt (x : MemSz) : x.code < 8 := by cases x <;> decide
theorem AmoOp_code_lt (x : AmoOp) : x.code < 8 := by cases x <;> decide
theorem AmoOrd_code_lt (x : AmoOrd) : x.code < 4 := by cases x <;> decide
theorem FenceKind_code_lt (x : FenceKind) : x.code < 4 := by cases x <;> decide
theorem Red_code_lt (x : Red) : x.code < 8 := by cases x <;> decide
theorem VCond_code_lt (x : VCond) : x.code < 8 := by cases x <;> decide
theorem VRed_code_lt (x : VRed) : x.code < 8 := by cases x <;> decide
theorem VScan_code_lt (x : VScan) : x.code < 4 := by cases x <;> decide
theorem VRng_code_lt (x : VRng) : x.code < 4 := by cases x <;> decide
theorem Shape_code_lt (x : Shape) : x.code < 4 := by cases x <;> decide
theorem GateEng_code_lt (x : GateEng) : x.code < 8 := by cases x <;> decide
theorem SlotScope_code_lt (x : SlotScope) : x.code < 4 := by cases x <;> decide
theorem MbScope_code_lt (x : MbScope) : x.code < 8 := by cases x <;> decide
theorem Cls_code_lt (x : Cls) : x.code < 8 := by cases x <;> decide
theorem bool_lt (x : Bool) : x.toNat < 2 := by cases x <;> decide
theorem tileRef_lt (x : TileRef) : x.code < 256 := by
  have h1 := x.n.isLt; have h2 := TileMode_code_lt x.mode
  unfold TileRef.code; omega
theorem tok_lt (x : Tok) : x.enc < 2 ^ 24 := by
  have h1 := bool_lt x.wl; have h2 := bool_lt x.wr; have h3 := bool_lt x.sl; have h4 := bool_lt x.sr
  unfold Tok.enc put; omega
theorem eimm40_lt (v : BitVec 40) : eimm40 v ≤ (2 ^ 32 - 1) * 2 ^ 32 + 255 := by
  have := v.isLt
  unfold eimm40 put; omega
theorem stages_lt (g : Stages) : g.enc ≤ 15 * 2 ^ 60 + 255 := by
  have h1 := g.ld.isLt; have h2 := g.st.isLt; have h3 := g.vx.isLt; have h4 := g.mx.isLt; have h5 := g.cp.isLt; have h6 := g.xq.isLt
  unfold Stages.enc put; omega
theorem ldArgs_lt (o : LdArgs) : o.enc < 2 ^ 56 - 2 ^ 41 := by
  have h1 := tok_lt o.tok; have h2 := tileRef_lt o.td; have h3 := o.xa.isLt; have h4 := Fmt_code_lt o.ty; have h5 := o.nrow.isLt
  have h6 := o.nel.isLt; have h7 := o.xb.isLt; have h8 := o.tr.isLt
  unfold LdArgs.enc put; omega
theorem stArgsRed_lt (o : StArgs) : o.encRed < 2 ^ 56 - 2 ^ 41 := by
  have h1 := tok_lt o.tok; have h2 := tileRef_lt o.ts; have h3 := o.xa.isLt; have h5 := o.nrow.isLt
  have h6 := o.nel.isLt; have h7 := o.xb.isLt; have h8 := o.tr.isLt
  unfold StArgs.encRed put; omega
theorem stArgs_lt (o : StArgs) : o.enc < 2 ^ 56 - 2 ^ 40 := by
  have h1 := stArgsRed_lt o; have h4 := Fmt_code_lt o.ty
  unfold StArgs.enc put; omega
theorem vsrc_lt (x : VSrc) (lo : Nat) : x.enc lo ≤ 255 * 2 ^ lo + 3976 := by
  cases x with
  | tile t =>
    have h := tileRef_lt t
    exact le_trans (Nat.mul_le_mul (show t.code ≤ 255 by omega) (le_refl _)) (Nat.le_add_right _ _)
  | scalar r =>
    have := r.isLt
    simp only [VSrc.enc, put]; omega
theorem pmSem_lt (x : PmSem) : x.enc < 2 ^ 24 := by
  have := x.sem.isLt
  unfold PmSem.enc put; split <;> omega
theorem statReg_lt (x : StatReg) (lo : Nat) (h : lo ≤ 48) : x.enc lo ≤ 31 * 2 ^ 48 := by
  cases x with
  | none => simp only [StatReg.enc, put]; omega
  | _ r =>
    have := r.isLt
    have : 2 ^ lo ≤ 2 ^ 48 := Nat.pow_le_pow_right (by decide) h
    exact Nat.mul_le_mul (by omega) this

/-! ### The law -/

/-- The encoding of an instruction fits in two lanes. -/
def WordFits.Statement (i : Instr) : Prop := ∀ w, encode i = some w → w < 2 ^ 64

theorem WordFits.add (d : XReg) (a : XReg) (b : XReg) (w : Bool) : WordFits.Statement (.add d a b w) := by
  intro r hr; cases hr; have h0 := d.isLt; have h1 := a.isLt; have h2 := b.isLt; have h3 := bool_lt w
  simp only [put]; omega
theorem WordFits.sub (d : XReg) (a : XReg) (b : XReg) (w : Bool) : WordFits.Statement (.sub d a b w) := by
  intro r hr; cases hr; have h0 := d.isLt; have h1 := a.isLt; have h2 := b.isLt; have h3 := bool_lt w
  simp only [put]; omega
theorem WordFits.and (d : XReg) (a : XReg) (b : XReg) (w : Bool) : WordFits.Statement (.and d a b w) := by
  intro r hr; cases hr; have h0 := d.isLt; have h1 := a.isLt; have h2 := b.isLt; have h3 := bool_lt w
  simp only [put]; omega
theorem WordFits.or (d : XReg) (a : XReg) (b : XReg) (w : Bool) : WordFits.Statement (.or d a b w) := by
  intro r hr; cases hr; have h0 := d.isLt; have h1 := a.isLt; have h2 := b.isLt; have h3 := bool_lt w
  simp only [put]; omega
theorem WordFits.xor (d : XReg) (a : XReg) (b : XReg) (w : Bool) : WordFits.Statement (.xor d a b w) := by
  intro r hr; cases hr; have h0 := d.isLt; have h1 := a.isLt; have h2 := b.isLt; have h3 := bool_lt w
  simp only [put]; omega
theorem WordFits.shl (d : XReg) (a : XReg) (b : XReg) (w : Bool) : WordFits.Statement (.shl d a b w) := by
  intro r hr; cases hr; have h0 := d.isLt; have h1 := a.isLt; have h2 := b.isLt; have h3 := bool_lt w
  simp only [put]; omega
theorem WordFits.shr (d : XReg) (a : XReg) (b : XReg) (w : Bool) : WordFits.Statement (.shr d a b w) := by
  intro r hr; cases hr; have h0 := d.isLt; have h1 := a.isLt; have h2 := b.isLt; have h3 := bool_lt w
  simp only [put]; omega
theorem WordFits.sra (d : XReg) (a : XReg) (b : XReg) (w : Bool) : WordFits.Statement (.sra d a b w) := by
  intro r hr; cases hr; have h0 := d.isLt; have h1 := a.isLt; have h2 := b.isLt; have h3 := bool_lt w
  simp only [put]; omega
theorem WordFits.mul (d : XReg) (a : XReg) (b : XReg) (w : Bool) : WordFits.Statement (.mul d a b w) := by
  intro r hr; cases hr; have h0 := d.isLt; have h1 := a.isLt; have h2 := b.isLt; have h3 := bool_lt w
  simp only [put]; omega
theorem WordFits.mulh (d : XReg) (a : XReg) (b : XReg) (w : Bool) (u : Bool) : WordFits.Statement (.mulh d a b w u) := by
  intro r hr; cases hr; have h0 := d.isLt; have h1 := a.isLt; have h2 := b.isLt; have h3 := bool_lt w; have h4 := bool_lt u
  simp only [put]; omega
theorem WordFits.div (d : XReg) (a : XReg) (b : XReg) (w : Bool) (u : Bool) : WordFits.Statement (.div d a b w u) := by
  intro r hr; cases hr; have h0 := d.isLt; have h1 := a.isLt; have h2 := b.isLt; have h3 := bool_lt w; have h4 := bool_lt u
  simp only [put]; omega
theorem WordFits.rem (d : XReg) (a : XReg) (b : XReg) (w : Bool) (u : Bool) : WordFits.Statement (.rem d a b w u) := by
  intro r hr; cases hr; have h0 := d.isLt; have h1 := a.isLt; have h2 := b.isLt; have h3 := bool_lt w; have h4 := bool_lt u
  simp only [put]; omega
theorem WordFits.min (d : XReg) (a : XReg) (b : XReg) (w : Bool) (u : Bool) : WordFits.Statement (.min d a b w u) := by
  intro r hr; cases hr; have h0 := d.isLt; have h1 := a.isLt; have h2 := b.isLt; have h3 := bool_lt w; have h4 := bool_lt u
  simp only [put]; omega
theorem WordFits.max (d : XReg) (a : XReg) (b : XReg) (w : Bool) (u : Bool) : WordFits.Statement (.max d a b w u) := by
  intro r hr; cases hr; have h0 := d.isLt; have h1 := a.isLt; have h2 := b.isLt; have h3 := bool_lt w; have h4 := bool_lt u
  simp only [put]; omega
theorem WordFits.addi (d : XReg) (a : XReg) (imm : BitVec 14) : WordFits.Statement (.addi d a imm) := by
  intro r hr; cases hr; have h0 := d.isLt; have h1 := a.isLt; have h2 := imm.isLt
  simp only [put]; omega
theorem WordFits.andi (d : XReg) (a : XReg) (imm : BitVec 14) : WordFits.Statement (.andi d a imm) := by
  intro r hr; cases hr; have h0 := d.isLt; have h1 := a.isLt; have h2 := imm.isLt
  simp only [put]; omega
theorem WordFits.ori (d : XReg) (a : XReg) (imm : BitVec 14) : WordFits.Statement (.ori d a imm) := by
  intro r hr; cases hr; have h0 := d.isLt; have h1 := a.isLt; have h2 := imm.isLt
  simp only [put]; omega
theorem WordFits.xori (d : XReg) (a : XReg) (imm : BitVec 14) : WordFits.Statement (.xori d a imm) := by
  intro r hr; cases hr; have h0 := d.isLt; have h1 := a.isLt; have h2 := imm.isLt
  simp only [put]; omega
theorem WordFits.shli (d : XReg) (a : XReg) (w : Bool) (sh : BitVec 6) : WordFits.Statement (.shli d a w sh) := by
  intro r hr; cases hr; have h0 := d.isLt; have h1 := a.isLt; have h2 := bool_lt w; have h3 := sh.isLt
  simp only [put]; omega
theorem WordFits.shri (d : XReg) (a : XReg) (w : Bool) (sh : BitVec 6) : WordFits.Statement (.shri d a w sh) := by
  intro r hr; cases hr; have h0 := d.isLt; have h1 := a.isLt; have h2 := bool_lt w; have h3 := sh.isLt
  simp only [put]; omega
theorem WordFits.srai (d : XReg) (a : XReg) (w : Bool) (sh : BitVec 6) : WordFits.Statement (.srai d a w sh) := by
  intro r hr; cases hr; have h0 := d.isLt; have h1 := a.isLt; have h2 := bool_lt w; have h3 := sh.isLt
  simp only [put]; omega
theorem WordFits.trapZ (bits : BitVec 24) : WordFits.Statement (.trapZ bits) := by
  intro r hr; cases hr; have h0 := bits.isLt
  simp only [put]; omega
theorem WordFits.nop : WordFits.Statement (.nop) := by
  intro r hr; cases hr
  simp only [put]; omega
theorem WordFits.cmp (pd : PReg) (a : XReg) (b : XReg) (comb : Comb) (w : Bool) (c : Cond) : WordFits.Statement (.cmp pd a b comb w c) := by
  intro r hr; cases hr; have h0 := pd.isLt; have h1 := a.isLt; have h2 := b.isLt; have h3 := Comb_code_lt comb; have h4 := bool_lt w; have h5 := Cond_code_lt c
  simp only [put]; omega
theorem WordFits.cmpi (pd : PReg) (a : XReg) (c : Cond) (imm : BitVec 11) : WordFits.Statement (.cmpi pd a c imm) := by
  intro r hr; cases hr; have h0 := pd.isLt; have h1 := a.isLt; have h2 := Cond_code_lt c; have h3 := imm.isLt
  simp only [put]; omega
theorem WordFits.pcomb (pd : PReg) (pa : PReg) (pb : PReg) (lut : BitVec 4) : WordFits.Statement (.pcomb pd pa pb lut) := by
  intro r hr; cases hr; have h0 := pd.isLt; have h1 := pa.isLt; have h2 := pb.isLt; have h3 := lut.isLt
  simp only [put]; omega
theorem WordFits.sel (d : XReg) (a : XReg) (b : XReg) (neg : Bool) (p : PReg) : WordFits.Statement (.sel d a b neg p) := by
  intro r hr; cases hr; have h0 := d.isLt; have h1 := a.isLt; have h2 := b.isLt; have h3 := bool_lt neg; have h4 := p.isLt
  simp only [put]; omega
theorem WordFits.movi (d : XReg) (imm : BitVec 40) : WordFits.Statement (.movi d imm) := by
  intro r hr; cases hr; have h0 := d.isLt; have h1 := eimm40_lt imm
  simp only [put]; omega
theorem WordFits.movhi (d : XReg) (imm : BitVec 24) : WordFits.Statement (.movhi d imm) := by
  intro r hr; cases hr; have h0 := d.isLt; have h1 := imm.isLt
  simp only [put]; omega
theorem WordFits.lea (d : XReg) (a : XReg) (pcrel : Bool) (sc : BitVec 2) (imm : BitVec 40) : WordFits.Statement (.lea d a pcrel sc imm) := by
  intro r hr; cases hr; have h0 := d.isLt; have h1 := a.isLt; have h2 := bool_lt pcrel; have h3 := sc.isLt; have h4 := eimm40_lt imm
  simp only [put]; omega
theorem WordFits.cld (d : XReg) (a : XReg) (sz : MemSz) (off : BitVec 11) : WordFits.Statement (.cld d a sz off) := by
  intro r hr; cases hr; have h0 := d.isLt; have h1 := a.isLt; have h2 := MemSz_code_lt sz; have h3 := off.isLt
  simp only [put]; omega
theorem WordFits.cst (d : XReg) (a : XReg) (sz : MemSz) (off : BitVec 11) : WordFits.Statement (.cst d a sz off) := by
  intro r hr; cases hr; have h0 := d.isLt; have h1 := a.isLt; have h2 := MemSz_code_lt sz; have h3 := off.isLt
  simp only [put]; omega
theorem WordFits.sld (d : XReg) (a : XReg) (sz : MemSz) (off : BitVec 11) : WordFits.Statement (.sld d a sz off) := by
  intro r hr; cases hr; have h0 := d.isLt; have h1 := a.isLt; have h2 := MemSz_code_lt sz; have h3 := off.isLt
  simp only [put]; omega
theorem WordFits.sst (d : XReg) (a : XReg) (sz : MemSz) (off : BitVec 11) : WordFits.Statement (.sst d a sz off) := by
  intro r hr; cases hr; have h0 := d.isLt; have h1 := a.isLt; have h2 := MemSz_code_lt sz; have h3 := off.isLt
  simp only [put]; omega
theorem WordFits.camo (d : XReg) (a : XReg) (b : XReg) (scope : Scope) (ord : AmoOrd) (sz64 : Bool) (op : AmoOp) : WordFits.Statement (.camo d a b scope ord sz64 op) := by
  intro r hr; cases hr; have h0 := d.isLt; have h1 := a.isLt; have h2 := b.isLt; have h3 := Scope_code_lt scope; have h4 := AmoOrd_code_lt ord; have h5 := bool_lt sz64; have h6 := AmoOp_code_lt op
  simp only [put]; omega
theorem WordFits.cfence (kind : FenceKind) (scope : Scope) : WordFits.Statement (.cfence kind scope) := by
  intro r hr; cases hr; have h0 := FenceKind_code_lt kind; have h1 := Scope_code_lt scope
  simp only [put]; omega
theorem WordFits.b (p : PReg) (neg : Bool) (hint : Bool) (off : BitVec 19) : WordFits.Statement (.b p neg hint off) := by
  intro r hr; cases hr; have h0 := p.isLt; have h1 := bool_lt neg; have h2 := bool_lt hint; have h3 := off.isLt
  simp only [put]; omega
theorem WordFits.call (p : PReg) (neg : Bool) (hint : Bool) (off : BitVec 19) : WordFits.Statement (.call p neg hint off) := by
  intro r hr; cases hr; have h0 := p.isLt; have h1 := bool_lt neg; have h2 := bool_lt hint; have h3 := off.isLt
  simp only [put]; omega
theorem WordFits.jr (a : XReg) : WordFits.Statement (.jr a) := by
  intro r hr; cases hr; have h0 := a.isLt
  simp only [put]; omega
theorem WordFits.callr (d : XReg) (a : XReg) : WordFits.Statement (.callr d a) := by
  intro r hr; cases hr; have h0 := d.isLt; have h1 := a.isLt
  simp only [put]; omega
theorem WordFits.loop (lc : BitVec 2) (a : XReg) (s : BitVec 2) (stg : Stages) (len : BitVec 12) : WordFits.Statement (.loop lc a s stg len) := by
  intro r hr; cases hr; have h0 := lc.isLt; have h1 := a.isLt; have h2 := s.isLt; have h3 := stages_lt stg; have h4 := len.isLt
  simp only [put]; omega
theorem WordFits.loopi (lc : BitVec 2) (s : BitVec 2) (stg : Stages) (len : BitVec 12) (n : BitVec 14) : WordFits.Statement (.loopi lc s stg len n) := by
  intro r hr; cases hr; have h0 := lc.isLt; have h1 := s.isLt; have h2 := stages_lt stg; have h3 := len.isLt; have h4 := n.isLt
  simp only [put]; omega
theorem WordFits.qjoin (mask : BitVec 14) : WordFits.Statement (.qjoin mask) := by
  intro r hr; cases hr; have h0 := mask.isLt
  simp only [put]; omega
theorem WordFits.qflush (cp : BitVec 8) (q : BitVec 5) : WordFits.Statement (.qflush cp q) := by
  intro r hr; cases hr; have h0 := cp.isLt; have h1 := q.isLt
  simp only [put]; omega
theorem WordFits.sysr (d : XReg) (num : BitVec 14) : WordFits.Statement (.sysr d num) := by
  intro r hr; cases hr; have h0 := d.isLt; have h1 := num.isLt
  simp only [put]; omega
theorem WordFits.bkfmtWrite (n : BitVec 4) (a : XReg) : WordFits.Statement (.bkfmtWrite n a) := by
  intro r hr; cases hr; have h0 := n.isLt; have h1 := a.isLt
  simp only [put]; omega
theorem WordFits.bkbndWrite (n : BitVec 4) (a : XReg) : WordFits.Statement (.bkbndWrite n a) := by
  intro r hr; cases hr; have h0 := n.isLt; have h1 := a.isLt
  simp only [put]; omega
theorem WordFits.paceGapWrite (e : BitVec 3) (a : XReg) : WordFits.Statement (.paceGapWrite e a) := by
  intro r hr; cases hr; have h0 := e.isLt; have h1 := a.isLt
  simp only [put]; omega
theorem WordFits.sysw (a : XReg) (num : BitVec 14) : WordFits.Statement (.sysw a num) := by
  intro r hr; cases hr; have h0 := a.isLt; have h1 := num.isLt
  simp only [put]; omega
theorem WordFits.exit (status : BitVec 8) : WordFits.Statement (.exit status) := by
  intro r hr; cases hr; have h0 := status.isLt
  simp only [put]; omega
theorem WordFits.brk (code : BitVec 14) : WordFits.Statement (.brk code) := by
  intro r hr; cases hr; have h0 := code.isLt
  simp only [put]; omega
theorem WordFits.mxcfg (n : BitVec 5) (a : XReg) (imm : BitVec 40) : WordFits.Statement (.mxcfg n a imm) := by
  intro r hr; cases hr; have h0 := n.isLt; have h1 := a.isLt; have h2 := eimm40_lt imm
  simp only [put]; omega
theorem WordFits.mxcfgT (a : XReg) (imm : BitVec 40) : WordFits.Statement (.mxcfgT a imm) := by
  intro r hr; cases hr; have h0 := a.isLt; have h1 := eimm40_lt imm
  simp only [put]; omega
theorem WordFits.mxst (d : XReg) (clr : Bool) (k : BitVec 3) : WordFits.Statement (.mxst d clr k) := by
  intro r hr; cases hr; have h0 := d.isLt; have h1 := bool_lt clr; have h2 := k.isLt
  simp only [put]; omega
theorem WordFits.mxstAll (d : XReg) (clr : Bool) : WordFits.Statement (.mxstAll d clr) := by
  intro r hr; cases hr; have h0 := d.isLt; have h1 := bool_lt clr
  simp only [put]; omega
theorem WordFits.pget (d : XReg) : WordFits.Statement (.pget d) := by
  intro r hr; cases hr; have h0 := d.isLt
  simp only [put]; omega
theorem WordFits.pset (a : XReg) (mask : BitVec 7) : WordFits.Statement (.pset a mask) := by
  intro r hr; cases hr; have h0 := a.isLt; have h1 := mask.isLt
  simp only [put]; omega
theorem WordFits.bitcPop (d : XReg) (a : XReg) (w : Bool) : WordFits.Statement (.bitcPop d a w) := by
  intro r hr; cases hr; have h0 := d.isLt; have h1 := a.isLt; have h2 := bool_lt w
  simp only [put]; omega
theorem WordFits.bitcClz (d : XReg) (a : XReg) (w : Bool) : WordFits.Statement (.bitcClz d a w) := by
  intro r hr; cases hr; have h0 := d.isLt; have h1 := a.isLt; have h2 := bool_lt w
  simp only [put]; omega
theorem WordFits.bitcCtz (d : XReg) (a : XReg) (w : Bool) : WordFits.Statement (.bitcCtz d a w) := by
  intro r hr; cases hr; have h0 := d.isLt; have h1 := a.isLt; have h2 := bool_lt w
  simp only [put]; omega
theorem WordFits.ext (d : XReg) (a : XReg) (b : XReg) (s : Bool) : WordFits.Statement (.ext d a b s) := by
  intro r hr; cases hr; have h0 := d.isLt; have h1 := a.isLt; have h2 := b.isLt; have h3 := bool_lt s
  simp only [put]; omega
theorem WordFits.ins (d : XReg) (a : XReg) (b : XReg) : WordFits.Statement (.ins d a b) := by
  intro r hr; cases hr; have h0 := d.isLt; have h1 := a.isLt; have h2 := b.isLt
  simp only [put]; omega
theorem WordFits.lcr (d : XReg) (n : BitVec 2) : WordFits.Statement (.lcr d n) := by
  intro r hr; cases hr; have h0 := d.isLt; have h1 := n.isLt
  simp only [put]; omega
theorem WordFits.lcw (n : BitVec 2) (a : XReg) : WordFits.Statement (.lcw n a) := by
  intro r hr; cases hr; have h0 := n.isLt; have h1 := a.isLt
  simp only [put]; omega
theorem WordFits.ldT (o : LdArgs) : WordFits.Statement (.ldT o) := by
  intro r hr; cases hr; have h0 := ldArgs_lt o
  simp only [put]; omega
theorem WordFits.ldS (o : LdArgs) : WordFits.Statement (.ldS o) := by
  intro r hr; cases hr; have h0 := ldArgs_lt o
  simp only [put]; omega
theorem WordFits.ldG (o : LdArgs) (ti : TileRef) : WordFits.Statement (.ldG o ti) := by
  intro r hr; cases hr; have h0 := ldArgs_lt o; have h1 := tileRef_lt ti
  simp only [put]; omega
theorem WordFits.ldGs (o : LdArgs) (ti : TileRef) : WordFits.Statement (.ldGs o ti) := by
  intro r hr; cases hr; have h0 := ldArgs_lt o; have h1 := tileRef_lt ti
  simp only [put]; omega
theorem WordFits.ldB (o : LdArgs) (sp : Bool) : WordFits.Statement (.ldB o sp) := by
  intro r hr; cases hr; have h0 := ldArgs_lt o; have h1 := bool_lt sp
  simp only [put]; omega
theorem WordFits.ldW (o : LdArgs) : WordFits.Statement (.ldW o) := by
  intro r hr; cases hr; have h0 := ldArgs_lt o
  simp only [put]; omega
theorem WordFits.ldAcq (o : LdArgs) (sp : Bool) (scope : Scope) : WordFits.Statement (.ldAcq o sp scope) := by
  intro r hr; cases hr; have h0 := ldArgs_lt o; have h1 := bool_lt sp; have h2 := Scope_code_lt scope
  simp only [put]; omega
theorem WordFits.pf (tok : Tok) (nl : BitVec 8) (xa : XReg) : WordFits.Statement (.pf tok nl xa) := by
  intro r hr; cases hr; have h0 := tok_lt tok; have h1 := nl.isLt; have h2 := xa.isLt
  simp only [put]; omega
theorem WordFits.pfW (tok : Tok) (nw : BitVec 5) (xa : XReg) : WordFits.Statement (.pfW tok nw xa) := by
  intro r hr; cases hr; have h0 := tok_lt tok; have h1 := nw.isLt; have h2 := xa.isLt
  simp only [put]; omega
theorem WordFits.stT (o : StArgs) : WordFits.Statement (.stT o) := by
  intro r hr; cases hr; have h0 := stArgs_lt o
  simp only [put]; omega
theorem WordFits.stS (o : StArgs) : WordFits.Statement (.stS o) := by
  intro r hr; cases hr; have h0 := stArgs_lt o
  simp only [put]; omega
theorem WordFits.stSc (o : StArgs) (ti : TileRef) : WordFits.Statement (.stSc o ti) := by
  intro r hr; cases hr; have h0 := stArgs_lt o; have h1 := tileRef_lt ti
  simp only [put]; omega
theorem WordFits.stSs (o : StArgs) (ti : TileRef) : WordFits.Statement (.stSs o ti) := by
  intro r hr; cases hr; have h0 := stArgs_lt o; have h1 := tileRef_lt ti
  simp only [put]; omega
theorem WordFits.stRel (o : StArgs) (sp : Bool) (scope : Scope) : WordFits.Statement (.stRel o sp scope) := by
  intro r hr; cases hr; have h0 := stArgs_lt o; have h1 := bool_lt sp; have h2 := Scope_code_lt scope
  simp only [put]; omega
theorem WordFits.stRed (o : StArgs) (red : Red) (semen : Bool) (sem : BitVec 8) : WordFits.Statement (.stRed o red semen sem) := by
  intro r hr; cases hr; have h0 := stArgsRed_lt o; have h1 := Red_code_lt red; have h2 := bool_lt semen; have h3 := sem.isLt
  simp only [put]; omega
theorem WordFits.pubv (tok : Tok) (win : BitVec 4) : WordFits.Statement (.pubv tok win) := by
  intro r hr; cases hr; have h0 := tok_lt tok; have h1 := win.isLt
  simp only [put]; omega
theorem WordFits.vadd (tok : Tok) (td : TileRef) (ta : TileRef) (b : VSrc) (rm : Rm) (sat : Bool) : WordFits.Statement (.vadd tok td ta b rm sat) := by
  intro r hr; cases hr; have h0 := tok_lt tok; have h1 := tileRef_lt td; have h2 := tileRef_lt ta; have h3 := vsrc_lt b 48; have h4 := Rm_code_lt rm; have h5 := bool_lt sat
  simp only [put]; omega
theorem WordFits.vsub (tok : Tok) (td : TileRef) (ta : TileRef) (b : VSrc) (rm : Rm) (sat : Bool) : WordFits.Statement (.vsub tok td ta b rm sat) := by
  intro r hr; cases hr; have h0 := tok_lt tok; have h1 := tileRef_lt td; have h2 := tileRef_lt ta; have h3 := vsrc_lt b 48; have h4 := Rm_code_lt rm; have h5 := bool_lt sat
  simp only [put]; omega
theorem WordFits.vmul (tok : Tok) (td : TileRef) (ta : TileRef) (b : VSrc) (rm : Rm) (sat : Bool) : WordFits.Statement (.vmul tok td ta b rm sat) := by
  intro r hr; cases hr; have h0 := tok_lt tok; have h1 := tileRef_lt td; have h2 := tileRef_lt ta; have h3 := vsrc_lt b 48; have h4 := Rm_code_lt rm; have h5 := bool_lt sat
  simp only [put]; omega
theorem WordFits.vfma (tok : Tok) (td : TileRef) (ta : TileRef) (b : VSrc) (tc : TileRef) (rm : Rm) : WordFits.Statement (.vfma tok td ta b tc rm) := by
  intro r hr; cases hr; have h0 := tok_lt tok; have h1 := tileRef_lt td; have h2 := tileRef_lt ta; have h3 := vsrc_lt b 48; have h4 := tileRef_lt tc; have h5 := Rm_code_lt rm
  simp only [put]; omega
theorem WordFits.vfms (tok : Tok) (td : TileRef) (ta : TileRef) (b : VSrc) (tc : TileRef) (rm : Rm) : WordFits.Statement (.vfms tok td ta b tc rm) := by
  intro r hr; cases hr; have h0 := tok_lt tok; have h1 := tileRef_lt td; have h2 := tileRef_lt ta; have h3 := vsrc_lt b 48; have h4 := tileRef_lt tc; have h5 := Rm_code_lt rm
  simp only [put]; omega
theorem WordFits.vmin (tok : Tok) (td : TileRef) (ta : TileRef) (b : VSrc) : WordFits.Statement (.vmin tok td ta b) := by
  intro r hr; cases hr; have h0 := tok_lt tok; have h1 := tileRef_lt td; have h2 := tileRef_lt ta; have h3 := vsrc_lt b 48
  simp only [put]; omega
theorem WordFits.vmax (tok : Tok) (td : TileRef) (ta : TileRef) (b : VSrc) : WordFits.Statement (.vmax tok td ta b) := by
  intro r hr; cases hr; have h0 := tok_lt tok; have h1 := tileRef_lt td; have h2 := tileRef_lt ta; have h3 := vsrc_lt b 48
  simp only [put]; omega
theorem WordFits.vabs (tok : Tok) (td : TileRef) (ta : TileRef) (sat : Bool) : WordFits.Statement (.vabs tok td ta sat) := by
  intro r hr; cases hr; have h0 := tok_lt tok; have h1 := tileRef_lt td; have h2 := tileRef_lt ta; have h3 := bool_lt sat
  simp only [put]; omega
theorem WordFits.vneg (tok : Tok) (td : TileRef) (ta : TileRef) (sat : Bool) : WordFits.Statement (.vneg tok td ta sat) := by
  intro r hr; cases hr; have h0 := tok_lt tok; have h1 := tileRef_lt td; have h2 := tileRef_lt ta; have h3 := bool_lt sat
  simp only [put]; omega
theorem WordFits.vcmp (tok : Tok) (td : TileRef) (ta : TileRef) (b : VSrc) (c : VCond) : WordFits.Statement (.vcmp tok td ta b c) := by
  intro r hr; cases hr; have h0 := tok_lt tok; have h1 := tileRef_lt td; have h2 := tileRef_lt ta; have h3 := vsrc_lt b 48; have h4 := VCond_code_lt c
  simp only [put]; omega
theorem WordFits.vsel (tok : Tok) (td : TileRef) (tm : TileRef) (ta : TileRef) (b : VSrc) : WordFits.Statement (.vsel tok td tm ta b) := by
  intro r hr; cases hr; have h0 := tok_lt tok; have h1 := tileRef_lt td; have h2 := tileRef_lt tm; have h3 := tileRef_lt ta; have h4 := vsrc_lt b 40
  simp only [put]; omega
theorem WordFits.vand (tok : Tok) (td : TileRef) (ta : TileRef) (b : VSrc) : WordFits.Statement (.vand tok td ta b) := by
  intro r hr; cases hr; have h0 := tok_lt tok; have h1 := tileRef_lt td; have h2 := tileRef_lt ta; have h3 := vsrc_lt b 48
  simp only [put]; omega
theorem WordFits.vor (tok : Tok) (td : TileRef) (ta : TileRef) (b : VSrc) : WordFits.Statement (.vor tok td ta b) := by
  intro r hr; cases hr; have h0 := tok_lt tok; have h1 := tileRef_lt td; have h2 := tileRef_lt ta; have h3 := vsrc_lt b 48
  simp only [put]; omega
theorem WordFits.vxor (tok : Tok) (td : TileRef) (ta : TileRef) (b : VSrc) : WordFits.Statement (.vxor tok td ta b) := by
  intro r hr; cases hr; have h0 := tok_lt tok; have h1 := tileRef_lt td; have h2 := tileRef_lt ta; have h3 := vsrc_lt b 48
  simp only [put]; omega
theorem WordFits.vshl (tok : Tok) (td : TileRef) (ta : TileRef) (b : VSrc) : WordFits.Statement (.vshl tok td ta b) := by
  intro r hr; cases hr; have h0 := tok_lt tok; have h1 := tileRef_lt td; have h2 := tileRef_lt ta; have h3 := vsrc_lt b 48
  simp only [put]; omega
theorem WordFits.vshr (tok : Tok) (td : TileRef) (ta : TileRef) (b : VSrc) (ari : Bool) : WordFits.Statement (.vshr tok td ta b ari) := by
  intro r hr; cases hr; have h0 := tok_lt tok; have h1 := tileRef_lt td; have h2 := tileRef_lt ta; have h3 := vsrc_lt b 48; have h4 := bool_lt ari
  simp only [put]; omega
theorem WordFits.vcvt (tok : Tok) (td : TileRef) (ta : TileRef) (tb : TileRef) (tc : TileRef) (ss : Bool) (ds : Bool) (ty : Fmt) (rm : Rm) (sat : Bool) (part : BitVec 3) : WordFits.Statement (.vcvt tok td ta tb tc ss ds ty rm sat part) := by
  intro r hr; cases hr; have h0 := tok_lt tok; have h1 := tileRef_lt td; have h2 := tileRef_lt ta; have h3 := tileRef_lt tb; have h4 := tileRef_lt tc; have h5 := bool_lt ss; have h6 := bool_lt ds; have h7 := Fmt_code_lt ty; have h8 := Rm_code_lt rm; have h9 := bool_lt sat; have h10 := part.isLt
  simp only [put]; omega
theorem WordFits.vexp2 (tok : Tok) (td : TileRef) (ta : TileRef) : WordFits.Statement (.vexp2 tok td ta) := by
  intro r hr; cases hr; have h0 := tok_lt tok; have h1 := tileRef_lt td; have h2 := tileRef_lt ta
  simp only [put]; omega
theorem WordFits.vlog2 (tok : Tok) (td : TileRef) (ta : TileRef) : WordFits.Statement (.vlog2 tok td ta) := by
  intro r hr; cases hr; have h0 := tok_lt tok; have h1 := tileRef_lt td; have h2 := tileRef_lt ta
  simp only [put]; omega
theorem WordFits.vrcp (tok : Tok) (td : TileRef) (ta : TileRef) : WordFits.Statement (.vrcp tok td ta) := by
  intro r hr; cases hr; have h0 := tok_lt tok; have h1 := tileRef_lt td; have h2 := tileRef_lt ta
  simp only [put]; omega
theorem WordFits.vrsq (tok : Tok) (td : TileRef) (ta : TileRef) : WordFits.Statement (.vrsq tok td ta) := by
  intro r hr; cases hr; have h0 := tok_lt tok; have h1 := tileRef_lt td; have h2 := tileRef_lt ta
  simp only [put]; omega
theorem WordFits.vtanh (tok : Tok) (td : TileRef) (ta : TileRef) : WordFits.Statement (.vtanh tok td ta) := by
  intro r hr; cases hr; have h0 := tok_lt tok; have h1 := tileRef_lt td; have h2 := tileRef_lt ta
  simp only [put]; omega
theorem WordFits.vredr (tok : Tok) (td : TileRef) (ta : TileRef) (f : VRed) (sat : Bool) : WordFits.Statement (.vredr tok td ta f sat) := by
  intro r hr; cases hr; have h0 := tok_lt tok; have h1 := tileRef_lt td; have h2 := tileRef_lt ta; have h3 := VRed_code_lt f; have h4 := bool_lt sat
  simp only [put]; omega
theorem WordFits.vredc (tok : Tok) (td : TileRef) (ta : TileRef) (f : VRed) (sat : Bool) : WordFits.Statement (.vredc tok td ta f sat) := by
  intro r hr; cases hr; have h0 := tok_lt tok; have h1 := tileRef_lt td; have h2 := tileRef_lt ta; have h3 := VRed_code_lt f; have h4 := bool_lt sat
  simp only [put]; omega
theorem WordFits.vscan (tok : Tok) (td : TileRef) (ta : TileRef) (tf : TileRef) (f : VScan) (sat : Bool) (exc : Bool) (row : Bool) : WordFits.Statement (.vscan tok td ta tf f sat exc row) := by
  intro r hr; cases hr; have h0 := tok_lt tok; have h1 := tileRef_lt td; have h2 := tileRef_lt ta; have h3 := tileRef_lt tf; have h4 := VScan_code_lt f; have h5 := bool_lt sat; have h6 := bool_lt exc; have h7 := bool_lt row
  simp only [put]; omega
theorem WordFits.vtr (tok : Tok) (td : TileRef) (ta : TileRef) : WordFits.Statement (.vtr tok td ta) := by
  intro r hr; cases hr; have h0 := tok_lt tok; have h1 := tileRef_lt td; have h2 := tileRef_lt ta
  simp only [put]; omega
theorem WordFits.vbcr (tok : Tok) (td : TileRef) (ta : TileRef) (xb : XReg) : WordFits.Statement (.vbcr tok td ta xb) := by
  intro r hr; cases hr; have h0 := tok_lt tok; have h1 := tileRef_lt td; have h2 := tileRef_lt ta; have h3 := xb.isLt
  simp only [put]; omega
theorem WordFits.vbcc (tok : Tok) (td : TileRef) (ta : TileRef) (xb : XReg) : WordFits.Statement (.vbcc tok td ta xb) := by
  intro r hr; cases hr; have h0 := tok_lt tok; have h1 := tileRef_lt td; have h2 := tileRef_lt ta; have h3 := xb.isLt
  simp only [put]; omega
theorem WordFits.vpermB (tok : Tok) (td : TileRef) (ta : TileRef) (tb : TileRef) (tc : TileRef) (nib : Bool) : WordFits.Statement (.vpermB tok td ta tb tc nib) := by
  intro r hr; cases hr; have h0 := tok_lt tok; have h1 := tileRef_lt td; have h2 := tileRef_lt ta; have h3 := tileRef_lt tb; have h4 := tileRef_lt tc; have h5 := bool_lt nib
  simp only [put]; omega
theorem WordFits.vrng (tok : Tok) (td : TileRef) (xa : XReg) (xb : XReg) (f : VRng) : WordFits.Statement (.vrng tok td xa xb f) := by
  intro r hr; cases hr; have h0 := tok_lt tok; have h1 := tileRef_lt td; have h2 := xa.isLt; have h3 := xb.isLt; have h4 := VRng_code_lt f
  simp only [put]; omega
theorem WordFits.vbnd (tok : Tok) (td : TileRef) (ta : TileRef) (bank : BitVec 4) : WordFits.Statement (.vbnd tok td ta bank) := by
  intro r hr; cases hr; have h0 := tok_lt tok; have h1 := tileRef_lt td; have h2 := tileRef_lt ta; have h3 := bank.isLt
  simp only [put]; omega
theorem WordFits.vmov (tok : Tok) (td : TileRef) (ta : TileRef) : WordFits.Statement (.vmov tok td ta) := by
  intro r hr; cases hr; have h0 := tok_lt tok; have h1 := tileRef_lt td; have h2 := tileRef_lt ta
  simp only [put]; omega
theorem WordFits.vmovLoad (tok : Tok) (td : TileRef) (xa : XReg) : WordFits.Statement (.vmovLoad tok td xa) := by
  intro r hr; cases hr; have h0 := tok_lt tok; have h1 := tileRef_lt td; have h2 := xa.isLt
  simp only [put]; omega
theorem WordFits.vmovStore (tok : Tok) (ts : TileRef) (xa : XReg) : WordFits.Statement (.vmovStore tok ts xa) := by
  intro r hr; cases hr; have h0 := tok_lt tok; have h1 := tileRef_lt ts; have h2 := xa.isLt
  simp only [put]; omega
theorem WordFits.vfill (tok : Tok) (td : TileRef) (ty : Fmt) (xa : XReg) (iota : Bool) (xb : XReg) : WordFits.Statement (.vfill tok td ty xa iota xb) := by
  intro r hr; cases hr; have h0 := tok_lt tok; have h1 := tileRef_lt td; have h2 := Fmt_code_lt ty; have h3 := xa.isLt; have h4 := bool_lt iota; have h5 := xb.isLt
  simp only [put]; omega
theorem WordFits.mxgo (tok : Tok) : WordFits.Statement (.mxgo tok) := by
  intro r hr; cases hr; have h0 := tok_lt tok
  simp only [put]; omega
theorem WordFits.mxdr (tok : Tok) (td : TileRef) (k : BitVec 3) (ty : Fmt) (clr : Bool) (part : BitVec 2) : WordFits.Statement (.mxdr tok td k ty clr part) := by
  intro r hr; cases hr; have h0 := tok_lt tok; have h1 := tileRef_lt td; have h2 := k.isLt; have h3 := Fmt_code_lt ty; have h4 := bool_lt clr; have h5 := part.isLt
  simp only [put]; omega
theorem WordFits.mxdrb (tok : Tok) (k : BitVec 3) (shape : Shape) (xa : XReg) (xb : XReg) (nrow : BitVec 6) (clr : Bool) : WordFits.Statement (.mxdrb tok k shape xa xb nrow clr) := by
  intro r hr; cases hr; have h0 := tok_lt tok; have h1 := k.isLt; have h2 := Shape_code_lt shape; have h3 := xa.isLt; have h4 := xb.isLt; have h5 := nrow.isLt; have h6 := bool_lt clr
  simp only [put]; omega
theorem WordFits.mxclr (tok : Tok) (mask : BitVec 8) : WordFits.Statement (.mxclr tok mask) := by
  intro r hr; cases hr; have h0 := tok_lt tok; have h1 := mask.isLt
  simp only [put]; omega
theorem WordFits.mxld (tok : Tok) (ta : TileRef) (k : BitVec 3) (part : BitVec 2) : WordFits.Statement (.mxld tok ta k part) := by
  intro r hr; cases hr; have h0 := tok_lt tok; have h1 := tileRef_lt ta; have h2 := k.isLt; have h3 := part.isLt
  simp only [put]; omega
theorem WordFits.mxsc (tok : Tok) : WordFits.Statement (.mxsc tok) := by
  intro r hr; cases hr; have h0 := tok_lt tok
  simp only [put]; omega
theorem WordFits.mxscSp (tok : Tok) : WordFits.Statement (.mxscSp tok) := by
  intro r hr; cases hr; have h0 := tok_lt tok
  simp only [put]; omega
theorem WordFits.mxscW (tok : Tok) : WordFits.Statement (.mxscW tok) := by
  intro r hr; cases hr; have h0 := tok_lt tok
  simp only [put]; omega
theorem WordFits.cpWait (ch : BitVec 3) (xa : XReg) : WordFits.Statement (.cpWait ch xa) := by
  intro r hr; cases hr; have h0 := ch.isLt; have h1 := xa.isLt
  simp only [put]; omega
theorem WordFits.cpTw (sp : Bool) (ch : BitVec 3) (tn : BitVec 6) (xa : XReg) (cnt : BitVec 6) : WordFits.Statement (.cpTw sp ch tn xa cnt) := by
  intro r hr; cases hr; have h0 := bool_lt sp; have h1 := ch.isLt; have h2 := tn.isLt; have h3 := xa.isLt; have h4 := cnt.isLt
  simp only [put]; omega
theorem WordFits.cpCancel (ch : BitVec 3) : WordFits.Statement (.cpCancel ch) := by
  intro r hr; cases hr; have h0 := ch.isLt
  simp only [put]; omega
theorem WordFits.swInit (ch : BitVec 3) (xa : XReg) (xb : XReg) : WordFits.Statement (.swInit ch xa xb) := by
  intro r hr; cases hr; have h0 := ch.isLt; have h1 := xa.isLt; have h2 := xb.isLt
  simp only [put]; omega
theorem WordFits.swWait (ch : BitVec 3) (xa : XReg) (xg : XReg) : WordFits.Statement (.swWait ch xa xg) := by
  intro r hr; cases hr; have h0 := ch.isLt; have h1 := xa.isLt; have h2 := xg.isLt
  simp only [put]; omega
theorem WordFits.swWaitSt (ch : BitVec 3) (xa : XReg) (xg : XReg) (xr : XReg) : WordFits.Statement (.swWaitSt ch xa xg xr) := by
  intro r hr; cases hr; have h0 := ch.isLt; have h1 := xa.isLt; have h2 := xg.isLt; have h3 := xr.isLt
  simp only [put]; omega
theorem WordFits.sqSub (xa : XReg) (st : Bool) (xb : XReg) : WordFits.Statement (.sqSub xa st xb) := by
  intro r hr; cases hr; have h0 := xa.isLt; have h1 := bool_lt st; have h2 := xb.isLt
  simp only [put]; omega
theorem WordFits.sqGpr (cnt : BitVec 4) (slot : BitVec 6) (xa : XReg) : WordFits.Statement (.sqGpr cnt slot xa) := by
  intro r hr; cases hr; have h0 := cnt.isLt; have h1 := slot.isLt; have h2 := xa.isLt
  simp only [put]; omega
theorem WordFits.sqGpw (slot : BitVec 6) (xa : XReg) : WordFits.Statement (.sqGpw slot xa) := by
  intro r hr; cases hr; have h0 := slot.isLt; have h1 := xa.isLt
  simp only [put]; omega
theorem WordFits.sqCrd (xa : XReg) : WordFits.Statement (.sqCrd xa) := by
  intro r hr; cases hr; have h0 := xa.isLt
  simp only [put]; omega
theorem WordFits.sqYield : WordFits.Statement (.sqYield) := by
  intro r hr; cases hr
  simp only [put]; omega
theorem WordFits.sqYieldAl : WordFits.Statement (.sqYieldAl) := by
  intro r hr; cases hr
  simp only [put]; omega
theorem WordFits.sqAcc (k : BitVec 2) (xa : XReg) : WordFits.Statement (.sqAcc k xa) := by
  intro r hr; cases hr; have h0 := k.isLt; have h1 := xa.isLt
  simp only [put]; omega
theorem WordFits.barAlloc (scope : SlotScope) (xa : XReg) : WordFits.Statement (.barAlloc scope xa) := by
  intro r hr; cases hr; have h0 := SlotScope_code_lt scope; have h1 := xa.isLt
  simp only [put]; omega
theorem WordFits.barInit (xa : XReg) (xn : XReg) : WordFits.Statement (.barInit xa xn) := by
  intro r hr; cases hr; have h0 := xa.isLt; have h1 := xn.isLt
  simp only [put]; omega
theorem WordFits.barInitM (sp : Bool) (scope : MbScope) (xa : XReg) (xn : XReg) : WordFits.Statement (.barInitM sp scope xa xn) := by
  intro r hr; cases hr; have h0 := bool_lt sp; have h1 := MbScope_code_lt scope; have h2 := xa.isLt; have h3 := xn.isLt
  simp only [put]; omega
theorem WordFits.barArr (eng : GateEng) (xa : XReg) : WordFits.Statement (.barArr eng xa) := by
  intro r hr; cases hr; have h0 := GateEng_code_lt eng; have h1 := xa.isLt
  simp only [put]; omega
theorem WordFits.barWait (eng : GateEng) (xa : XReg) (xg : XReg) : WordFits.Statement (.barWait eng xa xg) := by
  intro r hr; cases hr; have h0 := GateEng_code_lt eng; have h1 := xa.isLt; have h2 := xg.isLt
  simp only [put]; omega
theorem WordFits.barArw (eng : GateEng) (xa : XReg) : WordFits.Statement (.barArw eng xa) := by
  intro r hr; cases hr; have h0 := GateEng_code_lt eng; have h1 := xa.isLt
  simp only [put]; omega
theorem WordFits.barFree (xa : XReg) : WordFits.Statement (.barFree xa) := by
  intro r hr; cases hr; have h0 := xa.isLt
  simp only [put]; omega
theorem WordFits.semInit (sem : BitVec 8) (xa : XReg) : WordFits.Statement (.semInit sem xa) := by
  intro r hr; cases hr; have h0 := sem.isLt; have h1 := xa.isLt
  simp only [put]; omega
theorem WordFits.semSigImm (eng : GateEng) (sem : BitVec 8) (cnt : BitVec 7) : WordFits.Statement (.semSigImm eng sem cnt) := by
  intro r hr; cases hr; have h0 := GateEng_code_lt eng; have h1 := sem.isLt; have h2 := cnt.isLt
  simp only [put]; omega
theorem WordFits.semSigReg (eng : GateEng) (sem : BitVec 8) (xa : XReg) : WordFits.Statement (.semSigReg eng sem xa) := by
  intro r hr; cases hr; have h0 := GateEng_code_lt eng; have h1 := sem.isLt; have h2 := xa.isLt
  simp only [put]; omega
theorem WordFits.semWaitImm (eng : GateEng) (sem : BitVec 8) (cnt : BitVec 7) : WordFits.Statement (.semWaitImm eng sem cnt) := by
  intro r hr; cases hr; have h0 := GateEng_code_lt eng; have h1 := sem.isLt; have h2 := cnt.isLt
  simp only [put]; omega
theorem WordFits.semWaitReg (eng : GateEng) (sem : BitVec 8) (xa : XReg) : WordFits.Statement (.semWaitReg eng sem xa) := by
  intro r hr; cases hr; have h0 := GateEng_code_lt eng; have h1 := sem.isLt; have h2 := xa.isLt
  simp only [put]; omega
theorem WordFits.wsRdCore (xa : XReg) (xg : XReg) : WordFits.Statement (.wsRdCore xa xg) := by
  intro r hr; cases hr; have h0 := xa.isLt; have h1 := xg.isLt
  simp only [put]; omega
theorem WordFits.wsRdBar (xa : XReg) (xg : XReg) : WordFits.Statement (.wsRdBar xa xg) := by
  intro r hr; cases hr; have h0 := xa.isLt; have h1 := xg.isLt
  simp only [put]; omega
theorem WordFits.wsRdSem (xa : XReg) (xg : XReg) : WordFits.Statement (.wsRdSem xa xg) := by
  intro r hr; cases hr; have h0 := xa.isLt; have h1 := xg.isLt
  simp only [put]; omega
theorem WordFits.pmProg (s : PmSem) (xa : XReg) (xb : XReg) : WordFits.Statement (.pmProg s xa xb) := by
  intro r hr; cases hr; have h0 := pmSem_lt s; have h1 := xa.isLt; have h2 := xb.isLt
  simp only [put]; omega
theorem WordFits.pmVer (s : PmSem) (xa : XReg) (xb : XReg) : WordFits.Statement (.pmVer s xa xb) := by
  intro r hr; cases hr; have h0 := pmSem_lt s; have h1 := xa.isLt; have h2 := xb.isLt
  simp only [put]; omega
theorem WordFits.pmOpen (s : PmSem) (xa : XReg) (xb : XReg) : WordFits.Statement (.pmOpen s xa xb) := by
  intro r hr; cases hr; have h0 := pmSem_lt s; have h1 := xa.isLt; have h2 := xb.isLt
  simp only [put]; omega
theorem WordFits.pmSeal (s : PmSem) (xa : XReg) (xb : XReg) : WordFits.Statement (.pmSeal s xa xb) := by
  intro r hr; cases hr; have h0 := pmSem_lt s; have h1 := xa.isLt; have h2 := xb.isLt
  simp only [put]; omega
theorem WordFits.pmWear (s : PmSem) (xa : XReg) : WordFits.Statement (.pmWear s xa) := by
  intro r hr; cases hr; have h0 := pmSem_lt s; have h1 := xa.isLt
  simp only [put]; omega
theorem WordFits.pmRemap (s : PmSem) (xa : XReg) : WordFits.Statement (.pmRemap s xa) := by
  intro r hr; cases hr; have h0 := pmSem_lt s; have h1 := xa.isLt
  simp only [put]; omega
theorem WordFits.pmAct (s : PmSem) (xa : XReg) : WordFits.Statement (.pmAct s xa) := by
  intro r hr; cases hr; have h0 := pmSem_lt s; have h1 := xa.isLt
  simp only [put]; omega
theorem WordFits.pmStat (s : PmSem) (xa : XReg) : WordFits.Statement (.pmStat s xa) := by
  intro r hr; cases hr; have h0 := pmSem_lt s; have h1 := xa.isLt
  simp only [put]; omega
theorem WordFits.pmClr (s : PmSem) (xa : XReg) : WordFits.Statement (.pmClr s xa) := by
  intro r hr; cases hr; have h0 := pmSem_lt s; have h1 := xa.isLt
  simp only [put]; omega
theorem WordFits.pmClrR (s : PmSem) (xa : XReg) : WordFits.Statement (.pmClrR s xa) := by
  intro r hr; cases hr; have h0 := pmSem_lt s; have h1 := xa.isLt
  simp only [put]; omega
theorem WordFits.aqSend (td : TileRef) (tq : TileRef) (xa : XReg) (st : StatReg) : WordFits.Statement (.aqSend td tq xa st) := by
  intro r hr; cases hr; have h0 := tileRef_lt td; have h1 := tileRef_lt tq; have h2 := xa.isLt; have h3 := statReg_lt st 35 (by decide)
  simp only [put]; omega
theorem WordFits.aqKvapp (tk : TileRef) (tv : TileRef) (xa : XReg) (st : StatReg) : WordFits.Statement (.aqKvapp tk tv xa st) := by
  intro r hr; cases hr; have h0 := tileRef_lt tk; have h1 := tileRef_lt tv; have h2 := xa.isLt; have h3 := statReg_lt st 35 (by decide)
  simp only [put]; omega
theorem WordFits.aqTins (tp : TileRef) (xa : XReg) (st : StatReg) : WordFits.Statement (.aqTins tp xa st) := by
  intro r hr; cases hr; have h0 := tileRef_lt tp; have h1 := xa.isLt; have h2 := statReg_lt st 35 (by decide)
  simp only [put]; omega
theorem WordFits.aqTacc (tl : TileRef) (xa : XReg) (st : StatReg) : WordFits.Statement (.aqTacc tl xa st) := by
  intro r hr; cases hr; have h0 := tileRef_lt tl; have h1 := xa.isLt; have h2 := statReg_lt st 35 (by decide)
  simp only [put]; omega
theorem WordFits.aqComp (xa : XReg) (st : StatReg) : WordFits.Statement (.aqComp xa st) := by
  intro r hr; cases hr; have h0 := xa.isLt; have h1 := statReg_lt st 12 (by decide)
  simp only [put]; omega
theorem WordFits.aqAtt (xa : XReg) (xp : XReg) (st : StatReg) : WordFits.Statement (.aqAtt xa xp st) := by
  intro r hr; cases hr; have h0 := xa.isLt; have h1 := xp.isLt; have h2 := statReg_lt st 35 (by decide)
  simp only [put]; omega
theorem WordFits.aqDet (xa : XReg) (st : StatReg) : WordFits.Statement (.aqDet xa st) := by
  intro r hr; cases hr; have h0 := xa.isLt; have h1 := statReg_lt st 12 (by decide)
  simp only [put]; omega
theorem WordFits.aqSeqOpen (xa : XReg) (st : StatReg) : WordFits.Statement (.aqSeqOpen xa st) := by
  intro r hr; cases hr; have h0 := xa.isLt; have h1 := statReg_lt st 12 (by decide)
  simp only [put]; omega
theorem WordFits.aqSeqClose (xa : XReg) (st : StatReg) : WordFits.Statement (.aqSeqClose xa st) := by
  intro r hr; cases hr; have h0 := xa.isLt; have h1 := statReg_lt st 12 (by decide)
  simp only [put]; omega
theorem WordFits.aqSeqGrow (xa : XReg) (st : StatReg) : WordFits.Statement (.aqSeqGrow xa st) := by
  intro r hr; cases hr; have h0 := xa.isLt; have h1 := statReg_lt st 12 (by decide)
  simp only [put]; omega
theorem WordFits.aqSeqTrunc (xa : XReg) (st : StatReg) : WordFits.Statement (.aqSeqTrunc xa st) := by
  intro r hr; cases hr; have h0 := xa.isLt; have h1 := statReg_lt st 12 (by decide)
  simp only [put]; omega
theorem WordFits.aqSeqPub (xa : XReg) (st : StatReg) : WordFits.Statement (.aqSeqPub xa st) := by
  intro r hr; cases hr; have h0 := xa.isLt; have h1 := statReg_lt st 12 (by decide)
  simp only [put]; omega
theorem WordFits.aqSeqEvict (xa : XReg) (st : StatReg) : WordFits.Statement (.aqSeqEvict xa st) := by
  intro r hr; cases hr; have h0 := xa.isLt; have h1 := statReg_lt st 12 (by decide)
  simp only [put]; omega
theorem WordFits.aqSeqTclr (xa : XReg) (st : StatReg) : WordFits.Statement (.aqSeqTclr xa st) := by
  intro r hr; cases hr; have h0 := xa.isLt; have h1 := statReg_lt st 12 (by decide)
  simp only [put]; omega
theorem WordFits.fxBc (td : TileRef) (ts : TileRef) (xa : XReg) (st : StatReg) : WordFits.Statement (.fxBc td ts xa st) := by
  intro r hr; cases hr; have h0 := tileRef_lt td; have h1 := tileRef_lt ts; have h2 := xa.isLt; have h3 := statReg_lt st 48 (by decide)
  simp only [put]; omega
theorem WordFits.fxAr (red : Red) (td : TileRef) (ts : TileRef) (xa : XReg) (st : StatReg) : WordFits.Statement (.fxAr red td ts xa st) := by
  intro r hr; cases hr; have h0 := Red_code_lt red; have h1 := tileRef_lt td; have h2 := tileRef_lt ts; have h3 := xa.isLt; have h4 := statReg_lt st 48 (by decide)
  simp only [put]; omega
theorem WordFits.fxRd (red : Red) (td : TileRef) (ts : TileRef) (xa : XReg) (st : StatReg) : WordFits.Statement (.fxRd red td ts xa st) := by
  intro r hr; cases hr; have h0 := Red_code_lt red; have h1 := tileRef_lt td; have h2 := tileRef_lt ts; have h3 := xa.isLt; have h4 := statReg_lt st 48 (by decide)
  simp only [put]; omega
theorem WordFits.fxAmax (td : TileRef) (ts : TileRef) (xa : XReg) (xb : XReg) (st : StatReg) : WordFits.Statement (.fxAmax td ts xa xb st) := by
  intro r hr; cases hr; have h0 := tileRef_lt td; have h1 := tileRef_lt ts; have h2 := xa.isLt; have h3 := xb.isLt; have h4 := statReg_lt st 48 (by decide)
  simp only [put]; omega
theorem WordFits.fxWait (xa : XReg) : WordFits.Statement (.fxWait xa) := by
  intro r hr; cases hr; have h0 := xa.isLt
  simp only [put]; omega
theorem WordFits.fxStat (lnk : BitVec 8) (xa : XReg) : WordFits.Statement (.fxStat lnk xa) := by
  intro r hr; cases hr; have h0 := lnk.isLt; have h1 := xa.isLt
  simp only [put]; omega
theorem WordFits.ckOpen : WordFits.Statement (.ckOpen) := by
  intro r hr; cases hr
  simp only [put]; omega
theorem WordFits.ckOpenLv : WordFits.Statement (.ckOpenLv) := by
  intro r hr; cases hr
  simp only [put]; omega
theorem WordFits.ckSeal (st : StatReg) : WordFits.Statement (.ckSeal st) := by
  intro r hr; cases hr; have h0 := statReg_lt st 12 (by decide)
  simp only [put]; omega
theorem WordFits.ckRp (line : BitVec 6) (xa : XReg) (xb : XReg) : WordFits.Statement (.ckRp line xa xb) := by
  intro r hr; cases hr; have h0 := line.isLt; have h1 := xa.isLt; have h2 := xb.isLt
  simp only [put]; omega
theorem WordFits.ckRead (xa : XReg) : WordFits.Statement (.ckRead xa) := by
  intro r hr; cases hr; have h0 := xa.isLt
  simp only [put]; omega
theorem WordFits.pblk (cls : Cls) (p : PReg) (cnt : BitVec 3) (pat : BitVec 8) : WordFits.Statement (.pblk cls p cnt pat) := by
  intro r hr; cases hr; have h0 := Cls_code_lt cls; have h1 := p.isLt; have h2 := cnt.isLt; have h3 := pat.isLt
  simp only [put]; omega
theorem WordFits.reservedOpcode (w : Word) : WordFits.Statement (.reservedOpcode w) := by
  intro r hr; cases hr; have h0 := w.isLt
  omega
theorem WordFits.reservedFieldValue (w : Word) : WordFits.Statement (.reservedFieldValue w) := by
  intro r hr; cases hr; have h0 := w.isLt
  omega
theorem WordFits.token : ∀ v0, WordFits.Statement (.token v0) := fun _ w h => by cases h
theorem WordFits.contextRestore : ∀ v0, WordFits.Statement (.contextRestore v0) := fun _ w h => by cases h
theorem WordFits.debugStep : ∀ v0, WordFits.Statement (.debugStep v0) := fun _ w h => by cases h
theorem WordFits.debugWindowAccess : ∀ v0 v1 v2, WordFits.Statement (.debugWindowAccess v0 v1 v2) := fun _ _ _ w h => by cases h
theorem WordFits.waittmo : ∀ v0, WordFits.Statement (.waittmo v0) := fun _ w h => by cases h
theorem WordFits.uncorrectableError : ∀ v0, WordFits.Statement (.uncorrectableError v0) := fun _ w h => by cases h
theorem WordFits.correctedError : ∀ v0, WordFits.Statement (.correctedError v0) := fun _ w h => by cases h
theorem WordFits.pageWalk : ∀ v0 v1, WordFits.Statement (.pageWalk v0 v1) := fun _ _ w h => by cases h
theorem WordFits.copyTransferStart : ∀ v0, WordFits.Statement (.copyTransferStart v0) := fun _ w h => by cases h
theorem WordFits.syncWordArrival : ∀ v0, WordFits.Statement (.syncWordArrival v0) := fun _ w h => by cases h
theorem WordFits.copyTransferComplete : ∀ v0, WordFits.Statement (.copyTransferComplete v0) := fun _ w h => by cases h
theorem WordFits.barrierNotification : ∀ v0, WordFits.Statement (.barrierNotification v0) := fun _ w h => by cases h
theorem WordFits.staggeredRelease : ∀ v0, WordFits.Statement (.staggeredRelease v0) := fun _ w h => by cases h
theorem WordFits.gateReached : ∀ v0, WordFits.Statement (.gateReached v0) := fun _ w h => by cases h
theorem WordFits.pumpJob : ∀ v0, WordFits.Statement (.pumpJob v0) := fun _ w h => by cases h
theorem WordFits.aqSendResultArrival : ∀ v0, WordFits.Statement (.aqSendResultArrival v0) := fun _ w h => by cases h
theorem WordFits.merge : ∀ v0, WordFits.Statement (.merge v0) := fun _ w h => by cases h
theorem WordFits.mergeTimeout : ∀ v0, WordFits.Statement (.mergeTimeout v0) := fun _ w h => by cases h
theorem WordFits.collectiveContribution : ∀ v0 v1, WordFits.Statement (.collectiveContribution v0 v1) := fun _ _ w h => by cases h
theorem WordFits.roundTimeout : ∀ v0, WordFits.Statement (.roundTimeout v0) := fun _ w h => by cases h
theorem WordFits.collectiveDelivery : ∀ v0, WordFits.Statement (.collectiveDelivery v0) := fun _ w h => by cases h
theorem WordFits.flitReplay : ∀ v0 v1, WordFits.Statement (.flitReplay v0 v1) := fun _ _ w h => by cases h
theorem WordFits.retrainComplete : ∀ v0 v1 v2, WordFits.Statement (.retrainComplete v0 v1 v2) := fun _ _ _ w h => by cases h
theorem WordFits.linkModuleLoss : ∀ v0 v1 v2, WordFits.Statement (.linkModuleLoss v0 v1 v2) := fun _ _ _ w h => by cases h
theorem WordFits.dieReset : ∀ v0 v1, WordFits.Statement (.dieReset v0 v1) := fun _ _ w h => by cases h
theorem WordFits.dieRejoin : ∀ v0, WordFits.Statement (.dieRejoin v0) := fun _ w h => by cases h
theorem WordFits.chipletReset : ∀ v0, WordFits.Statement (.chipletReset v0) := fun _ w h => by cases h
theorem WordFits.temperatureReading : ∀ v0 v1 v2, WordFits.Statement (.temperatureReading v0 v1 v2) := fun _ _ _ w h => by cases h
theorem WordFits.throttleDecay : ∀ v0 v1, WordFits.Statement (.throttleDecay v0 v1) := fun _ _ w h => by cases h
theorem WordFits.currentThrottleExpiry : ∀ v0 v1, WordFits.Statement (.currentThrottleExpiry v0 v1) := fun _ _ w h => by cases h
theorem WordFits.clusterGating : ∀ v0, WordFits.Statement (.clusterGating v0) := fun _ w h => by cases h
theorem WordFits.clusterWake : ∀ v0, WordFits.Statement (.clusterWake v0) := fun _ w h => by cases h
theorem WordFits.evbaseWrite : ∀ v0, WordFits.Statement (.evbaseWrite v0) := fun _ w h => by cases h
theorem WordFits.evsizeWrite : ∀ v0, WordFits.Statement (.evsizeWrite v0) := fun _ w h => by cases h
theorem WordFits.hostWindowRegisterWrite : ∀ v0 v1 v2, WordFits.Statement (.hostWindowRegisterWrite v0 v1 v2) := fun _ _ _ w h => by cases h
theorem WordFits.hostMemRead : ∀ v0 v1, WordFits.Statement (.hostMemRead v0 v1) := fun _ _ w h => by cases h
theorem WordFits.hostMemWrite : ∀ v0 v1, WordFits.Statement (.hostMemWrite v0 v1) := fun _ _ w h => by cases h
theorem WordFits.negotiateAlgorithms : ∀ v0, WordFits.Statement (.negotiateAlgorithms v0) := fun _ w h => by cases h
theorem WordFits.getCertificate : ∀ v0 v1, WordFits.Statement (.getCertificate v0 v1) := fun _ _ w h => by cases h
theorem WordFits.challenge : ∀ v0, WordFits.Statement (.challenge v0) := fun _ w h => by cases h
theorem WordFits.getMeasurements : ∀ v0 v1, WordFits.Statement (.getMeasurements v0 v1) := fun _ _ w h => by cases h
theorem WordFits.commandCompletion : ∀ v0, WordFits.Statement (.commandCompletion v0) := fun _ w h => by cases h
theorem WordFits.peerPackageAccess : ∀ v0 v1 v2 v3 v4, WordFits.Statement (.peerPackageAccess v0 v1 v2 v3 v4) := fun _ _ _ _ _ w h => by cases h
theorem WordFits.reservedCommandCode : ∀ v0 v1, WordFits.Statement (.reservedCommandCode v0 v1) := fun _ _ w h => by cases h
theorem WordFits.unsupportedSpdmRequest : ∀ v0, WordFits.Statement (.unsupportedSpdmRequest v0) := fun _ w h => by cases h
theorem WordFits.fetchLine : WordFits.Statement (.fetchLine) := fun w h => by cases h
theorem WordFits.speculationCommit : WordFits.Statement (.speculationCommit) := fun w h => by cases h
theorem WordFits.misprediction : WordFits.Statement (.misprediction) := fun w h => by cases h
theorem WordFits.iterationRetirement : WordFits.Statement (.iterationRetirement) := fun w h => by cases h
theorem WordFits.loopRollback : WordFits.Statement (.loopRollback) := fun w h => by cases h
theorem WordFits.loopReentry : WordFits.Statement (.loopReentry) := fun w h => by cases h
theorem WordFits.exitCompletion : WordFits.Statement (.exitCompletion) := fun w h => by cases h
theorem WordFits.faultStop : WordFits.Statement (.faultStop) := fun w h => by cases h
theorem WordFits.preemption : WordFits.Statement (.preemption) := fun w h => by cases h
theorem WordFits.saveSequence : WordFits.Statement (.saveSequence) := fun w h => by cases h
theorem WordFits.debuggerHaltRequest : WordFits.Statement (.debuggerHaltRequest) := fun w h => by cases h
theorem WordFits.dbgcmpMatch : WordFits.Statement (.dbgcmpMatch) := fun w h => by cases h
theorem WordFits.debugGo : WordFits.Statement (.debugGo) := fun w h => by cases h
theorem WordFits.taskDispatch : WordFits.Statement (.taskDispatch) := fun w h => by cases h
theorem WordFits.taskStaging : WordFits.Statement (.taskStaging) := fun w h => by cases h
theorem WordFits.prewaitExpiry : WordFits.Statement (.prewaitExpiry) := fun w h => by cases h
theorem WordFits.fcastUpdate : WordFits.Statement (.fcastUpdate) := fun w h => by cases h
theorem WordFits.readyListEntry : WordFits.Statement (.readyListEntry) := fun w h => by cases h
theorem WordFits.heldReplayStart : WordFits.Statement (.heldReplayStart) := fun w h => by cases h
theorem WordFits.heldPatch : WordFits.Statement (.heldPatch) := fun w h => by cases h
theorem WordFits.heldSubmission : WordFits.Statement (.heldSubmission) := fun w h => by cases h
theorem WordFits.runRetirement : WordFits.Statement (.runRetirement) := fun w h => by cases h
theorem WordFits.deferredBlockFree : WordFits.Statement (.deferredBlockFree) := fun w h => by cases h
theorem WordFits.seal : WordFits.Statement (.seal) := fun w h => by cases h
theorem WordFits.sealCompletion : WordFits.Statement (.sealCompletion) := fun w h => by cases h
theorem WordFits.sealFailure : WordFits.Statement (.sealFailure) := fun w h => by cases h
theorem WordFits.submit : WordFits.Statement (.submit) := fun w h => by cases h
theorem WordFits.replay : WordFits.Statement (.replay) := fun w h => by cases h
theorem WordFits.patch : WordFits.Statement (.patch) := fun w h => by cases h
theorem WordFits.accw : WordFits.Statement (.accw) := fun w h => by cases h
theorem WordFits.preempt : WordFits.Statement (.preempt) := fun w h => by cases h
theorem WordFits.release : WordFits.Statement (.release) := fun w h => by cases h
theorem WordFits.abort : WordFits.Statement (.abort) := fun w h => by cases h
theorem WordFits.pooladd : WordFits.Statement (.pooladd) := fun w h => by cases h
theorem WordFits.pooldel : WordFits.Statement (.pooldel) := fun w h => by cases h
theorem WordFits.setregMxkmax : WordFits.Statement (.setregMxkmax) := fun w h => by cases h
theorem WordFits.setregActhr : WordFits.Statement (.setregActhr) := fun w h => by cases h
theorem WordFits.setregPrewait : WordFits.Statement (.setregPrewait) := fun w h => by cases h
theorem WordFits.setregWtmo : WordFits.Statement (.setregWtmo) := fun w h => by cases h
theorem WordFits.setregStagger : WordFits.Statement (.setregStagger) := fun w h => by cases h
theorem WordFits.setregPaceFloor : WordFits.Statement (.setregPaceFloor) := fun w h => by cases h
theorem WordFits.setregGatectl : WordFits.Statement (.setregGatectl) := fun w h => by cases h
theorem WordFits.setregFxtmo : WordFits.Statement (.setregFxtmo) := fun w h => by cases h
theorem WordFits.setregFxdom : WordFits.Statement (.setregFxdom) := fun w h => by cases h
theorem WordFits.setregAtgeo : WordFits.Statement (.setregAtgeo) := fun w h => by cases h
theorem WordFits.setregThrottle : WordFits.Statement (.setregThrottle) := fun w h => by cases h
theorem WordFits.setregQosShare : WordFits.Statement (.setregQosShare) := fun w h => by cases h
theorem WordFits.setregDomainCollectives : WordFits.Statement (.setregDomainCollectives) := fun w h => by cases h
theorem WordFits.ptroot : WordFits.Statement (.ptroot) := fun w h => by cases h
theorem WordFits.tlbinv : WordFits.Statement (.tlbinv) := fun w h => by cases h
theorem WordFits.pubwin : WordFits.Statement (.pubwin) := fun w h => by cases h
theorem WordFits.kvreg : WordFits.Statement (.kvreg) := fun w h => by cases h
theorem WordFits.kvout : WordFits.Statement (.kvout) := fun w h => by cases h
theorem WordFits.kvin : WordFits.Statement (.kvin) := fun w h => by cases h
theorem WordFits.ckdom : WordFits.Statement (.ckdom) := fun w h => by cases h
theorem WordFits.route : WordFits.Statement (.route) := fun w h => by cases h
theorem WordFits.linkup : WordFits.Statement (.linkup) := fun w h => by cases h
theorem WordFits.dieresetCmd : WordFits.Statement (.dieresetCmd) := fun w h => by cases h
theorem WordFits.preset : WordFits.Statement (.preset) := fun w h => by cases h
theorem WordFits.dbgsel : WordFits.Statement (.dbgsel) := fun w h => by cases h
theorem WordFits.partcfg : WordFits.Statement (.partcfg) := fun w h => by cases h
theorem WordFits.cfgupd : WordFits.Statement (.cfgupd) := fun w h => by cases h
theorem WordFits.scrub : WordFits.Statement (.scrub) := fun w h => by cases h
theorem WordFits.health : WordFits.Statement (.health) := fun w h => by cases h
theorem WordFits.liferd : WordFits.Statement (.liferd) := fun w h => by cases h
theorem WordFits.snapset : WordFits.Statement (.snapset) := fun w h => by cases h
theorem WordFits.snap : WordFits.Statement (.snap) := fun w h => by cases h
theorem WordFits.snapshotWriteOut : WordFits.Statement (.snapshotWriteOut) := fun w h => by cases h
theorem WordFits.lifetimeRecordWrite : WordFits.Statement (.lifetimeRecordWrite) := fun w h => by cases h
theorem WordFits.getVersion : WordFits.Statement (.getVersion) := fun w h => by cases h
theorem WordFits.getCapabilities : WordFits.Statement (.getCapabilities) := fun w h => by cases h
theorem WordFits.getDigests : WordFits.Statement (.getDigests) := fun w h => by cases h
theorem WordFits.powerOn : WordFits.Statement (.powerOn) := fun w h => by cases h
theorem WordFits.powerLoss : WordFits.Statement (.powerLoss) := fun w h => by cases h

end Sys2Proof.Laws
end

