-- ==== Sys2Proof/Tests/Slice0.lean ====
section
/-! SUPPORT. Tests: words of the spec decode to what they stand for, ill-formed terms are refused, and for every statement with hypotheses a state that
meets them. Expected values come from the spec's worked encodings and tables. -/

namespace Sys2Proof.Tests

open Sys2Proof.Machine Sys2Proof.Claim

/-! ### Decoding: words that the spec works out -/

def tk (a b c d : Bool) : Tok := ⟨a, b, c, d⟩
def tk0 : Tok := ⟨false, false, false, false⟩

/-- 05_control_core and R75. -/
theorem test_decode_cc :
    decodeTableWord 32 0x1039FFC0 = some (.addi 7 7 (-64)) ∧ decodeTableWord 32 0x18115064 = some (.cmpi 2 5 .lt 100) ∧
    decodeTableWord 64 0x8005000628000204 = some (.loopi 0 2 ⟨0, 2, 0, 1, 0, 0⟩ 20 6) ∧
    decodeTableWord 64 0x000000802F000400 = some (.mxcfg 4 0 128) ∧ decodeTableWord 64 0x000000002F01BF00 = some (.mxcfgT 6 0) ∧
    decodeTableWord 32 0x30200002 = some (.mxst 4 false 2) ∧ decodeTableWord 32 0x1EAD1800 = some (.cst 21 20 .s64 0) ∧
    decodePrefix 0x8C808000 = some (.pblk .vx 3 1 1) := by
  refine ⟨?_, ?_, ?_, ?_, ?_, ?_, ?_, ?_⟩ <;> rfl

/-! ### Every constructor: a word put together from the encoding tables of the spec (Tables 2.6-2.9, 5.9, 6.9, 7.1, 8.1, 9.1, 9.2, 11.4, 12.3,
13.5, 14.2, 15.4, 16.6 and the layouts of ch. 10) decodes to it -/

/-- Words of a length decode to their instructions. -/
def decodesAll (n : Nat) (l : List (Nat × Instr)) : Bool := l.all (fun p => decide (decodeTableWord n p.1 = some p.2))

theorem test_words_cc_32_0 : decodesAll 32 [
    (0x020D3E01, .add 1 20 31 true),
    (0x03157C01, .sub 2 21 30 true),
    (0x041DBA01, .and 3 22 29 true),
    (0x0525F801, .or 4 23 28 true),
    (0x062E3601, .xor 5 24 27 true),
    (0x07367401, .shl 6 25 26 true),
    (0x083EB201, .shr 7 26 25 true),
    (0x0946F001, .sra 8 27 24 true),
    (0x0A4F2E01, .mul 9 28 23 true),
    (0x0B2C7C02, .mulh 5 17 30 false true),
    (0x0C347C03, .div 6 17 30 true true),
    (0x0D3C7C02, .rem 7 17 30 false true),
    (0x0E447C03, .min 8 17 30 true true),
    (0x0F4C7C02, .max 9 17 30 false true),
    (0x104DAA51, .addi 9 22 0x2A51),
    (0x1155AA51, .andi 10 22 0x2A51),
    (0x125DAA51, .ori 11 22 0x2A51),
    (0x1365AA51, .xori 12 22 0x2A51),
    (0x145D4053, .shli 11 21 true 19),
    (0x15654053, .shri 12 21 true 19),
    (0x166D4053, .srai 13 21 true 19),
    (0x172CBA2D, .cmp 5 18 29 .or true .geu),
    (0x181E8DA3, .cmpi 3 26 .ne 0x5A3),
    (0x1931460A, .pcomb 6 5 3 0xA)] = true := by rfl

theorem test_words_cc_32_1 : decodesAll 32 [
    (0x1A6DB60E, .sel 13 22 27 true 6),
    (0x1D3CEEB2, .cld 7 19 .z16 0x6B2),
    (0x1E44D6B2, .cst 8 19 .s32 0x6B2),
    (0x1F4CE6B2, .sld 9 19 .z8 0x6B2),
    (0x2054DEB2, .sst 10 19 .s64 0x6B2),
    (0x213678EE, .camo 6 25 28 .pk .rel true .smax),
    (0x22000012, .cfence .ar .di),
    (0x23B51234, .b 5 true false 0x51234),
    (0x244EABCD, .call 2 false true 0x6ABCD),
    (0x25054000, .jr 21),
    (0x265D8000, .callr 11 22),
    (0x29002C35, .qjoin 0x2C35),
    (0x2A0026D5, .qflush 0x9B 0x15),
    (0x2B682A5C, .sysr 13 0x2A5C),
    (0x2C038305, .sysw 14 0x0305),
    (0x2C02410B, .bkfmtWrite 11 9),
    (0x2C02811D, .bkbndWrite 13 10),
    (0x2C030704, .paceGapWrite 4 12),
    (0x2D0000A7, .exit 0xA7),
    (0x2E003456, .brk 0x3456),
    (0x3088000D, .mxst 17 true 5),
    (0x30900018, .mxstAll 18 true),
    (0x31980000, .pget 19),
    (0x3205C0B4, .pset 23 0x5A)] = true := by rfl

theorem test_words_cc_32_2 : decodesAll 32 [
    (0x337E0004, .bitcPop 15 24 true),
    (0x33860005, .bitcClz 16 24 true),
    (0x338E0006, .bitcCtz 17 24 true),
    (0x344D3E01, .ext 9 20 31 true),
    (0x35557C00, .ins 10 21 30),
    (0x3658C000, .lcr 11 3),
    (0x37164000, .lcw 2 25),
    (0x00ABCDEF, .trapZ 0xABCDEF),
    (0x01000000, .nop)] = true := by rfl

theorem test_words_cc_64 : decodesAll 64 [
    (0x123456781B58009A, .movi 11 0x9A12345678),
    (0x008BCDEF1B600100, .movhi 12 0x8BCDEF),
    (0x654321F01C75C287, .lea 14 23 false 2 0x87654321F0),
    (0x926940002714C393, .loop 2 19 3 ⟨1, 2, 3, 0, 1, 2⟩ 0x9A5),
    (0x618D6ABC28180268, .loopi 3 2 ⟨2, 1, 0, 2, 2, 1⟩ 0x635 0x2ABC),
    (0x000000422F06D5B1, .mxcfg 21 27 0xB100000042),
    (0x000001002F077F02, .mxcfgT 29 0x0200000100)] = true := by rfl

theorem test_words_ld_32 : decodesAll 32 [
    (0x47BC3B00, .pf ⟨true, false, true, true⟩ 0xC3 22),
    (0x48B1DB80, .pfW ⟨true, false, true, true⟩ 0x1D 23)] = true := by rfl

theorem test_words_ld_64 : decodesAll 64 [
    (0x00B724D640BA5AD0, .ldT ⟨⟨true, false, true, true⟩, ⟨37, .produce⟩, 21, .f32, 45, 201, 26, 6⟩),
    (0x00B724D641BA5AE8, .ldS ⟨⟨true, false, true, true⟩, ⟨37, .produce⟩, 21, .mx8, 45, 201, 26, 6⟩),
    (0xF2B724D642BA5AC8, .ldG ⟨⟨true, false, true, true⟩, ⟨37, .produce⟩, 21, .bf16, 45, 201, 26, 6⟩ ⟨50, .peek⟩),
    (0xF2B724D643BA5AD0, .ldGs ⟨⟨true, false, true, true⟩, ⟨37, .produce⟩, 21, .f32, 45, 201, 26, 6⟩ ⟨50, .peek⟩),
    (0x00B7260644BA5A88, .ldB ⟨⟨true, false, true, true⟩, ⟨37, .produce⟩, 21, .s8, 45, 201, 0, 6⟩ true),
    (0x00B724D645BA5A80, .ldW ⟨⟨true, false, true, true⟩, ⟨37, .produce⟩, 21, .raw, 45, 201, 26, 6⟩),
    (0x00B726D646BA5AD4, .ldAcq ⟨⟨true, false, true, true⟩, ⟨37, .produce⟩, 21, .f32, 45, 201, 26, 6⟩ true .sy)] = true := by rfl

theorem test_words_st_32 : decodesAll 32 [
    (0x5AB0D000, .pubv ⟨true, false, true, true⟩ 13)] = true := by rfl

theorem test_words_st_64 : decodesAll 64 [
    (0x00B724D654B65AD0, .stT ⟨⟨true, false, true, true⟩, ⟨37, .consume⟩, 21, .f32, 45, 201, 26, 6⟩),
    (0x00B724D655B65AE0, .stS ⟨⟨true, false, true, true⟩, ⟨37, .consume⟩, 21, .mx6, 45, 201, 26, 6⟩),
    (0xF2B724D656B65AD0, .stSc ⟨⟨true, false, true, true⟩, ⟨37, .consume⟩, 21, .f32, 45, 201, 26, 6⟩ ⟨50, .peek⟩),
    (0xF2B724D657B65AD0, .stSs ⟨⟨true, false, true, true⟩, ⟨37, .consume⟩, 21, .f32, 45, 201, 26, 6⟩ ⟨50, .peek⟩),
    (0x00B726D658B65AD1, .stRel ⟨⟨true, false, true, true⟩, ⟨37, .consume⟩, 21, .f32, 45, 201, 26, 6⟩ true .cl),
    (0x8BB724D659B65AF0, .stRed ⟨⟨true, false, true, true⟩, ⟨37, .consume⟩, 21, .raw, 45, 201, 26, 6⟩ .minF32 true 139)] = true := by rfl

theorem test_words_vx_64_0 : decodesAll 64 [
    (0x69D6000068BA3070, .vadd ⟨true, false, true, true⟩ ⟨35, .produce⟩ ⟨41, .consume⟩ (.tile ⟨22, .peek⟩) .rup true),
    (0x69D6000069BA3070, .vsub ⟨true, false, true, true⟩ ⟨35, .produce⟩ ⟨41, .consume⟩ (.tile ⟨22, .peek⟩) .rup true),
    (0x69D600006ABA3070, .vmul ⟨true, false, true, true⟩ ⟨35, .produce⟩ ⟨41, .consume⟩ (.tile ⟨22, .peek⟩) .rup true),
    (0x69D63B006BBA3040, .vfma ⟨true, false, true, true⟩ ⟨35, .produce⟩ ⟨41, .consume⟩ (.tile ⟨22, .peek⟩) ⟨59, .plain⟩ .rdn),
    (0x69D63B006CBA3040, .vfms ⟨true, false, true, true⟩ ⟨35, .produce⟩ ⟨41, .consume⟩ (.tile ⟨22, .peek⟩) ⟨59, .plain⟩ .rdn),
    (0x69D600006DBA3000, .vmin ⟨true, false, true, true⟩ ⟨35, .produce⟩ ⟨41, .consume⟩ (.tile ⟨22, .peek⟩)),
    (0x690000006EBA3C88, .vmax ⟨true, false, true, true⟩ ⟨35, .produce⟩ ⟨41, .consume⟩ (.scalar 25)),
    (0x69D6000073BA3000, .vand ⟨true, false, true, true⟩ ⟨35, .produce⟩ ⟨41, .consume⟩ (.tile ⟨22, .peek⟩)),
    (0x6900000074BA3C88, .vor ⟨true, false, true, true⟩ ⟨35, .produce⟩ ⟨41, .consume⟩ (.scalar 25)),
    (0x69D6000075BA3000, .vxor ⟨true, false, true, true⟩ ⟨35, .produce⟩ ⟨41, .consume⟩ (.tile ⟨22, .peek⟩)),
    (0x6900000076BA3C88, .vshl ⟨true, false, true, true⟩ ⟨35, .produce⟩ ⟨41, .consume⟩ (.scalar 25)),
    (0x690000006FBA3010, .vabs ⟨true, false, true, true⟩ ⟨35, .produce⟩ ⟨41, .consume⟩ true),
    (0x6900000070BA3010, .vneg ⟨true, false, true, true⟩ ⟨35, .produce⟩ ⟨41, .consume⟩ true),
    (0x6900000071BA3D8D, .vcmp ⟨true, false, true, true⟩ ⟨35, .produce⟩ ⟨41, .consume⟩ (.scalar 27) .ge),
    (0x69D63B0072BA3000, .vsel ⟨true, false, true, true⟩ ⟨35, .produce⟩ ⟨41, .consume⟩ ⟨22, .peek⟩ (.tile ⟨59, .plain⟩)),
    (0x69D6000077BA3001, .vshr ⟨true, false, true, true⟩ ⟨35, .produce⟩ ⟨41, .consume⟩ (.tile ⟨22, .peek⟩) true),
    (0x69D63BC578BA300B, .vcvt ⟨true, false, true, true⟩ ⟨35, .produce⟩ ⟨41, .consume⟩ ⟨22, .peek⟩ ⟨59, .plain⟩ true true .mx4 .rne false 5),
    (0x6900000079BA3000, .vexp2 ⟨true, false, true, true⟩ ⟨35, .produce⟩ ⟨41, .consume⟩),
    (0x690000007ABA3000, .vlog2 ⟨true, false, true, true⟩ ⟨35, .produce⟩ ⟨41, .consume⟩),
    (0x690000007BBA3000, .vrcp ⟨true, false, true, true⟩ ⟨35, .produce⟩ ⟨41, .consume⟩),
    (0x690000007CBA3000, .vrsq ⟨true, false, true, true⟩ ⟨35, .produce⟩ ⟨41, .consume⟩),
    (0x690000007DBA3000, .vtanh ⟨true, false, true, true⟩ ⟨35, .produce⟩ ⟨41, .consume⟩),
    (0x690000007EBA3012, .vredr ⟨true, false, true, true⟩ ⟨35, .produce⟩ ⟨41, .consume⟩ .min true),
    (0x690000007FBA3003, .vredc ⟨true, false, true, true⟩ ⟨35, .produce⟩ ⟨41, .consume⟩ .amax false)] = true := by rfl

theorem test_words_vx_64_1 : decodesAll 64 [
    (0x69D6000280BA3011, .vscan ⟨true, false, true, true⟩ ⟨35, .produce⟩ ⟨41, .consume⟩ ⟨22, .peek⟩ .max true false true),
    (0x6900000081BA3000, .vtr ⟨true, false, true, true⟩ ⟨35, .produce⟩ ⟨41, .consume⟩),
    (0x690000E082BA3000, .vbcr ⟨true, false, true, true⟩ ⟨35, .produce⟩ ⟨41, .consume⟩ 28),
    (0x690000E883BA3000, .vbcc ⟨true, false, true, true⟩ ⟨35, .produce⟩ ⟨41, .consume⟩ 29),
    (0x69D63B0184BA3000, .vpermB ⟨true, false, true, true⟩ ⟨35, .produce⟩ ⟨41, .consume⟩ ⟨22, .peek⟩ ⟨59, .plain⟩ true),
    (0x000000F085BA3D02, .vrng ⟨true, false, true, true⟩ ⟨35, .produce⟩ 26 30 .open),
    (0x6900000086BA300D, .vbnd ⟨true, false, true, true⟩ ⟨35, .produce⟩ ⟨41, .consume⟩ 13),
    (0x6900000087BA3000, .vmov ⟨true, false, true, true⟩ ⟨35, .produce⟩ ⟨41, .consume⟩),
    (0x0000000087BA3C01, .vmovLoad ⟨true, false, true, true⟩ ⟨35, .produce⟩ 24),
    (0x0000000087B3BC02, .vmovStore ⟨true, false, true, true⟩ ⟨59, .plain⟩ 24),
    (0x000000F888BA3B96, .vfill ⟨true, false, true, true⟩ ⟨35, .produce⟩ .z16 23 true 31)] = true := by rfl

theorem test_words_mx_32 : decodesAll 32 [
    (0xA0B00000, .mxgo ⟨true, false, true, true⟩),
    (0xA3BB5000, .mxclr ⟨true, false, true, true⟩ 0xB5),
    (0xA5B00000, .mxsc ⟨true, false, true, true⟩),
    (0xA5B01000, .mxscSp ⟨true, false, true, true⟩),
    (0xA5B02000, .mxscW ⟨true, false, true, true⟩)] = true := by rfl

theorem test_words_mx_64 : decodesAll 64 [
    (0x00000006A1BA3C18, .mxdr ⟨true, false, true, true⟩ ⟨35, .produce⟩ 6 .s32 true 2),
    (0x000C00DCA2BA2B00, .mxdrb ⟨true, false, true, true⟩ 5 .w1024 22 27 3 true),
    (0x00000001A4B69600, .mxld ⟨true, false, true, true⟩ ⟨41, .consume⟩ 3 1)] = true := by rfl

theorem test_words_cp_32 : decodesAll 32 [
    (0xB4500980, .cpWait 5 19),
    (0xB6700000, .cpCancel 7),
    (0xB841DB00, .swWait 4 22 29),
    (0xB951CBEC, .swWaitSt 5 23 28 27)] = true := by rfl

theorem test_words_cp_64 : decodesAll 64 [
    (0x0000003AB5EB4A00, .cpTw true 6 45 20 58),
    (0x000000F0B7300A80, .swInit 3 21 30)] = true := by rfl

theorem test_words_xq_32_0 : decodesAll 32 [
    (0xBF925980, .sqGpr 9 37 19),
    (0xC0035A00, .sqGpw 53 20),
    (0xC1000A80, .sqCrd 21),
    (0xC2000000, .sqYield),
    (0xC2100000, .sqYieldAl),
    (0xC3200B00, .sqAcc 2 22),
    (0xC60C0B80, .barAlloc .package 23),
    (0xC7011C00, .barInit 24 17),
    (0xC9300D00, .barArr .vx 26),
    (0xCA413D80, .barWait .mx 27 19),
    (0xCB100E00, .barArw .ld 28),
    (0xCC000E80, .barFree 29),
    (0xCD093F00, .semInit 147 30),
    (0xCE24D055, .semSigImm .st 77 0x55),
    (0xCE883A80, .semSigReg .xq 131 21),
    (0xCF41D06A, .semWaitImm .mx 29 0x6A),
    (0xCF91EB00, .semWaitReg .ld 30 22),
    (0xD000BB80, .wsRdCore 23 11),
    (0xD010CB80, .wsRdBar 23 12),
    (0xD020DB80, .wsRdSem 23 13),
    (0xD8894D00, .pmWear ⟨true, 20⟩ 26),
    (0xD9894D00, .pmRemap ⟨true, 20⟩ 26),
    (0xDA894D00, .pmClr ⟨true, 20⟩ 26),
    (0xDD894D00, .pmAct ⟨true, 20⟩ 26)] = true := by rfl

theorem test_words_xq_32_1 : decodesAll 32 [
    (0xDE894D00, .pmStat ⟨true, 20⟩ 26),
    (0xDA100D80, .pmClrR ⟨false, 0⟩ 27),
    (0xE6011B00, .aqComp 22 (.at 17)),
    (0xE8800C00, .aqDet 24 .none),
    (0xE9013A00, .aqSeqOpen 20 (.at 19)),
    (0xE9113A80, .aqSeqClose 21 (.at 19)),
    (0xE9213B00, .aqSeqGrow 22 (.at 19)),
    (0xE9313B80, .aqSeqTrunc 23 (.at 19)),
    (0xE9413C00, .aqSeqPub 24 (.at 19)),
    (0xE9513C80, .aqSeqEvict 25 (.at 19)),
    (0xE9613D00, .aqSeqTclr 26 (.at 19)),
    (0xF2000B80, .fxWait 23),
    (0xF3005C00, .fxStat 5 24),
    (0xF8000000, .ckOpen),
    (0xF8100000, .ckOpenLv),
    (0xF9012000, .ckSeal (.at 18)),
    (0xFB000C80, .ckRead 25),
    (0xFF123456, .reservedOpcode 0xFF123456)] = true := by rfl

theorem test_words_xq_64 : decodesAll 64 [
    (0x000000C8BE100900, .sqSub 18 true 25),
    (0x00000090C8400C80, .barInitM false .sy 25 18),
    (0x000000C8D6893C00, .pmProg ⟨true, 19⟩ 24 25),
    (0x000000C8D7893C00, .pmVer ⟨true, 19⟩ 24 25),
    (0x000000C8DB893C00, .pmOpen ⟨true, 19⟩ 24 25),
    (0x000000C8DC893C00, .pmSeal ⟨true, 19⟩ 24 25),
    (0x690000E8E20A3900, .aqSend ⟨35, .produce⟩ ⟨41, .consume⟩ 18 (.at 29)),
    (0x3B000000E3869980, .aqKvapp ⟨41, .consume⟩ ⟨59, .plain⟩ 19 .none),
    (0x000000F0E4069A00, .aqTins ⟨41, .consume⟩ 20 (.at 30)),
    (0x000000F8E50D6A80, .aqTacc ⟨22, .peek⟩ 21 (.at 31)),
    (0x000000E0E7012B80, .aqAtt 23 18 (.at 28)),
    (0x691B0000EE0A3900, .fxBc ⟨35, .produce⟩ ⟨41, .consume⟩ 18 (.at 27)),
    (0x69000000EFBA3980, .fxAr .minF32 ⟨35, .produce⟩ ⟨41, .consume⟩ 19 .none),
    (0x691A0000F02A3A00, .fxRd .maxF32 ⟨35, .produce⟩ ⟨41, .consume⟩ 20 (.at 26)),
    (0x691900B0F10A3A80, .fxAmax ⟨35, .produce⟩ ⟨41, .consume⟩ 21 22 (.at 25)),
    (0x000000E0FA02D980, .ckRp 45 19 28)] = true := by rfl

/-- A prefix (Table 2.8), and words with a reserved opcode or a reserved field. -/
theorem test_words_other :
    decodePrefix 0xBA968000 = some (.pblk .mx 6 5 0x2D) ∧ decodeWord 0x01000010 = .reservedFieldValue 0x01000010 ∧
      decodeWord 0x38000001 = .reservedOpcode 0x38000001 := by refine ⟨?_, ?_, ?_⟩ <;> rfl

/-! ### Ill-formed terms are refused -/

/-- One ill-formed term for each check of `Instr.wf`. -/
theorem test_wf_refuses :
    ([.shli 1 2 true 40, .shri 1 2 true 32, .srai 1 2 true 63, .lea 1 2 true 0 4, .camo 1 2 3 .pk .none true .add, .loop 0 1 0 ⟨1, 0, 0, 0, 0, 0⟩ 8,
      .loop 0 1 0 ⟨0, 0, 0, 0, 0, 0⟩ 0, .loopi 0 0 ⟨0, 0, 0, 0, 0, 1⟩ 8 3, .loopi 0 0 ⟨0, 0, 0, 0, 0, 0⟩ 0 3, .sysw 1 0x103, .sysw 1 0x113, .sysw 1 0x702,
      .paceGapWrite 6 1, .ldB ⟨tk0, ⟨1, .produce⟩, 2, .s8, 0, 0, 3, 0⟩ false, .stRed ⟨tk0, ⟨1, .plain⟩, 2, .s8, 0, 0, 3, 0⟩ .addS32 false 0,
      .stRed ⟨tk0, ⟨1, .plain⟩, 2, .raw, 0, 0, 3, 0⟩ .addS32 true 160, .stRed ⟨tk0, ⟨1, .plain⟩, 2, .raw, 0, 0, 3, 0⟩ .addS32 false 1,
      .vcvt tk0 ⟨1, .produce⟩ ⟨2, .plain⟩ ⟨0, .plain⟩ ⟨0, .plain⟩ false false .raw .rne false 0,
      .vcvt tk0 ⟨1, .produce⟩ ⟨2, .plain⟩ ⟨0, .plain⟩ ⟨0, .plain⟩ false false .s8 .rne true 0,
      .vcvt tk0 ⟨1, .produce⟩ ⟨2, .plain⟩ ⟨0, .plain⟩ ⟨3, .plain⟩ false true .mx4 .rtz false 0,
      .vcvt tk0 ⟨1, .produce⟩ ⟨2, .plain⟩ ⟨0, .plain⟩ ⟨0, .plain⟩ false true .s8 .rne false 0,
      .vcvt tk0 ⟨1, .produce⟩ ⟨2, .plain⟩ ⟨4, .plain⟩ ⟨0, .plain⟩ false false .s8 .rne false 0,
      .vcvt tk0 ⟨1, .produce⟩ ⟨2, .plain⟩ ⟨0, .plain⟩ ⟨4, .plain⟩ false false .s8 .rne false 0,
      .vfill tk0 ⟨1, .produce⟩ .mx4 2 false 0, .vfill tk0 ⟨1, .produce⟩ .f32 2 true 3, .vfill tk0 ⟨1, .produce⟩ .s8 2 false 3,
      .mxdr tk0 ⟨1, .produce⟩ 0 .mx8 false 0, .mxdrb tk0 0 .w1024 1 2 4 false, .mxclr tk0 0, .sqSub 1 false 2, .sqGpr 1 63 2, .sqAcc 3 1,
      .barInitM true .di 1 2, .pmProg ⟨false, 1⟩ 1 2, .pmVer ⟨false, 1⟩ 1 2, .pmOpen ⟨false, 1⟩ 1 2, .pmSeal ⟨false, 1⟩ 1 2, .pmWear ⟨false, 1⟩ 1,
      .pmRemap ⟨false, 1⟩ 1, .pmClr ⟨false, 1⟩ 1, .pmClrR ⟨false, 1⟩ 1, .pmAct ⟨false, 1⟩ 1, .pmStat ⟨false, 1⟩ 1, .fxStat 7 1, .pblk .ld 0 0 0,
      .pblk .ld 1 0 2, .reservedOpcode 0x01000000, .reservedFieldValue 0x01000000, .reservedFieldValue 0x38000000] : List Instr).all (fun i => !i.wf) = true := by
  rfl

/-! ### Witnesses: for each statement with hypotheses, a state and operands that meet them -/

/-- Pages: 0-4095 at 0x10000, the copy aperture at 0x1000, host memory at 0x2000, code at 0x3000, a large page at 0x10000. -/
def tlb0 : List TlbEntry :=
  [⟨0, 4096, 0x10000, true, true, false, false, false, true⟩, ⟨0x1000, 4096, 0xF000000000000, true, true, true, false, false, true⟩,
    ⟨0x2000, 4096, 0x1000000000000, true, true, false, false, false, true⟩, ⟨0x3000, 4096, 0x20000, true, true, true, false, false, true⟩,
    ⟨0x10000, 0x10000, 0x40000, true, true, false, false, false, true⟩]
/-- The command in hand: its lane at 0x44. -/
def cmdW (i : Instr) (raw : Word) (vals : List Word) : Cmd := ⟨i, raw, 5, 0x44, vals.map (fun v => ⟨v, false⟩), .none, [], false, [], none, 4, [], false⟩
/-- A running core with one command in one queue, its registers, tiles and tokens as given. -/
def coreW (m : Cmd) (k : Slot) (x : List Word) : Core :=
  let c := { Core.reset with mode := .running, tlb := tlb0, toks := Vector.replicate 8 2, x := Vector.ofFn (fun j => ⟨x.getD j.val 0, false⟩) }
  { c.setQueue k [.cmd m] with fetch := { c.fetch with stall := some 5 } }
/-- A state with that core in hand. -/
def W (i : Instr) (k : Slot) (x vals : List Word) (g : Core → Core := id) (raw : Word := 0) : State :=
  let m := cmdW i raw vals
  { State.reset with cur := 0, slot := k, cmd := m, cores := [(0, g (coreW m k x))] }

theorem W_core (i : Instr) (k : Slot) (x vals : List Word) (g : Core → Core) (raw : Word) :
    (W i k x vals g raw).core (W i k x vals g raw).cur = g (coreW (cmdW i raw vals) k x) := rfl

/-- A control-core lane in hand. -/
theorem W_cc (i : Instr) (x : List Word) (g : Core → Core) (h : (g (coreW (cmdW i 0 []) 0 x)).holds = [])
    (hf : (g (coreW (cmdW i 0 []) 0 x)).fence = false) : Cc i (W i 0 x [] g) := by
  have hx : ∀ r, (g (coreW (cmdW i 0 []) 0 x)).xHeld r = false := by
    intro r
    unfold Core.xHeld
    rw [h]
    simp
  refine ⟨rfl, rfl, rfl, ?_, ?_, hf⟩
  · rw [W_core]
    exact List.any_eq_false.mpr (fun r _ => by rw [hx]; decide)
  · rw [W_core]
    unfold Core.overwrites
    cases ccDst (W i 0 x [] g).cmd.instr with
    | none => rfl
    | some r => exact hx r

def x0 : List Word := [0, 5, 7, 0x40, 0x10040]

theorem witness_AluResults (i : Instr) : Reads (W i 0 x0 []) 1 5 ∧ Reads (W i 0 x0 []) 2 7 ∧ Cc i (W i 0 x0 []) :=
  ⟨rfl, rfl, W_cc i x0 id rfl rfl⟩
theorem witness_ImmediateAndConstantResults (i : Instr) :
    Reads (W i 0 x0 []) 1 5 ∧ Reads (W i 0 x0 []) 3 0x40 ∧ (true = true → (3 : BitVec 6).toNat < 32) ∧ Cc i (W i 0 x0 []) :=
  ⟨rfl, rfl, fun _ => by decide, W_cc i x0 id rfl rfl⟩
theorem witness_BitInstructionResults (i : Instr) : Reads (W i 0 x0 []) 1 5 ∧ Reads (W i 0 x0 []) 2 7 ∧ Reads (W i 0 x0 []) 4 0x10040 ∧ Cc i (W i 0 x0 []) :=
  ⟨rfl, rfl, rfl, W_cc i x0 id rfl rfl⟩
theorem witness_PredicateResults (i : Instr) : Reads (W i 0 x0 []) 1 5 ∧ Reads (W i 0 x0 []) 2 7 ∧ Cc i (W i 0 x0 []) := ⟨rfl, rfl, W_cc i x0 id rfl rfl⟩
/-- A held write of a slot: of loop 7, until its iteration 0 has retired. -/
def heldW (k : Slot) (i : Instr) (e : List Effect) (due : Bool) : Held := ⟨7, 0, k, cmdW i 0 [], e, .no, ⟨.bound, 1, 0, 0, 0, none, none⟩, 0, due, [], none⟩
/-- `brk` with BRKEN clear and set; fences of every kind; a lane behind a full one. -/
theorem witness_OtherControlLanes (i : Instr) :
    let s := W i 0 x0 []
    let b := W i 0 x0 [] (fun c => { c with dbg := { c.dbg with brken := true } })
    let v := W (.cfence .full .rc) 0 x0 []
    let f := W .nop 0 x0 [] (fun c => { c with fence := true, holds := [heldW 0 .nop [] false] })
    Reads s 1 5 ∧ (∀ l ∈ (s.core s.cur).loops, l.lc ≠ 2) ∧ (s.core s.cur).loops = [] ∧ (s.core s.cur).dbg.brken = false ∧ (b.core b.cur).dbg.brken = true ∧
      (s.core s.cur).behindDue 0 = false ∧ (v.getPart (v.corePart v.cur)).ck.regions = [] ∧ (v.core v.cur).behindDue 0 = false ∧ Cc (.cfence .full .rc) v ∧ f.cmd.instr = .nop ∧ f.cmd.spec = .none ∧
      (f.core f.cur).fence = true ∧ heldW 0 .nop [] false ∈ (f.core f.cur).holds ∧ Cc i s ∧ Cc i b := by
  refine ⟨rfl, ?_, rfl, rfl, rfl, rfl, by decide, rfl, W_cc _ x0 id rfl rfl, rfl, rfl, rfl, List.mem_singleton_self _, W_cc i x0 id rfl rfl, W_cc i x0 _ rfl rfl⟩
  intro l h
  cases h
theorem witness_ScalarLaneFrame :
    let s := W (.addi 3 1 4) 0 x0 []
    Cc (.addi 3 1 4) s ∧ (s.core s.cur).mode = .running ∧
      ∃ t, exec (.addi 3 1 4) s = .next t ∧ (t.core s.cur).mode = .running ∧ (t.core s.cur).loops = (s.core s.cur).loops :=
  ⟨W_cc _ x0 id rfl rfl, rfl, _, rfl, rfl, rfl⟩
/-- The registers with x1 poisoned. -/
def pois1 (c : Core) : Core := c.wrX 1 ⟨5, true⟩
theorem witness_PoisonedOperandTraps :
    let s := W (.add 3 1 2 false) 0 x0 [] pois1
    let u := W (.addi 3 1 4) 0 x0 [] pois1
    ((s.core s.cur).rdX 1).poison = true ∧ (s.core s.cur).loops = [] ∧ (s.core s.cur).mode = .running ∧ (∃ t, exec (.add 3 1 2 false) s = .next t) ∧
      Cc (.add 3 1 2 false) s ∧ Cc (.addi 3 1 4) u ∧ ∃ t, exec (.addi 3 1 4) u = .next t :=
  ⟨rfl, rfl, rfl, ⟨_, rfl⟩, W_cc _ x0 _ rfl rfl, W_cc _ x0 _ rfl rfl, ⟨_, rfl⟩⟩

/-! #### Memory lanes -/

/-- A core whose one page, at virtual address 0, lies at a physical address. -/
def pageAt (pa : Nat) (c : Core) : Core := { c with tlb := [⟨0, 4096, pa, true, true, false, false, false, true⟩] }
/-- The place of an address in that page. -/
def place (pa : Nat) (r : Region) (va : Nat) : Place := ⟨pa + va, 4096 - va, ⟨0, 4096, pa, true, true, false, false, false, true⟩, r⟩
def pData (va : Nat) : Place := place 0x10000 (.device 0) va
def pHost (va : Nat) : Place := place 0x1000000000000 .host va
def pAper (va : Nat) : Place := place 0xF000000000000 .aperture va
/-- A nest that streams from bank group 0. -/
def nestOn0 (c : Core) : Core := { c with mx := { c.mx with nest := some ⟨cmdW (.mxgo tk0) 0 [], 0, 2, false, [0], false⟩ } }
/-- A load, a scratchpad load, and one that stalls behind a nest. -/
theorem witness_ScalarLoadResults :
    let s := W (.cld 5 3 .s64 1) 0 x0 []
    let u := W (.sld 5 3 .z8 0) 0 x0 []
    let n := W (.sld 5 3 .z8 0) 0 x0 [] nestOn0
    Calm s ∧ Reads s 3 0x40 ∧ (scalarAddr .s64 0x40 1).toNat % width .s64 = 0 ∧ Cc (.cld 5 3 .s64 1) s ∧ Lands s .read 0x48 (pData 0x48) ∧ Plain (pData 0x48) ∧
      Cc (.sld 5 3 .z8 0) u ∧ SpLands u 0x40 0 0x40 ∧ (u.core 0).streams 0x40 (width .z8) = false ∧ Calm n ∧ Cc (.sld 5 3 .z8 0) n ∧ SpLands n 0x40 0 0x40 ∧
      (n.core 0).streams 0x40 (width .z8) = true :=
  ⟨⟨rfl, rfl⟩, rfl, rfl, W_cc _ x0 id rfl rfl, by intro _; rfl, ⟨by decide, by decide⟩, W_cc _ x0 id rfl rfl, by intro _; rfl, rfl, ⟨rfl, rfl⟩,
    W_cc _ x0 _ rfl rfl, by intro _; rfl, rfl⟩
/-- A store to memory, and one to a copy aperture slot. -/
theorem witness_ScalarStores :
    let s := W (.cst 5 3 .s64 1) 0 x0 []
    let u := W (.cst 5 3 .s64 1) 0 [] [] (pageAt 0xF000000000000)
    let w := W (.sst 5 3 .s8 0) 0 x0 []
    Calm s ∧ (s.core s.cur).rcNext = false ∧ Reads s 3 0x40 ∧ Cc (.cst 5 3 .s64 1) s ∧ Lands s .write 0x48 (pData 0x48) ∧ (pData 0x48).ent.pub = false ∧
      Reads u 3 0 ∧ Lands u .write 8 (pAper 8) ∧ (pAper 8).reg = .aperture ∧ (pAper 8).pa % 4096 < 0x40 ∧ ((u.core u.cur).rdX 5).poison = false ∧
      ((u.core u.cur).journal 1).length < 32 ∧ Cc (.cst 5 3 .s64 1) u ∧
      Cc (.sst 5 3 .s8 0) w ∧ SpLands w 0x40 0 0x40 ∧ (w.core 0).streams 0x40 (width .s8) = false ∧ ((w.core 0).bank (bankOf 0x40)).act = 0 :=
  ⟨⟨rfl, rfl⟩, rfl, rfl, W_cc _ x0 id rfl rfl, by intro _; rfl, rfl, rfl, by intro _; rfl, rfl, by decide, rfl, by decide, W_cc _ _ _ rfl rfl,
    W_cc _ x0 id rfl rfl, by intro _; rfl, rfl, rfl⟩
/-- Bank 0 with unsigned bytes between 2 and 9. -/
def bank0 (act : BitVec 2) (c : Core) : Core := { c with banks := c.banks.set 0 ⟨false, act, .z8, 9, 2⟩ }
/-- A violated and an observed bound. -/
theorem witness_ScratchpadStoreResults :
    let s := W (.sst 1 3 .s8 0) 0 x0 [] (bank0 3)
    let u := W (.sst 3 3 .s8 0) 0 x0 [] (bank0 3)
    let b := (s.core 0).bank (bankOf 0x40)
    b.act = 3 ∧ Fmt.isBlock b.fmt = false ∧ Fmt.size b.fmt = 8 * width .s8 ∧ violates b.fmt b.lo.toNat b.hi.toNat 5 = false ∧
      violates b.fmt b.lo.toNat b.hi.toNat 0x40 = true ∧ s.slot = 0 ∧ (s.core s.cur).mode = .running ∧ Cc (.sst 1 3 .s8 0) s ∧ Cc (.sst 3 3 .s8 0) u ∧
      SpLands s 0x40 0 0x40 ∧ SpLands u 0x40 0 0x40 ∧ (s.core 0).streams 0x40 (width .s8) = false :=
  ⟨rfl, rfl, rfl, rfl, rfl, rfl, rfl, W_cc _ x0 _ rfl rfl, W_cc _ x0 _ rfl rfl, by intro _; rfl, by intro _; rfl, rfl⟩
theorem witness_AtomicResults :
    let i : Instr := .camo 5 3 1 .sy .ar true .cas
    let s := W i 0 x0 []
    Calm s ∧ (s.core s.cur).rcNext = false ∧ Cc i s ∧ (Scope.sy = .rc → AmoOrd.ar ≠ .rel ∧ AmoOrd.ar ≠ .ar) ∧ ((pData 0x40).reg = .host → (pData 0x40).ent.sysat = true) ∧
      Reads s 3 0x40 ∧ Reads s 1 5 ∧ Reads s 5 0 ∧ Lands s .write 0x40 (pData 0x40) ∧ Plain (pData 0x40) ∧
      (pData 0x40).ent.pub = false ∧ (0x40 : Word).toNat % (64 / 8) = 0 ∧ s.paPoisoned (pData 0x40).pa (64 / 8) = false :=
  ⟨⟨rfl, rfl⟩, rfl, W_cc _ x0 id rfl rfl, by decide, by decide, rfl, rfl, rfl, by intro _; rfl, ⟨by decide, by decide⟩, rfl, rfl, rfl⟩
theorem witness_ScalarAccessTraps :
    let x1 : List Word := [0, 5, 7, 0x41, 0x40]
    let s := W (.cld 5 3 .s64 0) 0 x1 []
    let u := W (.camo 5 3 1 .sy .none true .add) 0 x1 []
    let h := W (.camo 5 4 1 .sy .none true .add) 0 x1 [] (pageAt 0x1000000000000)
    Cc (.cld 5 3 .s64 0) s ∧ Reads s 3 0x41 ∧ (scalarAddr .s64 0x41 0).toNat % width .s64 ≠ 0 ∧ Cc (.camo 5 3 1 .sy .none true .add) u ∧
      (0x41 : Word).toNat % 8 ≠ 0 ∧ Cc (.camo 5 4 1 .sy .none true .add) h ∧ Reads h 4 0x40 ∧ Reads h 1 5 ∧ Lands h .write 0x40 (pHost 0x40) ∧
      (pHost 0x40).reg = .host ∧ (pHost 0x40).ent.sysat = false :=
  ⟨W_cc _ _ id rfl rfl, rfl, by decide, W_cc _ _ id rfl rfl, by decide, W_cc _ _ _ rfl rfl, rfl, rfl, by intro _; rfl, rfl, rfl⟩
theorem witness_MemoryLaneFrame :
    let s := W (.cst 5 3 .s64 1) 0 x0 []
    Cc (.cst 5 3 .s64 1) s ∧ Calm s ∧ (ccAddr 3 .s64 1).run s = .ok (0x48, s) ∧ Lands s .write 0x48 (pData 0x48) ∧
      ∃ t, exec (.cst 5 3 .s64 1) s = .next t ∧ (t.core t.cur).mode = .running :=
  ⟨W_cc _ x0 id rfl rfl, ⟨rfl, rfl⟩, rfl, by intro _; rfl, _, rfl, rfl⟩

/-! #### Transfers, loops, system registers -/

/-- A taken and an untaken branch of the lane at 0x44, and a taken one to the header lane at 0x60. -/
theorem witness_BranchResults :
    let i : Instr := .call 0 false false 4
    let s := W i 0 x0 []
    let c := s.core s.cur
    Calm s ∧ (c.rdP 0 != false) = true ∧ ((0x44 : Word) + (4 : BitVec 19).signExtend 64 <<< 2).toNat % 4 = 0 ∧
      ((0x44 : Word) + (4 : BitVec 19).signExtend 64 <<< 2).toNat % 32 ≠ 0 ∧ s.cmd.lane = 0x44 ∧ c.fetch.stall = some s.cmd.idx ∧ Cc i s := by
  and_intros <;> first | rfl | decide
theorem witness_BranchNotTakenAndTargetTraps :
    let i : Instr := .b 0 false false 7
    let j : Instr := .b 1 false false 7
    let s := W i 0 x0 []
    let u := W j 0 x0 []
    ((s.core s.cur).rdP 0 != false) = true ∧ ((0x44 : Word) + (7 : BitVec 19).signExtend 64 <<< 2).toNat % 32 = 0 ∧ (s.core s.cur).mode = .running ∧
      (u.core u.cur).rdP 1 = false ∧ (u.core u.cur).loops = [] ∧ Cc i s ∧ Cc j u := by
  and_intros <;> rfl
/-- A lane address, one off alignment, one beyond the space. -/
theorem witness_RegisterJumpResults :
    let s := W (.jr 1) 0 [0, 0x84, 0x82, 0x10000000000004] []
    Reads s 1 0x84 ∧ Reads s 2 0x82 ∧ Reads s 3 0x10000000000004 ∧ Calm s ∧ (0x84 : Word).toNat % 4 = 0 ∧ (0x84 : Word).toNat % 32 ≠ 0 ∧
      (0x84 : Word).toNat < 2 ^ 52 ∧ (0x82 : Word).toNat % 4 ≠ 0 ∧ 2 ^ 52 ≤ (0x10000000000004 : Word).toNat ∧ (0x10000000000004 : Word).toNat % 4 = 0 ∧
      (0x10000000000004 : Word).toNat % 32 ≠ 0 ∧ (s.core s.cur).mode = .running ∧ Cc (.jr 1) s := by
  and_intros <;> first | rfl | decide
/-- A loop of three iterations, and one of none whose END lies in a page. -/
theorem witness_LoopResults :
    let i : Instr := .loopi 1 0 ⟨0, 0, 0, 0, 0, 0⟩ 5 3
    let j : Instr := .loop 1 5 0 ⟨0, 0, 0, 0, 0, 0⟩ 5
    let s := W i 0 x0 []
    let u := W j 0 x0 []
    Calm s ∧ Cc i s ∧ (3 : BitVec 14).toNat = 3 ∧ (after ((0x44 : Word) + 4)).toNat ≤ ((0x44 : Word) + BitVec.ofNat 64 20).toNat ∧
      ((0x44 : Word) + BitVec.ofNat 64 20).toNat % 32 ≠ 0 ∧ Calm u ∧ Cc j u ∧ Reads u 5 0 ∧ Lands u .fetch 0x58 (pData 0x58) := by
  and_intros <;> first | rfl | decide | (intro _; rfl)
theorem witness_QueueFlushResults :
    let i : Instr := .qflush 3 15
    let s := W i 0 x0 []
    Cc i s ∧ s.slot = 0 ∧ s.cmd.iter = [] := ⟨W_cc _ _ _ rfl rfl, rfl, rfl⟩
/-- WTMO, an unassigned number, a template entry of the loop-nest table, CHDONE. -/
theorem witness_SystemRegisterReads :
    let s := W (.sysr 5 0x501) 0 x0 []
    let u := W (.sysr 5 0x3FFF) 0 x0 []
    let v := W (.sysr 5 0x27F) 0 x0 []
    let w := W (.sysr 5 0x307) 0 x0 []
    Cc (.sysr 5 0x501) s ∧ s.sysreg s.cur 0x501 s.cmd.table = some 0x10000 ∧ Cc (.sysr 5 0x3FFF) u ∧ u.sysreg u.cur 0x3FFF u.cmd.table = none ∧
      (u.core u.cur).mode = .running ∧ Cc (.sysr 5 0x27F) v ∧ (0x27F : BitVec 14).toNat = 0x260 + 31 ∧ Cc (.sysr 5 0x307) w ∧
      (0x307 : BitVec 14).toNat = 0x300 + 7 := by
  and_intros <;> rfl
/-- A register that a task may write, one it may not, an unassigned one; a descriptor of a reserved format, one of an allowed one, and one that must wait. -/
theorem witness_SystemRegisterChanges :
    let s := W (.sysw 1 0x620) 0 x0 []
    let u := W (.sysw 1 0x501) 0 x0 []
    let v := W (.sysw 1 0x3FFF) 0 x0 []
    let p := W (.paceGapWrite 4 1) 0 x0 []
    let b := W (.bkfmtWrite 3 1) 0 [0, 0x15, 0xE] []
    let r := W (.bkfmtWrite 3 2) 0 [0, 0x15, 0xE] []
    let m := W (.bkfmtWrite 3 1) 0 [0, 0x15, 0xE] [] (fun c => c.setQueue 2 [.cmd Cmd.nil, .mark 5 0 true false])
    Reads s 1 5 ∧ Cc (.sysw 1 0x620) s ∧ Cc (.sysw 1 0x501) u ∧ Cc (.sysw 1 0x3FFF) v ∧ Cc (.paceGapWrite 4 1) p ∧ (u.core u.cur).mode = .running ∧
      Reads b 1 0x15 ∧ (b.core b.cur).allReached b.cmd.idx = true ∧ bits (0x15 : Word).toNat 0 4 < 14 ∧ Cc (.bkfmtWrite 3 1) b ∧ Reads r 2 0xE ∧
      14 ≤ bits (0xE : Word).toNat 0 4 ∧ Cc (.bkfmtWrite 3 2) r ∧ (m.core m.cur).allReached m.cmd.idx = false ∧ Cc (.bkfmtWrite 3 1) m := by
  and_intros <;> first | rfl | decide
set_option maxRecDepth 20000 in
theorem witness_MatrixConfigurationResults :
    let s := W (.mxcfg 4 1 0) 0 x0 []
    let u := W (.mxcfgT 1 0) 0 [0, 0x100] []
    let v := W (.mxst 5 true 2) 0 x0 []
    let va : Word := (0x100 : Word) + (0 : BitVec 40).signExtend 64
    Cc (.mxcfg 4 1 0) s ∧ Reads s 1 5 ∧ Cc (.mxcfgT 1 0) u ∧ Reads u 1 0x100 ∧ (u.core u.cur).holds = [] ∧ va.toNat % 256 = 0 ∧
      Lands u .read 0x100 (pData 0x100) ∧ Plain (pData 0x100) ∧ (u.readPaP (pData 0x100).pa 256).poisoned = false ∧ Cc (.mxst 5 true 2) v ∧
      cmdsOf ((v.core v.cur).queue 4) = [] := by
  and_intros <;> first | rfl | decide | (intro _; rfl)
/-- `trap.z`; a fault of a running core and a later one of the stopped core. -/
theorem witness_TrapRecord :
    let s := W (.trapZ 7) 0 x0 []
    let t : Trap := ⟨.poison, 3, 0, 7, 9, none, none⟩
    Cc (.trapZ 7) s ∧ (s.core s.cur).mode = .running ∧ t.aux = none ∧ t.viol = none ∧ t.cls ≠ .link ∧ (t.eng ≠ 5 ∨ t.cls ≠ .bound) ∧
      ((takeFault s 0 t 5 0x44).core 0).mode = .stopped ∧
      ((takeFault s 0 t 5 0x44).core 0).trapAt = s.now ∧ ({ t with eng := 2 } : Trap).eng < ((takeFault s 0 t 5 0x44).core 0).trap.eng.toNat % 16 ∧
      ((takeFault s 0 t 5 0x44).core 0).trap.eng.toNat % 16 < ({ t with eng := 4 } : Trap).eng ∧
      ((W .nop 0 x0 [] (fun c => { c with mode := .resting true (some 0x5000) })).core 0).mode = .resting true (some 0x5000) := by
  and_intros <;> first | rfl | decide
/-- An address beyond the space; a page without W; a hole of the map; device memory of the partition; a scratchpad word of a disabled core. -/
theorem witness_AddressTranslation :
    let s := W .nop 0 x0 []
    let e : TlbEntry := ⟨0, 4096, 0x10000, true, true, false, false, false, true⟩
    let r := W .nop 0 x0 [] (fun c => { c with tlb := [⟨0, 4096, 0x3000000000000, false, true, false, false, false, true⟩] })
    2 ^ 52 ≤ (0x10000000000000 : Word).toNat ∧ (s.core s.cur).tlb.head? = some e ∧ e.w = true ∧ e.d = true ∧ e.x = true ∧
      s.region (0x10000 + 8) = .device 0 ∧ s.dieOwner 0 = s.corePart s.cur ∧ (s.getPart (s.corePart s.cur)).ck.regions = [] ∧
      s.chipOk (coreDie s.cur) 0 = true ∧ (s.die (s.homeDie (s.corePart s.cur) (0x10000 + 8))).up = true ∧ r.region (0x3000000000000 + 8) = .unassigned ∧
      bits (0x2000000 : Word).toNat 25 39 ≠ 0 ∧ bits (0x1400000 : Word).toNat 24 1 = 1 ∧
      ({ s with disabled := [1] } : State).disabled.contains (s.cur / 4 * 4 + bits (0x1400000 : Word).toNat 22 2) = true := by
  and_intros <;> first | rfl | decide
/-- The walk of R38 through four tables. -/
def walkMem : Bytes :=
  pokeBytes (pokeBytes (pokeBytes (pokeBytes [] 0x10000 (leBytes 8 0x11001)) 0x11000 (leBytes 8 0x12001)) 0x12000 (leBytes 8 0x13001)) 0x13000 (leBytes 8 0x50035)

/-! #### Fetch and predictions -/

/-- A core that routes one lane. -/
def routing (b : LaneBuf) : State := W .nop 0 x0 [] (fun c => { c with fetch := { Fetch.reset with pc := b.addr, buf := [b], ended := false }, qs := Vector.replicate 14 [] })
theorem witness_FetchAndPrediction :
    let i : Instr := .add 1 2 3 true
    let b : LaneBuf := ⟨0x44, .instr .cc i 5 1, none⟩
    let s := routing b
    let c := s.core s.cur
    let u := routing ⟨0x44, .pfx (.pblk .vx 3 2 5), none⟩
    let sp : Spec := ⟨1, true, 2, some true, some ⟨0x80, [], none⟩, none⟩
    let v := W .nop 0 x0 [] (fun c => { c with fetch := { c.fetch with spec := some sp } })
    let on (x : Option Spec) : State := W .nop 0 x0 [] (fun c =>
      { c with fetch := { Fetch.reset with pc := 0x44, buf := [⟨0x44, .pfx (.pblk .vx 3 2 5), none⟩], ended := false, spec := x },
               qs := (Vector.replicate 14 []).set 0 [.cmd (cmdW (.cmpi 3 1 .eq 5) 0 [])] })
    let same : Spec := ⟨3, true, 5, none, none, none⟩
    let other : Spec := ⟨2, true, 4, none, none, none⟩
    (∀ x ∈ [none, some same, some other], ((on x).core 0).nextPrefix = some (.pblk .vx 3 2 5) ∧ ((on x).core 0).fetching = true ∧
        ((on x).core 0).predWriter 3 = some 5 ∧ ((on x).core 0).fetch.spec = x ∧ ((on x).core 0).loops = []) ∧
      (u.core 0).nextPrefix = some (.pblk .vx 3 2 5) ∧ (same.pred = 3 ∧ same.writer = 5 ∧ same.got = none) ∧
      ¬ (other.pred = 3 ∧ other.writer = 5 ∧ other.got = none) ∧
    c.fetching = true ∧ c.loops = [] ∧ c.fetch.buf = [b] ∧ c.fetch.spec = none ∧ c.fetch.pfx = [] ∧ isTransfer i = false ∧ isExit i = false ∧
      isBankWrite i = false ∧ isYield i = false ∧ c.holdsMxgo i = false ∧ gateOf i = none ∧ (scalarsOf i).all (fun r => !c.xPending r) = true ∧
      (u.core u.cur).fetching = true ∧ (u.core u.cur).predWriter 3 = none ∧ (v.core v.cur).fetch.spec = some sp ∧ sp.got = some true ∧ sp.held = none ∧
      ({ sp with got := some false } : Spec).got ≠ some sp.val := by
  and_intros <;> first | rfl | decide

/-! #### Loop events, task ends, saves, the debugger -/

/-- A loop of five iterations in two stages, its body 0x48 to 0x70. -/
def loop5 : Loop := ⟨7, 1, 5, 2, ⟨0, 1, 1, 1, 0, 0⟩, 0x48, 0x70, 4, false, 0, none, false, none, false, none, 0, [], [], []⟩
def looping (l : Loop) : State := W .nop 0 x0 [] (fun c => { c with loops := [l], qs := Vector.replicate 14 [] })
theorem witness_LoopEvents :
    let s := looping loop5
    let r := looping { loop5 with roll := some 1 }
    let d := heldW 2 (.stT ⟨tk0, ⟨1, .plain⟩, 2, .f32, 0, 0, 3, 0⟩) [.mem 0x40 0x10040 [1, 2] [] false false] true
    let h : State := W .nop 0 x0 [] (fun c => { c with loops := [loop5], qs := Vector.replicate 14 [], holds := [d] })
    let e := looping { loop5 with roll := some 0, drain := true }
    (s.core s.cur).loops = [loop5] ∧ (s.core s.cur).canRetire = true ∧ (s.core s.cur).holds = [] ∧ (s.core s.cur).mode = .running ∧
      (s.core s.cur).dbg.halted = false ∧ (h.core h.cur).holds = [d] ∧ d.due = true ∧ d.need = .no ∧ d.slot ≠ 5 ∧ loop5.ccDrop = none ∧ loop5.drain = false ∧
      (r.core r.cur).loops = [{ loop5 with roll := some 1 }] ∧ (e.core e.cur).loops = [{ loop5 with roll := some 0, drain := true }] ∧ 0 ≤ loop5.retired := by
  and_intros <;> first | rfl | decide
/-- A task. -/
def task1 : Task := ⟨3, 0, 0, 1, [1, 2, 3, 4], none, 1, 1, false, 0, 0, 5, 0, 0⟩
/-- A core whose task has ended but for its completion, with a token left over or none; an engine that waits for a token that no sender will send,
or longer than WTMO. -/
theorem witness_TaskEndAndWaits :
    let x : Core → Core := fun c => { c with exiting := some 3, task := some task1, qs := Vector.replicate 14 [], toks := Vector.replicate 8 0, fetch := Fetch.reset }
    let s := W .nop 0 x0 [] x
    let l := W .nop 0 x0 [] (fun c => { x c with toks := (x c).toks.set 5 1 })
    let i : Instr := .mxgo ⟨true, false, false, false⟩
    let y : Core → Core := fun c => { c with fetch := { c.fetch with ended := true }, waits := [(4, ⟨2, 0, 0, 5, 0⟩)], toks := Vector.replicate 8 0 }
    let t := W i 4 x0 [] y
    let w : State := { t with now := 0x10000 * 1024 }
    let c := t.core t.cur
    (s.core s.cur).exiting = some 3 ∧ (s.core s.cur).task = some task1 ∧ (s.core s.cur).allDone = true ∧ (s.core s.cur).fetch.spec = none ∧
      (List.range 8).all (fun f => (s.core s.cur).tokCount f == 0) = true ∧ (l.core l.cur).allDone = true ∧ 0 < (l.core l.cur).tokCount 5 ∧
      c.headEntry 4 = some (.cmd t.cmd) ∧ amFind 4 c.waits = some ⟨2, 0, 0, 5, 0⟩ ∧ fifoDst 5 = 4 ∧ c.tokCount 5 = 0 ∧ c.fetch.ended = true ∧
      c.queue (fifoSrc 5) = [] ∧ c.unsent = [] ∧ c.fetch.spec = none ∧ c.loops = [] ∧ c.dbg.halted = false ∧ amFind 4 c.dbg.paused = none ∧
      (w.getPart (w.corePart w.cur)).regs.wtmo.toNat % 2 ^ 32 * 1024 ≤ w.now - (0 : Word).toNat ∧
      t.now - (0 : Word).toNat < (t.getPart (t.corePart t.cur)).regs.wtmo.toNat % 2 ^ 32 * 1024 := by
  and_intros <;> first | rfl | decide
/-- A stopped core; a pre-emption asked for with an area free; a core to be saved; a saved context that a free core may take. -/
theorem witness_SaveAndRestoreEvents :
    let st := W .nop 0 x0 [] (fun c => { c with mode := .stopped })
    let pr := (W .nop 0 x0 [] (fun c => { c with task := some task1 })).updSched 0 (fun d => { d with preempts := [(0, true)], pool := [0x5000] })
    let sv := W .nop 0 x0 [] (fun c => { c with task := some task1, mode := .resting false (some 0x5000), qs := Vector.replicate 14 [] })
    let x : Ctx := ⟨0x5000, { Core.reset with task := some task1 }, .resume, 0, 0, [], []⟩
    let bu := ({ State.reset with phase := 2, cores := [(0, { Core.reset with staged := some ⟨7, none⟩ })] } : State).updSched 0
      (fun d => { d with ctxs := [x], pool := [0x5000], poolBusy := [0x5000] })
    let re := ({ State.reset with phase := 2, cores := [(0, Core.reset)] } : State).updSched 0 (fun d => { d with ctxs := [x], pool := [0x5000], poolBusy := [0x5000] })
    (st.core 0).mode = .stopped ∧ (pr.core 0).mode = .running ∧ (pr.core 0).dbg.halted = false ∧ (pr.core 0).inGang = false ∧
      (0, true) ∈ (pr.sched 0).preempts ∧ (pr.sched 0).freeAreas.head? = some 0x5000 ∧ (sv.core 0).mode = .resting false (some 0x5000) ∧
      (sv.core 0).task = some task1 ∧ (sv.core 0).canSave = true ∧ (re.sched 0).ctxs = [x] ∧ x.area = 0x5000 ∧
      re.selection 0 = some (⟨none, [0x5000], 1, 0, 1, false⟩, [0]) ∧ (x.core.task.map (·.gpos)).getD 0 < 4 ∧ x.core.task.any (fun t => t.gang) = false ∧
      (re.core 0).mode = .idle ∧ (re.core 0).staged = none ∧ bu.selection 0 = some (⟨none, [0x5000], 1, 0, 1, false⟩, [0]) ∧
      (bu.core 0).staged ≠ none ∧ task1.gang = false := by
  and_intros <;> first | rfl | decide
theorem witness_DebuggerEvents :
    let s : State := { W .nop 0 x0 [] with rows := { Rows.reset with debugen := true } }
    let m := W .nop 1 x0 [] (fun c => { c with dbg := { c.dbg with cmpen := true, cmpEng := 2, cmpIdx := 5 } })
    let h := W .nop 0 x0 [] (fun c => { c with dbg := { c.dbg with halted := true } })
    let g := W .nop 0 x0 [] (fun c => { c with dbg := { c.dbg with stepping := true } })
    let w : State := { h with phase := 2, parts := h.parts.set 0 { h.getPart 0 with dbgsel := some 0 } }
    s.rows.debugen = true ∧ (s.core 0).mode = .running ∧ (s.core 0).dbg.halted = false ∧ (m.core 0).matches 1 = true ∧ (h.core 0).dbg.halted = true ∧
      (h.core 0).dbg.writes = [] ∧ (g.core 0).dbg.halted = false ∧ (g.core 0).dbg.stepping = true ∧ w.phase ≠ 0 ∧ (w.getPart w.part).dbgsel = some 0 ∧ (w.core 0).dbg.halted = true ∧
      (0x7F0003 : BitVec 24).toNat / 8 * 8 = 0x7F0000 ∧ (0x3F0003 : BitVec 24).toNat / 8 * 8 < 0x7F0000 ∧
      ((s.core 0).dbg.halted = false ∧ (0xFFFFFF : BitVec 24).toNat / 8 * 8 ≠ 0x7F0000) := by
  and_intros <;> first | rfl | decide
/-- A queue whose head a parity error reaches, and a reserved lane. -/
theorem witness_ErrorsAndReservedLanes :
    let s := W (.vabs ⟨false, false, false, false⟩ ⟨1, .produce⟩ ⟨2, .plain⟩ false) 3 x0 []
    let r := W (.reservedOpcode 0x38000000) 1 x0 [] id 0x38000000
    let n : Nest := ⟨cmdW (.mxgo tk0) 0 [], 0, 2, false, [0], false⟩
    let v : Xfer := ⟨9, 0, 0, 0, 0, .waiting, [], none, 0, 0, 0, .raw, .raw, [], false⟩
    let e := W (.vabs ⟨false, false, false, false⟩ ⟨1, .produce⟩ ⟨2, .plain⟩ false) (fifoDst 5) x0 [] (fun c =>
      { c with sh := { Shadow.nil with tiles := [(3, Tile.empty)], accs := [(1, Acc.zero)] }, toks := Vector.replicate 8 2,
               holds := [heldW 2 .nop [] false], mx := { c.mx with nest := some n },
               cp := { c.cp with jrn := c.cp.jrn.set 2 [v] } })
    let m : State := { State.reset with dies := State.reset.dies.set 0 { State.reset.die 0 with l2 := [(0x200, ⟨[], false⟩)] } }
    let kb : State := State.reset.updKv 0 (fun k => { k with blocks := [(0, [⟨1, 0, 0, some 4, false, [(0, ⟨0, 0, false⟩)]⟩])] })
    (e.core 0).sh.tiles ≠ [] ∧ amFind 3 (e.core 0).sh.tiles = some Tile.empty ∧ amFind 1 (e.core 0).sh.accs = some Acc.zero ∧ 0 < (e.core 0).tokCount 5 ∧
      (e.core 0).headEntry (fifoDst 5) = some (.cmd e.cmd) ∧ (e.core 0).holds = [heldW 2 .nop [] false] ∧ (heldW 2 .nop [] false).slot = 2 ∧
      ((e.core 0).journal 2)[0]? = some v ∧ (e.core 0).mx.nest = some n ∧ n.drain = false ∧ n.rested = false ∧ (e.core 0).loops = [] ∧
      (e.core 0).mode = .running ∧ (m.lineDie (0x10000 / 128)).isSome = true ∧
      ((kb.kvBlocks 0 0)[0]? = some ⟨1, 0, 0, some 4, false, [(0, ⟨0, 0, false⟩)]⟩) ∧ kb.dieOwner 0 = 0 ∧ (kb.getPart 0).dies.idxOf 0 = 0 ∧ Unheld (s.core 0) s.cmd ∧
    (s.core 0).headEntry 3 = some (.cmd s.cmd) ∧ (s.core 0).loops = [] ∧ (s.core 0).mode = .running ∧ r.cmd.spec = .none ∧ r.slot < 14 ∧ r.slot ≠ 0 ∧
      (r.core 0).mode = .running := by
  and_intros <;> first | rfl | decide

/-! #### The XQ port, the scheduler, the load and store engines -/

/-- An engine lane in hand. -/
theorem W_lane (i : Instr) (k : Slot) (x vals : List Word) (g : Core → Core) (raw : Word) (o : LaneOps)
    (hg : let c := g (coreW (cmdW i raw vals) k x); c.loops = [] ∧ c.holds = [] ∧ c.unsent = [] ∧ c.sh = Shadow.nil ∧ c.relNext k = false ∧
      (k = 2 → c.begun 2 < 16)) (h1 : o.illegal = none)
    (h2 : ∀ f ∈ tokTakes k o.tok, 0 < (g (coreW (cmdW i raw vals) k x)).tokCount f)
    (h3 : ∀ p ∈ o.srcs, p.1.mode = .consume ∨ p.1.mode = .peek → ((g (coreW (cmdW i raw vals) k x)).tile p.1.n.toNat).full = true)
    (h4 : ∀ d ∈ o.dsts, d.1.mode = .produce → ((g (coreW (cmdW i raw vals) k x)).tile d.1.n.toNat).full = false ∨ ∃ p ∈ o.srcs, p.1.n = d.1.n ∧ p.1.mode = .consume) :
    Lane i (W i k x vals g raw) k o := 
  ⟨rfl, rfl, rfl, rfl, rfl, rfl, ⟨hg.1, hg.2.1⟩, hg.2.2.2.2.1, hg.2.2.2.2.2, hg.2.2.1, hg.2.2.2.1, h1, h2, h3, h4⟩

/-- A record of class 1 with five iterations of one dimension; the same bound up to its third. -/
def rec1 : Record :=
  { Record.parse (List.replicate 128 0) with entry := 0x10000, ndim := 1, n := [5, 1, 1, 1], order := [0, 1, 2, 3], arg0 := 77, arg1 := 88, livebk := 3, livetl := 9, cls := 1 }
def live1 : RecLive := ⟨0, rec1, none, 0, .queued, 2, some 5, 0, 0, false, 0, 0, 0⟩
def schedW (c : Core) (f : Sched → Sched) : State := { State.reset with cores := [(0, c)], parts := State.reset.parts.set 0 { Part.reset [0, 1, 2, 3] with sched := f Sched.reset } }
theorem witness_DispatchAndSchedulerEvents :
    let s := schedW Core.reset (fun d => { d with recs := [(7, live1)], queues := d.queues.set 1 [7], taskCnt := 5 })
    let g := { schedW { Core.reset with mode := .running } (fun d => { d with recs := [(7, live1)], queues := d.queues.set 1 [7] }) with now := 5000 }
    let r := schedW Core.reset (fun d => { d with recs := [(7, { live1 with place := .ready })], ready := [7], queues := d.queues.set 1 [3] })
    let h := schedW Core.reset (fun d => { d with heldReplay := some (0x1000, 3), heldPatches := [⟨0, Cmd.nil, 4, 9, 0x77⟩], heldSubs := [⟨0, Cmd.nil, rec1, none, some 0x40⟩] })
    let q := schedW Core.reset (fun d => { d with recs := [(7, { live1 with place := .ready, rcd := { rec1 with n := [0, 1, 1, 1] }, n0w := some 0 })], ready := [7] })
    let hs : HeldSub := ⟨0, Cmd.nil, rec1, none, some 0x40⟩
    live1.n0w = some 5 ∧ (∀ e ∈ (r.sched 0).recs, e.2.place = .queued → e.2.empty = false) ∧ ({ live1 with place := .ready } : RecLive).empty = false ∧
      (q.sched 0).ready = [7] ∧ ((q.sched 0).rcd? 7).map (·.empty) = some true ∧ (∀ e ∈ (q.sched 0).recs, e.2.place = .queued → e.2.empty = false) ∧
      rec1.cls < 4 ∧ ((q.sched 0).queue 1).length < 256 ∧ (h.sched 0).heldSubs = [hs] ∧ hs.rcd.cls < 4 ∧ hs.rcd.total (hs.rcd.n.getD 0 0) ≠ 0 ∧
      (∀ e ∈ (h.sched 0).recs, e.2.place = .queued → e.2.empty = false) ∧
    s.selection s.part = some (⟨some 7, [], 1, 0, 1, false⟩, [0]) ∧ (s.sched 0).rcd? 7 = some live1 ∧ rec1.total 5 = 5 ∧ rec1.gang = false ∧
      g.nextRec (g.corePart g.cur) = some 7 ∧ (g.core 0).mode = .running ∧ (g.core 0).staged = none ∧ (g.partCores 0).contains 0 = true ∧
      (g.cands 0).all (fun c => !c.gang) = true ∧ (g.sched 0).fcastAt / 2048 < g.now / 2048 ∧ (g.getPart 0).dies ≠ [] ∧ (r.sched 0).ready = [7] ∧
      ((r.sched 0).queue 1).length < 256 ∧ (h.sched 0).heldReplay = some (0x1000, 3) ∧ (h.sched 0).olderLive = false ∧ (h.sched 0).latest < 4 ∧
      (h.sched 0).hasRoom 1 = true := by
  and_intros <;> first | rfl | decide
/-- A partition of one core, whose task a record of a higher class has waited for. -/
theorem witness_PrewaitExpiry :
    let b : State := schedW { Core.reset with mode := .running, task := some { task1 with ecls := 3, cls := 3 } } (fun d => { d with recs := [(7, live1)], queues := d.queues.set 1 [7] })
    let s : State := { b with now := 64000, disabled := nsRange 1 127, parts := b.parts.set 0 { b.getPart 0 with dies := [0] } }
    (s.cands 0).map (·.gang) = [false] ∧ 2000 * (s.getPart 0).regs.prewait.toNat ≤ s.now - 0 ∧ (s.cands 0).flatMap (s.victim 0) = [0] ∧ s.corePart 0 = 0 ∧
      (s.partCores 0).all (fun j => !s.coreFree j) = true ∧ (s.sched 0).preempts = [] := by
  and_intros <;> rfl
/-- A record of one iteration at 0x100: ENTRY 0x1000, NDIM 1. -/
def recBytes : List Byte :=
  leBytes 8 0x1000 ++ leBytes 4 8 ++ leBytes 4 0 ++ leBytes 4 3 ++ List.replicate 44 0 ++ List.replicate 16 255 ++ List.replicate 48 0
def sqW (i : Instr) (vals : List Word) : State := W i 5 [] vals (fun c => { c with task := some { task1 with replay := some 1 } })
set_option maxRecDepth 20000 in
theorem witness_SchedulerQueueResults :
    let i : Instr := .sqSub 1 true 2
    let s : State := { sqW i [0x100, 0x80] with mem := pokeBytes [] 0x10100 recBytes }
    let n := sqW i [0x100, 0x80]
    let y := (sqW .sqYieldAl [0]).updSched 0 (fun d => { d with pool := [0x5000] })
    let w0 := (sqW .sqYield [0]).updSched 0 (fun d => { d with recs := [(7, live1)], queues := d.queues.set 1 [7] })
    let w : State := { w0 with disabled := nsRange 1 127, parts := w0.parts.set 0 { w0.getPart 0 with dies := [0] } }
    (Record.parse recBytes).total ((Record.parse recBytes).n.getD 0 0) ≠ 0 ∧ (∀ e ∈ (s.sched 0).recs, e.2.place = .queued → e.2.empty = false) ∧
      (s.core 0).mode = .running ∧ Xq .sqYieldAl y ∧ (y.sched 0).freeAreas ≠ [] ∧ (y.core 0).inGang = false ∧ (y.sched 0).preempts = [] ∧ Xq .sqYield w ∧
      (∀ j ∈ w.partCores 0, w.coreFree j = false) ∧ (∃ x ∈ w.cands 0, x.e ≤ task1.ecls) ∧ (w.core 0).inGang = false ∧ (w.sched 0).preempts = [] ∧
    Has s 0 0x100 ∧ Has s 1 0x80 ∧ Xq i s ∧ Xq i n ∧ ResultOk s 0x80 8 8 ∧ Lands s .read 0x100 (pData 0x100) ∧ (s.readPaP (pData 0x100).pa 128).poisoned = false ∧
      (Record.parse recBytes).ok recBytes none = true ∧ (s.readPaP (pData 0x100).pa 128).bytes = recBytes ∧ (s.sched 0).hasRoom (Record.parse recBytes).cls = true ∧
      (s.sched 0).heldSubs = [] ∧ (Record.parse (n.readPaP (pData 0x100).pa 128).bytes).ok (n.readPaP (pData 0x100).pa 128).bytes none = false ∧
      Xq (.sqGpr 3 60 1) (sqW (.sqGpr 3 60 1) [0x80]) ∧ ResultOk (sqW (.sqGpr 3 60 1) [0x80]) 0x80 32 8 ∧ (60 : BitVec 6).toNat + (3 : BitVec 4).toNat ≤ 63 ∧
      Xq (.sqGpw 9 1) (sqW (.sqGpw 9 1) [0x80]) ∧ (s.sched 0).latest < 1 + 1 ∧ (s.sched 0).olderLive = false ∧ ResultOk s 0x80 64 64 ∧ (s.sched 0).freeAreas = [] := by
  and_intros <;> first | rfl | decide | (intro _; rfl)

/-- A load of 4 rows of 16 words from 0x80, row after row 0x100 bytes on. -/
def ldA (ty : Fmt) : LdArgs := ⟨tk0, ⟨4, .produce⟩, 5, ty, 3, 15, 6, 1⟩
/-- A tile of index words. -/
def idx4 (c : Core) : Core := c.setTile 9 ⟨true, .s32, [(0, BitVec.ofNat 1024 (5 + 2 * 2 ^ 32 + 9 * 2 ^ 96))], []⟩
theorem row4 (r : Nat) (h : r ≤ 3) : r = 0 ∨ r = 1 ∨ r = 2 ∨ r = 3 := by omega
theorem witness_MemoryLoadResults :
    let o := ldA .s32
    let s := W (.ldT o) 1 [] [0x80, 0x100]
    let off (r : Nat) : Int := r * (0x100 : Word).toInt
    LdRows (.ldT o) s o false 0x80 0x100 [] off (nels o.nel * Fmt.size o.ty) ∧ Lane (.ldT o) s 1 ⟨o.tok, [], [(o.td, 12)]⟩ ∧ Has s 0 0x80 ∧ Has s 1 0x100 ∧
      nels o.nel * Fmt.size o.ty ≤ rowLimit o.ty ∧ 8 * o.tr.toNat + o.nrow.toNat < 64 ∧
      ∀ r ≤ o.nrow.toNat, ((0x80 : Word) + BitVec.ofInt 64 (off r)).toNat % fmtAlign o.ty = 0 ∧
        ((0x80 : Word) + BitVec.ofInt 64 (off r)).toNat % 4096 + 64 ≤ 4096 ∧ Lands s .read (0x80 + BitVec.ofInt 64 (off r)) (pData (0x80 + 0x100 * r)) ∧
        Plain (pData (0x80 + 0x100 * r)) := by
  refine ⟨.inl ⟨.inl rfl, rfl, fun _ => rfl⟩, W_lane _ _ _ _ _ _ _ ⟨rfl, rfl, rfl, rfl, rfl, by decide⟩ rfl (by decide) (by decide) (by decide), rfl, rfl, by decide, by decide, ?_⟩
  intro r h
  obtain rfl | rfl | rfl | rfl := row4 r h <;> exact ⟨rfl, by decide, fun _ => by rfl, by decide, by decide⟩
/-- The other forms of `LdRows`: an index tile, a broadcast. -/
theorem witness_LoadRows :
    let o := ldA .s32
    let s := W (.ldG o ⟨9, .peek⟩) 1 [] [0x80, 0x40] idx4
    let u := W (.ldB o false) 1 [] [0x80, 0x40]
    let x := (s.core s.cur).tile 9
    x.tag = .s32 ∧ (∀ r ≤ o.nrow.toNat, x.elPoisoned x.tag r = false) ∧ LdRows (.ldB o false) u o false 0x80 0x40 [] (fun _ => 0) 512 ∧
      Lane (.ldG o ⟨9, .peek⟩) s 1 ⟨o.tok, [(⟨9, .peek⟩, 56)], [(o.td, 12)]⟩ :=
  ⟨rfl, by decide, .inr (.inr ⟨rfl, rfl, fun _ => rfl⟩), W_lane _ _ _ _ _ _ _ ⟨rfl, rfl, rfl, rfl, rfl, by decide⟩ rfl (by decide) (by decide) (by decide)⟩
/-- Banks of BF16. -/
def bf16s (c : Core) : Core := { c with banks := Vector.replicate 16 ⟨false, 0, .bf16, 0, 0⟩ }
theorem witness_ScratchpadLoadResults :
    let o := ldA .f32
    let s := W (.ldS o) 1 [] [0x80, 0x100] bf16s
    let off (r : Nat) : Int := r * (0x100 : Word).toInt
    LdRows (.ldS o) s o true 0x80 0x100 [] off 256 ∧ Lane (.ldS o) s 1 ⟨o.tok, [], [(o.td, 12)]⟩ ∧ Has s 0 0x80 ∧ Has s 1 0x100 ∧ SpLands s 0x80 0 0x80 ∧
      (o.ty ≠ .raw ∧ Fmt.isBlock .bf16 = false ∧ Fmt.isBlock .f32 = false) ∧ nels o.nel * Fmt.size .f32 ≤ rowLimit .f32 ∧
      ∀ r ≤ o.nrow.toNat, ((0x80 + 0x100 * r : Nat) : Int) = ((0x80 : Nat) : Int) + off r ∧ 0x80 + 0x100 * r + 32 ≤ 0x400000 ∧ (0x80 + 0x100 * r) % fmtAlign .bf16 = 0 ∧
        bankOf (0x80 + 0x100 * r) = bankOf (0x80 + 0x100 * r + 32 - 1) ∧ ((s.core 0).bank (bankOf (0x80 + 0x100 * r))).fmt = .bf16 ∧
        (s.core 0).streams (0x80 + 0x100 * r) 32 = false := by
  refine ⟨.inl ⟨.inl rfl, rfl, fun _ => rfl⟩, W_lane _ _ _ _ _ _ _ ⟨rfl, rfl, rfl, rfl, rfl, by decide⟩ rfl (by decide) (by decide) (by decide), rfl, rfl, by intro _; rfl,
    by decide, by decide, ?_⟩
  intro r h
  obtain rfl | rfl | rfl | rfl := row4 r h <;> exact ⟨by decide, by decide, rfl, rfl, rfl, rfl⟩
/-- A line of the page at 0 that a prefetch names is found without a walk. -/
theorem pf_hits (m : Cmd) : ∀ j ≤ (0 : BitVec 8).toNat, ∀ va w mk,
    (translate .read (ldTrap m 1 0) (BitVec.ofNat 64 (0x80 + 128 * j))).run (W (.pf tk0 0 1) 1 [] [0x80]) ≠ .error (.miss va w mk) := by
  intro j hj va w mk he
  obtain rfl : j = 0 := by simpa using hj
  have h : (translate .read (ldTrap m 1 0) (BitVec.ofNat 64 (0x80 + 128 * 0))).run (W (.pf tk0 0 1) 1 [] [0x80]) =
      .ok (pData 0x80, W (.pf tk0 0 1) 1 [] [0x80]) := rfl
  rw [h] at he
  cases he
/-- A load from W-space, prefetches of memory, of memory that bypasses the L2, and of W-space words; a poisoned address. -/
theorem witness_WeightLoadAndPrefetchResults :
    let o := ldA .s8
    let s := W (.ldW o) 1 [] [0x80, 0x100]
    let u := W (.pf tk0 0 1) 1 [] [0x80]
    let n := W (.pf tk0 0 1) 1 [] [0x80] (fun c => { c with tlb := [⟨0, 4096, 0x10000, true, true, true, false, false, true⟩] })
    let p : State := { u with cmd := { u.cmd with vals := [⟨0x80, true⟩] } }
    let w := W (.pfW tk0 0 1) 1 [] [0x60000000]
    Lane (.ldW o) s 1 ⟨o.tok, [], [(o.td, 12)]⟩ ∧ Has s 0 0x80 ∧ Has s 1 0x100 ∧ nels o.nel * Fmt.size o.ty ≤ rowLimit o.ty ∧
      (0x80 : Word).toNat < 2 ^ 38 ∧
      (∀ r ≤ o.nrow.toNat, s.wOk 0 ((0x80 : Word) + BitVec.ofNat 64 r * 0x100).toNat = true ∧
        s.wOk 0 (((0x80 : Word) + BitVec.ofNat 64 r * 0x100).toNat + 16 - 1) = true ∧
        s.ringOk (coreDie s.cur) (bits ((0x80 : Word) + BitVec.ofNat 64 r * 0x100).toNat 36 2) = true) ∧
      (∀ j ≤ (0 : BitVec 8).toNat, ∀ va w mk, (translate .read (ldTrap u.cmd 1 0) (BitVec.ofNat 64 (0x80 + 128 * j))).run u ≠ .error (.miss va w mk)) ∧ Lane (.pf tk0 0 1) u 1 ⟨tk0, [], []⟩ ∧
      Lands u .read (BitVec.ofNat 64 0x80) (pData 0x80) ∧ Lane (.pf tk0 0 1) n 1 ⟨tk0, [], []⟩ ∧
      Lands n .read (BitVec.ofNat 64 0x80) ⟨0x10080, 4096 - 0x80, ⟨0, 4096, 0x10000, true, true, true, false, false, true⟩, .device 0⟩ ∧
      (p.cmd.vals.getD 0 Scalar.zero).poison = true ∧ Lane (.pfW tk0 0 1) w 1 ⟨tk0, [], []⟩ ∧ w.wOk 0 (0x60000000 / 2048 * 2048) = true ∧
      wCore (0x60000000 / 2048 * 2048) ≠ w.cur := by
  and_intros <;> first | rfl | exact pf_hits _ | (intro _; rfl) | decide

/-- A store of 4 rows of 16 words of tile 4 to 0x80, row after row 0x100 bytes on. -/
def stA : StArgs := ⟨tk0, ⟨4, .consume⟩, 5, .raw, 3, 15, 6, 1⟩
/-- Tile 4 full, of S32. -/
def src4 (c : Core) : Core := c.setTile 4 ⟨true, .s32, [(9, 77)], []⟩
theorem witness_TileStoreResults :
    let s := W (.stT stA) 2 [] [0x80, 0x100] src4
    let u := W (.stS stA) 2 [] [0x80, 0x100] src4
    let off (r : Nat) : Int := r * (0x100 : Word).toInt
    StRows (.stT stA) s stA false 0x100 [] off ∧ Lane (.stT stA) s 2 ⟨stA.tok, [(stA.ts, 12)], []⟩ ∧ Has s 0 0x80 ∧ Has s 1 0x100 ∧
      ((s.core 0).tile 4).tag = .s32 ∧ StRows (.stS stA) u stA true 0x100 [] off ∧ Lane (.stS stA) u 2 ⟨stA.tok, [(stA.ts, 12)], []⟩ ∧ SpLands u 0x80 0 0x80 ∧
      (∀ r ≤ stA.nrow.toNat, ((0x80 : Word) + BitVec.ofInt 64 (off r)).toNat % fmtAlign .s32 = 0 ∧
        Lands s .write (0x80 + BitVec.ofInt 64 (off r)) (pData (0x80 + 0x100 * r)) ∧ (pData (0x80 + 0x100 * r)).ent.pub = false ∧
        ((u.core 0).bank (bankOf (0x80 + 0x100 * r))).act = 0 ∧ ((u.core 0).bank (bankOf (0x80 + 0x100 * r))).fmt = .raw ∧
        (u.core 0).streams (0x80 + 0x100 * r) 64 = false) ∧
      Apart stA.nrow.toNat (fun r => (pData (0x80 + 0x100 * r)).pa) 64 ∧ Apart stA.nrow.toNat (fun r => 0x80 + 0x100 * r) 64 := by
  refine ⟨.inl ⟨rfl, rfl, fun _ => rfl⟩, W_lane _ _ _ _ _ _ _ ⟨rfl, rfl, rfl, rfl, rfl, by decide⟩ rfl (by decide) (by decide) (by decide), rfl, rfl, rfl, .inl ⟨rfl, rfl, fun _ => rfl⟩,
    W_lane _ _ _ _ _ _ _ ⟨rfl, rfl, rfl, rfl, rfl, by decide⟩ rfl (by decide) (by decide) (by decide), by intro _; rfl, ?_, ?_, ?_⟩
  · intro r h
    obtain rfl | rfl | rfl | rfl := row4 r h <;> exact ⟨rfl, fun _ => by rfl, rfl, rfl, rfl, rfl⟩
  · intro r q h1 h2
    simp only [pData, place]; omega
  · intro r q h1 h2
    beta_reduce; omega
/-- A release of one word of eight bytes; a reduce-store of one row with a signal; a window of one unit. -/
theorem witness_ReleaseReduceAndPublishResults :
    let o : StArgs := ⟨tk0, ⟨4, .peek⟩, 5, .raw, 0, 1, 6, 0⟩
    let s := W (.stRel o false .rc) 2 [] [0x80, 0x100] src4
    let r := W (.stRed o .addS32 true 70) 2 [] [0x80, 0x100] (fun c => { src4 c with banks := Vector.replicate 16 ⟨false, 0, .s32, 0, 0⟩ })
    let v := W (.pubv tk0 2) 2 [] []
    let v : State := { v with parts := v.parts.set 0 { v.getPart 0 with pubw := Vector.replicate 16 ⟨0, 1, 0⟩ } }
    Lane (.stRel o false .rc) s 2 ⟨o.tok, [(o.ts, 12)], []⟩ ∧ Has s 0 0x80 ∧ nels o.nel * Fmt.size ((s.core 0).tile 4).tag = 64 ∧
      Lands s .write 0x80 (pData 0x80) ∧ (pData 0x80).ent.pub = false ∧ (s.getPart 0).ck.regions = [] ∧
      Lane (.stRed o .addS32 true 70) r 2 ⟨o.tok, [(o.ts, 12)], []⟩ ∧ ((r.core 0).tile 4).tag = redFmt .addS32 ∧ SpLands r 0x80 0 0x80 ∧
      ((r.core 0).bank (bankOf 0x80)).fmt = redFmt .addS32 ∧ ((r.core 0).bank (bankOf 0x80)).act = 0 ∧ (r.core 0).spPoisoned 0x80 8 = false ∧ (r.core 0).streams 0x80 8 = false ∧
      (stRowEls o ((r.core 0).tile 4) (redFmt .addS32) 0 0).all (fun e => !e.2) = true ∧ Lane (.pubv tk0 2) v 2 ⟨tk0, [], []⟩ ∧
      ((v.getPart 0).pubw.getD 2 ⟨0, 0, 0⟩).len ≠ 0 := by
  and_intros <;> first | rfl | (intro _; rfl) | decide
/-- Lanes in modes their places forbid; an index tile of FP32; rows past the tile. -/
theorem witness_EngineLaneTraps :
    let o : LdArgs := { ldA .s32 with td := ⟨4, .peek⟩ }
    let q : StArgs := { stA with ts := ⟨4, .produce⟩ }
    let s := W (.ldT o) 1 [] [0x80, 0x100]
    let u := W (.stT q) 2 [] [0x80, 0x100]
    let f := W (.ldG (ldA .s32) ⟨9, .plain⟩) 1 [] [0x80, 0x40]
    let p := W (.ldT { ldA .s32 with tr := 7, nrow := 8 }) 1 [] [0x80, 0x100]
    s.cmd.spec = .none ∧ s.cmd.started = false ∧ (s.core 0).mode = .running ∧ (s.core 0).loops = [] ∧ s.slot = 1 ∧ o.td.mode = .peek ∧ u.slot = 2 ∧
      q.ts.mode = .produce ∧ Lane (.ldG (ldA .s32) ⟨9, .plain⟩) f 1 ⟨tk0, [(⟨9, .plain⟩, 56)], [(⟨4, .produce⟩, 12)]⟩ ∧ ((f.core 0).tile 9).tag = .f32 ∧
      64 ≤ 8 * (7 : BitVec 3).toNat + (8 : BitVec 6).toNat ∧ p.slot = 1 := by
  and_intros <;> first | rfl | decide

/-! #### The vector and matrix engines -/

/-- Tiles 1, 2 and 3 full, of three tags. -/
def tiles3 (t1 t2 t3 : Fmt) (c : Core) : Core :=
  ((c.setTile 1 ⟨true, t1, [(0, 0x0102)], []⟩).setTile 2 ⟨true, t2, [(0, 0x0304)], []⟩).setTile 3 ⟨true, t3, [(1, 5)], []⟩
/-- Tile operands: consumed, peeked, produced. -/
def tc (n : BitVec 6) : TileRef := ⟨n, .consume⟩
def tp (n : BitVec 6) : TileRef := ⟨n, .peek⟩
def td9 : TileRef := ⟨9, .produce⟩
/-- A vector lane in hand. -/
theorem W_vx (i : Instr) (t1 t2 t3 : Fmt) (vals : List Word) (srcs : List (TileRef × Nat)) (h1 : (vops tk0 srcs td9).illegal = none)
    (h3 : ∀ p ∈ srcs, p.1.mode = .consume ∨ p.1.mode = .peek → ((tiles3 t1 t2 t3 (coreW (cmdW i 0 vals) 3 [])).tile p.1.n.toNat).full = true) :
    Lane i (W i 3 [] vals (tiles3 t1 t2 t3)) 3 (vops tk0 srcs td9) :=
  W_lane _ _ _ _ _ _ _ ⟨rfl, rfl, rfl, rfl, rfl, fun h => absurd h (by decide)⟩ h1 (fun _ h => absurd h (List.not_mem_nil)) h3 (fun d h _ => .inl (by
    have h : d = (td9, 12) := by simpa [vops] using h
    subst h; rfl))
theorem witness_ElementwiseResults :
    let i : Instr := .vadd tk0 td9 (tc 1) (.tile (tp 2)) .rne false
    let f : Instr := .vfma tk0 td9 (tc 1) (.tile (tp 2)) (tc 3) .rne
    let s := W i 3 [] [] (tiles3 .s16 .s16 .raw)
    let u := W f 3 [] [] (tiles3 .bf16 .bf16 .bf16)
    Elementwise i tk0 td9 (tc 1) (.tile (tp 2)) .s16 .s16 (fun x y => (vAdd .s16 .rne false false x y).1) ∧ Lane i s 3 (vops tk0 [(tc 1, 56), (tp 2, 48)] td9) ∧
      ((s.core s.cur).tile 1).pois = [] ∧ opOk s (.tile (tp 2)) .s16 ∧ Lane f u 3 (vops tk0 [(tc 1, 56), (tp 2, 48), (tc 3, 40)] td9) ∧
      Fmt.isFloat .bf16 = true ∧ ((u.core u.cur).tile 3).tag = .bf16 ∧ ((u.core u.cur).tile 3).pois = [] :=
  ⟨.inl ⟨_, _, rfl, ⟨rfl, fun h => absurd h (by decide), fun _ => rfl⟩, rfl, fun _ _ => rfl⟩, W_vx _ _ _ _ _ _ rfl (by decide), rfl, ⟨rfl, rfl⟩,
    W_vx _ _ _ _ _ _ rfl (by decide), rfl, rfl, rfl⟩
theorem witness_UnaryAndIntegerResults :
    let i : Instr := .vexp2 tk0 td9 (tc 1)
    let s := W i 3 [] [] (tiles3 .f32 .raw .raw)
    Unary i tk0 td9 (tc 1) .f32 (fun x => (vTrans exp2_32 .f32 x).1) ∧ Lane i s 3 (vops tk0 [(tc 1, 56)] td9) ∧ ((s.core s.cur).tile 1).pois = [] ∧
      ((s.core s.cur).tile 1).tag = .f32 ∧ vInt .s8 = true ∧ 255 < 2 ^ Fmt.size .s8 :=
  ⟨.inr (.inr (.inl ⟨rfl, rfl, fun _ => rfl⟩)), W_vx _ _ _ _ _ _ rfl (by decide), rfl, rfl, rfl, by decide⟩
theorem witness_VectorMoveResults :
    let a : Instr := .vsel tk0 td9 (tc 2) (tc 1) (.tile (tp 3))
    let s := W a 3 [] [] (tiles3 .s16 .z16 .s16)
    let p : Instr := .vpermB tk0 td9 (tc 1) (tc 2) (tc 3) true
    let q := W p 3 [] [] (tiles3 .s16 .raw .raw)
    let b : Instr := .vbcr tk0 td9 (tc 1) 4
    let f : Instr := .vfill tk0 td9 .s32 4 true 5
    Lane a s 3 (vops tk0 [(tc 2, 56), (tc 1, 48), (tp 3, 40)] td9) ∧ vMaskTag .s16 ((s.core s.cur).tile 2).tag = true ∧ opOk s (.tile (tp 3)) .s16 ∧
      Lane p q 3 (vops tk0 [(tc 1, 56), (tc 2, 48), (tc 3, 40)] td9) ∧ ((q.core q.cur).tile 3).pois = [] ∧
      Lane b (W b 3 [] [5] (tiles3 .s16 .raw .raw)) 3 (vops tk0 [(tc 1, 56)] td9) ∧ Has (W b 3 [] [5] (tiles3 .s16 .raw .raw)) 0 5 ∧
      Lane f (W f 3 [] [5, 2] (tiles3 .s16 .raw .raw)) 3 (vops tk0 [] td9) ∧ Has (W f 3 [] [5, 2] (tiles3 .s16 .raw .raw)) 1 2 ∧ vInt .s32 = true :=
  ⟨W_vx _ _ _ _ _ _ rfl (by decide), rfl, ⟨rfl, rfl⟩, W_vx _ _ _ _ _ _ rfl (by decide), rfl, W_vx _ _ _ _ _ _ rfl (by decide), rfl,
    W_vx _ _ _ _ _ _ rfl (by decide), rfl, rfl⟩
/-- A bank to a tile, and a tile to a bank, in the bank's format and converted to it. -/
theorem witness_VectorMoveResultsAndBanks :
    let l : Instr := .vmovLoad tk0 td9 4
    let s := W l 3 [] [0x80] bf16s
    let m : Instr := .vmovStore tk0 (tc 1) 4
    let u := W m 3 [] [0x80] (fun c => tiles3 .bf16 .raw .raw (bf16s c))
    let v := W m 3 [] [0x80] (fun c => tiles3 .f32 .raw .raw (bf16s c))
    Has s 0 0x80 ∧ SpLands s 0x80 0 0x80 ∧ ((s.core 0).bank (bankOf 0x80)).fmt = .bf16 ∧
      bankOf 0x80 = bankOf (0x80 + perTile .bf16 * Fmt.size .bf16 / 8 - 1) ∧ Lane l s 3 (vops tk0 [] td9) ∧ Lane m u 3 ⟨tk0, [(tc 1, 12)], []⟩ ∧
      ((u.core 0).bank (bankOf 0x80)).act = 0 ∧ ((u.core 0).tile 1).tag = .bf16 ∧ Lane m v 3 ⟨tk0, [(tc 1, 12)], []⟩ ∧ ((v.core 0).tile 1).tag = .f32 ∧
      (s.core 0).streams 0x80 (perTile .bf16 * Fmt.size .bf16 / 8) = false ∧ (u.core 0).streams 0x80 (perTile .bf16 * Fmt.size .bf16 / 8) = false ∧
      (v.core 0).streams 0x80 (perTile .f32 * Fmt.size .bf16 / 8) = false ∧ bankOf 0x80 = bankOf (0x80 + perTile .f32 * Fmt.size .f32 / 8 - 1) ∧
      Fmt.isBlock .f32 = false ∧ Fmt.isBlock .bf16 = false := by
  and_intros <;> first | rfl | (intro _; rfl) | decide
theorem witness_VectorConversionAndReductionResults :
    let v : Instr := .vcvt tk0 td9 (tc 1) ⟨0, .plain⟩ ⟨0, .plain⟩ false false .f32 .rne false 1
    let r : Instr := .vredr tk0 td9 (tc 1) .add true
    let n : Instr := .vscan tk0 td9 (tc 1) (tc 2) .add false false true
    let b : Instr := .vbnd tk0 td9 (tc 1) 0
    let z : Core → Core := fun c => tiles3 .z8 .raw .raw (bank0 3 c)
    let s := W b 3 [] [] z
    let k : Instr := .vcvt tk0 td9 (tc 1) ⟨0, .plain⟩ ⟨5, .produce⟩ false true .mx8 .rne false 0
    Lane v (W v 3 [] [] (tiles3 .bf16 .raw .raw)) 3 (vops tk0 [(tc 1, 56)] td9) ∧
      (perTile .bf16 ≠ perTile .f32 ∧ ((1 : BitVec 3).toNat + 1) * min (perTile .bf16) (perTile .f32) ≤ max (perTile .bf16) (perTile .f32)) ∧
      Lane r (W r 3 [] [] (tiles3 .s16 .raw .raw)) 3 (vops tk0 [(tc 1, 56)] td9) ∧ vNumber .s16 = true ∧
      Lane n (W n 3 [] [] (tiles3 .s16 .z16 .raw)) 3 (vops tk0 [(tc 1, 56), (tc 2, 48)] td9) ∧ vMaskTag .s16 .z16 = true ∧
      Lane b s 3 (vops tk0 [(tc 1, 56)] td9) ∧ ((s.core 0).bank 0).act = 3 ∧ ((s.core 0).bank 0).fmt = ((s.core 0).tile 1).tag ∧ (s.core 0).mode = .running ∧
      violates .z8 2 9 (((s.core 0).tile 1).el .z8 1) = true ∧
      Lane k (W k 3 [] [] (tiles3 .bf16 .raw .raw)) 3 ⟨tk0, [(tc 1, 56)], [(td9, 12), (⟨5, .produce⟩, 40)]⟩ ∧ td9.n ≠ (5 : BitVec 6) := by
  and_intros <;> first | exact W_vx _ _ _ _ _ _ rfl (by decide) | decide +kernel
/-- A tag that is not accepted, two tags that differ, a poisoned element. -/
theorem witness_EngineTraps :
    let e : Instr := .vexp2 tk0 td9 (tc 1)
    let s := W e 3 [] [] (tiles3 .s16 .raw .raw)
    let a : Instr := .vadd tk0 td9 (tc 1) (.tile (tc 2)) .rne false
    let u := W a 3 [] [] (tiles3 .s16 .s8 .raw)
    let p := W e 3 [] [] (fun c => c.setTile 1 ⟨true, .f32, [], [0]⟩)
    Lane e s 3 (vops tk0 [(tc 1, 56)] td9) ∧ ((s.core 0).tile 1).tag.isFloat = false ∧ Lane a u 3 (vops tk0 [(tc 1, 56), (tc 2, 48)] td9) ∧
      vNumber ((u.core 0).tile 1).tag = true ∧ ((u.core 0).tile 2).tag ≠ ((u.core 0).tile 1).tag ∧ Lane e p 3 (vops tk0 [(tc 1, 56)] td9) ∧
      ((p.core 0).tile 1).elPoisoned .f32 0 = true ∧ 0 < perTile .f32 := by
  and_intros <;> first | rfl | exact W_vx _ _ _ _ _ _ rfl (by decide) | decide

/-- Accumulator lanes: a clear of two, a load of the second half from BF16, a drain in BF16, and one of two rows of 64 to a bank of BF16. -/
theorem witness_AccumulatorLanes :
    let l : Instr := .mxld tk0 (tc 1) 2 1
    let s := W l 4 [] [] (tiles3 .f32 .raw .raw)
    let d : Instr := .mxdr tk0 td9 2 .bf16 true 0
    let b : Instr := .mxdrb tk0 2 .w64 3 4 1 true
    let u := W b 4 [] [0x80, 0x200] bf16s
    Lane (.mxclr tk0 6) (W (.mxclr tk0 6) 4 [] []) 4 ⟨tk0, [], []⟩ ∧ Lane l s 4 ⟨tk0, [(tc 1, 12)], []⟩ ∧ partOk (perTile .f32) 1 ∧
      Lane d (W d 4 [] []) 4 ⟨tk0, [], [(td9, 12)]⟩ ∧ partOk (perTile .bf16) 0 ∧ Lane (.mxsc tk0) (W (.mxsc tk0) 4 [] []) 4 ⟨tk0, [], []⟩ ∧
      Lane b u 4 ⟨tk0, [], []⟩ ∧ Has u 0 0x80 ∧ Has u 1 0x200 ∧ SpLands u 0x80 u.cur 0x80 ∧ ((u.core 0).bank (bankOf 0x80)).fmt = .bf16 ∧
      ∀ r ≤ (1 : BitVec 6).toNat, ((0x80 + 0x200 * r : Nat) : Int) = ((0x80 : Nat) : Int) + r * (0x200 : Word).toInt ∧ 0x80 + 0x200 * r + 128 ≤ 0x400000 ∧
        (0x80 + 0x200 * r) % 2 = 0 ∧ bankOf (0x80 + 0x200 * r) = bankOf (0x80 + 0x200 * r + 127) ∧ ((u.core 0).bank (bankOf (0x80 + 0x200 * r))).act = 0 := by
  refine ⟨?_, ?_, ?_, ?_, .inl rfl, ?_, ?_, rfl, rfl, by intro _; rfl, rfl, ?_⟩
  case refine_3 => exact .inr (by decide)
  case refine_7 =>
    intro r h
    obtain rfl | rfl : r = 0 ∨ r = 1 := by have h : r ≤ 1 := h
                                           omega
    all_goals exact ⟨rfl, by decide, rfl, rfl, rfl⟩
  all_goals (refine W_lane _ _ _ _ _ _ _ ⟨rfl, rfl, rfl, rfl, rfl, by decide⟩ ?_ ?_ ?_ ?_ <;> first | rfl | decide)

/-- A table of two levels, BF16 operands at 0x1000 and 0x100000, sums stored; the registers it does not use are zero. -/
def table2 (ctl : Nat) : List Word :=
  [BitVec.ofNat 64 ctl, 0x1000, 0x100000, 0x200000, 128, 128, 0, 1, 1, 0, 0, 0, 0, 0, 0, 0, 2, 0, 0x10002, 0x100000001] ++ List.replicate 12 0
def mxW (ctl : Nat) (g : Core → Core := id) : State :=
  let s := W (.mxgo tk0) 4 [] [] (fun c => g (bf16s c))
  { s with cmd := { s.cmd with table := table2 ctl } }
def mxNest : State :=
  let m := { cmdW (.mxgo tk0) 0 [] with table := table2 (1 + 2 ^ 20) }
  mxW (1 + 2 ^ 20) (fun c => { c with mx := { c.mx with nest := some ⟨m, 0, 2, false, [], false⟩ } })
/-- A table that passes its checks, one whose level count is reserved, and a nest at its first run, which has its operands. -/
theorem witness_MatrixNestResults :
    let s := mxW (1 + 2 ^ 20)
    let r := mxW 7
    let m := { cmdW (.mxgo tk0) 0 [] with table := table2 (1 + 2 ^ 20) }
    let u : State := { mxNest with slot := 4, cmd := m }
    (mxChecks s.cmd.table).run s = .ok ((.bf16, .bf16), s) ∧ (reservedBits r.cmd.table).all (fun p =>
        if p.1 < 13 ∨ p.2.1 = 17 then tFld r.cmd.table p.1 p.2.1 p.2.2 == 0 else tReg r.cmd.table p.1 == 0) = true ∧ 6 ≤ tFld r.cmd.table 0 0 3 ∧
      (mxNest.core 0).mx.nest = some ⟨m, 0, 2, false, [], false⟩ ∧ m.iter = [] ∧ nestFmts (mxNest.core 0) m.table = (.bf16, .bf16) ∧
      (match runAll u (mxNest.core 0) m.table .bf16 .bf16 0 ⟨List.replicate 4096 0, false, []⟩ with | .ok _ => true | .error _ => false) = true ∧
      tFld m.table 0 21 1 = 0 ∧ tFld m.table 0 20 1 = 1 ∧ (mxFormats m.table).run u = .ok ((.bf16, .bf16), u) ∧
      tFld m.table 0 14 3 + 0 % (tFld m.table 0 17 3 + 1) < 8 := by
  and_intros <;> first | decide +kernel | rfl
theorem witness_MatrixLanes : Lane (.mxgo tk0) (mxW 7) 4 ⟨tk0, [], []⟩ :=
  W_lane (.mxgo tk0) 4 [] [] (fun c => bf16s c) 0 ⟨tk0, [], []⟩ ⟨rfl, rfl, rfl, rfl, rfl, by decide⟩ rfl (by decide) (by decide) (by decide)

/-! #### The copy engine and sync words -/

/-- A command of channel 2. -/
def cpW (i : Instr) (vals : List Word) (g : Core → Core := id) : State := W i 8 [] vals g
/-- A template of 4 rows of 32 bytes, RAW, from 0 to 0x800, without a sync word. -/
def tmpl4 : List Word := [0, 0x800, 1, 0x1F00000003, 0x10000000080, 0, 0, 0]
def xfer3 (pl : XferPlace) (arr : List Nat) (sw : Option (Nat × Nat)) : Xfer :=
  ⟨3, 7, 0x7, 2, 0x60, pl, arr, sw, 0, 0, 0, .raw, .raw, List.range 4, false⟩
/-- CHDONE past the ID and not; a template entry in the scratchpad; a channel with a started and a waiting transfer. -/
theorem witness_CopyLaneResults :
    let w : Instr := .cpWait 2 3
    let s := cpW w [5] (fun c => { c with cp := { c.cp with done := c.cp.done.set 2 7 } })
    let u := cpW w [9] (fun c => { c with cp := { c.cp with done := c.cp.done.set 2 7 } })
    let t : Instr := .cpTw true 2 5 3 0
    let v := cpW t [0x100] (fun c => { c with sp := pokeBytes c.sp 0x100 (tmpl4.flatMap (fun w => leBytes 8 w.toNat)) })
    let k := cpW (.cpCancel 2) [] (fun c => { c with cp := { c.cp with jrn := c.cp.jrn.set 2 [xfer3 .moving [] none, { xfer3 .waiting [] none with id := 4 }] } })
    CpAt w s 2 ∧ Has s 0 5 ∧ ((s.core 0).cp.done.getD 2 0 - (5 : Word).setWidth 32).toNat < 2 ^ 31 ∧ CpAt w u 2 ∧ Has u 0 9 ∧
      2 ^ 31 ≤ ((u.core 0).cp.done.getD 2 0 - (9 : Word).setWidth 32).toNat ∧ CpAt t v 2 ∧ SpLands v 0x100 0 0x100 ∧ (v.core 0).streams 0x100 64 = false ∧
      (List.range 64).all (fun i => !(v.core 0).spPois.contains ((0x100 + i) / 32)) = true ∧ (List.range 8).all (fun h => ((v.core 0).journal h).isEmpty) = true ∧
      entryOf (peekBytes (v.core 0).sp 0x100 64) 0 = tmpl4.map BitVec.toNat ∧ tmplRefused (tmpl4.map BitVec.toNat) = none ∧
      CpAt (.cpCancel 2) k 2 ∧ ((k.core 0).journal 2).map (fun x => x.id) = [3, 4] := by
  and_intros <;> first | rfl | (intro _; rfl) | decide
def copying (x : Xfer) (sp : Bytes) : State := { W .nop 0 [] [] (fun c =>
  { c with sp := sp, cp := { c.cp with tmpl := [(7, tmpl4)], jrn := c.cp.jrn.set 2 [x] }, qs := c.qs.set 8 [.xfer 3] }) with slot := 0 }
/-- A transfer that may start; an arrival at a sync word at 0x2000; one with no arrival left. -/
theorem witness_CopyResults :
    let s := copying (xfer3 .waiting [] none) []
    let s1 : State := s.updCore s.cur (fun c => c.setQueue 8 ((c.queue 8).drop 1))
    let a := copying (xfer3 .moving [0, 0x2000, 128] (some (0, 0x2000))) (pokeBytes [] 0x2000 (leBytes 16 (10 + 4 * 2 ^ 32)))
    let d := copying (xfer3 .moving [] none) []
    let m := (copying { xfer3 .moving [] none with todo := true } []).updCore 0 (fun c => c.setQueue 8 [])
    (s.core 0).startable 2 = some (xfer3 .waiting [] none) ∧ Calm s ∧
      (match (planXfer 2 (xfer3 .waiting [] none)).run s1 with
        | .ok (p, _) => p.ssp == .dv && p.dsp == .dv && p.f == .raw && p.d == .raw && p.idx.isNone && p.sw.isNone && p.nrow == 4 && p.nel == 32
        | _ => false) = true ∧ ((a.core 0).arrivalList[0]?).isSome = true ∧ (xfer3 .moving [0, 0x2000, 128] (some (0, 0x2000))).sw = some (0, 0x2000) ∧
      (a.core 0).streams 0x2000 16 = false ∧ (s.core 0).movable 2 = [] ∧ (m.core 0).startable 2 = none ∧ (m.core 0).movable 2 = [{ xfer3 .moving [] none with todo := true }] ∧
      Calm m ∧ (xfer3 .moving [] none).ix = List.range 4 ∧ ((xfer3 .moving [] none).plan (m.core 0) 2 .raw .raw).nrow = 4 ∧
      ((d.core 0).journal 2).any (fun y => y.place == .moving && !y.todo && y.arr.isEmpty) = true := by
  and_intros <;> rfl
/-- A sync word at its generation, before it, and with each flag. -/
theorem witness_SyncWordLaneResults :
    let i : Instr := .swWait 2 3 4
    let f (v : Nat) : State := cpW i [0x2000, 2] (fun c => { c with sp := pokeBytes c.sp 0x2000 (leBytes 16 v) })
    let g : Instr := .swWaitSt 2 3 4 5
    let t := cpW g [0x2000, 2, 0x3000]
    Has (f 0) 0 0x2000 ∧ Has (f 0) 1 2 ∧ SpWord (f 0) 0x2000 16 0 0x2000 ∧ CpAt i (f (2 * 2 ^ 64)) 2 ∧ ((f 0).core 0).spPoisoned 0x2000 16 = false ∧
      decide ((BitVec.ofNat 16 (((f (2 * 2 ^ 64)).core 0).syncWord 0x2000).gen - (2 : Word).setWidth 16).toNat < 2 ^ 15) = true ∧
      decide ((BitVec.ofNat 16 (((f 0).core 0).syncWord 0x2000).gen - (2 : Word).setWidth 16).toNat < 2 ^ 15) = false ∧
      (((f 0).core 0).syncWord 0x2000).flags % 4 = 0 ∧ (((f (1 * 2 ^ 80)).core 0).syncWord 0x2000).flags % 4 = 1 ∧
      (((f (2 * 2 ^ 80)).core 0).syncWord 0x2000).flags / 2 % 2 = 1 ∧ CpAt g t 2 ∧ Has t 2 0x3000 ∧ SpWord t 0x3000 8 0 0x3000 := by
  and_intros <;> first | rfl | (intro _; rfl) | decide

/-! #### The synchronisation unit -/

/-- An XQ command of a core; its die's slot 3 as given. -/
def syW (i : Instr) (vals : List Word) (y : BarSlot) : State :=
  let s := W i 5 [] vals
  { s with sync := { s.sync with bars := [(slotKey 0 2 3, y)] } }
def bar2 : BarSlot := ⟨true, 5, true, 2, 0, 7, 0, 0⟩
/-- The handle of that slot under tag 5. -/
def hnd3 : Word := BitVec.ofNat 64 (3 + 5 * 2 ^ 32 + 2 * 2 ^ 48)
/-- A free die slot; a slot that an arrival leaves open, or ends; a phase that is over, and one that is not; a memory barrier word. -/
theorem witness_BarrierResults :
    let a := syW (.barAlloc .die 1) [0x80] bar2
    let i := syW (.barInit 1 2) [hnd3, 2] bar2
    let m := syW (.barInitM true .cl 1 2) [0x40, 2] bar2
    let r := syW (.barArr .xq 1) [hnd3] bar2
    let w := syW (.barWait .xq 1 2) [hnd3, 6] bar2
    let j := syW (.barArw .xq 1) [hnd3] { bar2 with arrived := 1 }
    let b : BarState := ⟨2, 0, 7, true, 2, 0⟩
    Xq (.barAlloc .die 1) a ∧ Has a 0 0x80 ∧ ResultOk a 0x80 16 16 ∧ 0 < slotCount SlotScope.die.code ∧ (a.barSlot (slotKey 0 SlotScope.die.code 0)).alloc = false ∧
      Xq (.barInit 1 2) i ∧ Has i 1 2 ∧ (barRef hnd3).run i = .ok (.slot (slotKey 0 2 3) 2, i) ∧ Xq (.barInitM true .cl 1 2) m ∧ SpWord m 0x40 64 0 0x40 ∧
      Xq (.barArr .xq 1) r ∧ (barRef hnd3).run r = .ok (.slot (slotKey 0 2 3) 2, r) ∧ (readBar (.slot (slotKey 0 2 3) 2)).run r = .ok (b, r) ∧ b.init = true ∧
      Xq (.barWait .xq 1 2) w ∧ (BitVec.ofNat 16 b.phase - BitVec.ofNat 16 (6 + 1)).toNat < 2 ^ 15 ∧ 2 ^ 15 ≤ (BitVec.ofNat 16 b.phase - BitVec.ofNat 16 (7 + 1)).toNat ∧
      (barKey (.slot (slotKey 0 2 3) 2)).run w = .ok (slotKey 0 2 3, w) ∧ (∀ ph, (slotKey 0 2 3, coreDie 0, ph) ∉ w.sync.pend) ∧ Released w false ∧ NotWaiting j 0 5 j.cmd.idx ∧ 2 < slotCount SlotScope.die.code ∧ w.sync.notes = [] ∧
      Xq (.barArw .xq 1) j ∧ j.cmd.joined = none ∧ (j.barSlot (slotKey 0 2 3)).arrived + 1 = (j.barSlot (slotKey 0 2 3)).expect ∧
      QEntry.cmd j.cmd ∈ (j.core 0).queue 5 := by
  and_intros <;> first | rfl | (intro _; rfl) | decide | exact List.mem_singleton.2 rfl |
    exact fun _ h => absurd h List.not_mem_nil
/-- A package semaphore, at 3: a wait it serves and one it queues. -/
theorem witness_SemaphoreResults :
    let z (i : Instr) (vals : List Word) : State :=
      let s := W i 5 [] vals
      { s with sync := { s.sync with sems := [(s.semKey 0 130, ⟨3, false, []⟩)] } }
    let s := z (.semWaitImm .xq 130 2) [0]
    (130 : BitVec 8).toNat < 160 ∧ Has s 0 0 ∧ Xq (.semWaitImm .xq 130 2) s ∧ (s.sem (s.semKey s.cur 130)).waits = [] ∧
      (2 : BitVec 7).toNat + 1 ≤ (s.sem (s.semKey s.cur 130)).value.toNat ∧ (s.sem (s.semKey s.cur 130)).value.toNat < (3 : BitVec 7).toNat + 1 ∧
      Xq (.semInit 130 1) (z (.semInit 130 1) [9]) ∧ Xq (.semSigReg .xq 130 1) (z (.semSigReg .xq 130 1) [9]) :=
  ⟨by decide, rfl, ⟨rfl, rfl, rfl, rfl, rfl, rfl, ⟨rfl, rfl⟩, rfl⟩, rfl, by decide, by decide, ⟨rfl, rfl, rfl, rfl, rfl, rfl, ⟨rfl, rfl⟩, rfl⟩,
    ⟨rfl, rfl, rfl, rfl, rfl, rfl, ⟨rfl, rfl⟩, rfl⟩⟩
/-- Snapshots; a gate of the store queue; a notification under way; a wait whose release time has come. -/
theorem witness_SemaphoresAndSnapshots :
    let c := W (.wsRdCore 1 2) 5 [] [0x200, 0]
    let b := syW (.wsRdBar 1 2) [0x80, hnd3] bar2
    let e := W (.wsRdSem 1 2) 5 [] [0x80, 130]
    let g : Cmd := cmdW (.semSigImm .st 130 2) 0 []
    let s := W .nop 0 [] [] (fun c => c.setQueue 2 [.gate g])
    let uw : UnitWait := ⟨0, 5, 5, 7, none⟩
    let n : State := { s with sync := { s.sync with pend := [(slotKey 0 2 3, 0, 8)], waits := [(slotKey 0 2 3, uw)] } }
    let wi : Instr := .barWait .xq 1 2
    let w0 := W wi 5 [] [hnd3, 6] (fun c => { c with waits := [(5, ⟨5, 0, 0, hnd3, 0⟩)] })
    let w : State := { w0 with now := 5000, sync := { w0.sync with bars := [(slotKey 0 2 3, bar2)], notes := [⟨slotKey 0 2 3, 0, 100, 7, 64⟩] } }
    Has c 0 0x200 ∧ Has c 1 0 ∧ Xq (.wsRdCore 1 2) c ∧ ResultOk c 0x200 512 64 ∧ c.disabled.contains 0 = false ∧ (c.getPart 0).dies.contains (coreDie 0) = true ∧
      Xq (.wsRdBar 1 2) b ∧ ResultOk b 0x80 32 32 ∧ (barRef hnd3).run b = .ok (.slot (slotKey 0 2 3) 2, b) ∧ Xq (.wsRdSem 1 2) e ∧ ResultOk e 0x80 16 16 ∧
      (130 : Word).toNat % 256 < 160 ∧ (s.core 0).headEntry 2 = some (.gate g) ∧ gateOf g.instr = some 2 ∧ cmdsOf ((s.core 0).queue 5) = [] ∧ Calm s ∧
      g.accepted = false ∧ n.sync.pend[0]? = some (slotKey 0 2 3, 0, 8) ∧
      (BitVec.ofNat 16 8 - BitVec.ofNat 16 (7 + 1)).toNat < 2 ^ 15 ∧ g.spec = .none ∧ (g.idx ∉ (cmdsOf ((s.core 0).queue 5)).map (·.idx)) ∧ 64 ≤ (130 : BitVec 8).toNat ∧
      (∀ q, (slotKey 0 2 3, coreDie 0, q) ∉ w.sync.pend) ∧ Released { w with slot := 5, cmd := cmdW wi 0 [hnd3, 6] } false ∧ (w.core 0).headEntry 5 = some (.cmd (cmdW wi 0 [hnd3, 6])) ∧
      (amGet ⟨0, 0, 0, 0, 0⟩ (w.core 0).waits 5).kind = 5 ∧ (barRef hnd3).run { w with slot := 5, cmd := cmdW wi 0 [hnd3, 6] } =
        .ok (.slot (slotKey 0 2 3) 2, { w with slot := 5, cmd := cmdW wi 0 [hnd3, 6] }) ∧
      ((w.barSlot (slotKey 0 2 3)).phase - ((6 : Word).setWidth 16 + 1)).toNat < 2 ^ 15 ∧ 100 + (0 % 128 % ((7 : BitVec 4).toNat + 1)) * (64 : BitVec 8).toNat ≤ w.now := by
  and_intros <;> first | rfl | decide | exact fun _ h => absurd h List.not_mem_nil

/-! #### The Cistern, attention, the fabric, the Wellhead -/

/-- An XQ command of a core, with its partition as given. -/
def xqW (i : Instr) (vals : List Word) (f : Part → Part) (g : Core → Core := id) : State :=
  let s := W i 5 [] vals g
  { s with parts := s.parts.set 0 (f (s.getPart 0)) }
/-- A set of two chunks, one programmed; jobs on it. -/
def set3 (st : SetSt) : WSet := ⟨st, 7, [(0x1000, []), (0x2000, [])], [0], [], []⟩
def job3 (i : Instr) (h w : Word) (c : Nat) : Job := ⟨9, 0, 3, 44, i, 0x100, 0x1000, h, w, c, 0⟩
def jobW (j : Job) (st : SetSt) : State :=
  { State.reset with cores := [(0, Core.reset)], parts := State.reset.parts.set 0 { Part.reset [0, 1, 2, 3] with pump := ⟨[(3, set3 st)], [j], 1, []⟩ } }
theorem leafOf_ne (bs : List Byte) : leafOf bs ≠ [] := by simp [leafOf, sha384, beBytes, leBytes]
/-- The same state with a table that maps addresses from 0 by one page of 2 MiB at 0x200000. -/
def largePage (s : State) : State :=
  { s with mem := pokeBytes (pokeBytes (pokeBytes [] 0x10000 (leBytes 8 0x11201)) 0x11000 (leBytes 8 0x12201)) 0x12000 (leBytes 8 0x200205),
           parts := s.parts.set 0 { s.getPart 0 with root := some 0x10000 } }
theorem image_reads (s : State) (h : s = largePage State.reset) :
    (match s.partRead 0 0x1000 0x100000 with | .ok _ => true | .error _ => false) = true := by
  subst h
  decide +kernel
theorem witness_PumpResults :
    let i : Instr := .pmAct ⟨false, 0⟩ 3
    let s := xqW i [0x100] id (fun c => { c with task := some task1 })
    let h : Word := BitVec.ofNat 64 (3 + 7 * 2 ^ 16)
    let b := jobW (job3 (.pmAct ⟨false, 0⟩ 3) 0 1 0) .sealed
    let a := jobW (job3 (.pmAct ⟨false, 0⟩ 3) h 0 0) .sealed
    let l := jobW (job3 (.pmSeal ⟨false, 0⟩ 3 4) h 0 0) .opened
    let r := jobW (job3 (.pmClrR ⟨false, 0⟩ 3) 0 (2048 * 5) 2) .free
    let p := jobW (job3 (.pmProg ⟨false, 0⟩ 3 4) h 0 1) .opened
    PmCmd i s 0x100 0 ∧ Xq i s ∧ Lands s .read 0x100 (pData 0x100) ∧ (s.readPaP (pData 0x100).pa 64).poisoned = false ∧ (s.core s.cur).task = some task1 ∧
      (s.getPart 0).pump.jobs = [] ∧ (b.dieOwner 0 = 0 ∧ (b.die 0).up = true) ∧ (job3 (.pmAct ⟨false, 0⟩ 3) 0 1 0).bad = true ∧
      (job3 (.pmAct ⟨false, 0⟩ 3) h 0 0).bad = false ∧ (a.getPart 0).pump.entryOf h = some 3 ∧ h ≠ handleLast ∧
      (job3 (.pmSeal ⟨false, 0⟩ 3 4) h 0 0).bad = false ∧ ((l.getPart 0).pump.set 3).st = .opened ∧
      (job3 (.pmClrR ⟨false, 0⟩ 3) 0 (2048 * 5) 2).bad = false ∧ r.wordOk 0 5 = true ∧ r.owned 6 = false ∧
      (job3 (.pmProg ⟨false, 0⟩ 3 4) h 0 1).bad = false ∧ ((p.getPart 0).pump.set 3).chunks[1]? = some (0x2000, []) ∧
      (∀ img, leafOf img ≠ []) := by
  and_intros <;> first | rfl | (intro _; rfl) | exact leafOf_ne | decide | exact .inr ⟨⟨_, _, .inr (.inr (.inr (.inr (.inl rfl))))⟩, rfl⟩
/-- Sequence 0 as given, prefix 1 published, a block of sequence 0. -/
def kvP (x : Seq) (q : Part) : Part := { q with kv := ⟨[(0, [⟨0, 0, 0, some 0, false, []⟩])], [], [(0, x)], [(1, ⟨.live, 3, 64, 0⟩), (2, ⟨.live, 4, 64, 2⟩)]⟩ }
def seq1 (n : Nat) : Seq := { Seq.free with st := .live, len := n }
/-- Commands on a free and on a live sequence, with and without room, with a prefix to attach and to evict; a path of pending nodes. -/
theorem witness_SequenceCommandResults :
    let o := xqW (.aqSeqOpen 1 .none) [atWord 0 0 0 0 false 0] (kvP Seq.free)
    let g := xqW (.aqSeqGrow 1 .none) [atWord 0 0 0 0 false 64] (kvP (seq1 128))
    let m := xqW (.aqAtt 1 2 .none) [atWord 0 0 0 0 false 0, BitVec.ofNat 64 (3 * 4096 + 1)] (kvP (seq1 0))
    let b := xqW (.aqSeqPub 1 .none) [atWord 0 0 0 0 false 64] (kvP (seq1 128))
    let e := xqW (.aqSeqEvict 1 .none) [atWord (3 * 4096 + 1) 0 0 0 false 0] (kvP (seq1 0))
    let c := xqW (.aqComp 1 .none) [atWord 0 0 0 0 false 0] (kvP { seq1 128 with pend := [2] })
    0 < bits (o.getPart 0).regs.atgeo.toNat 32 16 + 1 ∧ At (.aqSeqOpen 1 .none) o .none (atWord 0 0 0 0 false 0) 0 ∧ (o.seq 0 0).st = .free ∧
      At (.aqSeqGrow 1 .none) g .none (atWord 0 0 0 0 false 64) 0 ∧ (g.seq 0 0).st = .live ∧ (g.seq 0 0).len + 64 ≤ 2 ^ 20 ∧
      At (.aqAtt 1 2 .none) m .none (atWord 0 0 0 0 false 0) 0 ∧ Has m 1 (BitVec.ofNat 64 (3 * 4096 + 1)) ∧ (m.seq 0 0).len = 0 ∧ (m.seq 0 0).pfx = 0 ∧
      (m.prefix_ 0 1).st = .live ∧ (m.prefix_ 0 1).gen.toNat = 3 ∧ At (.aqSeqPub 1 .none) b .none (atWord 0 0 0 0 false 64) 0 ∧ (b.prefix_ 0 0).st = .free ∧
      At (.aqSeqEvict 1 .none) e .none (atWord (3 * 4096 + 1) 0 0 0 false 0) 0 ∧ (e.prefix_ 0 1).ref = 0 ∧ (e.prefix_ 0 2).ref ≠ 0 ∧
      At (.aqComp 1 .none) c .none (atWord 0 0 0 0 false 0) 0 ∧ (c.seq 0 0).pend ≠ [] := by
  and_intros <;> first | rfl | exact fun h => absurd rfl h | decide
/-- A tile of BF16 and one of node numbers. -/
def kvTiles (c : Core) : Core := ((c.setTile 1 ⟨true, .bf16, [(0, 7)], []⟩).setTile 2 ⟨true, .z8, [(0, 0xFF)], []⟩)
theorem witness_AttentionStateResults :
    let a := xqW (.aqKvapp (tp 1) (tp 1) 1 .none) [atWord 0 0 0 0 false 3] (kvP (seq1 128)) kvTiles
    let t := xqW (.aqTins (tp 2) 1 .none) [atWord 0 0 0 0 false 0] (kvP (seq1 128)) kvTiles
    let u := xqW (.aqTacc (tp 2) 1 .none) [atWord 0 0 0 0 false 0] (kvP { seq1 128 with nodes := [(255, 255)] }) kvTiles
    At (.aqKvapp (tp 1) (tp 1) 1 .none) a .none (atWord 0 0 0 0 false 3) 0 ∧ Source a (tp 1) .bf16 ∧ (a.seq 0 0).plen ≤ 3 ∧ (a.seq 0 0).pend = [] ∧
      ((a.kvFind 0 0 0 (3 / 64)).all (fun b => !b.absent)) = true ∧ (a.kvAlloc 0 0 0 (3 / 64)).isSome = true ∧
      At (.aqTins (tp 2) 1 .none) t .none (atWord 0 0 0 0 false 0) 0 ∧ Source t (tp 2) .z8 ∧ amFind 0 (t.seq 0 0).nodes = none ∧
      ((t.core 0).tile 2).el .z8 0 = 0xFF ∧ At (.aqTacc (tp 2) 1 .none) u .none (atWord 0 0 0 0 false 0) 0 ∧
      amFind (((u.core 0).tile 2).el .z8 0) (u.seq 0 0).nodes = some 0xFF ∧ (u.seq 0 0).len + 0 + 1 ≤ 2 ^ 20 := by
  and_intros <;> first | exact fun h => absurd rfl h | decide +kernel | rfl
/-- A query of a sequence that is free; one that both chiplets have answered, one that a link has lost, one to deliver; a block that no snapshot reads. -/
theorem witness_AttentionQueryResults :
    let i : Instr := .aqSend td9 (tp 1) 1 .none
    let s := xqW i [atWord 0 0 0 0 false 0] (kvP Seq.free) kvTiles
    let q : AtOp := ⟨5, 9, none, 0, 0, 0, [some [], some []], [], [], 0⟩
    let z (q : AtOp) : State := { W .nop 0 [] [] (fun c => { c with atq := [q] }) with now := 3000000 }
    let d : State := { State.reset with parts := State.reset.parts.set 0 { Part.reset [0] with kv := ⟨[], [(0, [⟨7, []⟩])], [], []⟩ } }
    At i s .none (atWord 0 0 0 0 false 0) 0 ∧ Source s (tp 1) .bf16 ∧ (s.seq 0 0).st = .free ∧ ((z q).core 0).atq[0]? = some q ∧
      ({ q with trip := [some [], none] } : AtOp).done = [] ∧ 0 + 2000 * max 1 (bits ((z q).getPart 0).regs.fxtmo.toNat 0 16) ≤ (z q).now ∧
      ({ q with done := [2] } : AtOp).ready = true ∧ (((z q).core 0).tile 9).full = false ∧ ((z q).core 0).sh = Shadow.nil ∧
      q.stat = none ∧ q.td < 64 ∧ ((z q).core 0).atq.Pairwise (fun u v => u.idx ≠ v.idx) ∧ (z q).part < 4 ∧ ((z q).core 0).mode = .running ∧ (d.kv 0).dying = [(0, [⟨7, []⟩])] := by
  and_intros <;> first | rfl | exact fun h => absurd rfl h | decide

/-- Each collective from the root and from another rank; a wait for a tag in the past and for one outstanding; a link's record. -/
theorem witness_CollectiveCommandResults :
    let b : Instr := .fxBc td9 (tp 1) 1 .none
    let n : Instr := .fxBc td9 ⟨0, .plain⟩ 1 .none
    let r : Instr := .fxAr .addF32 td9 (tp 1) 1 .none
    let m : Instr := .fxAmax td9 (tp 1) 1 2 .none
    let w0 := collWord 3 5 4 0 0 8 false
    let w1 := collWord 3 5 4 1 0 8 false
    let t := tiles3 .f32 .raw .raw
    let v := xqW (.fxWait 1) [9] id (fun c => { c with fxq := [⟨5, 9, 3, 5, 4, 0, 0, 8, false, 1, .addF32, .f32, none, none, [], .flying, 0, 0, 0, .f32, []⟩] })
    collOk 3 5 4 0 0 8 ∧ collOk 3 5 4 1 0 8 ∧ 8 ≤ perTile .f32 ∧ Fx b (xqW b [w0] id t) .none w0 0 3 5 false ∧ Source (xqW b [w0] id t) (tp 1) .f32 ∧
      Fx n (xqW n [w1] id) .none w1 0 3 5 false ∧ Fx r (xqW r [w1] id t) .none w1 0 3 5 false ∧ Fx m (xqW m [w1, 100] id t) .none w1 0 3 5 false ∧
      Has (xqW m [w1, 100] id t) 1 100 ∧ Xq (.fxWait 1) v ∧ Has v 0 9 ∧ (v.core 0).fxq.map (fun q => q.ftag) = [9] ∧
      Xq (.fxStat 2 1) (xqW (.fxStat 2 1) [0x80] id) ∧ ResultOk (xqW (.fxStat 2 1) [0x80] id) 0x80 32 32 := by
  and_intros <;> first | rfl | exact fun h => absurd rfl h | exact fun h => absurd h (by decide) |
    decide
def fxOp (rank : Nat) (pl : FxPlace) : FxOp := ⟨5 + rank, 9, 3, 5, 2, rank, 0, 3, false, 1, .addF32, .f32, some 9, none, [1, 2, 3], pl, 0, 0, 0, .f32, [1, 2, 3]⟩
def roundW (q : FxOp) (rs : Rounds) : State :=
  let s := W .nop 0 [] [] (fun c => { c with fxq := [q] })
  { s with now := 3000000, parts := s.parts.set 0 { s.getPart 0 with rounds := rs } }
/-- The first and the last contribution of a round of two, a round that has waited FXTMO, an answer, and links that may replay, come back or lose modules. -/
theorem witness_CollectiveResults :
    let r : Round := ⟨3, 5, false, 2, 0, 3, 1, .addF32, .f32, 100, [(0, true, 0, 5, [1, 2, 3])]⟩
    let s := roundW (fxOp 0 .flying) ⟨[], [(3, 4)]⟩
    let l := roundW (fxOp 1 .flying) ⟨[r], [(3, 4)]⟩
    let a := roundW (fxOp 0 .answered) ⟨[], []⟩
    let t : State := s.setLink 0 2 (fun x => { x with st := .retrain })
    (s.flying 0)[0]? = some (0, fxOp 0 .flying) ∧ s.ringOk (coreDie 0) ((s.getPart 0).dies.headD 0) = true ∧ (s.getPart 0).rounds.late 3 5 = false ∧
      (s.getPart 0).rounds.open_ = [] ∧ (l.flying 0)[0]? = some (0, fxOp 1 .flying) ∧ (l.getPart 0).rounds.open_ = [r] ∧ r.agrees (fxOp 1 .flying) = true ∧
      r.ranks.length + 1 = r.np ∧ (l.getPart 0).rounds.late 3 5 = false ∧ r.opened + 2000 * max 1 (bits (l.getPart 0).regs.fxtmo.toNat 0 16) ≤ l.now ∧
      (a.core 0).fxq[0]? = some (fxOp 0 .answered) ∧ ((a.core 0).tile 9).full = false ∧ (a.core 0).sh = Shadow.nil ∧ (fxOp 0 .answered).stat = none ∧
      fxOp 0 .flying ∈ (s.core 0).fxq ∧ 1 < (fxOp 0 .flying).np ∧ (∀ x ∈ r.ranks, x.1 ≠ (fxOp 1 .flying).rank) ∧ (s.link 0 2).st = .up ∧
      (t.link 0 2).st = .retrain ∧ 1 < (s.link 0 2).mods := by
  and_intros <;> first | rfl | decide
/-- A domain of one region. -/
def ckP (f : Ck → Ck) (q : Part) : Part := { q with ck := f { Ck.reset with regions := [⟨0x40000000, 1, 0x50000000, 0x1000000000⟩], st := 1 } }
theorem witness_CheckpointCommandResults :
    let s := xqW (.ckRp 3 1 2) [7, 8] (ckP id) (fun c => { c with member := true })
    let r := xqW (.ckRead 1) [0x40] (ckP id)
    let l := xqW .ckOpen [] (ckP (fun k => { k with st := 2 }))
    (s.getPart 0).ck.regions ≠ [] ∧ (s.getPart 0).ck.st ≠ 2 ∧ Xq (.ckRp 3 1 2) s ∧ Has s 0 7 ∧ Has s 1 8 ∧ (s.core s.cur).member = true ∧
      Xq .ckOpen (xqW .ckOpen [] (ckP id)) ∧ Xq (.ckSeal .none) (xqW (.ckSeal .none) [] (ckP id)) ∧ Xq (.ckRead 1) r ∧ Has r 0 0x40 ∧ ResultOk r 0x40 1088 64 ∧
      Xq .ckOpenLv (xqW .ckOpenLv [] (ckP id)) ∧ Xq .ckOpen (xqW .ckOpen [] id) ∧ ((xqW .ckOpen [] id).getPart 0).ck.regions = [] ∧
      (l.getPart 0).ck.st = 2 ∧ Xq .ckOpen l ∧ (l.core 0).mode = .running := by
  and_intros <;> first | rfl | decide
/-- A seal asked for with a dirty granule; one whose mirrors are reached; one that has waited FXTMO. -/
theorem witness_CheckpointResults :
    let q : RcRelease := ⟨0, 0, 5, cmdW (.ckSeal (.at 1)) 0 [0x80], [], false⟩
    let z (f : Ck → Ck) : State :=
      let s := W .nop 0 [] []
      { s with now := 3000000, parts := s.parts.set 0 (ckP f (s.getPart 0)) }
    let a := z (fun k => { k with asks := [q], dirty := [0x400000] })
    let r : SealRun := ⟨100, [(0x400000, List.replicate 256 0)], [], [q]⟩
    let b := z (fun k => { k with run := some r })
    let f := { b with chips := b.chips.set 0 { Chiplet.reset with up := false } }
    (a.getPart 0).ck.asks ≠ [] ∧ (a.getPart 0).ck.run = none ∧ (a.getPart 0).ck.dirty ≠ [] ∧ (∀ x ∈ (a.getPart 0).ck.asks, x.own = []) ∧
      (b.getPart 0).ck.run = some r ∧ b.mirrorsOk 0 = true ∧ q.gone = false ∧ q.slot = 5 ∧ q.own = [] ∧ (b.core q.core).askedHold q.n = none ∧
      cmdsOf ((b.core q.core).queue 5) = [] ∧ q.cmd.instr = .ckSeal (.at 1) ∧ f.mirrorsOk 0 = false ∧ (f.getPart 0).ck.run = some r ∧
      (f.fxtmo 0 : Int) ≤ f.cycle 0 - (100 : Word).toNat ∧ (f.core 0).mode = .running ∧ cmdsOf ((f.core q.core).queue 5) = [] ∧ (f.core q.core).askedHold q.n = none ∧ q.cmd.vals = [⟨0x80, false⟩] ∧ (0x80 : Word).toNat + 8 ≤ 0x400000 ∧
      (b.fxtmo 0 : Int) ≤ b.cycle 0 - (100 : Word).toNat ∧ (b.core 0).mode = .running := by
  and_intros <;> first | rfl | decide


/-! #### Power, the host interface -/

/-- A running module of one core, its windows' arguments as given. -/
def hostW (as_ : List Word) (f : Part → Part := id) (g : Core → Core := id) : State :=
  let w : Window := { Window.reset with args := Vector.ofFn (fun j => as_.getD j.val 0) }
  let s := State.reset
  { s with phase := 1, wins := (s.wins.set 0 w).set 4 w, cores := [(0, g Core.reset)], parts := s.parts.set 0 (f (s.getPart 0)) }
theorem free_low (as_ : List Word) (f : Part → Part) (g : Core → Core) (h : (f (State.reset.getPart 0)).dies ≠ []) : Free (hostW as_ f g) 0 :=
  ⟨rfl, rfl, .inr ⟨by decide, h⟩⟩
theorem free_module (as_ : List Word) (f : Part → Part) (g : Core → Core) : Free (hostW as_ f g) 4 := ⟨rfl, rfl, .inl rfl⟩

/-- Dies up and down, a hot quadrant, levels to decay, an idle cluster to gate and one gated; a mirror on die 0 and none on die 1. -/
theorem witness_PowerStartAndRecordEvents :
    let s := hostW []
    let hot := s.updQuad 0 1 (fun q => { q with temp := 110 })
    let down := s.updDie 2 (fun x => { x with up := false })
    let m := hostW [] (fun x => { x with ck := { x.ck with regions := [⟨0x4000, 0x1000, 5, 2 * chipBytes⟩] } })
    let lv : State := { s.updQuad 0 0 (fun q => { q with lvl := 2, below := some 5, cur := some 9 }) with now := 300000 }
    let gt0 := hostW [] (fun x => { x with regs := { x.regs with gatectl := 0x10000 } })
    let gt : State := { gt0 with now := 300000 }
    let st : State := s.updCore 0 (fun c => { c with staged := some ⟨7, none⟩ })
    let gd : State := { s with gated := [1, 5] }
    let sn : State := { s with snap := ⟨false, 0, 0, some (9, s.cores)⟩ }
    s.phase ≠ 0 ∧ (s.die 0).up = true ∧ 110 ≤ (hot.quad 0 1).temp.toNat ∧ (down.die 2).up = false ∧ (s.getPart 0).ck.regions = [] ∧
      (m.getPart 0).ck.regions.map (fun r => (decide (0 < r.len), r.mira / chipBytes)) = [(true, 0)] ∧
      (lv.quad 0 0).below = some 5 ∧ (lv.quad 0 0).lvl ≠ 0 ∧ 5 + 200000 ≤ lv.now ∧ (lv.quad 0 0).cur = some 9 ∧ 9 + 8000 ≤ lv.now ∧
      bits (gt.getPart (gt.dieOwner 0)).regs.gatectl.toNat 16 1 = 1 ∧ gt.gated = [] ∧ (nsRange 0 4).all (fun k => gt.gateable k) = true ∧
      gt.disabled.contains 0 = false ∧ gt.phase = 1 ∧ (gt.die 0).up = true ∧ amGet 0 gt.busyAt 0 + 64 * max 1 (bits (gt.getPart 0).regs.gatectl.toNat 0 16) ≤ gt.now ∧
      ((nsRange 0 4).map (fun k => (gt.core k).spill)).sum = 0 ∧ gt.slotsUsed 0 = 0 ∧ (st.core 0).mode = .idle ∧ st.gateable 0 = false ∧ 5 ∈ gd.gated ∧ State.reset.phase = 0 ∧ sn.snap.latch = some (9, s.cores) := by
  and_intros <;> first | rfl | decide

theorem crcByte_lt (c b : Nat) (hc : c < 2 ^ 32) (hb : b < 256) : crcByte c b < 2 ^ 32 := by
  have h (x : Nat) (hx : x < 2 ^ 32) : crcBit x < 2 ^ 32 := by
    unfold crcBit
    split
    · exact Nat.xor_lt_two_pow (by omega) (by decide)
    · omega
  unfold crcByte
  exact h _ (h _ (h _ (h _ (h _ (h _ (h _ (h _ (Nat.xor_lt_two_pow hc (by omega)))))))))
theorem crc32c_lt (bs : List Byte) : crc32c bs < 2 ^ 32 := by
  have h : ∀ (l : List Byte) (c : Nat), c < 2 ^ 32 → l.foldl (fun c b => crcByte c b.toNat) c < 2 ^ 32 := by
    intro l
    induction l with
    | nil => exact fun c hc => hc
    | cons b l ih => exact fun c hc => ih _ (crcByte_lt c b.toNat hc b.isLt)
  exact Nat.xor_lt_two_pow (h bs _ (by decide)) (by decide)
/-- The known CRC-32C of 32 zero bytes; and a save area's header that checks: for any 64 KiB but the check's eight bytes there is one. -/
theorem test_crc : crc32c (List.replicate 32 0) = 0x8A9136AA := by decide +kernel
theorem witness_HeaderCheck (a b : List Byte) (ha : a.length = 0xF8) (hb : b.length = 0xFF00) :
    ∃ bs : List Byte, bs.length = 0x10000 ∧ bs.take 0xF8 = a ∧ bs.drop 0x100 = b ∧ fldAt bs 0xFC 4 = 0 ∧
      crc32c (bs.take 0xF8 ++ leBytes 8 0 ++ bs.drop 0x100) = fldAt bs 0xF8 4 := by
  let v := crc32c (a ++ leBytes 8 0 ++ b)
  have hv : v < 2 ^ 32 := crc32c_lt _
  have h4 : leNat (leBytes 4 v) = v := by
    simp only [leBytes, leNat, BitVec.toNat_ofNat]
    omega
  have ht : (a ++ (leBytes 4 v ++ (leBytes 4 0 ++ b))).take 0xF8 = a := List.take_left' ha
  have hd : (a ++ (leBytes 4 v ++ (leBytes 4 0 ++ b))).drop 0xF8 = leBytes 4 v ++ (leBytes 4 0 ++ b) := List.drop_left' ha
  have hb' : (a ++ (leBytes 4 v ++ (leBytes 4 0 ++ b))).drop 0x100 = b := by
    rw [show (0x100 : Nat) = 0xF8 + 8 from rfl, ← List.drop_drop, hd]
    rfl
  refine ⟨a ++ (leBytes 4 v ++ (leBytes 4 0 ++ b)), ?_, ht, hb', ?_, ?_⟩
  · have h (n : Nat) : (leBytes 4 n).length = 4 := rfl
    rw [List.length_append, List.length_append, List.length_append, h, h, ha, hb]
  · rw [fldAt, show (0xFC : Nat) = 0xF8 + 4 from rfl, ← List.drop_drop, hd]
    rfl
  · rw [ht, hb', fldAt, hd]
    exact h4.symm

/-- A kept event; an address of host memory, one of device memory that the host reaches, one of a mirror that it does not; a scrub running. -/
theorem witness_HostAccesses :
    let s := hostW []
    let k : State := s.setWin 0 { s.win 0 with kept := [⟨7, 0, 0, 0, 0⟩] }
    let m := hostW [] (fun x => { x with ck := { x.ck with regions := [⟨0x4000, 0x1000, 0x8000, 2 * chipBytes⟩] } })
    s.part < 5 ∧ (0x28 : BitVec 16).toNat = 0x28 ∧ s.hostExcluded 0x140 [1, 2].length = false ∧ 0x140 % 8 = 0 ∧ (s.win 0).kept = [] ∧ (k.win 0).kept = [⟨7, 0, 0, 0, 0⟩] ∧ s.region (0x1000000000040 : BitVec 52).toNat = .host ∧ s.hostReaches 0x140 = true ∧
      s.hostExcluded 0x140 8 = false ∧ 0x140 < 4 * chipBytes ∧ m.hostReaches 0x8040 = true ∧ m.hostExcluded 0x8040 8 = true ∧ s.phase ≠ 3 ∧
      spdmSupported.contains (0x55 : BitVec 8).toNat = false ∧ ({ s with phase := 3 } : State).phase = 3 := by
  and_intros <;> first | rfl | decide +kernel

/-- Tables that map address 0 to 0x50000, a record at 0x100 and an Almanac of one record at 0x200. -/
def recMem (rs : List Byte) : Bytes :=
  pokeBytes (pokeBytes (pokeBytes walkMem 0x50100 rs) 0x50200 (leBytes 4 1 ++ leBytes 4 1)) 0x50280 rs
def cmdS (as_ : List Word) (f : Sched → Sched := id) (rs : List Byte := recBytes) (g : Core → Core := id) : State :=
  { hostW as_ (fun x => { x with root := some 0x10000, sched := f x.sched }) g with mem := recMem rs }
def older (d : Sched) : Sched := { d with latest := 3, replays := [⟨2, [], 0, false, 0⟩] }
/-- A saved context of area 0x10000. -/
def ctxAt (pl : CtxPlace) : Ctx := ⟨0x10000, { Core.reset with task := some task1 }, pl, 5, 0, [], []⟩
set_option maxRecDepth 20000 in
/-- A record that is well formed, with and without room, and one that is not; replays and patches of the next number, of an older and of a later one;
tasks and contexts that a command names and that it does not. -/
theorem witness_SchedulerCommands :
    let s := cmdS [0x100]
    let full := cmdS [0x100] (fun d => { d with queues := Vector.replicate 4 (List.range 256) })
    let bad := cmdS [0x100] id (List.replicate 128 0)
    let al := cmdS [0x200, 1]
    let run := cmdS [3] id recBytes (fun c => { c with mode := .running, task := some task1 })
    (Record.parse recBytes).total ((Record.parse recBytes).n.getD 0 0) ≠ 0 ∧ (s.sched 0).recs = [] ∧ (run.core 0).mode = .running ∧ (run.core 0).task.isSome = true ∧
      (ctxAt .trapped).place = .trapped ∧ ((cmdS [0x10000] (fun d => { d with ctxs := [ctxAt .trapped] })).sched 0).ctxs = [ctxAt .trapped] ∧
      (ctxAt .trapped).area = 0x10000 ∧ (ctxAt .trapped).core.task = some task1 ∧
      (cmdS [3] (fun d => { d with ctxs := [ctxAt .trapped] })).taskCores 0 (fun _ c => c.task.any (fun t => t.id == 3)) = [] ∧
    Free s 0 ∧ Free full 0 ∧ Free bad 0 ∧ Free al 0 ∧ Free run 0 ∧ (arg s 0 0).toNat % 128 = 0 ∧
      ((entered s 0 1).partRead 0 0x100 128).toOption.map (·.2) = some recBytes ∧ (Record.parse recBytes).ok recBytes none = true ∧
      (s.sched 0).hasRoom (Record.parse recBytes).cls = true ∧ (full.sched 0).hasRoom (Record.parse recBytes).cls = false ∧
      ((entered bad 0 1).partRead 0 0x100 128).toOption.map (·.2) = some (List.replicate 128 0) ∧
      (Record.parse (List.replicate 128 0)).ok (List.replicate 128 0) none = false ∧ (arg (cmdS [1]) 0 0).toNat % 128 ≠ 0 ∧
      ((entered al 0 2).readAlmanac 0 0x200).toOption.map (·.2) = some [Record.parse recBytes] ∧ (arg al 0 1).toNat = (al.sched 0).latest + 1 ∧
      (al.sched 0).olderLive = false ∧ ((cmdS [63, 4] older).sched 0).olderLive = true ∧ (arg (cmdS [63, 4] older) 0 1).toNat = ((cmdS [63, 4] older).sched 0).latest + 1 ∧
      ((cmdS [63, 4] older).sched 0).heldReplay = none ∧ (arg (cmdS [63, 3] older) 0 1).toNat ≤ 3 ∧ 3 + 1 < (arg (cmdS [63, 5] older) 0 1).toNat ∧
      64 ≤ (arg (cmdS [64]) 0 0).toNat ∧ run.runningTasks 0 = [(0, task1)] ∧ run.corePart 0 = 0 ∧ task1.id = (arg run 0 0).toNat ∧ (run.core 0).inGang = false ∧
      (run.sched 0).preempts = [] ∧ run.taskCores 0 (fun _ c => c.task.any (fun t => t.id == 3)) = [0] ∧
      ((cmdS [0x10000] (fun d => { d with ctxs := [ctxAt .resume] })).sched 0).ctxs = [ctxAt .resume] ∧ (ctxAt .resume).place ≠ .trapped ∧
      0x200000 % 2 ^ 21 = 0 ∧ ((cmdS [0x200000] (fun d => { d with pool := [0x200000] })).sched 0).poolBusy = [] ∧
      0x200000 ∈ ((cmdS [0x200000] (fun d => { d with poolBusy := [0x200000] })).sched 0).poolBusy := by
  and_intros <;> first | rfl | exact .inr ⟨by decide, by decide⟩ | decide +kernel
/-- Each field of SETREG within its limits and past them. -/
theorem witness_SetregCommands :
    let s (f v e : Word) : State := hostW [f, v, e]
    (∀ f : Fin 14, Free (s (BitVec.ofNat 64 f) 1 0) 0 ∧ arg (s (BitVec.ofNat 64 f) 1 0) 0 0 = BitVec.ofNat 64 f ∧ (s (BitVec.ofNat 64 f) 1 0).irq = false) ∧
      12 < (arg (s 13 0 0) 0 0).toNat ∧ (arg (s 0 65535 0) 0 1).toNat < 65536 ∧ ¬ (arg (s 0 65536 0) 0 1).toNat < 65536 ∧
      (arg (s 1 0xFFFFFFFFFFFF 0) 0 1).toNat < 2 ^ 48 ∧ ¬ (arg (s 1 0x1000000000000 0) 0 1).toNat < 2 ^ 48 ∧ (arg (s 3 0xFFFFFFFF 0) 0 1).toNat < 2 ^ 32 ∧
      (arg (s 4 0xFFF 3) 0 2).toNat ∈ ((s 4 0xFFF 3).getPart 0).dies ∧ (arg (s 4 0xFFF 3) 0 2).toNat < 4 ∧
      (arg (s 4 0 4) 0 2).toNat ∉ ((s 4 0 4).getPart 0).dies ∧
      (arg (s 5 255 5) 0 1).toNat < 256 ∧ (arg (s 5 255 5) 0 2).toNat < 6 ∧ ¬ (arg (s 5 255 6) 0 2).toNat < 6 ∧ (s 8 0x3F3F 0).domain.open_ = [] ∧
      ((s 9 5 0).getPart 0).kv.allFree = true ∧
      ((hostW [9, 5] (kvP (seq1 0))).getPart 0).kv.allFree = false ∧
      (arg (s 10 3 0) 0 1).toNat < 4 ∧ 4 ≤ (arg (s 10 4 0) 0 1).toNat ∧ ¬ 1 ≤ (arg (s 11 0 0) 0 1).toNat ∧ (arg (s 12 1 0) 0 1).toNat < 2 ∧
      ¬ (arg (s 12 2 0) 0 1).toNat < 2 := by
  and_intros <;> first | rfl | exact fun f => ⟨free_low _ _ _ (by decide), by revert f; decide, rfl⟩ | decide
/-- A block of 64 positions, present or not, with room to page in. -/
def kvBlk (absent : Bool) (x : Part) : Part := { x with kv := ⟨[(3, [⟨5, 1, 3, some 7, absent, [(3, ⟨1, 2, false⟩)]⟩])], [], [], []⟩ }
def key513 : Word := BitVec.ofNat 64 (5 + 1 * 2 ^ 32 + 3 * 2 ^ 40)
set_option maxRecDepth 20000 in
/-- Each command with what it needs and without it: idle partitions and busy ones, windows, blocks, links and dies in each state. -/
theorem witness_LaunchAndModuleCommands :
    let s := hostW []
    let busy := hostW [] id (fun c => { c with task := some task1, member := true })
    let pub : State := { hostW [15, 0x700] with mem := pokeBytes [] 0x1000000000700 (leBytes 8 0x10000 ++ leBytes 8 1 ++ leBytes 8 0x1000000000800 ++ leBytes 8 0) }
    let reg := hostW [1, BitVec.ofNat 64 (chipBytes + 0x200000), 1]
    let out := hostW [key513, 0x3000] (kvBlk false)
    let b := hostW [key513, 0x3000] (kvBlk true)
    let inn : State := { b with chips := b.chips.map (fun (c : Chiplet) => { c with kvLen := 2 ^ 26 }) }
    let open_ : State := { s with domain := ⟨[⟨1, 2, true, 2, 0, 3, 0, .addF32, .f32, 0, []⟩], []⟩ }
    let lk := hostW [2, 1]
    let dn : State := lk.setEnd 2 1 (fun x => { x with st := .down })
    let off : State := (hostW [2]).updDie 2 (fun x => { x with up := false })
    let dbg : State := { hostW [0] with rows := { Rows.reset with debugen := true } }
    let run (code : Nat) (as_ : List Word) : State := s.setWin 0 { s.win 0 with run := some ⟨code, false, as_, 3, none⟩ }
    (Free s 0 ∧ Free s 4) ∧ busy.anyTask 0 = true ∧ (s.cores.all (fun e => e.2.task.isNone && e.2.staged.isNone)) = true ∧
      pub.hostBytes (arg pub 0 1) 32 = leBytes 8 0x10000 ++ leBytes 8 1 ++ leBytes 8 0x1000000000800 ++ leBytes 8 0 ∧ (arg pub 0 0).toNat < 16 ∧ pub.anyTask 0 = false ∧
      16 ≤ (arg (hostW [16]) 0 0).toNat ∧ (reg.getPart 0).dies.getD (arg reg 0 0).toNat 4 = 1 ∧ (arg reg 0 1).toNat % 2 ^ 21 = 0 ∧ 1 * chipBytes ≤ (arg reg 0 1).toNat ∧
      (arg reg 0 1).toNat + (arg reg 0 2).toNat * 2 ^ 21 ≤ 2 * chipBytes ∧ (reg.getPart 0).ck.regions = [] ∧ (reg.getPart 0).kv.allFree = true ∧
      kvKey (arg out 0 0) = (5, 1, 3) ∧ (out.kvFind 0 5 1 3).map (·.absent) = some false ∧ (inn.kvFind 0 5 1 3).map (·.absent) = some true ∧
      inn.poolUsed 0 (3 % inn.kvC 0) < inn.pool 0 (3 % inn.kvC 0) ∧ s.kvFind 0 0 0 0 = none ∧ busy.taskCores 0 (fun _ c => c.member) ≠ [] ∧
      s.hostBytes (arg s 0 0) 256 = List.replicate 256 0 ∧ s.taskCores 0 (fun _ c => c.member) = [] ∧ s.domain.open_ = [] ∧ open_.domain.open_ ≠ [] ∧
      (arg lk 0 0).toNat ∈ (lk.getPart 0).dies ∧ (lk.link 2 1).st ≠ .down ∧ (dn.link 2 1).st = .down ∧ (dn.die 2).up = true ∧ lk.dieOwner 2 = 0 ∧
      (off.die 2).up = false ∧ (arg (hostW [4]) 0 0).toNat ∉ (s.getPart 0).dies ∧ dbg.rows.debugen = true ∧ dbg.disabled.contains 0 = false ∧ dbg.corePart 0 = 0 ∧
      s.rows.debugen = false ∧ (∀ q < 4, (s.sched q).ctxs = [] ∧ (s.sched q).waiting = 0) ∧ 3 ≤ (arg (hostW [3]) 4 0).toNat ∧ (arg s 4 0).toNat < 3 ∧
      ({ s with snap := ⟨true, 5, 6, none⟩ } : State).snap.armed = true ∧ s.snap.armed = false ∧ (s.win 4).isSet = false ∧ (s.win 4).kept = [] ∧
      knownCode false (0x1F : BitVec 8).toNat = false ∧ knownCode true (0x47 : BitVec 8).toNat = false ∧ ((run 0x12 [0, 0]).win 0).run.isSome = true ∧
      (s.cores.all (fun e => e.2.holds.isEmpty)) = true ∧ ((run 0x1A [2]).die 2).up = true ∧ ((run 0x19 [2, 1]).link 2 1).st ≠ .retrain := by
  and_intros <;> first | rfl | exact .inl rfl | exact .inr ⟨by decide, by decide⟩ | decide +kernel

/-! #### The machine as a whole -/

/-- A lane and a prefix that encode, and a word of each length. -/
theorem witness_EncodingRoundTrips :
    (Instr.addi 7 7 (-64)).wf = true ∧ encode (.addi 7 7 (-64)) = some 0x1039FFC0 ∧ (Instr.pblk .vx 3 1 1).wf = true ∧ encode (.pblk .vx 3 1 1) = some 0x8C808000 ∧
      longOp (bits 0x1039FFC0 24 8) = false ∧ 0x1039FFC0 < 2 ^ 32 ∧ longOp (bits 0xA108A050 24 8) = true := by
  and_intros <;> first | rfl | decide
/-- A command at the head of an engine's queue, its turn next. -/
theorem witness_TurnRunsTheHead :
    let s : State := { W (.add 1 2 3 true) 0 x0 [] with agenda := [.run 0 0] }
    let u : State := { s with agenda := [], stalled := false, cur := 0, slot := 0 }
    s.agenda = .run 0 0 :: [] ∧ u.mayRun 0 0 = true ∧ u.paced 0 0 = true ∧ (s.core 0).matches 0 = false ∧ (s.core 0).headEntry 0 = some (.cmd (cmdW (.add 1 2 3 true) 0 [])) := by
  and_intros <;> rfl
/-- An `addi` in the line that the core fetches next, its page in the translation buffer. -/
def lineW (n w : Nat) : State :=
  let s := W .nop 0 x0 [] (fun c => { c with fetch := { Fetch.reset with pc := 0x3004, ended := false }, qs := Vector.replicate 14 [] })
  { s with agenda := [.fetch 0], mem := pokeBytes [] 0x20000 (lineFor n w) }
set_option maxRecDepth 100000 in
theorem witness_StepRunsTheDecodedLane :
    let w := 0x1039FFC0
    let i : Instr := .addi 7 7 (-64)
    let s := lineW 32 w
    let c := s.core 0
    let u : State := { s with agenda := [], stalled := false, cur := 0, slot := 0 }
    let p : Place := ⟨0x20004, 0xFFC, ⟨0x3000, 4096, 0x20000, true, true, true, false, false, true⟩, .device 0⟩
    s.agenda = [.fetch 0] ∧ (s.die (coreDie 0)).up = true ∧ s.gated.contains (0 / 4) = false ∧ c.fetching = true ∧ c.dbg.stepping = false ∧ c.dbg.cmpen = false ∧
      s.fetchPaced 0 = true ∧ c.replaying = false ∧ s.gapOver 0 0 (c.cidx[slotCtr 0]) = true ∧ c.fetch.line = none ∧ c.dbg.lbrken = false ∧ c.loops = [] ∧ c.mx.nest = none ∧ c.fetch.buf = [] ∧ c.fetch.pfx = [] ∧ c.fetch.spec = none ∧ (∀ j < 14, c.queue j = []) ∧
      c.fetch.pc.toNat % 32 = 4 ∧ (∀ mk, (Machine.translate .fetch mk c.fetch.pc).run u = .ok (p, u)) ∧ Plain p ∧ p.pa % 32 = 4 ∧
      s.readPa (p.pa / 32 * 32) 32 = lineFor 32 w ∧ s.paPoisoned (p.pa / 32 * 32) 32 = false ∧ w < 2 ^ 32 ∧ decodeTableWord 32 w = some i ∧ i.wf = true ∧
      gateOf i = none ∧ (scalarsOf i).all (fun r => !c.xPending r) = true := by
  and_intros <;> first | decide +kernel | (intro _; rfl)
/-- A settled state with a turn to take. -/
theorem witness_EveryStepSettles :
    let s : State := { W (.add 1 2 3 true) 0 x0 [] with agenda := [.run 0 0] }
    (s.cores.all (fun e => e.2.unsent.isEmpty && !e.2.dbg.halted)) = true ∧ (match step s with | .next _ => true | _ => false) = true := by
  and_intros <;> rfl
/-- Partitions that name dies 0-3. -/
theorem witness_MemoryLaws : (∀ q, ∀ d ∈ (State.reset.getPart q).dies, d < 4) ∧ State.reset.memoriesWf = true ∧ Memory.wf Core.reset.sp = true := by
  refine ⟨fun q d h => ?_, rfl, rfl⟩
  match q with
  | 0 => revert d; decide
  | 1 | 2 | 3 => exact absurd h (by simp [State.reset, State.getPart, Part.reset])
  | n + 4 => exact absurd h (by simp [State.reset, State.getPart, Part.reset])
end Sys2Proof.Tests
end

section
/-! How a control-core lane of the statements that may start (`Cc`) comes to its end: its reads taken off one by one, then what its body does. -/

namespace Sys2Proof.Machine

open Sys2Proof.Claim

theorem slot_of_cc {i : Instr} {s : State} (h : Cc i s) : s.slot = 0 := by
  obtain ⟨-, hslot, -⟩ := h
  exact hslot

theorem spec_of_cc {i : Instr} {s : State} (h : Cc i s) : s.cmd.spec = .none := by
  obtain ⟨-, -, hspec, -⟩ := h
  exact hspec

/-- A lane in hand that may start is held up by nothing. -/
theorem ccFree_of_cc {i : Instr} {s : State} (h : Cc i s) : (s.core s.cur).ccFree s.cmd := by
  obtain ⟨-, -, -, hamo, hover, hfence⟩ := h
  exact ⟨hamo, hfence, hover⟩

/-- A lane that may start and whose body only changes its core completes with that core. -/
theorem ccLane_eq_ccDone {i : Instr} {s : State} {m : M Unit} {c : Core} (h : Cc i s) (hm : m.run s = .ok ((), s.setCore s.cur c)) :
    ccLane s m = .next (ccDone s c) :=
  ccLane_done (spec_of_cc h) (ccFree_of_cc h) c hm

/-- A lane whose whole body changes the core in hand. -/
theorem ccLane_modCore {i : Instr} {s : State} (h : Cc i s) (f : Core → Core) : ccLane s (modCore f) = .next (ccDone s (f (s.core s.cur))) :=
  ccLane_eq_ccDone h rfl

/-- A lane whose whole body writes a scalar register. -/
theorem ccLane_writeX {i : Instr} {s : State} (h : Cc i s) (d : XReg) (v : Word) : ccLane s (writeX d v) = .next (ccWrote s d v) :=
  ccLane_modCore h _

/-- A lane whose body leaves the state completes with its core as it is. -/
theorem ccLane_kept {i : Instr} {s : State} {m : M Unit} (h : Cc i s) (hm : m.run s = .ok ((), s)) :
    ccLane s m = .next (ccDone s (s.core s.cur)) := by
  rw [ccLane_ready _ (spec_of_cc h) (ccFree_of_cc h)]
  simp only [runM, settle, StateT.run_bind, hm, Except.bind_ok', run_modCore, State.updCore, ccDone]

/-- A lane that first reads a clean register goes on with its value. -/
theorem ccLane_readX {i : Instr} {s : State} {a : XReg} {x : Word} (h : Cc i s) (hx : Reads s a x) (k : Word → M Unit) :
    ccLane s (do let x ← readX a; k x) = ccLane s (k x) := by
  simp only [ccLane_ready _ (spec_of_cc h) (ccFree_of_cc h), runM, StateT.run_bind, run_readX_clean hx, Except.bind_ok']

/-- A lane that first looks at its core goes on with it. -/
theorem ccLane_core {i : Instr} {s : State} (h : Cc i s) (k : Core → M Unit) :
    ccLane s (do let c ← core; k c) = ccLane s (k (s.core s.cur)) := by
  simp only [ccLane_ready _ (spec_of_cc h) (ccFree_of_cc h), runM, StateT.run_bind, run_core, Except.bind_ok']

/-- A computation that leaves the state is no part of a lane. -/
theorem ccLane_bind_kept {i : Instr} {s : State} {m k : M Unit} (h : Cc i s) (hm : m.run s = .ok ((), s)) :
    ccLane s (do m; k) = ccLane s k := by
  simp only [ccLane_ready _ (spec_of_cc h) (ccFree_of_cc h), runM, StateT.run_bind, hm, Except.bind_ok']

end Sys2Proof.Machine
end

section
/-! The integer results of the control core (R142, R143, R145, R146): the integer functions of Table 5.11 are the operations on bit vectors. -/

namespace Sys2Proof.Machine

open Sys2Proof.Claim

/-! ### The integers of ALU operands and results (R142) -/

/-- The integer that an operand of `n` bits stands for: unsigned or signed (R142). -/
def intOf (u : Bool) {n : Nat} (x : BitVec n) : Int := if u then (x.toNat : Int) else x.toInt

/-- The model's sign extension is the signed value of the low bits. -/
theorem sext_eq_toInt (n v : Nat) : sext n v = (BitVec.ofNat n v).toInt := by
  simp [sext, BitVec.toInt]

/-- The bits of an operand's integer are the operand. -/
@[simp] theorem ofInt_intOf (u : Bool) {n : Nat} (x : BitVec n) : BitVec.ofInt n (intOf u x) = x := by
  cases u <;> simp [intOf]

theorem intOf_inj (u : Bool) {n : Nat} {x y : BitVec n} (h : intOf u x = intOf u y) : x = y := by
  rw [← ofInt_intOf u x, h, ofInt_intOf]

theorem intOf_eq_zero (u : Bool) {n : Nat} (y : BitVec n) : intOf u y = 0 ↔ y = 0 := by
  have h0 : intOf u (0 : BitVec n) = 0 := by cases u <;> simp [intOf]
  rw [← h0]
  exact ⟨intOf_inj u, congrArg _⟩

/-- The order of the operands' integers is the order that U selects. -/
theorem intOf_lt (u : Bool) {n : Nat} (x y : BitVec n) : intOf u x < intOf u y ↔ (if u then x.ult y else x.slt y) = true := by
  cases u <;> simp [intOf, BitVec.slt, BitVec.ult]

/-- The low bits of an operand's integer, as a number. -/
@[simp] theorem lowBits_intOf (u : Bool) {n : Nat} (x : BitVec n) : lowBits n (intOf u x) = x.toNat := by
  rw [lowBits, ← BitVec.toNat_ofInt, ofInt_intOf]

/-- An ALU operand is the integer of its low bits. -/
theorem aluIn_eq (w u : Bool) (x : Word) : aluIn w u x = intOf u (x.setWidth (aluW w)) := by
  simp [aluIn, intOf, sext_eq_toInt, BitVec.ofNat_toNat]

/-- An ALU result is the low bits of the integer, extended as U selects. -/
theorem aluOut_eq (w u : Bool) (r : Int) :
    aluOut w u r = if u then (BitVec.ofInt (aluW w) r).setWidth 64 else (BitVec.ofInt (aluW w) r).signExtend 64 := by
  simp only [aluOut, sext_eq_toInt, ← BitVec.toNat_ofInt, BitVec.ofNat_toNat, BitVec.setWidth_eq]
  rfl

/-- An integer function of Table 5.11 is the function `f` of bit vectors, at every width. -/
def Realizes (F : Nat → Int → Int → Int) (u : Bool) (f : (n : Nat) → BitVec n → BitVec n → BitVec n) : Prop :=
  ∀ (n : Nat) (x y : BitVec n), BitVec.ofInt n (F n (intOf u x) (intOf u y)) = f n x y

/-- An ALU instruction computes the bit-vector function of its integer function. -/
theorem alu_eq_typed {F : Nat → Int → Int → Int} {u : Bool} {f : (n : Nat) → BitVec n → BitVec n → BitVec n} (h : Realizes F u f)
    (w : Bool) (x y : Word) : alu F w u x y = typed f w u x y := by
  simp only [alu, aluOut_eq, aluIn_eq, h _ _ _]
  cases w with
  | true => rfl
  | false => cases u <;> simp [aluW, typed]

/-! ### Table 5.11, function by function -/

/-- A power of two as a bit vector, also one beyond its width. -/
theorem ofNat_two_pow (n m : Nat) : BitVec.ofNat n (2 ^ m) = BitVec.twoPow n m :=
  BitVec.eq_of_toNat_eq (by rw [BitVec.toNat_ofNat, BitVec.toNat_twoPow])

theorem realizes_add (u : Bool) : Realizes fAddI u (fun _ x y => x + y) := fun n x y => by
  simp [fAddI, BitVec.ofInt_add]
theorem realizes_sub (u : Bool) : Realizes fSubI u (fun _ x y => x - y) := fun n x y => by
  simp [fSubI, Int.sub_eq_add_neg, BitVec.ofInt_add, BitVec.ofInt_neg, BitVec.sub_eq_add_neg]
theorem realizes_and (u : Bool) : Realizes fAndI u (fun _ x y => x &&& y) := fun n x y => by
  simp only [fAndI, lowBits_intOf, BitVec.ofInt_natCast, ← BitVec.toNat_and, BitVec.ofNat_toNat, BitVec.setWidth_eq]
theorem realizes_or (u : Bool) : Realizes fOrI u (fun _ x y => x ||| y) := fun n x y => by
  simp only [fOrI, lowBits_intOf, BitVec.ofInt_natCast, ← BitVec.toNat_or, BitVec.ofNat_toNat, BitVec.setWidth_eq]
theorem realizes_xor (u : Bool) : Realizes fXorI u (fun _ x y => x ^^^ y) := fun n x y => by
  simp only [fXorI, lowBits_intOf, BitVec.ofInt_natCast, ← BitVec.toNat_xor, BitVec.ofNat_toNat, BitVec.setWidth_eq]
theorem realizes_shl (u : Bool) : Realizes fShlI u (fun n x y => x <<< (y.toNat % n)) := fun n x y => by
  simp only [fShlI, shCount, lowBits_intOf, BitVec.ofInt_mul, ofInt_intOf, BitVec.ofInt_natCast, BitVec.shiftLeft_eq_mul_twoPow,
    ofNat_two_pow]
theorem realizes_shr (u : Bool) : Realizes fShrI u (fun n x y => x >>> (y.toNat % n)) := fun n x y => by
  simp only [fShrI, shCount, lowBits_intOf, BitVec.ofInt_natCast, ← Nat.shiftRight_eq_div_pow, ← BitVec.toNat_ushiftRight, BitVec.ofNat_toNat,
    BitVec.setWidth_eq]
theorem realizes_sra : Realizes fSraI false (fun n x y => x.sshiftRight (y.toNat % n)) := fun n x y => by
  simp only [fSraI, shCount, lowBits_intOf]
  rw [intOf, if_neg Bool.false_ne_true, ← Int.shiftRight_eq_div_pow, ← BitVec.toInt_sshiftRight, BitVec.ofInt_toInt]
theorem realizes_mul (u : Bool) : Realizes fMulI u (fun _ x y => x * y) := fun n x y => by
  simp [fMulI, BitVec.ofInt_mul]

/-- The upper half of the residue modulo q² is the residue of the quotient. -/
theorem emod_mul_self_ediv_emod (z : Int) {q : Nat} (hq : 0 < q) : z % (q * q : Int) / q % q = z / q % q := by
  rw [Int.emod_def z, mul_assoc, Int.sub_mul_ediv_left _ _ (by omega), Int.sub_mul_emod_self_left]

/-- The upper half of a double-width integer. -/
theorem setWidth_ofInt_ushiftRight (n : Nat) (z : Int) : (BitVec.ofInt (2 * n) z >>> n).setWidth n = BitVec.ofInt n (z / (2 ^ n : Nat)) := by
  have hq : 0 < 2 ^ n := Nat.two_pow_pos n
  apply BitVec.eq_of_toNat_eq
  simp only [BitVec.toNat_setWidth, BitVec.toNat_ushiftRight, BitVec.toNat_ofInt, Nat.shiftRight_eq_div_pow, two_mul, pow_add]
  generalize 2 ^ n = q at hq ⊢
  zify
  rw [Int.toNat_of_nonneg (Int.emod_nonneg _ (by positivity)), Int.toNat_of_nonneg (Int.emod_nonneg _ (by omega)), emod_mul_self_ediv_emod z hq]

/-- An operand extended as U selects, to twice its width, has the same integer. -/
theorem extend_eq_ofInt (u : Bool) {n : Nat} (x : BitVec n) (m : Nat) : (if u then x.setWidth m else x.signExtend m) = BitVec.ofInt m (intOf u x) := by
  cases u with
  | true => simp [intOf, BitVec.ofInt_natCast]
  | false => rfl

theorem realizes_mulh (u : Bool) : Realizes fMulhI u (highHalf u) := fun n x y => by
  rw [fMulhI, ← setWidth_ofInt_ushiftRight, BitVec.ofInt_mul, ← extend_eq_ofInt, ← extend_eq_ofInt]
  cases u <;> rfl

/-- The quotient by zero is all ones (R142). -/
theorem ofInt_two_pow_sub_one (n : Nat) : BitVec.ofInt n ((2 ^ n : Nat) - 1) = BitVec.allOnes n := by
  rw [← Nat.cast_pred (Nat.two_pow_pos n), BitVec.ofInt_natCast]
  exact BitVec.eq_of_toNat_eq (by simp)

/-- The truncated quotient; a signed one that overflows wraps (R142). -/
theorem ofInt_tdiv_intOf (u : Bool) {n : Nat} (x y : BitVec n) :
    BitVec.ofInt n ((intOf u x).tdiv (intOf u y)) = if u then x.udiv y else x.sdiv y := by
  cases u with
  | true => rw [intOf, intOf, if_pos rfl, if_pos rfl, ← Int.ofNat_tdiv, BitVec.ofInt_natCast, if_pos rfl, BitVec.udiv_eq, BitVec.udiv_def]
  | false => exact BitVec.eq_of_toInt_eq (by rw [BitVec.toInt_ofInt]; exact (BitVec.toInt_sdiv x y).symm)

/-- The remainder with the sign of the dividend. -/
theorem ofInt_tmod_intOf (u : Bool) {n : Nat} (x y : BitVec n) :
    BitVec.ofInt n ((intOf u x).tmod (intOf u y)) = if u then x.umod y else x.srem y := by
  cases u with
  | true => rw [intOf, intOf, if_pos rfl, if_pos rfl, ← Int.ofNat_tmod, BitVec.ofInt_natCast, if_pos rfl, BitVec.umod_eq, BitVec.umod_def]
  | false => exact (congrArg _ (BitVec.toInt_srem x y).symm).trans BitVec.ofInt_toInt

theorem realizes_div (u : Bool) :
    Realizes fDivI u (fun n x y => if y = 0 then BitVec.allOnes n else if u then x.udiv y else x.sdiv y) := fun n x y => by
  simp only [fDivI, intOf_eq_zero]
  split
  · exact ofInt_two_pow_sub_one n
  · exact ofInt_tdiv_intOf u x y

theorem realizes_rem (u : Bool) :
    Realizes fRemI u (fun _ x y => if y = 0 then x else if u then x.umod y else x.srem y) := fun n x y => by
  simp only [fRemI, intOf_eq_zero, ← Int.tmod_def]
  split
  · exact ofInt_intOf u x
  · exact ofInt_tmod_intOf u x y

theorem realizes_min (u : Bool) :
    Realizes fMinI u (fun _ x y => if (if u then y.ult x else y.slt x) then y else x) := fun n x y => by
  simp only [fMinI, ← intOf_lt, ← not_lt, ite_not]
  split <;> exact ofInt_intOf u _

theorem realizes_max (u : Bool) :
    Realizes fMaxI u (fun _ x y => if (if u then x.ult y else x.slt y) then y else x) := fun n x y => by
  simp only [fMaxI, ← intOf_lt, ← max_def, max_def_lt]
  split <;> exact ofInt_intOf u _

/-! ### The ALU lanes -/

/-- A lane on two clean registers writes the function that its integer function realizes. -/
theorem aluLane_eq {i : Instr} {s : State} {F : Nat → Int → Int → Int} {f : (n : Nat) → BitVec n → BitVec n → BitVec n} {d a b : XReg} {w u : Bool}
    {x y : Word} (hx : Reads s a x) (hy : Reads s b y) (hf : Realizes F u f) (h : Cc i s) :
    aluLane F d a b w u s = .next (ccWrote s d (typed f w u x y)) := by
  rw [aluLane, ccLane_readX h hx, ccLane_readX h hy, ccLane_writeX h, alu_eq_typed hf]

/-- A lane on a clean register and an immediate. -/
theorem aluImm_eq {i : Instr} {s : State} {F : Nat → Int → Int → Int} {f : (n : Nat) → BitVec n → BitVec n → BitVec n} {d a : XReg} {w : Bool}
    {x y : Word} (hx : Reads s a x) (hf : Realizes F false f) (h : Cc i s) :
    aluImm F d a w y s = .next (ccWrote s d (typed f w false x y)) := by
  rw [aluImm, ccLane_readX h hx, ccLane_writeX h, alu_eq_typed hf]

/-- Settles O1: each lane's integer function realizes the bit-vector function of Table 5.11. -/
theorem aluResults : Obligations.AluResults := by
  intro s d a b w u x y hx hy
  exact ⟨aluLane_eq hx hy (realizes_add false), aluLane_eq hx hy (realizes_sub false), aluLane_eq hx hy (realizes_and false),
    aluLane_eq hx hy (realizes_or false), aluLane_eq hx hy (realizes_xor false), aluLane_eq hx hy (realizes_shl false),
    aluLane_eq hx hy (realizes_shr false), aluLane_eq hx hy realizes_sra, aluLane_eq hx hy (realizes_mul false),
    aluLane_eq hx hy (realizes_mulh u), aluLane_eq hx hy (realizes_div u), aluLane_eq hx hy (realizes_rem u),
    aluLane_eq hx hy (realizes_min u), aluLane_eq hx hy (realizes_max u)⟩

/-! ### Immediates, constants and addresses (R143, R145, R146) -/

/-- A lane on a clean register and an immediate at the full width. -/
theorem aluImm_wide_eq {i : Instr} {s : State} {F : Nat → Int → Int → Int} (f : (n : Nat) → BitVec n → BitVec n → BitVec n) {d a : XReg}
    {x y : Word} (hx : Reads s a x) (hf : Realizes F false f) (h : Cc i s) : aluImm F d a false y s = .next (ccWrote s d (f 64 x y)) :=
  aluImm_eq hx hf h

/-- A shift by an immediate below the width shifts by that count. -/
theorem typed_shift_setWidth (g : (n : Nat) → BitVec n → Nat → BitVec n) {w : Bool} {n : BitVec 6} (hn : w = true → n.toNat < 32) (x : Word) :
    typed (fun k x y => g k x (y.toNat % k)) w false x (n.setWidth 64) = typed (fun k x _ => g k x n.toNat) w false x 0 := by
  cases w with
  | true =>
    have h32 : ((n.setWidth 64).setWidth 32).toNat % 32 = n.toNat := by
      have := hn rfl
      simp only [BitVec.toNat_setWidth]; omega
    simp only [typed, if_true, h32]
  | false =>
    have h64 : (n.setWidth 64).toNat % 64 = n.toNat := by simp only [BitVec.toNat_setWidth]; omega
    simp only [typed, Bool.false_eq_true, if_false, h64]

/-- An immediate shift lane with its count below the width. -/
theorem aluImm_shift_eq {i : Instr} {s : State} {F : Nat → Int → Int → Int} (g : (n : Nat) → BitVec n → Nat → BitVec n) {d a : XReg} {w : Bool}
    {x : Word} {n : BitVec 6} (hx : Reads s a x) (hf : Realizes F false (fun k x y => g k x (y.toNat % k))) (hn : w = true → n.toNat < 32) (h : Cc i s) :
    aluImm F d a w (n.setWidth 64) s = .next (ccWrote s d (typed (fun k x _ => g k x n.toNat) w false x 0)) := by
  rw [aluImm_eq hx hf h, typed_shift_setWidth g hn]

/-- The immediate forms (R143). -/
theorem aluImmediateResults : Sys2Proof.Claim.AluImmediateResults := by
  intro s d a i w n x hx
  refine ⟨aluImm_wide_eq (fun _ x y => x + y) hx (realizes_add false), aluImm_wide_eq (fun _ x y => x &&& y) hx (realizes_and false),
    aluImm_wide_eq (fun _ x y => x ||| y) hx (realizes_or false), aluImm_wide_eq (fun _ x y => x ^^^ y) hx (realizes_xor false), fun hn => ⟨?_, ?_, ?_⟩⟩
  · exact aluImm_shift_eq (fun _ x m => x <<< m) hx (realizes_shl false) hn
  · exact aluImm_shift_eq (fun _ x m => x >>> m) hx (realizes_shr false) hn
  · exact aluImm_shift_eq (fun _ x m => x.sshiftRight m) hx realizes_sra hn

/-- Constants and addresses (R145, R146). -/
theorem constantResults : Sys2Proof.Claim.ConstantResults := by
  intro s d a e h sc o x
  refine ⟨fun hc => ccLane_writeX hc _ _, fun hc ho => ?_, fun hc hx => ?_, fun hc => ccLane_writeX hc _ _⟩
  · refine (ccLane_readX hc ho _).trans ?_
    rw [ccLane_writeX hc, BitVec.setWidth_eq_extractLsb' (by omega)]
  · exact (ccLane_readX hc hx _).trans (ccLane_writeX hc _ _)

/-- Settles O2: the immediate forms and the constants. -/
theorem immediateAndConstantResults : Obligations.ImmediateAndConstantResults := ⟨aluImmediateResults, constantResults⟩

end Sys2Proof.Machine
end

section
/-! The bit instructions of the control core (R144): counts, fields taken out and fields put in, bit by bit. -/

namespace Sys2Proof.Machine

open Sys2Proof.Claim

/-! ### Counts -/

theorem popCount_eq_countP (n : Nat) (x : Word) : popCount n x.toNat = (List.range n).countP (fun i => x.getLsbD i) :=
  List.countP_eq_length_filter.symm

/-- The length of a run is the index of the first element that ends it. -/
theorem length_takeWhile_not {α : Type} (p : α → Bool) (l : List α) : (l.takeWhile (fun a => !p a)).length = l.findIdx p := by
  simp [List.takeWhile_eq_take_findIdx_not, List.findIdx_le_length]

/-- Trailing zeros: the bits below the count are zero and the next, if there is one, is not. -/
theorem trailZeros_spec (n : Nat) (x : Word) :
    trailZeros n x.toNat ≤ n ∧ (∀ i, i < trailZeros n x.toNat → x.getLsbD i = false) ∧
      (trailZeros n x.toNat < n → x.getLsbD (trailZeros n x.toNat) = true) := by
  have hr : trailZeros n x.toNat = (List.range n).findIdx x.getLsbD := length_takeWhile_not _ _
  have hn : (List.range n).findIdx x.getLsbD ≤ n := by simpa using List.findIdx_le_length (p := x.getLsbD) (xs := List.range n)
  rw [hr]
  refine ⟨hn, fun i hi => ?_, fun h => ?_⟩
  · simpa using List.not_of_lt_findIdx hi
  · have := List.findIdx_getElem (p := x.getLsbD) (xs := List.range n) (w := by simpa using h)
    rwa [List.getElem_range] at this

/-- Leading zeros: the bits of that many places below bit n are zero and the next below, if there is one, is not. -/
theorem leadZeros_spec (n : Nat) (x : Word) :
    leadZeros n x.toNat ≤ n ∧ (∀ i, n - leadZeros n x.toNat ≤ i → i < n → x.getLsbD i = false) ∧
      (leadZeros n x.toNat < n → x.getLsbD (n - 1 - leadZeros n x.toNat) = true) := by
  have hr : leadZeros n x.toNat = (List.range n).reverse.findIdx x.getLsbD := length_takeWhile_not _ _
  have hn : (List.range n).reverse.findIdx x.getLsbD ≤ n := by
    simpa using List.findIdx_le_length (p := x.getLsbD) (xs := (List.range n).reverse)
  rw [hr]
  refine ⟨hn, fun i hi hin => ?_, fun h => ?_⟩
  · have := List.not_of_lt_findIdx (p := x.getLsbD) (xs := (List.range n).reverse) (i := n - 1 - i) (by omega)
    rw [List.getElem_reverse, List.getElem_range, List.length_range] at this
    rwa [show n - 1 - (n - 1 - i) = i by omega] at this
  · have := List.findIdx_getElem (p := x.getLsbD) (xs := (List.range n).reverse) (w := by simpa using h)
    rwa [List.getElem_reverse, List.getElem_range, List.length_range] at this

/-! ### Fields -/

theorem bits_toNat {n : Nat} (x : BitVec n) (lo len : Nat) : bits x.toNat lo len = (x.extractLsb' lo len).toNat := by
  rw [bits, BitVec.extractLsb'_toNat, Nat.shiftRight_eq_div_pow]

/-- The position of a bit field in a control word (R144). -/
def fieldPos (ctl : Word) : Nat := (ctl.extractLsb' 0 6).toNat
/-- The length of a bit field in a control word (R144). -/
def fieldLen (ctl : Word) : Nat := (ctl.extractLsb' 8 6).toNat + 1

theorem fieldLen_pos (ctl : Word) : 0 < fieldLen ctl := Nat.succ_pos _

/-- `ext` gives the field extended as its sign bit selects. -/
theorem extField_eq (sg : Bool) (x ctl : Word) :
    extField sg x ctl =
      if sg then (x.extractLsb' (fieldPos ctl) (fieldLen ctl)).signExtend 64 else (x.extractLsb' (fieldPos ctl) (fieldLen ctl)).setWidth 64 := by
  have hf : x.toNat / 2 ^ fieldPos ctl % 2 ^ fieldLen ctl = (x.extractLsb' (fieldPos ctl) (fieldLen ctl)).toNat := bits_toNat x _ _
  simp only [extField, bits_toNat]
  rw [← fieldPos, ← fieldLen, hf, sext_eq_toInt, BitVec.ofNat_toNat, BitVec.ofNat_toNat, BitVec.setWidth_eq]
  rfl

/-- The bits of an extracted field: those of the source in the field, above it the fill. -/
theorem getLsbD_extField (sg : Bool) (x ctl : Word) (i : Nat) (hi : i < 64) :
    (extField sg x ctl).getLsbD i =
      if i < fieldLen ctl then x.getLsbD (fieldPos ctl + i) else sg && x.getLsbD (fieldPos ctl + fieldLen ctl - 1) := by
  have hl := fieldLen_pos ctl
  rw [extField_eq]
  cases sg with
  | true =>
    rw [if_pos rfl, BitVec.getLsbD_signExtend, BitVec.msb_eq_getLsbD_last, BitVec.getLsbD_extractLsb', BitVec.getLsbD_extractLsb', Nat.add_sub_assoc hl]
    split <;> simp [*]
  | false =>
    rw [if_neg Bool.false_ne_true, BitVec.getLsbD_setWidth, BitVec.getLsbD_extractLsb']
    split <;> simp [*]

/-- The bits of an inserted field: those of the source in the field, elsewhere those of the destination. -/
theorem getLsbD_insField (o x ctl : Word) (i : Nat) (hi : i < 64) :
    (insField o x ctl).getLsbD i =
      if fieldPos ctl ≤ i ∧ i < fieldPos ctl + fieldLen ctl then x.getLsbD (i - fieldPos ctl) else o.getLsbD i := by
  simp only [insField, bits_toNat]
  rw [← fieldPos, ← fieldLen]
  simp only [BitVec.getLsbD_or, BitVec.getLsbD_and, BitVec.getLsbD_not, BitVec.getLsbD_ofNat, hi, Nat.testBit_mul_two_pow, Nat.testBit_two_pow_sub_one,
    Nat.testBit_mod_two_pow, decide_true, Bool.true_and, BitVec.testBit_toNat]
  by_cases h1 : fieldPos ctl ≤ i
  · have h2 : i < fieldPos ctl + fieldLen ctl ↔ i - fieldPos ctl < fieldLen ctl := by omega
    by_cases h : i - fieldPos ctl < fieldLen ctl <;> simp [h1, h2, h]
  · simp [h1]

/-- Settles O3: the counts and the fields are those of the model's functions, bit by bit. -/
theorem bitInstructionResults : Obligations.BitInstructionResults := by
  intro s d a b w sg o x y hx
  refine ⟨fun h => ?_, fun h => ?_, fun h => ?_, fun hy => ⟨fun h => ?_, fun h ho => ?_⟩⟩
  · refine (ccLane_readX h hx _).trans ?_
    rw [ccLane_writeX h, popCount_eq_countP]
    rfl
  · obtain ⟨hle, hzero, hone⟩ := leadZeros_spec (aluW w) x
    exact ⟨_, hle, hzero, hone, (ccLane_readX h hx _).trans (ccLane_writeX h _ _)⟩
  · obtain ⟨hle, hzero, hone⟩ := trailZeros_spec (aluW w) x
    exact ⟨_, hle, hzero, hone, (ccLane_readX h hx _).trans (ccLane_writeX h _ _)⟩
  · exact ⟨_, getLsbD_extField sg x y, (ccLane_readX h hx _).trans ((ccLane_readX h hy _).trans (ccLane_writeX h _ _))⟩
  · exact ⟨_, getLsbD_insField o x y,
      (ccLane_readX h ho _).trans ((ccLane_readX h hx _).trans ((ccLane_readX h hy _).trans (ccLane_writeX h _ _)))⟩

end Sys2Proof.Machine
end

section
/-! The compares and the predicate instructions of the control core (R147, R148). -/

namespace Sys2Proof.Machine

open Sys2Proof.Claim

/-! ### Conditions -/

/-- A condition on the low n bits of two words (R147). -/
theorem condHolds_eq_holds (cnd : Cond) (n : Nat) (x y : Word) : condHolds cnd n x.toNat y.toNat = holds cnd (x.setWidth n) (y.setWidth n) := by
  simp only [condHolds, ← BitVec.toNat_setWidth, sext_eq_toInt, BitVec.ofNat_toNat, BitVec.setWidth_eq]
  generalize x.setWidth n = a, y.setWidth n = b
  cases cnd with
  | eq => exact Bool.eq_iff_iff.mpr (by simp [holds, BitVec.toNat_inj])
  | ne => exact Bool.eq_iff_iff.mpr (by simp [holds, BitVec.toNat_inj])
  | lt => rfl
  | ge => exact Bool.eq_iff_iff.mpr (by simp [holds, BitVec.slt])
  | ltu => rfl
  | geu => exact Bool.eq_iff_iff.mpr (by simp [holds, BitVec.ult])

theorem combine_eq_combined (m : Comb) (old c : Bool) : combine m old c = combined m old c := rfl

theorem condHolds_aluW (cnd : Cond) (w : Bool) (x y : Word) :
    condHolds cnd (aluW w) x.toNat y.toNat = if w then holds cnd (x.setWidth 32) (y.setWidth 32) else holds cnd x y := by
  rw [condHolds_eq_holds]
  cases w with
  | true => rfl
  | false => simp [aluW]

theorem cmpiImm_eq (cnd : Cond) (e : BitVec 11) : cmpiImm cnd e = if cnd = .ltu ∨ cnd = .geu then e.setWidth 64 else e.signExtend 64 := by
  cases cnd <;> rfl

/-! ### The predicates as a word -/

/-- The sum of the powers of two whose flags are set, as `pget` forms it. -/
def flagSum (f : Nat → Bool) (n : Nat) : Nat := ((List.range n).map (fun k => (f k).toNat * 2 ^ k)).sum

theorem flagSum_succ (f : Nat → Bool) (n : Nat) : flagSum f (n + 1) = 2 ^ n * (f n).toNat + flagSum f n := by
  rw [flagSum, List.range_succ, List.map_append, List.sum_append, List.map_singleton, List.sum_singleton, Nat.add_comm, Nat.mul_comm, flagSum]

theorem flagSum_lt (f : Nat → Bool) (n : Nat) : flagSum f n < 2 ^ n := by
  induction n with
  | zero => exact Nat.one_pos
  | succ n ih =>
    have hle : 2 ^ n * (f n).toNat ≤ 2 ^ n * 1 := Nat.mul_le_mul_left _ (Bool.toNat_le (f n))
    rw [flagSum_succ, Nat.pow_succ]
    omega

/-- Its bits are the flags. -/
theorem testBit_flagSum (f : Nat → Bool) (n i : Nat) : (flagSum f n).testBit i = (decide (i < n) && f i) := by
  induction n with
  | zero => simp [flagSum]
  | succ n ih =>
    rw [flagSum_succ, Nat.testBit_two_pow_mul_add _ (flagSum_lt f n), ih]
    obtain hi | rfl | hi := Nat.lt_trichotomy i n
    · simp [hi, Nat.lt_succ_of_lt hi]
    · cases f i <;> simp
    · have hb : (f n).toNat < 2 ^ (i - n) := lt_of_le_of_lt (Bool.toNat_le (f n)) (Nat.one_lt_two_pow (by omega))
      rw [if_neg (by omega), Nat.testBit_lt_two_pow hb, decide_eq_false (by omega), Bool.false_and]

/-! ### `pset` -/

/-- One predicate of a mask written: bit k of the mask is for predicate k + 1 (R148). -/
def psetBit (mask : BitVec 7) (x : Word) (c : Core) (k : Nat) : Core :=
  if mask.getLsbD k then c.wrP (BitVec.ofNat 3 (k + 1)) (x.getLsbD (k + 1)) else c

/-- The write of a predicate changes nothing but the predicates. -/
theorem wrP_frame (c : Core) (p : PReg) (v : Bool) : { c.wrP p v with p := c.p } = c := by
  unfold Core.wrP; split <;> rfl

theorem psetBit_frame (mask : BitVec 7) (x : Word) (c : Core) (k : Nat) : { psetBit mask x c k with p := c.p } = c := by
  unfold psetBit
  split
  · exact wrP_frame _ _ _
  · rfl

/-- `pset` changes nothing but the predicates. -/
theorem foldl_psetBit_frame (mask : BitVec 7) (x : Word) (l : List Nat) (c : Core) : { l.foldl (psetBit mask x) c with p := c.p } = c := by
  induction l generalizing c with
  | nil => rfl
  | cons k l ih =>
    calc { l.foldl (psetBit mask x) (psetBit mask x c k) with p := c.p }
        = { { l.foldl (psetBit mask x) (psetBit mask x c k) with p := (psetBit mask x c k).p } with p := c.p } := rfl
      _ = { psetBit mask x c k with p := c.p } := by rw [ih]
      _ = c := psetBit_frame _ _ _ _

/-- What a predicate reads as after one bit of the mask. -/
theorem rdP_psetBit (mask : BitVec 7) (x : Word) (c : Core) {k : Nat} (hk : k < 7) (q : PReg) :
    (psetBit mask x c k).rdP q = if q.toNat = k + 1 ∧ mask.getLsbD k = true then x.getLsbD q.toNat else c.rdP q := by
  have hm : (BitVec.ofNat 3 (k + 1)).toNat = k + 1 := Nat.mod_eq_of_lt (by omega)
  have hq : q = BitVec.ofNat 3 (k + 1) ↔ q.toNat = k + 1 := by rw [← BitVec.toNat_inj, hm]
  have h0 : BitVec.ofNat 3 (k + 1) ≠ 0 := fun h => by simp [h] at hm
  unfold psetBit
  split
  next hb =>
    rw [Core.rdP_wrP]
    simp only [hq, hb, ne_eq, h0, not_false_eq_true, and_true]
    split
    next h => rw [h]
    next => rfl
  next hb => rw [if_neg (fun h => hb h.2)]

/-- What a predicate reads as after the bits of the mask in a list. -/
theorem rdP_foldl_psetBit (mask : BitVec 7) (x : Word) (l : List Nat) (hl : ∀ k ∈ l, k < 7) (c : Core) (q : PReg) :
    (l.foldl (psetBit mask x) c).rdP q =
      if ∃ k ∈ l, q.toNat = k + 1 ∧ mask.getLsbD k = true then x.getLsbD q.toNat else c.rdP q := by
  induction l generalizing c with
  | nil => simp
  | cons k l ih =>
    rw [List.foldl_cons, ih (fun j hj => hl j (List.mem_cons_of_mem _ hj)), rdP_psetBit _ _ _ (hl k List.mem_cons_self)]
    simp only [List.mem_cons, exists_eq_or_imp]
    by_cases hr : ∃ j ∈ l, q.toNat = j + 1 ∧ mask.getLsbD j = true
    · simp only [hr, or_true, if_true]
    · simp only [hr, or_false, if_false]

/-- The predicates that `pset` writes: p0 never, another where its bit of the mask is set. -/
theorem exists_pset_iff (mask : BitVec 7) (q : PReg) :
    (∃ k ∈ List.range 7, q.toNat = k + 1 ∧ mask.getLsbD k = true) ↔ q ≠ 0 ∧ mask.getLsbD (q.toNat - 1) = true := by
  have hq : q = 0 ↔ q.toNat = 0 := by rw [← BitVec.toNat_inj]; rfl
  have hlt : q.toNat < 8 := q.isLt
  constructor
  · rintro ⟨k, -, h, hm⟩
    exact ⟨by rw [Ne, hq]; omega, by rwa [h]⟩
  · rintro ⟨h0, hm⟩
    rw [Ne, hq] at h0
    exact ⟨q.toNat - 1, List.mem_range.mpr (by omega), by omega, hm⟩

/-! ### The lanes -/

/-- Settles O4: conditions, the word of the predicates, and `pset` predicate by predicate. -/
theorem predicateResults : Obligations.PredicateResults := by
  intro s pd pa pb d a b m w neg cnd e lut mask x y
  refine ⟨fun h hx hy => ?_, fun h hx => ?_, fun h => ccLane_modCore h _, fun h => ?_, fun h => ?_, fun h hx => ?_⟩
  · refine (ccLane_readX h hx _).trans ((ccLane_readX h hy _).trans ?_)
    rw [ccLane_modCore h, condHolds_aluW, combine_eq_combined]
  · refine (ccLane_readX h hx _).trans ?_
    rw [ccLane_modCore h, condHolds_eq_holds, cmpiImm_eq, BitVec.setWidth_eq, BitVec.setWidth_eq]
  · exact ccLane_modCore h _
  · refine ⟨BitVec.ofNat 64 (flagSum (fun k => (s.core s.cur).rdP (BitVec.ofNat 3 k)) 8), fun k hk => ?_,
      (ccLane_core h _).trans (ccLane_writeX h _ _)⟩
    rw [BitVec.getLsbD_ofNat, testBit_flagSum, decide_eq_true hk, Bool.true_and]
  · refine ⟨(List.range 7).foldl (psetBit mask x) (s.core s.cur), fun q => ?_, foldl_psetBit_frame _ _ _ _,
      (ccLane_readX h hx _).trans (ccLane_modCore h _)⟩
    rw [rdP_foldl_psetBit _ _ _ (fun k => List.mem_range.mp)]
    simp only [exists_pset_iff]

end Sys2Proof.Machine
end

section
/-! The control-core lanes without an arithmetic result: loop counters, joins, fences, breaks, the exit (R75, R151, R161, R162, R165, R166). -/

namespace Sys2Proof.Machine

open Sys2Proof.Claim

/-! ### What the bodies come to -/

/-- A lane behind a full fence waits for the held writes that precede it (R151, Table 12.7). -/
theorem ccLane_awaitsFence {s : State} (m : M Unit) (hs : s.cmd.spec = .none) (hf : (s.core s.cur).awaitsFence = true) :
    ccLane s m = .next { s.updCore s.cur (fun c => c.setWait s.slot s.now ⟨9, 0, 0, 1, 0⟩) with stalled := true } := by
  simp [ccLane, ccReady, hs, hf, settle]

/-- Where no write awaits its turn and there is no checkpoint domain, a release with no write of its own changes nothing (R130). -/
theorem run_sealOwn_nil {s : State} (link : Trap) (hd : (s.core s.cur).behindDue s.slot = false)
    (hr : (s.getPart (s.corePart s.cur)).ck.regions = []) : (sealOwn [] link).run s = .ok ((), s) := by
  simp only [sealOwn, awaitDue, StateT.run_bind, M.run_get, Except.bind_ok', hd, Bool.false_eq_true, if_false, M.run_pure, run_partNo, hr, if_true, M.run_modify]
  rfl

/-- With no loop active there is none to abandon (R160). -/
theorem run_abandonLoops_nil {s : State} (p : Loop → Bool) (hl : (s.core s.cur).loops = []) : (abandonLoops p).run s = .ok ((), s) := by
  simp only [abandonLoops, StateT.run_bind, run_core, Except.bind_ok', hl, List.filter_nil, List.map_nil, if_true, M.run_pure]

/-! ### Fences (R151) -/

/-- A fence that is not full, and no release at recovery scope, has nothing to order. -/
theorem execCfence_plain {s : State} {k : FenceKind} {sc : Scope} (h : Cc (.cfence k sc) s) (hk : k ≠ .full) (hsc : sc ≠ .rc ∨ k = .acq) :
    execCfence k sc s = .next (ccDone s (s.core s.cur)) := by
  have hn : ¬(sc = .rc ∧ k ≠ .acq) := by tauto
  simp only [execCfence, hk, false_and, if_false, hn]
  exact ccLane_kept h rfl

/-- One that is a release at recovery scope marks the next write. -/
theorem execCfence_release {s : State} {k : FenceKind} {sc : Scope} (h : Cc (.cfence k sc) s) (hk : k ≠ .full) (hsc : sc = .rc) (ha : k ≠ .acq) :
    execCfence k sc s = .next (ccDone s { s.core s.cur with rcNext := true }) := by
  simp only [execCfence, hk, false_and, if_false, hsc, true_and, ne_eq, ha, not_false_eq_true, if_true]
  exact ccLane_modCore h _

/-- A full one holds the next lane. -/
theorem execCfence_full {s : State} {k : FenceKind} {sc : Scope} (h : Cc (.cfence k sc) s) (hk : k = .full) (hsc : sc ≠ .rc) :
    execCfence k sc s = .next (ccDone s { s.core s.cur with fence := true }) := by
  simp only [execCfence, hk, hsc, and_false, false_and, if_false, if_true]
  exact ccLane_modCore h _

/-- A full one that is a release at recovery scope does both, where there is no domain to seal. -/
theorem execCfence_full_release {s : State} {k : FenceKind} {sc : Scope} (h : Cc (.cfence k sc) s) (hk : k = .full) (hsc : sc = .rc)
    (hd : (s.core s.cur).behindDue 0 = false) (hr : (s.getPart (s.corePart s.cur)).ck.regions = []) :
    execCfence k sc s = .next (ccDone s { s.core s.cur with rcNext := true, fence := true }) := by
  subst hk hsc
  simp only [execCfence, and_self, if_true, ne_eq, reduceCtorEq, not_false_eq_true]
  rw [ccLane_bind_kept h (run_sealOwn_nil _ (by rwa [slot_of_cc h]) hr)]
  exact ccLane_eq_ccDone h (by simp only [StateT.run_bind, run_modCore, Except.bind_ok', State.updCore_cur, State.updCore_updCore]; rfl)

/-! ### The lanes -/

/-- Settles O5: each lane's body either leaves its core or changes it once, and a full fence makes the next lane wait. -/
theorem otherControlLanes : Obligations.OtherControlLanes := by
  intro s d a n mask code k sc st x
  refine ⟨fun h => ?_, fun h hx hl => ?_, fun h => ccLane_kept h rfl, fun h => ccLane_kept h rfl, execCfence_plain, execCfence_release,
    execCfence_full, execCfence_full_release, fun _ hs hf hh => ?_, fun h hb => ?_, fun h hb => ?_, fun h hl => ?_⟩
  · exact (ccLane_core h _).trans (ccLane_writeX h _ _)
  · have hn : (s.core s.cur).loops.any (fun l => l.lc == n) = false := List.any_eq_false.mpr (fun l hm => by simpa using hl l hm)
    refine (ccLane_readX h hx _).trans ((ccLane_core h _).trans ?_)
    simp only [hn, Bool.false_eq_true, if_false]
    exact ccLane_modCore h _
  · have hw : (s.core s.cur).awaitsFence = true := by
      obtain ⟨w, hw, hslot⟩ := hh
      rw [Core.awaitsFence, hf, Bool.true_and, List.any_eq_true]
      exact ⟨w, hw, by simp [hslot]⟩
    refine ⟨_, ccLane_awaitsFence _ hs hw, rfl, ?_⟩
    simp only [State.core_stalled, State.core_updCore_self, Core.queue, Core.setWait_qs]
  · refine (ccLane_modCore h _).trans ?_
    simp only [hb, Bool.false_eq_true, if_false]
  · refine (ccLane_modCore h _).trans ?_
    simp only [hb, if_true]
  · exact (ccLane_bind_kept h (run_abandonLoops_nil _ hl)).trans (ccLane_modCore h _)

end Sys2Proof.Machine
end

section
/-! The vector moves (R278): `vmov td, ta` hands on TA's table of rows, and writing a tile brings MXINT6 rows to the form in which bits 1,023:1,020
are zero (R20). A table that lists a row twice then reads otherwise than before, since the entry that a read finds first may go. -/

namespace Sys2Proof.Machine

open Sys2Proof.Claim

/-! ### A table that lists a row twice -/

/-- A tile of MXINT6 codes with these rows, clean. -/
def codesOf (full : Bool) (rows : AMap Row) : Tile := ⟨full, .mx6, rows, []⟩
/-- A table that lists row 0 twice: first with bit 1,020 alone, which as MXINT6 codes is a row of zeros (R20), then with 1. -/
def twiceListed : AMap Row := [(0, BitVec.twoPow 1024 1020), (0, 1)]

/-- A read finds the first entry, whose one bit it drops. -/
theorem row_twiceListed : (codesOf true twiceListed).row 0 = 0 := by decide +kernel

/-- The form that is written does not list a row of zeros, and keeps the second entry. -/
theorem packed_twiceListed : (codesOf false twiceListed).packed = codesOf false [(0, 1)] := by decide +kernel

/-- That entry is then the one that a read finds. -/
theorem row_codesOf_one : (codesOf true [(0, 1)]).row 0 = 1 := by decide +kernel

/-! ### `vmov` of such a tile -/

/-- `vmov`, tile 1 consumed and tile 2 produced. -/
def vmovOneToTwo : Instr := .vmov Tok.none ⟨2, .produce⟩ ⟨1, .consume⟩

/-- It is in hand on a running core, alone in its queue; tile 1 is full of MXINT6 codes with these rows, every other tile is empty. -/
def vmovState (rows : AMap Row) : State :=
  let m : Cmd := { Cmd.nil with instr := vmovOneToTwo }
  { State.reset with
    slot := 3
    cmd := m
    cores := [(0, ({ Core.reset with mode := .running }.setQueue 3 [.cmd m]).setTile 1 (codesOf true rows))] }

/-- The lane may start. -/
theorem lane_vmovState (rows : AMap Row) : Lane vmovOneToTwo (vmovState rows) 3 (vops Tok.none [(⟨1, .consume⟩, 56)] ⟨2, .produce⟩) := by
  refine ⟨rfl, rfl, rfl, rfl, rfl, rfl, ⟨rfl, rfl⟩, rfl, fun h => absurd h (by decide), rfl, rfl, rfl, fun _ h => absurd h List.not_mem_nil, ?_, ?_⟩
  · intro p hp _
    rw [List.mem_singleton.mp hp]
    rfl
  · intro d hd _
    rw [List.mem_singleton.mp hd]
    exact .inl rfl

/-- It completes, and tile 2 holds the form of those rows that is written. -/
theorem exec_vmovState (rows : AMap Row) :
    ∃ t, exec vmovOneToTwo (vmovState rows) = .next t ∧ (t.core 0).tile 2 = { (codesOf false rows).packed with full := true } :=
  ⟨_, rfl, rfl⟩

/-- Refutes O35: the claim on `vmov` speaks of every state, and so of a source tile whose table lists row 0 twice, first with bit 1,020 alone. Row 0
of TA reads 0, and row 0 of TD reads 1, since TD no longer lists the first entry. The claim lacks the premise that the keys of TA's table rise
(the canonical form of Machine/Maps). -/
theorem not_vectorMoveResultsAndBanks : ¬ Obligations.VectorMoveResultsAndBanks := by
  rintro ⟨hmoves, -⟩
  obtain ⟨-, hvmov, -⟩ := hmoves (vmovState twiceListed) Tok.none ⟨2, .produce⟩ ⟨1, .consume⟩ ⟨0, .plain⟩ ⟨0, .plain⟩ (.scalar 0) 0 0 .raw false 0 0 .bits
  obtain ⟨t, ht, -, -, -, -, -, -, -, ⟨hrows, -, -⟩, -⟩ := hvmov (lane_vmovState _)
  obtain ⟨u, hu, htile⟩ := exec_vmovState twiceListed
  obtain rfl : u = t := Host.Outcome.next.inj (hu.symm.trans ht)
  have hsource : ((u.core 0).tile 2).row 0 = 0 := (hrows 0).trans row_twiceListed
  have hwritten : ((u.core 0).tile 2).row 0 = 1 := by
    rw [htile, packed_twiceListed]
    exact row_codesOf_one
  exact absurd (hwritten.symm.trans hsource) (by decide +kernel)

end Sys2Proof.Machine
end
